-- ==== Sys2Proof/Word.lean ====
section
/-! DEFINITION. The words of the C1608: bytes of the control streams, 24-bit samples, 18-bit
coefficient components, 512-bit frames; complex band values and taps; and the numbers that name
beams, references, pairs, slots, sets and ways (spec 0.5, 0.6). -/

namespace Sys2Proof

/-- A byte of a control byte stream (spec 1.6). -/
abbrev Byte := BitVec 8

/-- A sample: a 24-bit two's complement integer (spec 0.6, R2). -/
abbrev Sample := BitVec 24

/-- One component of a coefficient: an 18-bit two's complement integer, −131,072 to 131,071
(spec 0.6, R52, R195). -/
abbrev Coef := BitVec 18

/-- The 512 bit periods of a frame; bit period 0 is the most significant bit (R1, R191). -/
abbrev FrameBits := BitVec 512

/-- A beam, 0 to 15. -/
abbrev BeamId := Fin 16

/-- A reference, 0 to 7. -/
abbrev RefId := Fin 8

/-- A pair index p = 8b + r, 0 to 127. -/
abbrev PairId := Fin 128

/-- A slot number, 0 to 127. -/
abbrev SlotId := Fin 128

/-- A set of the snapshot store, 0 to 127. -/
abbrev SetId := Fin 128

/-- A way of a set, 0 or 1. -/
abbrev WayId := Fin 2

/-- A complex band value; each component is an integer (R40, R45). -/
structure Cx where
  re : Int
  im : Int
  deriving DecidableEq, Repr

/-- A complex tap: one coefficient (R52). -/
structure Tap where
  re : Coef
  im : Coef
  deriving DecidableEq, Repr

/-- The band value (0, 0). -/
def czero : Cx := ⟨0, 0⟩

/-- The tap (0, 0). -/
def tapZero : Tap := ⟨0, 0⟩

/-- The band values of bands 0 to 31 of one channel for one block (R40). -/
abbrev Bands := Vector Cx 32

/-- Thirty-two band values of zero. -/
def zeroBands : Bands := Vector.replicate 32 czero

end Sys2Proof
end

