-- ==== Sys2Proof/Syntax.lean ====
section
/-! DEFINITION. The commands of the C1608: one constructor for every row of spec/opcode_table.json.
A command is something that comes to the part: a frame on a link, a pin, a message, or one of the
part's own events at a frame or at a block boundary. The host commands have no operand here: what
they carry stands in the message at the head of the command queue, from where the Command Unit takes
it (R160, R162). -/

namespace Sys2Proof

/-- The two links (chapter 1). -/
inductive Link
  | array
  | codec
  deriving DecidableEq, Repr

/-- A whole message of a control byte stream, without its length and check bytes (spec 1.6). -/
structure Msg where
  kind : Byte
  payload : List Byte
  deriving DecidableEq, Repr

/-- The events of the blocks at one block boundary whose order the spec leaves open
(R26, R90, R94, R101, R110, R136, R140, R146, R151, R163, R164, R173, R183). -/
inductive BoundaryEvent
  /-- The Reference Tracker hands the activity states to the Pair Allocator (R25, R28, R101). -/
  | activity
  /-- The Playback Path reports the clamps of the block (R19). -/
  | clipping
  /-- The counting of the Adaptation Controller's stage 6 (R78, R87 to R92). -/
  | counting
  /-- The cold resets that the counting calls for (R91, R93). -/
  | resets
  /-- The degrade watch of stage 6 (R96). -/
  | degrade
  /-- The Residual Suppressor's work for the block (R149 to R154). -/
  | suppress
  /-- The place of the Adaptation Controller's stages 1 to 5 against `command` (R26): it decides
  only what activity states those stages see. -/
  | view
  /-- The Beam Router applies the steer queue (R34 to R36). -/
  | steer
  /-- The store port completes the transfer granted at an earlier boundary (R127). -/
  | complete
  /-- The store port grants a transfer (R128). -/
  | grant
  /-- The Command Unit takes and executes the head message (R162). -/
  | command
  /-- Listed after `command`: the place at which the unit appends the reply of the command taken, so that
  notices of other blocks may stand before it (R163, R183). Not listed there, the unit appends its reply
  as it takes the command. -/
  | reply
  deriving DecidableEq, Repr

/-- One constructor for each row of spec/opcode_table.json. -/
inductive Instr
  /-- POWER_ON_RESET: RESETN is taken low (R189). -/
  | powerOnReset
  /-- RESETN_RELEASE: RESETN is released (R189). -/
  | resetnRelease
  /-- INBOUND_FRAME: the 512 bits of the next inbound frame of a link (R6, R191). -/
  | inboundFrame (link : Link) (bits : FrameBits)
  /-- LOCK_ACQUIRED: the inbound frame that completes the good-marker count (R5). -/
  | lockAcquired (link : Link) (bits : FrameBits)
  /-- LOSS_OF_LOCK: the inbound frame that is the third consecutive wrong marker (R6). -/
  | lossOfLock (link : Link) (bits : FrameBits)
  /-- MESSAGE_TRUNCATION: the sixteenth idle frame reaches a message in assembly (R13). -/
  | messageTruncation (link : Link)
  /-- RESYNC_END: the sixteenth idle frame reaches an assembly in RESYNC (R14). -/
  | resyncEnd (link : Link)
  /-- COMMAND_DELIVERY: a whole Codec Link message is delivered (R160). -/
  | commandDelivery (kind : Byte) (payload : List Byte)
  /-- STEER: a whole Array Link message is delivered (R32). -/
  | steer (kind : Byte) (payload : List Byte)
  /-- OUTBOUND_FRAME: the next outbound frame of a link is sent (R17). `heldNow`: a held reply takes
  a place that this frame frees in this same step; otherwise it is left to HELD_REPLY_APPEND, so
  that a notice may take the place first (R163). -/
  | outboundFrame (link : Link) (heldNow : Bool)
  /-- HELD_REPLY_APPEND: a held reply is appended (R163). -/
  | heldReplyAppend
  /-- BLOCK_BOUNDARY: the work of one block boundary (R60, R78), with the boundary's events taken in
  the order given. The blocks' own work (`activity` to `suppress`) that the list does not name is
  taken after it; `steer`, `complete`, `grant` and `command` are taken here only where the list
  names them, and are otherwise given by their own rows. It comes once for each block, when the inbound
  slots of the block's last frame have been received on both links (R1). -/
  | blockBoundary (order : List BoundaryEvent)
  /-- LINGER_EXPIRY of a reference (R25). -/
  | lingerExpiry (r : RefId)
  /-- NOISE_FLOOR_RISE of a beam (R50). -/
  | noiseFloorRise (b : BeamId)
  /-- HANGOVER_END of a beam (R81). -/
  | hangoverEnd (b : BeamId)
  /-- WARMUP_END of a slot (R87). -/
  | warmupEnd (sl : SlotId)
  /-- TRACKING_ENTRY of a slot (R88). -/
  | trackingEntry (sl : SlotId)
  /-- CLAMP_RUN_RESET of a slot (R91). -/
  | clampRunReset (sl : SlotId)
  /-- DIVERGENCE_RESET of a beam (R93). -/
  | divergenceReset (b : BeamId)
  /-- DEGRADE_TIME_EXPIRY of a beam (R96). -/
  | degradeTimeExpiry (b : BeamId)
  /-- WAIT_LIST_ASSIGNMENT of a slot that has become FREE (R105). -/
  | waitListAssignment (sl : SlotId)
  /-- DRAINING_SLOT_CAPTURE (R109). -/
  | drainingSlotCapture
  /-- STEER_APPLICATION (R34, R35). -/
  | steerApplication
  /-- PORT_GRANT (R128). -/
  | portGrant
  /-- FILL_COMPLETION (R131). -/
  | fillCompletion
  /-- STORE_DISABLE: the fill completion that raises the error count to 4 (R138). -/
  | storeDisable
  /-- CAPTURE_COMPLETION (R132). -/
  | captureCompletion
  /-- ENTRY_COMMIT_COMPLETION (R143). -/
  | entryCommitCompletion
  /-- ENTRY_READ_COMPLETION (R144). -/
  | entryReadCompletion
  /-- STATUS READ is taken (R188). -/
  | statusRead
  /-- RUN is taken (R170). -/
  | run
  /-- STOP is taken (R171). -/
  | stop
  /-- SET TAIL is taken (R172). -/
  | setTail
  /-- SOFT RESET is taken (R173). -/
  | softReset
  /-- TABLE WRITE of table 1 is taken (R30). -/
  | beamTableWrite
  /-- TABLE WRITE of table 2 is taken (R21). -/
  | referenceTableWrite
  /-- TABLE WRITE of table 3 is taken (R38). -/
  | pairmaskTableWrite
  /-- TABLE WRITE of table 4 is taken (R66). -/
  | stepTableWrite
  /-- TABLE WRITE of table 5 is taken (R178). -/
  | tuningTableWrite
  /-- TABLE WRITE of table 6 is taken (R97). -/
  | thresholdTableWrite
  /-- TABLE WRITE of table 7 is taken (R20). -/
  | meterTableWrite
  /-- TABLE WRITE of table 8 is taken (R158). -/
  | monitorTableWrite
  /-- TABLE READ is taken (R177). -/
  | tableRead
  /-- EVENT READ is taken (R185). -/
  | eventRead
  /-- EVENT CLEAR is taken (R185). -/
  | eventClear
  /-- EVENT SETUP is taken (R186). -/
  | eventSetup
  /-- HEALTH READ is taken (R187). -/
  | healthRead
  /-- SLOT READ is taken (R187). -/
  | slotRead
  /-- FREEZE is taken (R98). -/
  | freeze
  /-- STORE FLUSH is taken (R134). -/
  | storeFlush
  /-- STORE ENABLE is taken (R140). -/
  | storeEnable
  /-- STORE INVALIDATE is taken (R135). -/
  | storeInvalidate
  /-- ENTRY READ is taken (R144). -/
  | entryRead
  /-- ENTRY LOAD is taken (R141). -/
  | entryLoad
  /-- ENTRY COMMIT is taken (R142). -/
  | entryCommit
  /-- A command of a kind outside the catalogue is taken (R167). -/
  | unknownCommand
  /-- ENTRY_DISTURBANCE: a soft error leaves these values in stored cells of an entry's head, and
  this quality and this check (R121). -/
  | entryDisturbance (set : SetId) (way : WayId) (cells : List (Fin 1536 × Tap)) (quality : Byte)
      (check : BitVec 16)
  deriving DecidableEq, Repr

end Sys2Proof
end

