-- ==== Sys2Proof/Machine/State.lean ====
section
/-! DEFINITION. The state of the C1608: every record, table, queue, counter, flag, memory and pin the
manual gives the part, block by block, and its power-on value (R189). Plain data throughout. Sparse
memories list only the cells that differ from what an unlisted cell reads as: a zero tap. -/

namespace Sys2Proof.Machine

/-! ### The Link Ports (chapter 1) -/

/-- The lock state of a receiver (R5, R6). -/
inductive LockState
  | seeking
  | locked
  deriving DecidableEq, Repr

/-- A link's receiver (1.3): its lock state, good-marker count and miss count. -/
structure Receiver where
  lock : LockState
  good : Nat
  miss : Nat
  deriving DecidableEq, Repr

/-- The state of a message assembly (1.6). -/
inductive AsmState
  | awaitKind
  | awaitLength
  | inPayload
  | awaitCheck
  | resync
  deriving DecidableEq, Repr

/-- A message assembly (1.6): its state, the bytes received so far, their 8-bit sum, the payload bytes
still expected, and the idle run count. -/
structure Assembly where
  st : AsmState
  bytes : List Byte
  sum : Byte
  expected : Nat
  idle : Nat
  deriving DecidableEq, Repr

/-- The message in transmission and the position of the next byte to send (1.9). -/
structure TxRecord where
  msg : Msg
  pos : Nat
  deriving DecidableEq, Repr

/-- The frame count (R1): frames started, and the frames handled on each direction. A direction's
count is the number of its next frame. -/
structure Frames where
  started : Nat
  inArray : Nat
  inCodec : Nat
  outArray : Nat
  outCodec : Nat
  deriving DecidableEq, Repr

/-- What the part drives on a bit clock pin (R1, R189): low, or the running clock. -/
inductive ClockPin
  | low
  | running
  deriving DecidableEq, Repr

/-- The two Link Ports and the pins. -/
structure Ports where
  frames : Frames
  arrayRx : Receiver
  codecRx : Receiver
  arrayAsm : Assembly
  codecAsm : Assembly
  /-- The steer error count, 0 to 65535 (R16). -/
  steerErrors : Nat
  /-- The transmit record (R17). -/
  transmit : Option TxRecord
  /-- The Array Link control field of a frame 48n + 47, which stands after the boundary of block n: a
  byte, or an idle frame. It reaches the assembly when the boundary is past (R1, R191; log 8). -/
  lateControl : List (Option Byte)
  /-- Messages that the Array Link has delivered whole in a frame 48n + 47, which reach the Beam Router
  after boundary n (R191; log 8). -/
  lateSteers : List Msg
  /-- Commands completed in a frame 48n + 47, which join the command queue after boundary n (R160). -/
  lateCommands : List Msg
  /-- The latest outbound frame of the Array Link, as the pin ADO sends it. -/
  ado : FrameBits
  /-- The latest outbound frame of the Codec Link, as the pin CDO sends it. -/
  cdo : FrameBits
  /-- The pin ABCK. -/
  abck : ClockPin
  /-- The pin CBCK. -/
  cbck : ClockPin
  deriving DecidableEq, Repr

/-! ### The Playback Path and the Reference Tracker (2.1 to 2.3) -/

/-- A limiter meter (R19). -/
structure Meter where
  ceiling : Nat
  clamps : Nat
  deriving DecidableEq, Repr

/-- The Playback Path. -/
structure Playback where
  meters : Vector Meter 4
  /-- A sample of the block in progress has been clamped (R19). -/
  clamped : Bool
  /-- The limited samples of the newest Codec Link inbound frames, newest first, on their way to the
  speaker feeds (R9). -/
  speaker : List (Vector Sample 8)
  deriving DecidableEq, Repr

/-- The mode of a reference (R21). -/
inductive RefMode
  | off
  | on
  | onShort
  deriving DecidableEq, Repr

/-- The activity state of a reference (R25). -/
inductive Activity
  | silent
  | active
  | linger
  deriving DecidableEq, Repr

/-- A reference record (2.2). Meter index 7 is `none`. -/
structure Reference where
  mode : RefMode
  meter : Option (Fin 4)
  delay : Nat
  activity : Activity
  linger : Nat
  level : Nat
  deriving DecidableEq, Repr

/-- The Reference Tracker: the records, and the delay lines, newest sample first, at most 3072 samples
each; a sample a line does not list reads as zero (R22). -/
structure Tracker where
  refs : Vector Reference 8
  lines : Vector (List Sample) 8
  deriving DecidableEq, Repr

/-! ### The Beam Router (2.4, 2.5) -/

/-- The mode of a beam (R30). -/
inductive BeamMode
  | cancel
  | bypass
  | mute
  deriving DecidableEq, Repr

/-- A beam record (2.4); tag 32 is unsteered. -/
structure Beam where
  mode : BeamMode
  suppress : Bool
  comfort : Bool
  frozen : Bool
  tag : Nat
  deriving DecidableEq, Repr

/-- A steering record (R33). -/
structure SteerRec where
  beam : BeamId
  tag : Nat
  deriving DecidableEq, Repr

/-- The Beam Router. -/
structure Router where
  beams : Vector Beam 16
  queue : List SteerRec
  deriving DecidableEq, Repr

/-! ### The Band Banks (chapter 3) -/

/-- The history of a synthesis bank: the band values of the newest boundary, and those of the
boundaries before it, newest first (R42). -/
structure SynthBank where
  current : Bands
  previous : List Bands
  deriving DecidableEq, Repr

/-- The histories of the 24 analysis banks (newest sample first) and the 18 synthesis banks. -/
structure Banks where
  beamHist : Vector (List Sample) 16
  refHist : Vector (List Sample) 8
  beamSynth : Vector SynthBank 16
  monSynth : Vector SynthBank 2
  deriving DecidableEq, Repr

/-! ### The Canceller Core (chapter 4) -/

/-- How a slot's coefficients came to be (R53). -/
inductive Origin
  | cold
  | carried
  | restored
  deriving DecidableEq, Repr

/-- The Core's numeric record of a slot (R53). -/
structure CoreSlot where
  ticket : Byte
  origin : Origin
  clamped : Bool
  deriving DecidableEq, Repr

/-- Memory of taps by address: addresses strictly rising, no zero tap listed. -/
abbrev TapMem := List (Nat × Tap)

/-- A head: taps 0 to 47 of bands 0 to 31 at the index 48 × band + tap (R71), as a memory of taps. -/
abbrev Head := TapMem

/-- The Canceller Core: the tail code; the coefficient memory, in which tap k of band j of slot s stands
at address 32 × (s × T + k) + j (R52); the reference histories, newest block first, at most 384 blocks
each, a block not listed being zero (R55); the window powers (R56); the slot records; the STEP table
(R66); and the last mic_lu of each beam (R49). -/
structure Canceller where
  tail : Fin 6
  mem : TapMem
  hist : Vector (List Bands) 8
  power : Vector (Vector Nat 32) 8
  slots : Vector CoreSlot 128
  step : Vector Byte 12
  micLu : Vector Nat 16
  deriving DecidableEq, Repr

/-! ### The Adaptation Controller (chapter 5) -/

/-- The double-talk state of a beam (5.4). -/
inductive Talk
  | idle
  | far
  | near
  | double
  | hangover
  deriving DecidableEq, Repr

/-- The phase of a slot (5.7). -/
inductive Phase
  | warmup
  | converging
  | tracking
  deriving DecidableEq, Repr

/-- The Controller's record of a beam (R77, R50). -/
structure CtlBeam where
  talk : Talk
  hangCtr : Nat
  erle : Int
  divCtr : Nat
  divCount : Nat
  degCtr : Nat
  degraded : Bool
  noise : Nat
  rise : Nat
  deriving DecidableEq, Repr

/-- The Controller's record of a slot (R77). -/
structure CtlSlot where
  phase : Phase
  counter : Nat
  run : Nat
  deriving DecidableEq, Repr

/-- The Adaptation Controller, with the THRESHOLD table (R95). -/
structure Controller where
  beams : Vector CtlBeam 16
  slots : Vector CtlSlot 128
  thresholds : Vector Byte 17
  deriving DecidableEq, Repr

/-! ### The Pair Allocator (chapter 6) -/

/-- The state of a slot (R102). -/
inductive SlotState
  | free
  | running (pair : PairId)
  | draining (pair : PairId) (tag : Nat) (quality : Nat)
  deriving DecidableEq, Repr

/-- An entry of the pairing table (R102). -/
inductive PairEntry
  | none
  | waiting
  | held (slot : SlotId)
  deriving DecidableEq, Repr

/-- The Pair Allocator, with the pair mask (R38): true is allowed. -/
structure Allocator where
  slots : Vector SlotState 128
  pairs : Vector PairEntry 128
  waiting : List PairId
  mask : Vector Bool 128
  deriving DecidableEq, Repr

/-! ### The Snapshot Store (chapter 7) -/

/-- An entry of the store (R119). -/
structure Entry where
  valid : Bool
  tag : Nat
  quality : Nat
  check : BitVec 16
  head : Head
  deriving DecidableEq, Repr

/-- A set: two ways and the LRU bit (R119). -/
structure StoreSet where
  ways : Vector Entry 2
  lru : WayId
  deriving DecidableEq, Repr

/-- A fill request (R123). `born` is the boundary at which it entered the queue (R127). -/
structure FillReq where
  slot : SlotId
  ticket : Byte
  set : SetId
  tag : Nat
  born : Nat
  deriving DecidableEq, Repr

/-- A capture record (R126). -/
structure CaptureRec where
  set : SetId
  tag : Nat
  quality : Nat
  head : Head
  born : Nat
  deriving DecidableEq, Repr

/-- What found a check failure (R122). -/
inductive FaultCause
  | fill
  | read
  deriving DecidableEq, Repr

/-- The first-error record (R122). -/
structure FirstError where
  set : SetId
  way : WayId
  tag : Nat
  cause : FaultCause
  deriving DecidableEq, Repr

/-- What a transfer of the store port carries (R127). A FILL holds the entry as it was read at the
grant (R129). -/
inductive Cargo
  | fill (req : FillReq) (entry : Entry)
  | capture (rec : CaptureRec)
  | commit (tag : Nat) (quality : Nat) (check : BitVec 16)
  | read (chunk : Nat)
  deriving DecidableEq, Repr

/-- The transfer record of a busy store port (R127). `granted` is the boundary of its grant. -/
structure Transfer where
  cargo : Cargo
  set : SetId
  way : WayId
  abandoned : Bool
  granted : Nat
  deriving DecidableEq, Repr

/-- What a waiting host access asks for (R142, R144). -/
inductive HostAccess
  | commit (set : SetId) (tag : Nat) (quality : Nat) (check : BitVec 16)
  | read (set : SetId) (way : WayId) (chunk : Nat)
  deriving DecidableEq, Repr

/-- The waiting host access (R145). -/
structure HostWait where
  access : HostAccess
  born : Nat
  deriving DecidableEq, Repr

/-- The Snapshot Store. -/
structure Store where
  sets : Vector StoreSet 128
  enabled : Bool
  errors : Nat
  firstError : Option FirstError
  fills : List FillReq
  captures : List CaptureRec
  port : Option Transfer
  host : Option HostWait
  deriving DecidableEq, Repr

/-! ### The Residual Suppressor and output assembly (chapter 8) -/

/-- The applied attenuations and the comfort-noise generators (R148). -/
structure Suppressor where
  att : Vector (Vector Nat 32) 16
  lfsr : Vector (BitVec 23) 16
  deriving DecidableEq, Repr

/-- The source of a cleaned-beam slot (R156). -/
inductive OutSource
  | zero
  | bypass
  | synthesis
  deriving DecidableEq, Repr

/-- The kind of a monitor record (R158). -/
inductive MonKind
  | none
  | beam
  | reference
  deriving DecidableEq, Repr

/-- A monitor tap record; the index and point bytes stand as written (R158, R192). -/
structure Monitor where
  kind : MonKind
  index : Byte
  point : Byte
  deriving DecidableEq, Repr

/-- What output assembly holds for the 48 frames of one block: each beam's source, the samples of the
synthesis banks, and for each monitor slot the beam whose cleaned-beam slot it repeats, if any. A
sample a list does not hold is zero. -/
structure OutBlock where
  index : Nat
  sources : Vector OutSource 16
  samples : Vector (List Sample) 16
  monitors : Vector (List Sample) 2
  repeats : Vector (Option BeamId) 2
  deriving DecidableEq, Repr

/-- Output assembly: the bypass lines, newest sample first (R156); the MONITOR table; the outputs of the
newest block computed and of the one before it; and for which of the newest blocks the Array Link was
LOCKED, newest first (R7, R156). -/
structure Output where
  bypass : Vector (List Sample) 16
  monitors : Vector Monitor 2
  current : OutBlock
  earlier : OutBlock
  lockHist : List Bool
  deriving DecidableEq, Repr

/-! ### The Command Unit (chapter 9) -/

/-- The operating state. -/
inductive OpState
  | config
  | running
  deriving DecidableEq, Repr

/-- The state of the Command Unit (9.2); a held reply stands in it. -/
inductive UnitState
  | idle
  | portWait
  | replyHeld (reply : Msg)
  deriving DecidableEq, Repr

/-- The Command Unit: its state, the operating state, the command and reply queues, the hold-off
condition, the TUNING table (R178), and the load area with its written set (R141). `turn`: the unit may
take a command at the block boundary at hand (R162). -/
structure Command where
  state : UnitState
  op : OpState
  queue : List Msg
  replies : List Msg
  hold : Bool
  tuning : Vector Nat 26
  loadTaps : Head
  loadWritten : BitVec 64
  turn : Bool
  deriving DecidableEq, Repr

/-! ### The Event Unit (chapter 10) -/

/-- The notice mode (R183). -/
inductive NoticeMode
  | none
  | errors
  | all
  deriving DecidableEq, Repr

/-- The Event Unit: status set, mask (a set bit is masked), notice mode and the detail sets; bit c − 1
stands for the source of code c (R181, R192). -/
structure Events where
  status : Byte
  mask : Byte
  mode : NoticeMode
  diverged : BitVec 16
  degraded : BitVec 16
  causes : Byte
  deriving DecidableEq, Repr

/-! ### The block boundary at hand -/

/-- A slot of the block (R57) with what stage 5 handed (R78) and its clamped flag (R65). -/
structure BlockSlot where
  slot : SlotId
  pair : PairId
  granted : Bool
  phase : Phase
  counter : Nat
  run : Nat
  clamped : Bool
  deriving DecidableEq, Repr

/-- What the blocks hand on about a beam for the block: the levels (R49), presence (R79, R80), the
double-talk state and the smoothed ERLE estimate (R81, R84), the frozen flag, the divergence and degrade
counters and the degraded flag before the boundary's events, and the band values D, Y, E and the suppressed
ones. -/
structure BlockBeam where
  mic : Nat
  echo : Nat
  res : Nat
  far : Bool
  near : Bool
  talk : Talk
  erle : Int
  frozen : Bool
  divCtr : Nat
  degCtr : Nat
  degraded : Bool
  micBands : Bands
  echoBands : Bands
  errBands : Bands
  outBands : Bands
  deriving DecidableEq, Repr

/-- The block boundary at hand: how many boundaries there have been, the settings in force before its
events, and what the blocks' work for its block handed on. `live` is false once a reset has discarded
that work (R173). The counters' rows read what the block handed on too, so that a setting written at the
boundary governs from the next one (R50, R97 to R99, R178). -/
structure Block where
  count : Nat
  live : Bool
  op : OpState
  tuning : Vector Nat 26
  step : Vector Byte 12
  thresholds : Vector Byte 17
  beams : Vector Beam 16
  refModes : Vector RefMode 8
  decided : Vector (Activity × Nat) 8
  slots : List BlockSlot
  work : Vector BlockBeam 16
  refBands : Vector Bands 8
  /-- Slots whose phase, or clamp run, another block's event has set at this boundary (R86). -/
  phaseSet : List SlotId
  runSet : List SlotId
  /-- Slots of the block whose clamp run has been completed at this boundary (R91). -/
  runDone : List SlotId
  /-- Slots that a clamp run or a divergence has reset at this boundary, and that no assignment has made cold
  since: each is reset once (R94). -/
  resets : List SlotId
  /-- Beams whose noise floor has risen at this boundary (R50). -/
  rose : List BeamId
  /-- Beams that have had a divergence reset at this boundary (R93). -/
  diverged : List BeamId
  /-- Slots made cold at this boundary (R125). -/
  cold : List SlotId
  /-- The counting of stage 6 has been done, and what it calls for (R91, R93). -/
  counted : Bool
  clampDone : List (SlotId × PairId)
  divDone : List BeamId
  /-- The report command taken at this boundary, whose reply carries the values that stand after every
  event of it (R177, R179). -/
  report : Option Msg
  /-- The reply of the command taken at this boundary, where it has still to be appended (R163). -/
  reply : Option Msg
  deriving DecidableEq, Repr

/-! ### The whole part -/

/-- The state of the C1608. `pending` is the model's queue of the commands that wait; `resetn` is the
level of the RESETN pin. -/
structure State where
  pending : List Instr
  resetn : Bool
  ports : Ports
  play : Playback
  tracker : Tracker
  router : Router
  banks : Banks
  core : Canceller
  ctl : Controller
  alloc : Allocator
  store : Store
  supp : Suppressor
  out : Output
  cmd : Command
  ev : Events
  blk : Block
  deriving DecidableEq, Repr

/-- Why the part could stop. The manual describes no fault that stops it; the one fault is the model's. -/
inductive Fault
  /-- Raised by COMMAND_DELIVERY and STEER whose operand is a message of more than 240 payload bytes:
  no link delivers one, since R14 discards it at its length byte. SAFE: the part cannot meet it. -/
  | messageTooLong
  deriving DecidableEq, Repr

/-- Why a command has no meaning in the model. -/
inductive Refusal
  /-- Raised by an arm of exec whose command has no meaning yet; no arm raises it. SAFE. -/
  | notModelled (mnemonic : String)
  deriving DecidableEq, Repr

/-! ### Power-on values (R189) -/

/-- A receiver at power-on (R5). -/
def Receiver.powerOn : Receiver := ⟨.seeking, 0, 0⟩

/-- A message assembly at power-on, after a soft reset and after loss of lock: no bytes, sum 0 and idle run 0
(R10). The count of payload bytes still expected, for which R10 and 1.6 give no value there, is 0 (DESIGN
CHOICE, log 17). -/
def Assembly.empty : Assembly := ⟨.awaitKind, [], 0, 0, 0⟩

/-- The Link Ports at frame 0 (R5, R10, R16, R18): no frame has been sent, and the clocks run (R1,
R189). -/
def Ports.powerOn : Ports :=
  ⟨⟨0, 0, 0, 0, 0⟩, Receiver.powerOn, Receiver.powerOn, Assembly.empty, Assembly.empty, 0, none, [],
    [], [], 0, 0, .running, .running⟩

/-- A limiter meter at power-on (R20). -/
def Meter.powerOn : Meter := ⟨8388607, 0⟩

/-- The Playback Path at power-on (R9, R20). -/
def Playback.powerOn : Playback := ⟨Vector.replicate 4 Meter.powerOn, false, []⟩

/-- A reference record at power-on (R21). -/
def Reference.powerOn : Reference := ⟨.on, none, 0, .silent, 0, 0⟩

/-- The Reference Tracker at power-on (R21, R22). -/
def Tracker.powerOn : Tracker := ⟨Vector.replicate 8 Reference.powerOn, Vector.replicate 8 []⟩

/-- A beam record at power-on (R30). -/
def Beam.powerOn : Beam := ⟨.cancel, true, true, false, 32⟩

/-- The Beam Router at power-on (R30, R37). -/
def Router.powerOn : Router := ⟨Vector.replicate 16 Beam.powerOn, []⟩

/-- A synthesis bank at power-on (R44). -/
def SynthBank.powerOn : SynthBank := ⟨zeroBands, []⟩

/-- The Band Banks at power-on (R44). -/
def Banks.powerOn : Banks :=
  ⟨Vector.replicate 16 [], Vector.replicate 8 [], Vector.replicate 16 SynthBank.powerOn,
    Vector.replicate 2 SynthBank.powerOn⟩

/-- The default STEP table (R66). -/
def stepDefaults : Vector Byte 12 := #v[192, 192, 160, 128, 128, 128, 96, 64, 32, 32, 24, 16]

/-- A slot's numeric record at power-on (R53). -/
def CoreSlot.powerOn : CoreSlot := ⟨0, .cold, false⟩

/-- The Canceller Core at power-on: tail code 4, 256 blocks (R52, R53, R55, R56, R66, R49, R116). -/
def Canceller.powerOn : Canceller :=
  ⟨4, [], Vector.replicate 8 [], Vector.replicate 8 (Vector.replicate 32 0),
    Vector.replicate 128 CoreSlot.powerOn, stepDefaults, Vector.replicate 16 0⟩

/-- The Controller's beam record at power-on (R77, R50). -/
def CtlBeam.powerOn : CtlBeam := ⟨.idle, 0, 0, 0, 0, 0, false, 160, 0⟩

/-- The Controller's slot record at power-on (R77). -/
def CtlSlot.powerOn : CtlSlot := ⟨.warmup, 0, 0⟩

/-- The Adaptation Controller at power-on (R77, R95). -/
def Controller.powerOn : Controller :=
  ⟨Vector.replicate 16 CtlBeam.powerOn, Vector.replicate 128 CtlSlot.powerOn,
    Vector.replicate 17 0⟩

/-- The Pair Allocator at power-on (R117, R38). -/
def Allocator.powerOn : Allocator :=
  ⟨Vector.replicate 128 .free, Vector.replicate 128 .none, [], Vector.replicate 128 true⟩

/-- An entry at power-on (R119). -/
def Entry.powerOn : Entry := ⟨false, 0, 0, 0, []⟩

/-- A set at power-on (R119). -/
def StoreSet.powerOn : StoreSet := ⟨Vector.replicate 2 Entry.powerOn, 0⟩

/-- The Snapshot Store at power-on (R146). -/
def Store.powerOn : Store :=
  ⟨Vector.replicate 128 StoreSet.powerOn, true, 0, none, [], [], none, none⟩

/-- The Residual Suppressor at power-on: beam b's generator holds b + 1 (R148, R154). -/
def Suppressor.powerOn : Suppressor :=
  ⟨Vector.replicate 16 (Vector.replicate 32 0), Vector.ofFn fun b => BitVec.ofNat 23 (b.val + 1)⟩

/-- A monitor record at power-on: NONE, index 0, MIC (R158). -/
def Monitor.powerOn : Monitor := ⟨.none, 0, 0⟩

/-- Outputs of zero for the frames of a block (R2, R44). -/
def OutBlock.silent (index : Nat) : OutBlock :=
  ⟨index, Vector.replicate 16 .zero, Vector.replicate 16 [], Vector.replicate 2 [],
    Vector.replicate 2 none⟩

/-- Output assembly at power-on (R2, R156, R158). -/
def Output.powerOn : Output :=
  ⟨Vector.replicate 16 [], Vector.replicate 2 Monitor.powerOn, OutBlock.silent 0, OutBlock.silent 0,
    []⟩

/-- The default TUNING table (R178). -/
def tuningDefaults : Vector Nat 26 :=
  #v[500, 120, 16, 24, 40, 60, 3, 48, 8, 200, 100, 8, 50, 20, 56, 1, 64, 32, 2, 24, 16, 8, 16, 0, 0,
    6]

/-- The Command Unit at power-on (R141, R160, R161, R165, R178). -/
def Command.powerOn : Command := ⟨.idle, .config, [], [], false, tuningDefaults, [], 0, false⟩

/-- The Event Unit at power-on (R181 to R184). -/
def Events.powerOn : Events := ⟨0, 0, .none, 0, 0, 0⟩

/-- Nothing handed on about a beam. -/
def BlockBeam.powerOn : BlockBeam :=
  ⟨0, 0, 0, false, false, .idle, 0, false, 0, 0, false, zeroBands, zeroBands, zeroBands, zeroBands⟩

/-- No block boundary yet, or one whose work a reset has discarded, with `count` boundaries taken. -/
def Block.discarded (count : Nat) : Block :=
  { count, live := false, op := .config, tuning := tuningDefaults, step := stepDefaults,
    thresholds := Vector.replicate 17 0, beams := Vector.replicate 16 Beam.powerOn,
    refModes := Vector.replicate 8 .on, decided := Vector.replicate 8 (.silent, 0), slots := [],
    work := Vector.replicate 16 BlockBeam.powerOn, refBands := Vector.replicate 8 zeroBands,
    phaseSet := [], runSet := [], runDone := [], resets := [], rose := [], diverged := [], cold := [],
    counted := true, clampDone := [], divDone := [],
    report := none, reply := none }

/-- The part at frame 0: every piece of state at its power-on value, RESETN released (R189). -/
def State.reset : State :=
  { pending := [], resetn := true, ports := Ports.powerOn, play := Playback.powerOn,
    tracker := Tracker.powerOn, router := Router.powerOn, banks := Banks.powerOn,
    core := Canceller.powerOn, ctl := Controller.powerOn, alloc := Allocator.powerOn,
    store := Store.powerOn, supp := Suppressor.powerOn, out := Output.powerOn,
    cmd := Command.powerOn, ev := Events.powerOn, blk := Block.discarded 0 }

end Sys2Proof.Machine
end

