-- ==== Sys2Proof/Machine/Arith.lean ====
section
/-! DEFINITION. The arithmetic of the band domain: rounding, saturation, energy, level, smoothing and
scaling (R45 to R48, R51), and the step of a comfort-noise generator (R154). -/

namespace Sys2Proof.Machine

/-- The quotient n / d rounded to the nearest integer, ties away from zero (R47). -/
def roundDiv (n : Int) (d : Nat) : Int :=
  if 0 ≤ n then (((2 * n.toNat + d) / (2 * d) : Nat) : Int)
  else -(((2 * (-n).toNat + d) / (2 * d) : Nat) : Int)

/-- Saturation of a value to a range (R47). -/
def saturate (lo hi x : Int) : Int := max lo (min hi x)

/-- Saturation to 24 bits (R40, R47). -/
def sat24 (x : Int) : Int := saturate (-8388608) 8388607 x

/-- Saturation to a coefficient's range (R64). -/
def satCoef (x : Int) : Int := saturate (-131072) 131071 x

/-- The band energy of a band value (R45). -/
def energy (v : Cx) : Nat := (v.re * v.re + v.im * v.im).toNat

/-- The block energy of a channel's band values (R45). -/
def blockEnergy (v : Bands) : Nat := v.foldl (fun e x => e + energy x) 0

/-- The level of an energy (R46). -/
def lu (e : Nat) : Nat :=
  if e < 2 then 0 else 8 * Nat.log2 e + (e - 2 ^ Nat.log2 e) * 8 / 2 ^ Nat.log2 e

/-- Exponential smoothing of `a` toward `x` with a shift (R48). -/
def smooth (a x : Int) (shift : Nat) : Int := a + roundDiv (x - a) (2 ^ shift)

/-- The gain table (R51). -/
def gainTable : Vector Nat 16 :=
  #v[65536, 62757, 60097, 57549, 55109, 52773, 50535, 48393, 46341, 44376, 42495, 40693, 38968,
    37316, 35734, 34219]

/-- A component scaled by an attenuation in lu (R51, R152). -/
def attenuate (x : Int) (att : Nat) : Int :=
  roundDiv (x * (gainTable[att % 16]'(Nat.mod_lt _ (by decide)) : Nat)) (2 ^ (16 + att / 16))

/-- One step of a comfort-noise generator: stage k is bit k − 1, and the new bit, which is also the
output, is the exclusive OR of stages 23 and 18 (R154). -/
def noiseStep (g : BitVec 23) : BitVec 23 × Bool :=
  let bit := Bool.xor (g.getLsbD 22) (g.getLsbD 17)
  ((g <<< 1) ||| (if bit then 1 else 0), bit)

/-- The sign an output of the generator stands for (R154). -/
def noiseSign (bit : Bool) : Int := if bit then 1 else -1

/-- The amplitude of the comfort noise of a beam (R153). -/
def noiseAmp (noise cnOffset : Nat) : Nat :=
  2 ^ (max 0 (((noise : Int) - cnOffset - 48) / 16)).toNat

/-- The product of two complex values (0.6). -/
def cmul (a b : Cx) : Cx := ⟨a.re * b.re - a.im * b.im, a.re * b.im + a.im * b.re⟩

/-- The exact sum of two complex values. -/
def cadd (a b : Cx) : Cx := ⟨a.re + b.re, a.im + b.im⟩

/-- Each component rounded to the quotient by `d` and saturated to 24 bits (R47). -/
def cround24 (v : Cx) (d : Nat) : Cx := ⟨sat24 (roundDiv v.re d), sat24 (roundDiv v.im d)⟩

/-- Each component saturated to 24 bits. -/
def csat24 (v : Cx) : Cx := ⟨sat24 v.re, sat24 v.im⟩

/-- A tap as the complex integer it holds. -/
def tapCx (t : Tap) : Cx := ⟨t.re.toInt, t.im.toInt⟩

/-- Floor division for Int in Lean rounds toward minus infinity for a positive divisor, as R153 asks. -/
theorem noise_floor_division : ((-16 : Int) / 16 = -1) ∧ ((-17 : Int) / 16 = -2) := by decide

end Sys2Proof.Machine
end

