-- ==== Sys2Proof/Machine/Memory.lean ====
section
/-! DEFINITION. The tap memories: the coefficient memory of the Canceller Core (R52) and heads (R71,
R119). A memory lists the taps that are not zero by strictly rising address; an address it does not
list reads as the zero tap, which is what R52 and R119 give after reset. -/

namespace Sys2Proof.Machine

/-- The tap at an address. -/
def memGet : TapMem → Nat → Tap
  | [], _ => tapZero
  | (a, t) :: m, k => if a = k then t else memGet m k

/-- The memory with `t` at address `k`, in canonical form. -/
def memPut : TapMem → Nat → Tap → TapMem
  | [], k, t => if t = tapZero then [] else [(k, t)]
  | (a, u) :: m, k, t =>
    if k < a then (if t = tapZero then (a, u) :: m else (k, t) :: (a, u) :: m)
    else if k = a then (if t = tapZero then m else (k, t) :: m)
    else (a, u) :: memPut m k t

/-- Every address listed is above `lo` and above the one listed before it, and no tap listed is zero. -/
def memAbove : Nat → TapMem → Bool
  | _, [] => true
  | lo, (a, t) :: m => lo ≤ a && t ≠ tapZero && memAbove (a + 1) m

/-- The canonical form of a tap memory. -/
def memWf (m : TapMem) : Bool := memAbove 0 m

/-- Zero at the `n` addresses from `base`. -/
def memClear (m : TapMem) (base n : Nat) : TapMem :=
  m.filter fun c => c.1 < base || base + n ≤ c.1

/-- The taps `f 0`, `f 1`, … at the `n` addresses from `base`. -/
def memFill (m : TapMem) (base n : Nat) (f : Nat → Tap) : TapMem :=
  (List.range n).foldl (fun m i => memPut m (base + i) (f i)) m

/-- The address of tap k of band j of slot s at the tail length T: row s × T + k holds one tap of each
of the 32 bands (R52). -/
def tapAddr (tailLen slot band tap : Nat) : Nat := 32 * (slot * tailLen + tap) + band

/-- The number of taps in a head (R71). -/
def headSize : Nat := 1536

/-- The tap of a head's index, in band order and, within each band, in tap order (R71). -/
def headIndex (band tap : Nat) : Nat := 48 * band + tap

/-- The copy of a slot's head (R71). -/
def headOf (m : TapMem) (tailLen slot : Nat) : Head :=
  memFill [] 0 headSize fun i => memGet m (tapAddr tailLen slot (i / 48) (i % 48))

/-- The memory with a head in taps 0 to 47 of a slot's bands and zero in its other taps (R72). -/
def memInstall (m : TapMem) (tailLen slot : Nat) (h : Head) : TapMem :=
  memFill (memClear m (tapAddr tailLen slot 0 0) (32 * tailLen)) (tapAddr tailLen slot 0 0) (32 * 48)
    fun i => memGet h (headIndex (i % 32) (i / 32))

end Sys2Proof.Machine
end

