-- ==== Sys2Proof/Machine/Operands.lean ====
section
/-! DEFINITION. The operand forms: the fields of a frame (R191), the fields, codes and sets of messages
(R192, R193), the table entries (R194) and the entry chunk (R195), read and written. -/

namespace Sys2Proof.Machine

/-! ### The frame (R191) -/

/-- The frame marker (R1). -/
def marker : Byte := 0x9D

/-- The `w` bits of a frame that begin at bit period `at0`, most significant bit first (R191). -/
def frameField (bits : FrameBits) (at0 w : Nat) : BitVec w :=
  bits.extractLsb' (512 - at0 - w) w

/-- A frame's marker is correct (1.3). -/
def markerGood (bits : FrameBits) : Bool := frameField bits 0 8 == marker

/-- Slot `k` of a frame (R191). -/
def frameSlot (bits : FrameBits) (k : Nat) : Sample := frameField bits (8 + 24 * k) 24

/-- The first bit period of the control field of an inbound frame (R191). -/
def controlStart : Link → Nat
  | .array => 392
  | .codec => 200

/-- What the control field of an inbound frame brings: its data byte where CV is 1, or an idle frame;
HO, EP and the reserved bit are ignored (R3, R191). -/
def frameControl (link : Link) (bits : FrameBits) : Option Byte :=
  let c := controlStart link
  if frameField bits c 1 == 1 then some (frameField bits (c + 4) 8) else none

/-- A frame made of fields of the widths given, from bit period 0; zero in the rest (R1, R191). -/
def packFrame (fields : List (Nat × Nat)) : FrameBits :=
  let used := (fields.map Prod.fst).sum
  BitVec.ofNat 512 ((fields.foldl (fun v f => v * 2 ^ f.1 + f.2 % 2 ^ f.1) 0) * 2 ^ (512 - used))

/-- An outbound frame: the marker, the slots, and the control field with CV and the data byte, HO and
EP, and the reserved bit 0 (R1, R3, R191). -/
def outboundBits (slots : List Sample) (data : Option Byte) (ho ep : Bool) : FrameBits :=
  packFrame ((8, marker.toNat) :: slots.map (fun x => (24, x.toNat)) ++
    [(1, if data.isSome then 1 else 0), (1, if ho then 1 else 0), (1, if ep then 1 else 0), (1, 0),
      (8, (data.getD 0).toNat)])

/-! ### Numbers in messages (R192) -/

/-- A byte of a payload; 0 where the payload has none (the length tests come first). -/
def byteAt (p : List Byte) (i : Nat) : Byte := p.getD i 0

/-- The unsigned number that bytes spell, most significant first (R192). -/
def beNat (bytes : List Byte) : Nat := bytes.foldl (fun v b => v * 256 + b.toNat) 0

/-- A number in one byte. -/
def u8 (n : Nat) : Byte := BitVec.ofNat 8 n

/-- A number in two bytes, most significant first (R192). -/
def u16 (n : Nat) : List Byte := [u8 (n / 256), u8 n]

/-- A number in three bytes, most significant first (R192). -/
def u24 (n : Nat) : List Byte := [u8 (n / 65536), u8 (n / 256), u8 n]

/-- A signed number in two bytes, two's complement (R192). -/
def s16 (x : Int) : List Byte := u16 (BitVec.ofInt 16 x).toNat

/-- The code of a flag (R192). -/
def flagCode (b : Bool) : Byte := if b then 1 else 0

/-- Whether a set field names a member (R192). -/
def inSet {w : Nat} (set : BitVec w) (i : Nat) : Bool := set.getLsbD i

/-- The beam set that two bytes of a payload spell (R192). -/
def beamSetAt (p : List Byte) (i : Nat) : BitVec 16 :=
  BitVec.ofNat 16 ((byteAt p i).toNat * 256 + (byteAt p (i + 1)).toNat)

/-- A set with one more member. -/
def setInsert {w : Nat} (set : BitVec w) (i : Nat) : BitVec w := set ||| BitVec.ofNat w (2 ^ i)

/-! ### Messages on the stream (1.6) -/

/-- The 8-bit sum of bytes (1.6). -/
def sum8 (bytes : List Byte) : Byte := bytes.foldl (· + ·) 0

/-- A message as its bytes: kind, length, payload, and the check that makes the sum of all 0 (1.6). -/
def msgBytes (m : Msg) : List Byte :=
  let body := m.kind :: u8 m.payload.length :: m.payload
  body ++ [-(sum8 body)]

/-! ### Codes of the enumerations (R192) -/

/-- A beam mode's code. -/
def beamModeCode : BeamMode → Byte
  | .cancel => 0
  | .bypass => 1
  | .mute => 2

/-- The beam mode of a code. -/
def beamModeOf (b : Byte) : Option BeamMode :=
  if b = 0 then some .cancel else if b = 1 then some .bypass else if b = 2 then some .mute else none

/-- The flag of a code: off or on. -/
def flagOf (b : Byte) : Option Bool :=
  if b = 0 then some false else if b = 1 then some true else none

/-- A reference mode's code. -/
def refModeCode : RefMode → Byte
  | .off => 0
  | .on => 1
  | .onShort => 2

/-- The reference mode of a code. -/
def refModeOf (b : Byte) : Option RefMode :=
  if b = 0 then some .off else if b = 1 then some .on else if b = 2 then some .onShort else none

/-- A meter index's code; 7 is none. -/
def meterCode : Option (Fin 4) → Byte
  | none => 7
  | some m => u8 m.val

/-- The meter index of a code. -/
def meterOf (b : Byte) : Option (Option (Fin 4)) :=
  if h : b.toNat < 4 then some (some ⟨b.toNat, h⟩) else if b = 7 then some none else none

/-- A monitor kind's code. -/
def monKindCode : MonKind → Byte
  | .none => 0
  | .beam => 1
  | .reference => 2

/-- The monitor kind of a code. -/
def monKindOf (b : Byte) : Option MonKind :=
  if b = 0 then some .none else if b = 1 then some .beam else if b = 2 then some .reference else none

/-- The notice mode of a code. -/
def noticeModeOf (b : Byte) : Option NoticeMode :=
  if b = 0 then some .none else if b = 1 then some .errors else if b = 2 then some .all else none

/-- The operating state's code. -/
def opCode : OpState → Byte
  | .config => 0
  | .running => 1

/-- The lock state's code. -/
def lockCode : LockState → Byte
  | .seeking => 0
  | .locked => 1

/-- The double-talk state's code. -/
def talkCode : Talk → Byte
  | .idle => 0
  | .far => 1
  | .near => 2
  | .double => 3
  | .hangover => 4

/-- The slot state's code. -/
def slotStateCode : SlotState → Byte
  | .free => 0
  | .running _ => 1
  | .draining _ _ _ => 2

/-- The phase's code. -/
def phaseCode : Phase → Byte
  | .warmup => 0
  | .converging => 1
  | .tracking => 2

/-- The origin's code. -/
def originCode : Origin → Byte
  | .cold => 0
  | .carried => 1
  | .restored => 2

/-- The first-error cause's code. -/
def causeCode : FaultCause → Byte
  | .fill => 0
  | .read => 1

/-! ### The entry chunk (R195) -/

/-- The 18-bit field `i` of a string of 48 such fields, most significant field first (R195). -/
def chunkField (bytes : List Byte) (i : Nat) : Coef :=
  BitVec.ofNat 18 (beNat bytes / 2 ^ (18 * (47 - i)))

/-- Tap `t` of the 24 taps that 108 bytes carry: real component, then imaginary (R195). -/
def chunkTap (bytes : List Byte) (t : Nat) : Tap :=
  ⟨chunkField bytes (2 * t), chunkField bytes (2 * t + 1)⟩

/-- The head index of tap `t` of chunk `c`: band c div 2, tap (c mod 2) × 24 + t (R141). -/
def chunkIndex (c t : Nat) : Nat := headIndex (c / 2) (c % 2 * 24 + t)

/-- The 108 bytes of chunk `c` of a head (R195). -/
def chunkBytes (h : Head) (c : Nat) : List Byte :=
  let v := (List.range 24).foldl
    (fun v t => (v * 2 ^ 18 + (memGet h (chunkIndex c t)).re.toNat) * 2 ^ 18 +
      (memGet h (chunkIndex c t)).im.toNat) 0
  (List.range 108).map fun i => BitVec.ofNat 8 (v / 2 ^ (8 * (107 - i)))

/-- The head with the 24 taps of 108 bytes in chunk `c` (R141, R195). -/
def chunkWrite (h : Head) (c : Nat) (bytes : List Byte) : Head :=
  memFill h (chunkIndex c 0) 24 fun t => chunkTap bytes t

/-! ### The sum of an entry (R120) -/

/-- The sum of a head, a tag and a quality, modulo 65,536 (R120); a zero tap adds 0. -/
def entrySum (h : Head) (tag quality : Nat) : Nat :=
  (h.foldl (fun n c => n + c.2.re.toNat + c.2.im.toNat) 0 + tag + quality) % 65536

/-- A head, tag, quality and check balance (R120). -/
def balances (h : Head) (tag quality : Nat) (check : BitVec 16) : Bool :=
  (entrySum h tag quality + check.toNat) % 65536 == 0

/-- The check that balances a head, tag and quality (R120). -/
def balancingCheck (h : Head) (tag quality : Nat) : BitVec 16 :=
  BitVec.ofNat 16 (65536 - entrySum h tag quality)

end Sys2Proof.Machine
end

