-- ==== Sys2Proof/Machine/Flags.lean ====
section
/-! DEFINITION. The flags and derived conditions: the event sources and their codes, the pending code,
the event-pending condition, which transitions raise a notice (R181 to R183), and the hold-off
condition (R161). -/

namespace Sys2Proof.Machine

/-- The sources of events (R181). -/
inductive Source
  | linkLost
  | storeFault
  | diverged
  | msgError
  | poolFull
  | degraded
  | captureDropped
  | clipping
  deriving DecidableEq, Repr

/-- A source's priority code (R181). -/
def sourceCode : Source → Nat
  | .linkLost => 1
  | .storeFault => 2
  | .diverged => 3
  | .msgError => 4
  | .poolFull => 5
  | .degraded => 6
  | .captureDropped => 7
  | .clipping => 8

/-- The causes of MSG_ERROR (R16, R160). -/
inductive MsgCause
  | check
  | truncated
  | length
  | overflow
  deriving DecidableEq, Repr

/-- The bit of a cause in the cause set (R192). -/
def causeBit : MsgCause → Nat
  | .check => 0
  | .truncated => 1
  | .length => 2
  | .overflow => 3

/-- The set and unmasked sources (R182). -/
def unmasked (ev : Events) : Byte := ev.status &&& ~~~ev.mask

/-- The event-pending condition, sent as EP (R4, R182). -/
def eventPending (ev : Events) : Bool := unmasked ev != 0

/-- The pending code: the lowest code among the set and unmasked sources, 0 when there is none (R182). -/
def pendingCode (ev : Events) : Nat :=
  ((List.range 8).find? fun i => (unmasked ev).getLsbD i).elim 0 (· + 1)

/-- The notice mode allows a source (R183). -/
def noticeAllowed (mode : NoticeMode) (src : Source) : Bool :=
  match mode with
  | .none => false
  | .errors => sourceCode src ≤ 4
  | .all => true

/-- The hold-off condition after an event that leaves `count` commands in the queue (R161). -/
def holdAfter (hold : Bool) (count trigger : Nat) : Bool :=
  if trigger ≤ count then true else if count = 0 then false else hold

/-- The flag-given double-talk state (R81). -/
def flagGiven (far near : Bool) : Talk :=
  if far && !near then .far else if near && !far then .near else .idle

end Sys2Proof.Machine
end

