-- ==== Sys2Proof/Machine/Ops.lean ====
section
/-! DEFINITION. The named operations over the part's records: the tail, the tuning entries, event
reports and notices, replies, the hold-off condition, tickets, and the records of beams, slots and
pairs. Every meaning is written over these. -/

namespace Sys2Proof.Machine

/-! ### Numbers in force -/

/-- The tail length in blocks (0.6). -/
def tailBlocks (code : Fin 6) : Nat :=
  match code with
  | 0 => 64
  | 1 => 96
  | 2 => 128
  | 3 => 192
  | 4 => 256
  | 5 => 384

/-- The slot count S of a tail length (R103). -/
def slotCountOf (tailLen : Nat) : Nat := min 128 (12288 / tailLen)

/-- The tail length T in force. -/
def tailLen (s : State) : Nat := tailBlocks s.core.tail

/-- The slot count S in force (R103). -/
def slotCount (s : State) : Nat := slotCountOf (tailLen s)

/-- Tuning entries by the names of R178. -/
def lingerBlocks (t : Vector Nat 26) : Nat := t[0]
def actThreshold (t : Vector Nat 26) : Nat := t[1]
def dtMargin (t : Vector Nat 26) : Nat := t[2]
def presenceMargin (t : Vector Nat 26) : Nat := t[3]
def dtArm (t : Vector Nat 26) : Nat := t[4]
def hangoverTime (t : Vector Nat 26) : Nat := t[5]
def erleShift (t : Vector Nat 26) : Nat := t[6]
def trackErle (t : Vector Nat 26) : Nat := t[7]
def trackHyst (t : Vector Nat 26) : Nat := t[8]
def trackCount (t : Vector Nat 26) : Nat := t[9]
def warmBlocks (t : Vector Nat 26) : Nat := t[10]
def divMargin (t : Vector Nat 26) : Nat := t[11]
def divLimit (t : Vector Nat 26) : Nat := t[12]
def clampLimit (t : Vector Nat 26) : Nat := t[13]
def captureErle (t : Vector Nat 26) : Nat := t[14]
def regR (t : Vector Nat 26) : Nat := t[15]
def attMax (t : Vector Nat 26) : Nat := t[16]
def clearLevel (t : Vector Nat 26) : Nat := t[17]
def releaseStep (t : Vector Nat 26) : Nat := t[18]
def doubleCap (t : Vector Nat 26) : Nat := t[19]
def cnOnset (t : Vector Nat 26) : Nat := t[20]
def cnOffset (t : Vector Nat 26) : Nat := t[21]
def noiseRise (t : Vector Nat 26) : Nat := t[22]
def degradeCode (t : Vector Nat 26) : Nat := t[23]
def poolPolicy (t : Vector Nat 26) : Nat := t[24]
def holdTrigger (t : Vector Nat 26) : Nat := t[25]

/-- The degrade time in blocks of a code; none while the watch is disabled (R95). -/
def degradeTime (code : Nat) : Option Nat :=
  if code = 0 then none else if code ≤ 15 then some 250 else some (code * 16)

/-! ### Pairs (0.5) -/

/-- The pair index of a beam and a reference. -/
def pairOf (b : BeamId) (r : RefId) : PairId := ⟨8 * b.val + r.val, by omega⟩

/-- The beam of a pair. -/
def pairBeam (p : PairId) : BeamId := ⟨p.val / 8, by omega⟩

/-- The reference of a pair. -/
def pairRef (p : PairId) : RefId := ⟨p.val % 8, Nat.mod_lt _ (by decide)⟩

/-- Pair indices, ascending. -/
def allPairs : List PairId := List.finRange 128

/-- Slot numbers, ascending. -/
def allSlots : List SlotId := List.finRange 128

/-- Beams, ascending. -/
def allBeams : List BeamId := List.finRange 16

/-- References, ascending. -/
def allRefs : List RefId := List.finRange 8

/-! ### The Event Unit and the reply queue (R163, R165, R181 to R184) -/

/-- The reply queue's bound (R165). -/
def replyLimit : Nat := 8

/-- An event notice: kind 0xF0, the pending code and the status set, both as they stand just after the
source has been set. R183 also says that two notices of one boundary carry the same pending code where the
lower-coded source is unmasked, which cannot hold where the higher-coded one is taken first; the model
takes its first sentence (DESIGN CHOICE, log 20). -/
def noticeMsg (ev : Events) : Msg := ⟨0xF0, [u8 (pendingCode ev), ev.status]⟩

/-- The Event Unit appends a notice, or skips it when the reply queue is full (R183). -/
def appendNotice (s : State) : State :=
  if s.cmd.replies.length < replyLimit then
    { s with cmd := { s.cmd with replies := s.cmd.replies ++ [noticeMsg s.ev] } }
  else s

/-- The bit of a source in the status set and the mask (R192). -/
def sourceBit (src : Source) : Nat := sourceCode src - 1

/-- A report of a source reaches the Event Unit: the source is set, and a transition from clear to set
that the mode allows and the mask leaves unmasked raises a notice, with the pending code and the status set
as its own transition leaves them (R181, R183; log 20). -/
def reportSource (src : Source) (s : State) : State :=
  let was := inSet s.ev.status (sourceBit src)
  let s1 := { s with ev := { s.ev with status := setInsert s.ev.status (sourceBit src) } }
  if !was && noticeAllowed s.ev.mode src && !(inSet s.ev.mask (sourceBit src)) then appendNotice s1
  else s1

/-- MSG_ERROR with its cause (R16, R184). -/
def reportMsgError (c : MsgCause) (s : State) : State :=
  reportSource .msgError { s with ev := { s.ev with causes := setInsert s.ev.causes (causeBit c) } }

/-- DIVERGED with its beam (R184). -/
def reportDiverged (b : BeamId) (s : State) : State :=
  reportSource .diverged { s with ev := { s.ev with diverged := setInsert s.ev.diverged b.val } }

/-- DEGRADED with its beam (R184). -/
def reportDegraded (b : BeamId) (s : State) : State :=
  reportSource .degraded { s with ev := { s.ev with degraded := setInsert s.ev.degraded b.val } }

/-- The Command Unit completes a command with a reply: it appends it and is IDLE, or holds it when the
reply queue is full (R163, R164). -/
def completeReply (reply : Msg) (s : State) : State :=
  if s.cmd.replies.length < replyLimit then
    { s with cmd := { s.cmd with state := .idle, replies := s.cmd.replies ++ [reply] } }
  else { s with cmd := { s.cmd with state := .replyHeld reply } }

/-- A held reply takes a free place of the reply queue, and the unit becomes IDLE (R163). -/
def appendHeld (s : State) : State :=
  match s.cmd.state with
  | .replyHeld reply => if s.cmd.replies.length < replyLimit then completeReply reply s else s
  | .idle => s
  | .portWait => s

/-- The hold-off condition judged against the queue count as it stands (R161). -/
def updateHold (s : State) : State :=
  { s with cmd := { s.cmd with
      hold := holdAfter s.cmd.hold s.cmd.queue.length (holdTrigger s.cmd.tuning) } }

/-! ### Records of slots, pairs and beams -/

/-- A slot of the pool takes a state (R102). -/
def setSlotState (sl : SlotId) (st : SlotState) (s : State) : State :=
  { s with alloc := { s.alloc with slots := s.alloc.slots.set sl st } }

/-- A pair takes an entry in the pairing table (R102). -/
def setPair (p : PairId) (e : PairEntry) (s : State) : State :=
  { s with alloc := { s.alloc with pairs := s.alloc.pairs.set p e } }

/-- The pairs that wait (R112). -/
def setWaiting (w : List PairId) (s : State) : State :=
  { s with alloc := { s.alloc with waiting := w } }

/-- The Core's record of a slot. -/
def setCoreSlot (sl : SlotId) (x : CoreSlot) (s : State) : State :=
  { s with core := { s.core with slots := s.core.slots.set sl x } }

/-- The coefficient memory. -/
def setMem (m : TapMem) (s : State) : State := { s with core := { s.core with mem := m } }

/-- The Controller's record of a slot. -/
def setCtlSlot (sl : SlotId) (x : CtlSlot) (s : State) : State :=
  { s with ctl := { s.ctl with slots := s.ctl.slots.set sl x } }

/-- The Controller's record of a beam. -/
def setCtlBeam (b : BeamId) (x : CtlBeam) (s : State) : State :=
  { s with ctl := { s.ctl with beams := s.ctl.beams.set b x } }

/-- The Beam Router's record of a beam. -/
def setBeam (b : BeamId) (x : Beam) (s : State) : State :=
  { s with router := { s.router with beams := s.router.beams.set b x } }

/-- The Tracker's record of a reference. -/
def setRef (r : RefId) (x : Reference) (s : State) : State :=
  { s with tracker := { s.tracker with refs := s.tracker.refs.set r x } }

/-- The fill queue. -/
def setFills (q : List FillReq) (s : State) : State := { s with store := { s.store with fills := q } }

/-- The capture area. -/
def setCaptures (q : List CaptureRec) (s : State) : State :=
  { s with store := { s.store with captures := q } }

/-- A set of the store. -/
def setSet (p : SetId) (x : StoreSet) (s : State) : State :=
  { s with store := { s.store with sets := s.store.sets.set p x } }

/-- The sets of the store. -/
def setSets (x : Vector StoreSet 128) (s : State) : State :=
  { s with store := { s.store with sets := x } }

/-- The waiting host access of the store port. -/
def setHost (h : Option HostWait) (s : State) : State := { s with store := { s.store with host := h } }

/-- The store's error count. -/
def setErrors (n : Nat) (s : State) : State := { s with store := { s.store with errors := n } }

/-- The store's enable state. -/
def setEnabled (on : Bool) (s : State) : State := { s with store := { s.store with enabled := on } }

/-- The store's first-error record. -/
def setFirstError (e : Option FirstError) (s : State) : State :=
  { s with store := { s.store with firstError := e } }

/-- The written set of the load area (R141). -/
def setWritten (w : BitVec 64) (s : State) : State := { s with cmd := { s.cmd with loadWritten := w } }

/-- An entry of a set. -/
def setEntry (p : SetId) (w : WayId) (e : Entry) (s : State) : State :=
  setSet p { s.store.sets[p] with ways := s.store.sets[p].ways.set w e } s

/-- The LRU bit of a set. -/
def setLru (p : SetId) (w : WayId) (s : State) : State :=
  setSet p { s.store.sets[p] with lru := w } s

/-- The store port. -/
def setPort (t : Option Transfer) (s : State) : State := { s with store := { s.store with port := t } }

/-- The slot numbers RUNNING for a pair that `which` picks, ascending. -/
def runningSlots (which : PairId → Bool) (s : State) : List SlotId :=
  allSlots.filter fun sl =>
    match s.alloc.slots[sl] with
    | .running p => which p
    | .free => false
    | .draining _ _ _ => false

/-- A phase, phase counter and clamp run set by another block's event, which stage 6 does not undo
(R86). -/
def setPhaseRun (sl : SlotId) (ph : Phase) (s : State) : State :=
  let s1 := setCtlSlot sl ⟨ph, 0, 0⟩ s
  { s1 with blk := { s1.blk with phaseSet := sl :: s1.blk.phaseSet, runSet := sl :: s1.blk.runSet } }

/-- The phase CONVERGING with its counter at 0, the clamp run kept (R86, carry). -/
def setPhaseKeepRun (sl : SlotId) (ph : Phase) (s : State) : State :=
  let s1 := setCtlSlot sl { s.ctl.slots[sl] with phase := ph, counter := 0 } s
  { s1 with blk := { s1.blk with phaseSet := sl :: s1.blk.phaseSet } }

/-- A slot is made cold at this boundary (R125). -/
def markCold (sl : SlotId) (s : State) : State :=
  { s with blk := { s.blk with cold := sl :: s.blk.cold } }

/-- The clamp run of a slot has been completed at this boundary (R91). -/
def markRun (sl : SlotId) (s : State) : State :=
  { s with blk := { s.blk with runDone := sl :: s.blk.runDone } }

/-- A clamp run or a divergence has reset a slot at this boundary (R94). -/
def markReset (sl : SlotId) (s : State) : State :=
  { s with blk := { s.blk with resets := sl :: s.blk.resets } }

/-- A slot is assigned, after which a reset at the same boundary reaches it once more (R94). -/
def unmarkReset (sl : SlotId) (s : State) : State :=
  { s with blk := { s.blk with resets := s.blk.resets.filter (· ≠ sl) } }

/-- The noise floor of a beam has risen at this boundary (R50). -/
def markRose (b : BeamId) (s : State) : State := { s with blk := { s.blk with rose := b :: s.blk.rose } }

/-- A beam has had its divergence reset at this boundary (R93). -/
def markDiverged (b : BeamId) (s : State) : State :=
  { s with blk := { s.blk with diverged := b :: s.blk.diverged } }

/-- The Core raises a slot's ticket, 255 becoming 0, and the slot's request leaves the fill queue
(R54, R124). -/
def raiseTicket (sl : SlotId) (s : State) : State :=
  setFills (s.store.fills.filter (·.slot ≠ sl))
    (setCoreSlot sl { s.core.slots[sl] with ticket := s.core.slots[sl].ticket + 1 } s)

/-- Every coefficient of a slot becomes zero (R67, R69). -/
def zeroSlot (sl : SlotId) (s : State) : State :=
  setMem (memClear s.core.mem (tapAddr (tailLen s) sl.val 0 0) (32 * tailLen s)) s

/-- The copy of a slot's head (R71). -/
def headCopy (sl : SlotId) (s : State) : Head := headOf s.core.mem (tailLen s) sl.val

/-- A beam's estimate clamped at 0, as the quality of a capture (R108, R125). -/
def quality (b : BeamId) (s : State) : Nat := s.ctl.beams[b].erle.toNat

/-- The bit clocks ABCK and CBCK are driven as given (R189). -/
def setClocks (c : ClockPin) (s : State) : State :=
  { s with ports := { s.ports with abck := c, cbck := c } }

/-- The part stands at a block boundary: the work of the newest block has been done, and the outbound Codec
Link frame of the block's last number, whose control field follows the boundary, has still to be sent (R1, R4,
R191). -/
def atBoundary (s : State) : Bool := s.ports.frames.outCodec + 1 == 48 * s.blk.count

/-- The inbound slots of the last frame of the block at hand have been received on both links, and its
boundary is still to come (R1). -/
def boundaryDue (s : State) : Bool :=
  s.ports.frames.inArray == 48 * (s.blk.count + 1) && s.ports.frames.inCodec == 48 * (s.blk.count + 1)

/-- Frame `f` may come on a direction: the four directions have carried every earlier frame, and the
boundary of every earlier block has been taken (R1). -/
def frameDue (f : Nat) (s : State) : Bool :=
  decide (f < 48 * (s.blk.count + 1)) && decide (f ≤ s.ports.frames.inArray) &&
    decide (f ≤ s.ports.frames.inCodec) && decide (f ≤ s.ports.frames.outArray) &&
    decide (f ≤ s.ports.frames.outCodec)

/-- While RESETN is held low the part does nothing (R189). -/
def whenUp (f : State → State) (s : State) : State := if s.resetn then f s else s

end Sys2Proof.Machine
end

