-- ==== Sys2Proof/Machine/Links.lean ====
section
/-! DEFINITION. The Link Ports: the frame count (R1), the receivers (R5, R6), message assembly (R10 to
R16), what a delivered message meets (R32, R33, R160), the transmit record (R17), and the limiter of the
Playback Path with its two consumers (R9, R19, R22). -/

namespace Sys2Proof.Machine

/-! ### The receivers (1.3) -/

/-- What becomes of the frame whose marker a receiver has checked. -/
inductive RxResult
  /-- The slots and the control field are accepted. -/
  | accepted
  /-- SEEKING: the slots are zero and the control field is ignored (R5). -/
  | ignored
  /-- Missed in LOCKED: the slots are zero and the frame counts as idle (R6). -/
  | missed
  /-- The third consecutive wrong marker: lock is lost (R6). -/
  | lost
  deriving DecidableEq, Repr

/-- A receiver checks the marker of a frame (R5, R6). -/
def receive (rx : Receiver) (good : Bool) : Receiver × RxResult :=
  match rx.lock with
  | .seeking =>
    if good then
      if 4 ≤ rx.good + 1 then (⟨.locked, 4, 0⟩, .accepted)
      else ({ rx with good := rx.good + 1 }, .ignored)
    else ({ rx with good := 0 }, .ignored)
  | .locked =>
    if good then ({ rx with miss := 0 }, .accepted)
    else if 3 ≤ rx.miss + 1 then (⟨.seeking, 0, 3⟩, .lost)
    else ({ rx with miss := rx.miss + 1 }, .missed)

/-- The receiver of a link. -/
def rxOf (link : Link) (s : State) : Receiver :=
  match link with
  | .array => s.ports.arrayRx
  | .codec => s.ports.codecRx

/-- The receiver of a link takes a value. -/
def setRx (link : Link) (rx : Receiver) (s : State) : State :=
  match link with
  | .array => { s with ports := { s.ports with arrayRx := rx } }
  | .codec => { s with ports := { s.ports with codecRx := rx } }

/-! ### Message assembly (1.6, 1.7) -/

/-- What a byte or an idle frame brings about in an assembly. -/
inductive AsmOutcome
  | nothing
  | delivered (m : Msg)
  | fault (c : MsgCause)
  deriving DecidableEq, Repr

/-- The number of idle frames that truncates a message and ends a RESYNC gap (R13, R14). -/
def idleLimit : Nat := 16

/-- An assembly takes a CV = 1 byte (R11, R12, R14, R15). The count of payload bytes still expected, for which
they give no value before a length byte, is 0 (DESIGN CHOICE, log 17). -/
def asmByte (a : Assembly) (b : Byte) : Assembly × AsmOutcome :=
  match a.st with
  | .awaitKind => (⟨.awaitLength, [b], b, 0, 0⟩, .nothing)
  | .awaitLength =>
    if b.toNat ≤ 240 then
      (⟨if b.toNat = 0 then .awaitCheck else .inPayload, a.bytes ++ [b], a.sum + b, b.toNat, 0⟩,
        .nothing)
    else (⟨.resync, [], 0, 0, 0⟩, .fault .length)
  | .inPayload =>
    (⟨if a.expected ≤ 1 then .awaitCheck else .inPayload, a.bytes ++ [b], a.sum + b, a.expected - 1,
      0⟩, .nothing)
  | .awaitCheck =>
    if a.sum + b = 0 then (Assembly.empty, .delivered ⟨byteAt a.bytes 0, a.bytes.drop 2⟩)
    else (Assembly.empty, .fault .check)
  | .resync => ({ a with idle := 0 }, .nothing)

/-- An assembly counts an idle frame (R11, R13, R14). -/
def asmIdle (a : Assembly) : Assembly × AsmOutcome :=
  match a.st with
  | .awaitKind => (a, .nothing)
  | .awaitLength | .inPayload | .awaitCheck =>
    if idleLimit ≤ a.idle + 1 then (Assembly.empty, .fault .truncated)
    else ({ a with idle := a.idle + 1 }, .nothing)
  | .resync =>
    if idleLimit ≤ a.idle + 1 then (Assembly.empty, .nothing)
    else ({ a with idle := a.idle + 1 }, .nothing)

/-- The assembly of a link. -/
def asmOf (link : Link) (s : State) : Assembly :=
  match link with
  | .array => s.ports.arrayAsm
  | .codec => s.ports.codecAsm

/-- The assembly of a link takes a value. -/
def setAsm (link : Link) (a : Assembly) (s : State) : State :=
  match link with
  | .array => { s with ports := { s.ports with arrayAsm := a } }
  | .codec => { s with ports := { s.ports with codecAsm := a } }

/-- The steer error count rises by 1, saturating at 65535 (R16, R32). -/
def steerError (s : State) : State :=
  { s with ports := { s.ports with steerErrors := min 65535 (s.ports.steerErrors + 1) } }

/-- A discard is reported by the link on which it occurs (R16). -/
def reportFraming (link : Link) (c : MsgCause) (s : State) : State :=
  match link with
  | .array => steerError s
  | .codec => reportMsgError c s

/-! ### What a delivered message meets -/

/-- The bound of the command queue (R160). -/
def queueLimit : Nat := 8

/-- A whole message is delivered to the command queue (R160, R161). -/
def deliverCommand (m : Msg) (s : State) : State :=
  if s.cmd.queue.length < queueLimit then
    updateHold { s with cmd := { s.cmd with queue := s.cmd.queue ++ [m] } }
  else reportMsgError .overflow s

/-- The steering record that a message forms, if it forms one (R32). -/
def steerRecord (m : Msg) : Option SteerRec :=
  match m.payload with
  | [b, z] =>
    if m.kind = 0x31 then
      if h : b.toNat < 16 then
        if z.toNat ≤ 31 then some ⟨⟨b.toNat, h⟩, z.toNat⟩
        else if z.toNat = 255 then some ⟨⟨b.toNat, h⟩, 32⟩
        else none
      else none
    else none
  | _ => none

/-- The steer queue with a record merged in (R33). -/
def mergeSteer (q : List SteerRec) (r : SteerRec) : List SteerRec :=
  if q.any (·.beam == r.beam) then
    q.map fun x => if x.beam = r.beam then { x with tag := r.tag } else x
  else q ++ [r]

/-- A whole message is delivered to the Beam Router (R32, R33). -/
def deliverSteer (m : Msg) (s : State) : State :=
  match steerRecord m with
  | some r => { s with router := { s.router with queue := mergeSteer s.router.queue r } }
  | none => steerError s

/-- Inbound frame `f` is the last of its block, and the boundary of that block is not past: it is past with the
control field of outbound Codec Link frame `f`, which stands after it (R1, R191). -/
def boundaryAhead (f : Nat) (s : State) : Bool :=
  f % 48 == 47 && decide (s.ports.frames.outCodec ≤ f)

/-- A message of the Codec Link completes in frame `f`: in a frame 48n + 47 it joins the command queue
after boundary n (R160). -/
def completeCommand (f : Nat) (m : Msg) (s : State) : State :=
  if boundaryAhead f s then { s with ports := { s.ports with lateCommands := s.ports.lateCommands ++ [m] } }
  else deliverCommand m s

/-- A whole message that inbound frame `f` of the Array Link delivers to the Beam Router: that of a frame
48n + 47 reaches it after the boundary, as the control field of that frame does (R1, R191; log 8). -/
def completeSteer (f : Nat) (m : Msg) (s : State) : State :=
  if boundaryAhead f s then { s with ports := { s.ports with lateSteers := s.ports.lateSteers ++ [m] } }
  else deliverSteer m s

/-- The receiving block of a link takes a whole message that frame `f` completes (R12). -/
def deliver (link : Link) (f : Nat) (m : Msg) (s : State) : State :=
  match link with
  | .array => deliverSteer m s
  | .codec => completeCommand f m s

/-- The assembly of a link takes a value, and what that brings about is done (R12, R16). -/
def settleAsm (link : Link) (f : Nat) (r : Assembly × AsmOutcome) (s : State) : State :=
  match r.2 with
  | .nothing => setAsm link r.1 s
  | .delivered m => deliver link f m (setAsm link r.1 s)
  | .fault c => reportFraming link c (setAsm link r.1 s)

/-- A frame's control field reaches the assembly of its link: a byte, or an idle frame (R3). -/
def feedControl (link : Link) (f : Nat) (data : Option Byte) (s : State) : State :=
  match data with
  | some b => settleAsm link f (asmByte (asmOf link s) b) s
  | none => settleAsm link f (asmIdle (asmOf link s)) s

/-- The control field of inbound frame `f`: on the Array Link, that of a frame 48n + 47 stands after the
boundary (R1, R191). -/
def takeControl (link : Link) (f : Nat) (data : Option Byte) (s : State) : State :=
  if link = .array ∧ boundaryAhead f s then
    { s with ports := { s.ports with lateControl := s.ports.lateControl ++ [data] } }
  else feedControl link f data s

/-- The commands completed in a block's last frame join the command queue, once all that happens at the
boundary has happened (R160). -/
def joinCommands (s : State) : State :=
  s.ports.lateCommands.foldl (fun s m => deliverCommand m s)
    { s with ports := { s.ports with lateCommands := [] } }

/-- What the Array Link has brought with the control field of a block's last frame: the field reaches the
assembly, and a whole message the Beam Router, when the boundary is past, so that a notice is applied at the
next (R1, R34, R191; log 8). -/
def joinControl (s : State) : State :=
  s.ports.lateSteers.foldl (fun s m => deliverSteer m s)
    (s.ports.lateControl.foldl (fun s d => feedControl .array 0 d s)
      { s with ports := { s.ports with lateControl := [], lateSteers := [] } })

/-! ### The transmit record (1.9) -/

/-- The empty transmit record takes the head message of the reply queue at the start of a frame (R17);
with `heldNow`, a held reply takes the place this frees (R163). -/
def takeTransmit (heldNow : Bool) (s : State) : State :=
  match s.ports.transmit, s.cmd.replies with
  | none, m :: rest =>
    let s1 := { s with
      ports := { s.ports with transmit := some ⟨m, 0⟩ }
      cmd := { s.cmd with replies := rest } }
    if heldNow then appendHeld s1 else s1
  | none, [] => s
  | some _, _ => s

/-- The byte that the transmit record sends in a frame (R17). -/
def transmitByte (s : State) : Option Byte :=
  s.ports.transmit.map fun t => byteAt (msgBytes t.msg) t.pos

/-- The transmit record after the byte it sends in a frame: the check byte empties it (R17). -/
def advanceTransmit (t : Option TxRecord) : Option TxRecord :=
  match t with
  | none => none
  | some t => if t.pos + 1 < (msgBytes t.msg).length then some { t with pos := t.pos + 1 } else none

/-! ### The frame count (R1) -/

/-- Frame `f` of some direction: the first direction to reach a frame starts it on all four. A held reply
takes a place that an earlier frame freed, and the transmit record takes its message (R1, R17, R163). -/
def startFrame (f : Nat) (heldNow : Bool) (s : State) : State :=
  if s.ports.frames.started ≤ f then
    takeTransmit heldNow (appendHeld
      { s with ports := { s.ports with frames := { s.ports.frames with started := f + 1 } } })
  else s

/-! ### The Playback Path (2.1) -/

/-- A sample after a ceiling, and whether it was clamped (R19). -/
def limitSample (ceiling : Nat) (x : Sample) : Sample × Bool :=
  if (ceiling : Int) < x.toInt then (BitVec.ofInt 24 ceiling, true)
  else if x.toInt < -(ceiling : Int) then (BitVec.ofInt 24 (-ceiling), true)
  else (x, false)

/-- The playback sample of slot r after the limiter, and whether it was clamped (R9, R19). -/
def limitPlayback (s : State) (r : RefId) (x : Sample) : Sample × Bool :=
  match s.tracker.refs[r].meter with
  | none => (x, false)
  | some m => limitSample s.play.meters[m].ceiling x

/-- How many samples of a frame a meter has clamped (R19). -/
def clampsOf (s : State) (xs : Vector Sample 8) (m : Fin 4) : Nat :=
  (allRefs.filter fun r => s.tracker.refs[r].meter == some m && (limitPlayback s r xs[r]).2).length

/-- The number of samples a delay line holds: 64 blocks (R22). -/
def delayLineLength : Nat := 3072

/-- The number of limited frames the model keeps for the speaker feeds: the two of R9, and a block's
worth beside them (log 9). -/
def speakerLength : Nat := 50

/-- The number of samples a bypass line keeps: the 192 of R156, and a block's worth. -/
def bypassLength : Nat := 240

/-- The Playback Path treats the eight samples of a frame: the meters count, the limited samples go to
the speaker feeds and to the delay lines (R9, R19, R22). -/
def playFrame (xs : Vector Sample 8) (s : State) : State :=
  let limited : Vector Sample 8 := Vector.ofFn fun r => (limitPlayback s r xs[r]).1
  let hit := allRefs.any fun r => (limitPlayback s r xs[r]).2
  { s with
    play :=
      { meters := Vector.ofFn fun m =>
          { s.play.meters[m] with clamps := min 65535 (s.play.meters[m].clamps + clampsOf s xs m) }
        clamped := s.play.clamped || hit
        speaker := (limited :: s.play.speaker).take speakerLength }
    tracker := { s.tracker with
      lines := Vector.ofFn fun r => (limited[r] :: s.tracker.lines[r]).take delayLineLength } }

/-- The beam samples of a frame enter the bypass lines, from where analysis takes them (R2, R156). -/
def beamFrame (xs : Vector Sample 16) (s : State) : State :=
  { s with out := { s.out with
      bypass := Vector.ofFn fun b => (xs[b] :: s.out.bypass[b]).take bypassLength } }

/-- The slots of an inbound frame go to their receiving blocks, or zero in their place (R2, R5, R6,
R8). -/
def takeSlots (link : Link) (accepted : Bool) (bits : FrameBits) (s : State) : State :=
  match link with
  | .array => beamFrame (Vector.ofFn fun b => if accepted then frameSlot bits b.val else 0) s
  | .codec => playFrame (Vector.ofFn fun r => if accepted then frameSlot bits r.val else 0) s

/-! ### An inbound frame (R1 to R16) -/

/-- The number of a link's next inbound frame. -/
def inFrame (link : Link) (s : State) : Nat :=
  match link with
  | .array => s.ports.frames.inArray
  | .codec => s.ports.frames.inCodec

/-- The count of a link's inbound frames rises by 1. -/
def countInbound (link : Link) (s : State) : State :=
  match link with
  | .array => { s with ports := { s.ports with
      frames := { s.ports.frames with inArray := s.ports.frames.inArray + 1 } } }
  | .codec => { s with ports := { s.ports with
      frames := { s.ports.frames with inCodec := s.ports.frames.inCodec + 1 } } }

/-- The message in assembly on a link is discarded without a report, with any control field of the Array
Link that has not reached its assembly yet (R6, R10). -/
def dropMessage (link : Link) (s : State) : State :=
  match link with
  | .array => { s with ports := { s.ports with arrayAsm := Assembly.empty, lateControl := [] } }
  | .codec => { s with ports := { s.ports with codecAsm := Assembly.empty } }

/-- The control field of an inbound frame by what the receiver made of the frame (R3, R5, R6, R10). -/
def controlOf (link : Link) (f : Nat) (res : RxResult) (bits : FrameBits) (s : State) : State :=
  match res with
  | .accepted => takeControl link f (frameControl link bits) s
  | .ignored => s
  | .missed => takeControl link f none s
  | .lost => reportSource .linkLost (dropMessage link s)

/-- The next inbound frame of a link (R5, R6). -/
def inbound (link : Link) (bits : FrameBits) (s : State) : State :=
  let f := inFrame link s
  let rx := receive (rxOf link s) (markerGood bits)
  countInbound link
    (controlOf link f rx.2 bits
      (takeSlots link (rx.2 == .accepted) bits (setRx link rx.1 (startFrame f true s))))

end Sys2Proof.Machine
end

