-- ==== Sys2Proof/Machine/Filter.lean ====
section
/-! DEFINITION. The arithmetic of the analysis and synthesis banks over weights that the manual does not
publish (R40 to R42), and the properties that the weights have: what a pair of banks analyses it reconstructs,
192 frames later (R43), an input lingers, and a component saturates for few inputs only (R41). -/

namespace Sys2Proof.Machine

/-- The weights of the banks: in an analysis bank, those of the sample `age` samples older than the newest
in the two components of a band; in a synthesis bank, those of the two components of a band of the block
`age` blocks older than the newest in emitted sample `i` of 48; and for each a common divisor, less 1. -/
structure BankWeights where
  analysisRe : (band age : Nat) → Int
  analysisIm : (band age : Nat) → Int
  analysisScale : Nat
  synthesisRe : (i age band : Nat) → Int
  synthesisIm : (i age band : Nat) → Int
  synthesisScale : Nat

/-- The samples an analysis bank works on: the newest block and the four before it (R41). -/
def bankWindow : Nat := 240

/-- The sum of a list of samples, newest first, each by the weight of its age; a sample of zero adds
nothing (R41). -/
def weigh (w : Nat → Int) : Nat → List Sample → Int
  | _, [] => 0
  | age, x :: xs => (if x = 0 then 0 else w age * x.toInt) + weigh w (age + 1) xs

/-- The band value of a band from an analysis bank's samples, newest first, rounded (R40). -/
def bandRounded (W : BankWeights) (hist : List Sample) (band : Nat) : Cx :=
  ⟨roundDiv (weigh (W.analysisRe band) 0 hist) (W.analysisScale + 1),
    roundDiv (weigh (W.analysisIm band) 0 hist) (W.analysisScale + 1)⟩

/-- The 32 band values of an analysis bank, rounded and then saturated; a silent history gives exact zeros
(R40, R41). -/
def bandsOf (W : BankWeights) (hist : List Sample) : Bands :=
  if hist.all (· == 0) then zeroBands else Vector.ofFn fun j => csat24 (bandRounded W hist j.val)

/-- The contribution of one block of band values to an emitted sample; a component of zero adds
nothing. -/
def blockTerm (W : BankWeights) (i age : Nat) (v : Bands) : Int :=
  (List.finRange 32).foldl (fun n j =>
    n + (if v[j].re = 0 then 0 else W.synthesisRe i age j.val * v[j].re)
      + (if v[j].im = 0 then 0 else W.synthesisIm i age j.val * v[j].im)) 0

/-- Emitted sample `i` of 48, from the band values newest first: rounded, then saturated (R42). -/
def sampleOf (W : BankWeights) (i : Nat) (blocks : List Bands) : Sample :=
  BitVec.ofInt 24 (sat24 (roundDiv
    ((blocks.zipIdx.map fun e => blockTerm W i e.2 e.1).sum) (W.synthesisScale + 1)))

/-- The samples that an analysis bank works on at the boundary `m` blocks back, from a signal newest sample
first. -/
def windowAt (x : List Sample) (m : Nat) : List Sample := (x.drop (48 * m)).take bankWindow

/-- The banks reconstruct: where no component saturates in the five blocks that a synthesis bank works on,
the sample it emits in frame f lies within 2 of the signal's sample of frame f − 192, where the signal has
one: a signal starts at the last reset (R43). -/
def Reconstructs (W : BankWeights) : Prop :=
  ∀ x : List Sample,
    (∀ m < 5, ∀ j < 32, csat24 (bandRounded W (windowAt x m) j) = bandRounded W (windowAt x m) j) →
    ∀ i < 48, 191 - i < x.length →
      |(sampleOf W i ((List.range 5).map fun m => bandsOf W (windowAt x m))).toInt -
        (x.getD (191 - i) 0).toInt| ≤ 2

/-- An input block still sounds in the band values of each of the four blocks after its own: for each there
is a history that a bank can hold, silent but for the block that far back, that does not give zero (R41). -/
def Lingers (W : BankWeights) : Prop :=
  ∀ m : Fin 4, ∃ hist : List Sample, hist.length ≤ bankWindow ∧
    (∀ i : Fin bankWindow, hist.getD i.val 0 ≠ 0 → i.val / 48 = m.val + 1) ∧
      bandsOf W hist ≠ zeroBands

/-- A component saturates only for an input that is near full scale and concentrated in few bands (R41).
The manual puts no figure to either; the model reads them as a sample of at least half of full scale, and at
most 8 of the 32 bands that hold at least half of the block's energy (DESIGN CHOICE, log 1). -/
def SaturatesRarely (W : BankWeights) : Prop :=
  ∀ hist : List Sample, hist.length ≤ bankWindow → ∀ j < 32,
    csat24 (bandRounded W hist j) ≠ bandRounded W hist j →
      (∃ x ∈ hist, 4194304 ≤ |x.toInt|) ∧
      ∃ few : List Nat, few.Nodup ∧ few.length ≤ 8 ∧ (∀ k ∈ few, k < 32) ∧
        ((List.range 32).map fun k => energy (bandRounded W hist k)).sum ≤
          2 * (few.map fun k => energy (bandRounded W hist k)).sum

/-- Banks of the properties of R41 and R43. -/
structure Filter where
  weights : BankWeights
  reconstructs : Reconstructs weights
  lingers : Lingers weights
  saturates : SaturatesRarely weights

/-! ### That there are such banks

The plainest ones carry the samples through: samples 0 to 31 of a block are the real components of its
bands, and samples 32 to 47 the imaginary components of bands 0 to 15. The imaginary components of bands 16
to 19, which these banks' synthesis does not use, hold the newest sample of each of the four blocks before
the newest. -/

/-- The weights that carry the samples through. -/
def carryWeights : BankWeights :=
  { analysisRe := fun band age => if age + band = 47 then 1 else 0
    analysisIm := fun band age => if band < 16 then (if age + band = 15 then 1 else 0)
      else if 48 * (band - 15) = age ∧ band < 20 then 1 else 0
    analysisScale := 0
    synthesisRe := fun i age band => if age = 3 ∧ i = band then 1 else 0
    synthesisIm := fun i age band => if age = 3 ∧ i = 32 + band then 1 else 0
    synthesisScale := 0 }

theorem roundDiv_one (n : Int) : roundDiv n 1 = n := by
  unfold roundDiv; split <;> omega

theorem weigh_zero (w : Nat → Int) (hw : ∀ a, w a = 0) (a : Nat) (l : List Sample) :
    weigh w a l = 0 := by
  induction l generalizing a with
  | nil => rfl
  | cons x l ih => simp [weigh, hw, ih]

theorem weigh_silent (w : Nat → Int) (a : Nat) (l : List Sample) (h : l.all (· == 0) = true) :
    weigh w a l = 0 := by
  induction l generalizing a with
  | nil => rfl
  | cons x l ih => simp_all [weigh]

/-- A weight of 1 at one age picks the sample of that age. -/
theorem weigh_pick (c t a : Nat) (l : List Sample) (h : a + c ≤ t) :
    weigh (fun a => if a + c = t then 1 else 0) a l = (l.getD (t - c - a) 0).toInt := by
  induction l generalizing a with
  | nil => simp [weigh]
  | cons x l ih =>
    rcases Nat.eq_or_lt_of_le h with h | h
    · have h0 : t - c - a = 0 := by omega
      have hz : weigh (fun a => if a + c = t then (1 : Int) else 0) (a + 1) l = 0 := by
        have key : ∀ (b : Nat) (l : List Sample), a < b →
            weigh (fun a => if a + c = t then (1 : Int) else 0) b l = 0 := by
          intro b l hb
          induction l generalizing b with
          | nil => rfl
          | cons y l ih =>
            have : ¬ (b + c = t) := by omega
            simp [weigh, this, ih (b + 1) (by omega)]
        exact key _ _ (by omega)
      rcases eq_or_ne x 0 with rfl | hx
      · simp [weigh, hz, h0]
      · rw [weigh, if_neg hx, if_pos h, hz, h0]; simp
    · have h1 : ¬ (a + c = t) := by omega
      have h2 : t - c - a = (t - c - (a + 1)) + 1 := by omega
      rw [h2]
      simp [weigh, h1, ih (a + 1) (by omega)]

theorem csat24_zero : csat24 czero = czero := by decide

theorem roundDiv_zero (d : Nat) (h : 0 < d) : roundDiv 0 d = 0 := by
  simp only [roundDiv, le_refl, if_true, Int.toNat_zero]
  have : (2 * 0 + d) / (2 * d) = 0 := Nat.div_eq_of_lt (by omega)
  omega

/-- Silent or not, a band's value is the saturated rounded one. -/
theorem bandsOf_get (W : BankWeights) (l : List Sample) (j : Fin 32) :
    (bandsOf W l)[j] = csat24 (bandRounded W l j.val) := by
  unfold bandsOf
  split
  · rename_i h
    have : bandRounded W l j.val = czero := by
      simp only [bandRounded, weigh_silent _ _ _ h, roundDiv_zero _ (Nat.succ_pos _), czero]
    rw [this, csat24_zero]
    simp [zeroBands]
  · simp

theorem foldl_add_eq (f : Fin 32 → Int) (l : List (Fin 32)) (a : Int) :
    l.foldl (fun n j => n + f j) a = a + (l.map f).sum := by
  induction l generalizing a with
  | nil => simp
  | cons x l ih => simp [ih]; omega

theorem ite_zero_mul (a b : Int) : (if b = 0 then 0 else a * b) = a * b := by
  split <;> simp_all

theorem blockTerm_eq (W : BankWeights) (i age : Nat) (v : Bands) :
    blockTerm W i age v =
      ((List.finRange 32).map fun j => W.synthesisRe i age j.val * v[j].re +
        W.synthesisIm i age j.val * v[j].im).sum := by
  unfold blockTerm
  simp only [ite_zero_mul, add_assoc]
  rw [foldl_add_eq]; simp

/-- A sample saturates to itself. -/
theorem sat24_sample (x : Sample) : sat24 x.toInt = x.toInt := by
  have h1 := BitVec.toInt_lt (x := x)
  have h2 := BitVec.le_toInt (x := x)
  unfold sat24 saturate; omega

theorem carry_reconstructs : Reconstructs carryWeights := by
  intro x hx i hi _
  have e : sampleOf carryWeights i
      ((List.range 5).map fun m => bandsOf carryWeights (windowAt x m)) = x.getD (191 - i) 0 := by
    have hsum : ∀ (age : Nat) (v : Bands), blockTerm carryWeights i age v =
        if age = 3 then (if h : i < 32 then (v[i]'h).re else (v[i - 32]'(by omega)).im) else 0 := by
      intro age v
      rw [blockTerm_eq]
      by_cases ha : age = 3
      · by_cases h : i < 32
        · have h2 : ∀ j : Fin 32, ¬ (i = 32 + j.val) := by intro j; omega
          simp only [carryWeights, ha, h, h2, true_and, and_false, if_true, if_false, zero_mul,
            add_zero, dif_pos]
          have := Finset.sum_ite_eq' (Finset.univ : Finset (Fin 32)) ⟨i, h⟩ (fun j => v[j].re)
          simp only [Finset.mem_univ, if_true] at this
          rw [← List.sum_ofFn (f := fun j : Fin 32 => if j = ⟨i, h⟩ then v[j].re else 0)] at this
          rw [← List.ofFn_eq_map]
          refine Eq.trans (congrArg List.sum (congrArg List.ofFn (funext fun j => ?_))) this
          by_cases hj : i = j.val
          · have : j = ⟨i, h⟩ := Fin.ext hj.symm
            simp [this]
          · have : ¬ (j = ⟨i, h⟩) := fun he => hj (by rw [he])
            simp [this, hj]
        · have h2 : ∀ j : Fin 32, ¬ (i = j.val) := by intro j; omega
          simp only [carryWeights, ha, h, h2, true_and, and_false, if_true, if_false, zero_mul,
            zero_add, dif_neg, not_false_eq_true]
          have := Finset.sum_ite_eq' (Finset.univ : Finset (Fin 32)) ⟨i - 32, by omega⟩
            (fun j => v[j].im)
          simp only [Finset.mem_univ, if_true] at this
          rw [← List.sum_ofFn (f := fun j : Fin 32 => if j = ⟨i - 32, by omega⟩ then v[j].im else 0)]
            at this
          rw [← List.ofFn_eq_map]
          refine Eq.trans (congrArg List.sum (congrArg List.ofFn (funext fun j => ?_))) this
          by_cases hj : i = 32 + j.val
          · have : j = ⟨i - 32, by omega⟩ := Fin.ext (by simp; omega)
            rw [if_pos hj, if_pos this, one_mul]
          · have : ¬ (j = ⟨i - 32, by omega⟩) := fun he => hj (by rw [he]; simp; omega)
            simp [this, hj]
      · simp [carryWeights, ha]
    have hblk : (((List.range 5).map fun m => bandsOf carryWeights (windowAt x m)).zipIdx.map
        fun e => blockTerm carryWeights i e.2 e.1).sum =
        (x.getD (191 - i) 0).toInt := by
      simp only [List.range_succ, List.range_zero, List.nil_append, List.cons_append, List.map_cons,
        List.map_nil, List.zipIdx_cons, List.zipIdx_nil, hsum, List.sum_cons, List.sum_nil]
      have hwin : ∀ k, k < 48 → (windowAt x 3).getD k 0 = x.getD (144 + k) 0 := by
        intro k hk
        simp only [windowAt, bankWindow, List.getD_eq_getElem?_getD, List.getElem?_take,
          List.getElem?_drop]
        rw [if_pos (by omega)]
      have hre : ∀ j : Fin 32, (bandsOf carryWeights (windowAt x 3))[j.val].re =
          (x.getD (191 - j.val) 0).toInt := by
        intro j
        have h := bandsOf_get carryWeights (windowAt x 3) j
        rw [hx 3 (by omega) j.val j.isLt] at h
        simp only [Fin.getElem_fin] at h
        rw [h]
        simp only [bandRounded, carryWeights, zero_add, roundDiv_one]
        rw [weigh_pick j.val 47 0 _ (by omega), hwin _ (by omega)]
        congr 2; omega
      have him : ∀ j : Fin 32, j.val < 16 → (bandsOf carryWeights (windowAt x 3))[j.val].im =
          (x.getD (159 - j.val) 0).toInt := by
        intro j hj
        have h := bandsOf_get carryWeights (windowAt x 3) j
        rw [hx 3 (by omega) j.val j.isLt] at h
        simp only [Fin.getElem_fin] at h
        rw [h]
        simp only [bandRounded, carryWeights, zero_add, roundDiv_one, hj, if_true]
        rw [weigh_pick j.val 15 0 _ (by omega), hwin _ (by omega)]
        congr 2; omega
      by_cases h : i < 32
      · have := hre ⟨i, h⟩
        simp only at this
        simp only [dif_pos h, this]; simp
      · have := him ⟨i - 32, by omega⟩ (by simp; omega)
        simp only [h, dif_neg, not_false_eq_true, this]
        have : 159 - (i - 32) = 191 - i := by omega
        simp [this]
    unfold sampleOf
    rw [hblk]
    simp only [carryWeights, zero_add, roundDiv_one]
    rw [sat24_sample, BitVec.ofInt_toInt]
  rw [e]; simp

theorem carry_lingers : Lingers carryWeights := by
  intro m
  refine ⟨(List.replicate 240 0).set (48 * (m.val + 1)) 1, by
    rw [List.length_set, List.length_replicate]; exact le_refl 240, ?_⟩
  revert m
  decide +kernel

/-- No component of these banks saturates: each is a sample, or zero. -/
theorem carry_saturates : SaturatesRarely carryWeights := by
  intro hist _ j hj h
  refine absurd ?_ h
  have pick : ∀ (c t : Nat), c ≤ t →
      sat24 (weigh (fun a => if a + c = t then 1 else 0) 0 hist) =
        weigh (fun a => if a + c = t then 1 else 0) 0 hist := by
    intro c t ht
    rw [weigh_pick c t 0 hist (by omega), sat24_sample]
  have re : sat24 (weigh (carryWeights.analysisRe j) 0 hist) =
      weigh (carryWeights.analysisRe j) 0 hist := pick j 47 (by omega)
  have im : sat24 (weigh (carryWeights.analysisIm j) 0 hist) =
      weigh (carryWeights.analysisIm j) 0 hist := by
    by_cases h16 : j < 16
    · simpa only [carryWeights, h16, if_true] using pick j 15 (by omega)
    · by_cases h20 : j < 20
      · have e : carryWeights.analysisIm j = fun a => if a + 0 = 48 * (j - 15) then (1 : Int) else 0 := by
          funext a
          simp only [carryWeights, if_neg h16, h20, and_true, add_zero, eq_comm]
        rw [e]
        exact pick 0 _ (by omega)
      · rw [weigh_zero _ (fun a => by simp [carryWeights, h16, h20])]; decide
  simp only [csat24, bandRounded, show carryWeights.analysisScale = 0 from rfl, zero_add, roundDiv_one,
    re, im]

/-- The banks that carry the samples through. -/
def carryFilter : Filter := ⟨carryWeights, carry_reconstructs, carry_lingers, carry_saturates⟩

end Sys2Proof.Machine
end

