-- ==== Sys2Proof/Config.lean ====
section
/-! DEFINITION. What the manual leaves open and the model leaves FREE: constants with no body, so that
nothing in Lean can prove a value of them (assumption log 1 and 2). The analysis and synthesis banks are
linear and time-invariant with a bounded history (R41, R42), so each is a weighted sum with coefficients
that the unpublished prototype filter fixes (R40), of which R41 and R43 give properties. -/

namespace Sys2Proof

/-- Some value of a type that has one; which one is free. -/
opaque Config.someOf (α : Type) [Inhabited α] : α

/-- Free: the weights of the banks, of which the manual gives only the properties of R41 and R43 (R40 to R43). That
banks of these properties exist is what `carryFilter` shows; nothing makes these banks those. -/
def Config.bankFilter : Machine.Filter := @Config.someOf Machine.Filter ⟨Machine.carryFilter⟩

/-- Free: the cause byte that STATUS READ sends for an empty first-error record, whose value R192
does not state (log 2). -/
opaque Config.emptyCause : Byte

end Sys2Proof
end

