-- ==== Sys2Proof/Machine/Banks.lean ====
section
/-! DEFINITION. The Band Banks (R40 to R44) and the arithmetic of the Canceller Core: reference histories
and window powers (R55, R56), estimates and errors (R58, R59), and the coefficient update (R61 to R64).
The weights of the banks are free (log 1). -/

namespace Sys2Proof.Machine

/-! ### Analysis (R40, R41) -/

/-- The 32 band values of an analysis bank, by the free weights (R40, R41). -/
def analyse (hist : List Sample) : Bands := bandsOf Config.bankFilter.weights hist

/-- The history of an analysis bank after a block of 48 samples, newest first (R40). -/
def bankPush (hist block : List Sample) : List Sample := (block ++ hist).take bankWindow

/-- The 48 samples of a line, newest first, from `blocks` blocks back; a sample not listed is zero. -/
def lineBlock (line : List Sample) (blocks : Nat) : List Sample :=
  (List.range 48).map fun i => line.getD (48 * blocks + i) 0

/-! ### Synthesis (R42) -/

/-- The 48 samples a synthesis bank emits, by the free weights; a bank of zero band values emits zeros,
listed as none (R42). -/
def synthesise (bank : SynthBank) : List Sample :=
  let blocks := bank.current :: bank.previous
  if blocks.all (· == zeroBands) then []
  else (List.range 48).map fun i => sampleOf Config.bankFilter.weights i blocks

/-- A synthesis bank at a new boundary: the blocks received so far are one block older, and those beyond
the fifth have no more effect (R42). -/
def synthAge (bank : SynthBank) : SynthBank :=
  ⟨zeroBands, (bank.current :: bank.previous).take 4⟩

/-- A synthesis bank is handed the band values of the boundary (R42). -/
def synthHand (bank : SynthBank) (v : Bands) : SynthBank := { bank with current := v }

/-! ### Histories and window power (R55, R56) -/

/-- The number of blocks a reference history holds (R55). -/
def historyLength : Nat := 384

/-- A reference history after a push (R55). -/
def pushHistory (h : List Bands) (x : Bands) : List Bands := (x :: h).take historyLength

/-- The window power of a band over the newest T entries (R56). -/
def windowPower (tailLen : Nat) (h : List Bands) (j : Fin 32) : Nat :=
  (h.take tailLen).foldl (fun p x => p + energy x[j]) 0

/-! ### Estimates and errors (R58, R59) -/

/-- The exact sum over k of W[j][k] × X_k[j] for a slot and a band (R58); an entry a history does not
list is zero. -/
def slotSum (mem : TapMem) (tailLen sl : Nat) (h : List Bands) (j : Fin 32) : Cx :=
  ((h.take tailLen).zipIdx).foldl (fun acc e =>
    if e.1[j] = czero then acc
    else cadd acc (cmul (tapCx (memGet mem (tapAddr tailLen sl j.val e.2))) e.1[j])) czero

/-- A slot's echo estimate in a band: divided by 65,536, rounded and saturated (R58). -/
def slotEstimate (mem : TapMem) (tailLen sl : Nat) (h : List Bands) (j : Fin 32) : Cx :=
  cround24 (slotSum mem tailLen sl h j) 65536

/-- A beam's total echo estimate: the exact sum of its slots' estimates, saturated (R59). -/
def beamEstimate (mem : TapMem) (tailLen : Nat) (hist : Vector (List Bands) 8)
    (slots : List (SlotId × PairId)) : Bands :=
  if slots = [] then zeroBands
  else Vector.ofFn fun j =>
    csat24 (slots.foldl
      (fun acc e => cadd acc (slotEstimate mem tailLen e.1.val hist[pairRef e.2] j)) czero)

/-- A beam's error: D − Y, saturated (R59). -/
def beamError (d y : Bands) : Bands :=
  Vector.ofFn fun j => csat24 ⟨d[j].re - y[j].re, d[j].im - y[j].im⟩

/-! ### The coefficient update (R61 to R64) -/

/-- The step of a phase in a band, from the STEP table (R61). -/
def stepOf (step : Vector Byte 12) (ph : Phase) (j : Fin 32) : Nat :=
  match ph with
  | .warmup => (step[j.val / 8]'(by omega)).toNat
  | .converging => (step[4 + j.val / 8]'(by omega)).toNat
  | .tracking => (step[8 + j.val / 8]'(by omega)).toNat

/-- At least one of the four steps of a phase is above 0 (R83). -/
def phaseSteps (step : Vector Byte 12) (ph : Phase) : Bool :=
  (List.finRange 32).any fun j => 0 < stepOf step ph j

/-- The regularization (R63). -/
def regDelta (regR : Nat) : Nat := regR * 1048576

/-- The increment of a tap: the step times G, normalized and rounded once (R62, R64). -/
def tapIncrement (mu : Nat) (e x : Cx) (divisor : Nat) : Cx :=
  let g := cmul e ⟨x.re, -x.im⟩
  ⟨roundDiv (256 * mu * g.re) divisor, roundDiv (256 * mu * g.im) divisor⟩

/-- A tap after an increment, and whether a component saturated (R64). -/
def updateTap (t : Tap) (inc : Cx) : Tap × Bool :=
  let re := t.re.toInt + inc.re
  let im := t.im.toInt + inc.im
  (⟨BitVec.ofInt 18 (satCoef re), BitVec.ofInt 18 (satCoef im)⟩,
    satCoef re != re || satCoef im != im)

/-- What the update of a slot needs beside the coefficient memory. -/
structure UpdateInput where
  tailLen : Nat
  slot : Nat
  step : Vector Byte 12
  phase : Phase
  delta : Nat
  err : Bands
  hist : List Bands
  power : Vector Nat 32

/-- The update of tap k of band j; a tap whose reference value is (0, 0) moves by nothing (R62, R64). -/
def updateOne (u : UpdateInput) (k : Nat) (x : Bands) (acc : TapMem × Bool) (j : Fin 32) :
    TapMem × Bool :=
  if x[j] = czero then acc
  else
    let a := tapAddr u.tailLen u.slot j.val k
    let r := updateTap (memGet acc.1 a)
      (tapIncrement (stepOf u.step u.phase j) u.err[j] x[j] (u.power[j] + u.delta))
    (memPut acc.1 a r.1, acc.2 || r.2)

/-- The update of every tap of a slot: the memory after it, and the slot's clamped flag (R64). -/
def updateSlot (u : UpdateInput) (mem : TapMem) : TapMem × Bool :=
  ((u.hist.take u.tailLen).zipIdx).foldl
    (fun acc e => (List.finRange 32).foldl (updateOne u e.2 e.1) acc) (mem, false)

end Sys2Proof.Machine
end

