-- ==== Sys2Proof/Machine/Control.lean ====
section
/-! DEFINITION. The decisions of the Reference Tracker (R25) and of the Adaptation Controller: presence
(R79, R80), the noise floor (R50), the double-talk state (R81, R82), the ERLE estimate (R84), the grant
(R83), and the counting of slots and beams (R87 to R96). -/

namespace Sys2Proof.Machine

/-! ### Reference activity (R25) -/

/-- The effective linger of a mode (R25). -/
def effectiveLinger (mode : RefMode) (lingerTime tailLen : Nat) : Nat :=
  match mode with
  | .onShort => tailLen
  | .on | .off => max lingerTime tailLen

/-- The activity state and linger counter after a block that is loud or quiet (R25). -/
def decideActivity (st : Activity) (counter leff : Nat) (loud : Bool) : Activity × Nat :=
  match st with
  | .silent => if loud then (.active, 0) else (.silent, 0)
  | .active => if loud then (.active, counter) else (.linger, leff)
  | .linger =>
    if loud then (.active, 0)
    else if counter ≤ 1 then (.silent, 0)
    else (.linger, counter - 1)

/-! ### Presence (R79, R80) -/

/-- Near-end presence from the beam's values before the boundary (R80). -/
def nearEnd (t : Vector Nat 26) (armedSlots : Bool) (rec : CtlBeam) (mic echo : Nat) : Bool :=
  decide ((dtArm t : Int) ≤ rec.erle) && armedSlots &&
    decide (echo + dtMargin t ≤ mic) && decide (rec.noise + presenceMargin t ≤ mic)

/-! ### The noise floor (R50) -/

/-- A block of level `mic` raises the noise floor (R50). -/
def floorRises (noise rise mic riseLimit : Nat) : Bool :=
  decide (noise ≤ mic) && decide (riseLimit ≤ rise + 1)

/-- The noise floor and the rise counter after a block of level `mic` (R50). -/
def floorStep (noise rise mic riseLimit : Nat) : Nat × Nat :=
  if mic < noise then (mic, 0)
  else if riseLimit ≤ rise + 1 then (min 423 (noise + 1), 0)
  else (noise, rise + 1)

/-! ### The double-talk state (R81) -/

/-- The double-talk state and the hangover counter of the next block (R81). -/
def nextTalk (st : Talk) (ctr : Nat) (far near : Bool) (hang : Nat) : Talk × Nat :=
  match st with
  | .idle | .far | .near => if far && near then (.double, ctr) else (flagGiven far near, ctr)
  | .double =>
    if far && near then (.double, ctr)
    else if hang = 0 then (flagGiven far near, 0)
    else (.hangover, hang)
  | .hangover =>
    if far && near then (.double, 0)
    else if ctr ≤ 1 then (flagGiven far near, 0)
    else (.hangover, ctr - 1)

/-! ### The ERLE estimate (R84) -/

/-- The estimate after a FAR block (R84). -/
def erleStep (a : Int) (mic res shift : Nat) : Int :=
  saturate (-128) 255 (smooth a ((mic : Int) - res) shift)

/-! ### The record of a beam at a boundary (R78, stages 1 to 4) -/

/-- The Controller's record of a beam after stages 2 to 4 of a boundary for which the Array Link is
LOCKED. -/
def beamStages (t : Vector Nat 26) (far near : Bool) (mic res : Nat) (rec : CtlBeam) : CtlBeam :=
  let fl := floorStep rec.noise rec.rise mic (noiseRise t)
  let tk := nextTalk rec.talk rec.hangCtr far near (hangoverTime t)
  { rec with
    noise := fl.1, rise := fl.2, talk := tk.1, hangCtr := tk.2,
    erle := if tk.1 = .far then erleStep rec.erle mic res (erleShift t) else rec.erle }

/-- The Controller's record of a beam after a boundary for which the Array Link is not LOCKED (R82). -/
def beamUnlocked (rec : CtlBeam) : CtlBeam := { rec with talk := .idle, hangCtr := 0 }

/-! ### The counting of a slot (R87 to R89, R91) -/

/-- The phase and phase counter after an adapting block, by the beam's estimate (R87 to R89). -/
def countPhase (t : Vector Nat 26) (erle : Int) (ph : Phase) (ctr : Nat) : Phase × Nat :=
  match ph with
  | .warmup => if warmBlocks t ≤ ctr + 1 then (.converging, 0) else (.warmup, ctr + 1)
  | .converging =>
    if (trackErle t : Int) ≤ erle then
      if trackCount t ≤ ctr + 1 then (.tracking, 0) else (.converging, ctr + 1)
    else (.converging, 0)
  | .tracking =>
    if erle < ((trackErle t - min (trackHyst t) (trackErle t) : Nat) : Int) then (.converging, 0)
    else (.tracking, 0)

/-- The greatest clamp run (R77). -/
def runLimit : Nat := 1000

/-- The clamp run after an adapting block (R91), within its range of 0 to 1000 (R77, 0.6). -/
def countRun (run : Nat) (clamped : Bool) : Nat := if clamped then min runLimit (run + 1) else 0

/-! ### The counting of a beam (R92, R96) -/

/-- The divergence counter after a FAR block of an unfrozen beam (R92). -/
def countDivergence (t : Vector Nat 26) (ctr mic res : Nat) : Nat :=
  if mic + divMargin t < res then ctr + 1 else 0

/-- The degrade counter, the flag, and whether DEGRADED is reported, after a FAR block (R96). A counter that
stands above a degrade time lowered since is kept: 'increases by 1, up to the degrade time' does not say
that it falls (DESIGN CHOICE, log 23). -/
def countDegrade (limit : Nat) (erle : Int) (threshold ctr : Nat) (flag : Bool) :
    Nat × Bool × Bool :=
  if erle < (threshold : Int) then
    let c := min limit (ctr + 1)
    if limit ≤ ctr + 1 then (max c ctr, true, !flag) else (ctr + 1, flag, false)
  else (0, false, false)

/-- A divergence count or a clamp-run count rises by 1, saturating at 255 (R91, R93). -/
def countUp255 (n : Nat) : Nat := min 255 (n + 1)

end Sys2Proof.Machine
end

