-- ==== Sys2Proof/Machine/Suppress.lean ====
section
/-! DEFINITION. The Residual Suppressor: target and applied attenuation (R149 to R151), scaling and comfort
noise (R152 to R154), for one boundary (R148). -/

namespace Sys2Proof.Machine

/-- The target attenuation of a band whose beam is suppressed, by its SER (R149). -/
def targetOf (t : Vector Nat 26) (ser : Int) : Nat :=
  if (clearLevel t : Int) ≤ ser then 0
  else if ser ≤ 0 then attMax t
  else (roundDiv ((attMax t : Int) * (clearLevel t - ser)) (clearLevel t)).toNat

/-- The SER of a band: the level of the error less the residual (R149). -/
def serOf (e y : Cx) (erle : Int) : Int := (lu (energy e) : Int) - ((lu (energy y) : Int) - max 0 erle)

/-- The target of a band after the cap of DOUBLE and HANGOVER (R150). -/
def capTarget (t : Vector Nat 26) (talk : Talk) (target : Nat) : Nat :=
  match talk with
  | .double | .hangover => min target (doubleCap t)
  | .idle | .far | .near => target

/-- The applied attenuation after a target (R151). -/
def moveAtt (t : Vector Nat 26) (att target : Nat) : Nat :=
  if att ≤ target then target else max target (att - releaseStep t)

/-- The 64 outputs that a beam's generator draws at a boundary, in order, and the register after them
(R154). -/
def drawNoise : Nat → BitVec 23 → List Bool × BitVec 23
  | 0, g => ([], g)
  | n + 1, g =>
    let s := noiseStep g
    let rest := drawNoise n s.1
    (s.2 :: rest.1, rest.2)

/-- The number of steps a generator takes at a boundary (R154). -/
def noiseDraws : Nat := 64

/-- What the Suppressor needs about a beam for a block. -/
structure SuppressInput where
  tuning : Vector Nat 26
  /-- The least att_max of the boundary: a write of it may have lowered att_max (R151). -/
  ceiling : Nat
  beam : Beam
  served : Bool
  work : BlockBeam
  noise : Nat
  att : Vector Nat 32
  draws : List Bool

/-- The applied attenuation of a band for the block (R149 to R151). -/
def bandAtt (u : SuppressInput) (j : Fin 32) : Nat :=
  let target :=
    if u.beam.mode = .cancel ∧ u.beam.suppress = true ∧ u.served = true then
      targetOf u.tuning (serOf u.work.errBands[j] u.work.echoBands[j] u.work.erle)
    else 0
  min u.ceiling (moveAtt u.tuning u.att[j] (capTarget u.tuning u.work.talk target))

/-- The suppressed band value of a band: scaled (R152), with comfort noise where the beam's flag is on and
the attenuation reaches cn_onset (R153). -/
def bandOut (u : SuppressInput) (j : Fin 32) : Cx :=
  let att := bandAtt u j
  let e := u.work.errBands[j]
  let v : Cx := ⟨attenuate e.re att, attenuate e.im att⟩
  if u.beam.comfort = true ∧ cnOnset u.tuning ≤ att then
    let a : Int := (noiseAmp u.noise (cnOffset u.tuning) : Nat)
    ⟨sat24 (v.re + a * noiseSign (u.draws.getD (2 * j.val) false)),
      sat24 (v.im + a * noiseSign (u.draws.getD (2 * j.val + 1) false))⟩
  else v

/-- What the Suppressor is given about a beam at the boundary at hand. -/
def suppressInput (s : State) (b : BeamId) : SuppressInput :=
  { tuning := s.blk.tuning
    ceiling := min (attMax s.cmd.tuning) (attMax s.blk.tuning)
    beam := s.blk.beams[b]
    served := s.blk.slots.any fun x => pairBeam x.pair == b
    work := s.blk.work[b]
    noise := s.ctl.beams[b].noise
    att := s.supp.att[b]
    draws := (drawNoise noiseDraws s.supp.lfsr[b]).1 }

/-- The Suppressor's work for the block: attenuations, suppressed band values and generators of every
beam (R148). -/
def suppressBlock (s : State) : State :=
  { s with
    supp :=
      { att := Vector.ofFn fun b => Vector.ofFn fun j => bandAtt (suppressInput s b) j
        lfsr := Vector.ofFn fun b => (drawNoise noiseDraws s.supp.lfsr[b]).2 }
    blk := { s.blk with
      work := Vector.ofFn fun b =>
        { s.blk.work[b] with outBands := Vector.ofFn fun j => bandOut (suppressInput s b) j } } }

/-- A smaller att_max lowers the applied attenuations at once (R151). -/
def lowerAtt (limit : Nat) (s : State) : State :=
  { s with supp := { s.supp with
      att := Vector.ofFn fun b => Vector.ofFn fun j => min s.supp.att[b][j] limit } }

end Sys2Proof.Machine
end

