-- ==== Sys2Proof/Machine/Output.lean ====
section
/-! DEFINITION. Output assembly: the source of each cleaned-beam slot (R156, R157), the monitor taps
(R158, R159), synthesis (R42), and the outbound frames of both links (R3, R4, R9, R17). -/

namespace Sys2Proof.Machine

/-! ### The choice of a source (R156) -/

/-- The Array Link has been LOCKED for the block and for the two before it. -/
def lockedThree (hist : List Bool) : Bool := hist.length == 3 && hist.all id

/-- The source of a cleaned-beam slot for the next block (R156). Blocks before block 0 count as blocks for
which the link was not LOCKED. -/
def chooseSource (hist : List Bool) (op : OpState) (mode : BeamMode) : OutSource :=
  if lockedThree hist then
    match op with
    | .config => .bypass
    | .running =>
      match mode with
      | .cancel => .synthesis
      | .bypass => .bypass
      | .mute => .zero
  else .zero

/-! ### The monitor taps (R159) -/

/-- The beam that a record's index names; a record of kind BEAM holds an index of 0 to 15 (R158). -/
def monitorBeam (m : Monitor) : BeamId := ⟨m.index.toNat % 16, Nat.mod_lt _ (by decide)⟩

/-- The reference that a record's index names; a record of kind REFERENCE holds an index of 0 to 7
(R158). -/
def monitorRef (m : Monitor) : RefId := ⟨m.index.toNat % 8, Nat.mod_lt _ (by decide)⟩

/-- The band values of the point that a record selects, for the block (R159). -/
def monitorBands (s : State) (m : Monitor) : Bands :=
  match m.kind with
  | .none => zeroBands
  | .reference => s.blk.refBands[monitorRef m]
  | .beam =>
    let b := monitorBeam m
    let cancel := s.blk.beams[b].mode == .cancel
    if m.point = 0 then s.blk.work[b].micBands
    else if m.point = 1 then (if cancel then s.blk.work[b].echoBands else zeroBands)
    else if m.point = 2 then (if cancel then s.blk.work[b].errBands else zeroBands)
    else s.blk.work[b].outBands

/-- The beam whose cleaned-beam slot a record's OUT point repeats (R159). -/
def monitorRepeat (m : Monitor) : Option BeamId :=
  match m.kind with
  | .beam => if m.point = 3 then some (monitorBeam m) else none
  | .none => none
  | .reference => none

/-- The monitor synthesis banks are handed the points selected, and their samples and the repeats stand
for the next block (R42, R159). -/
def handMonitors (s : State) : State :=
  let banks := Vector.ofFn fun t => synthHand s.banks.monSynth[t] (monitorBands s s.out.monitors[t])
  { s with
    banks := { s.banks with monSynth := banks }
    out := { s.out with current := { s.out.current with
      monitors := Vector.ofFn fun t => synthesise banks[t]
      repeats := Vector.ofFn fun t => monitorRepeat s.out.monitors[t] } } }

/-- Output assembly at the end of a boundary: the beam synthesis banks are handed the suppressed band
values, and the sources and samples of the next block's frames are fixed (R42, R152, R156). -/
def assembleOutput (s : State) : State :=
  let banks := Vector.ofFn fun b => synthHand s.banks.beamSynth[b] s.blk.work[b].outBands
  handMonitors { s with
    banks := { s.banks with beamSynth := banks }
    out := { s.out with
      earlier := s.out.current
      current :=
        { index := s.blk.count
          sources := Vector.ofFn fun b =>
            chooseSource s.out.lockHist s.blk.op s.blk.beams[b].mode
          samples := Vector.ofFn fun b => synthesise banks[b]
          monitors := Vector.replicate 2 []
          repeats := Vector.replicate 2 none } } }

/-- A MONITOR write taken after output assembly's work for the block hands the banks the new selection at
that boundary (R158). -/
def rehandMonitors (s : State) : State :=
  if s.blk.live && s.out.current.index == s.blk.count then handMonitors s else s

/-! ### The slots of an outbound frame -/

/-- The number of a link's next outbound frame. -/
def outFrame (link : Link) (s : State) : Nat :=
  match link with
  | .array => s.ports.frames.outArray
  | .codec => s.ports.frames.outCodec

/-- The next outbound frame of a link may come. The control field of a Codec Link frame stands after the inbound
control fields and slots of its number on both links, and after the boundary of a block whose last frame it is
(R4, R191); and the marker of inbound Array Link frame f decides whether its cleaned-beam slots are zero (R1,
R157). -/
def outboundDue (link : Link) (s : State) : Bool :=
  frameDue (outFrame link s) s &&
    match link with
    | .array => true
    | .codec => decide (s.ports.frames.outCodec < s.ports.frames.inArray) &&
        decide (s.ports.frames.outCodec < s.ports.frames.inCodec) &&
        decide (s.ports.frames.outCodec + 1 < 48 * (s.blk.count + 1))

/-- The sample of frame `f` in a line of the samples of `count` frames, newest first; zero before frame 0
and beyond what the line lists. -/
def lineAt (line : List Sample) (count f : Nat) : Sample :=
  if f < count then line.getD (count - 1 - f) 0 else 0

/-- The bypass sample of frame `f`: the inbound sample of frame f − 192 (R156). -/
def bypassSample (s : State) (b : BeamId) (f : Nat) : Sample :=
  if f < 192 then 0 else lineAt s.out.bypass[b] s.ports.frames.inArray (f - 192)

/-- The outputs of a block with the samples of its bypass slots written out, so that they no longer depend
on the bypass lines. -/
def heldOutputs (s : State) (o : OutBlock) : OutBlock :=
  { o with
    sources := Vector.ofFn fun b => match o.sources[b] with
      | .zero => .zero
      | .bypass | .synthesis => .synthesis
    samples := Vector.ofFn fun b => match o.sources[b] with
      | .bypass => (List.range 48).map fun i => bypassSample s b (48 * o.index + i)
      | .zero | .synthesis => o.samples[b] }

/-- The outputs of the frames of the block at whose boundary the part stands: those of the newest boundary
but one, or the newest where this boundary's are not yet assembled. -/
def outputsAtHand (s : State) : OutBlock :=
  if s.out.current.index = s.blk.count then s.out.earlier else s.out.current

/-- The outputs that stand for frame `f`. -/
def outBlockAt (s : State) (f : Nat) : OutBlock :=
  if s.out.current.index = f / 48 then s.out.current
  else if s.out.earlier.index = f / 48 then s.out.earlier
  else OutBlock.silent 0

/-- The sample of cleaned-beam slot b in frame f (R156, R157). -/
def cleanedSlot (s : State) (f : Nat) (b : BeamId) : Sample :=
  match s.ports.arrayRx.lock with
  | .seeking => 0
  | .locked =>
    match (outBlockAt s f).sources[b] with
    | .zero => 0
    | .bypass => bypassSample s b f
    | .synthesis => (outBlockAt s f).samples[b].getD (f % 48) 0

/-- The sample of monitor slot t in frame f (R159). -/
def monitorSlot (s : State) (f : Nat) (t : Fin 2) : Sample :=
  match (outBlockAt s f).repeats[t] with
  | some b => cleanedSlot s f b
  | none => (outBlockAt s f).monitors[t].getD (f % 48) 0

/-- The sample of speaker feed r in frame f: the limited sample of frame f − 2 (R9). -/
def speakerSlot (s : State) (f : Nat) (r : RefId) : Sample :=
  if f < 2 then 0
  else if f - 2 < s.ports.frames.inCodec then
    match s.play.speaker[s.ports.frames.inCodec - 1 - (f - 2)]? with
    | some xs => xs[r]
    | none => 0
  else 0

/-! ### Outbound frames (R3, R4, R17) -/

/-- Outbound Array Link frame f (R3, R9). -/
def arrayFrame (s : State) (f : Nat) : FrameBits :=
  outboundBits (allRefs.map (speakerSlot s f)) none false false

/-- Outbound Codec Link frame f (R2 to R4, R17). -/
def codecFrame (s : State) (f : Nat) : FrameBits :=
  outboundBits (allBeams.map (cleanedSlot s f) ++ (List.finRange 2).map (monitorSlot s f))
    (transmitByte s) s.cmd.hold (eventPending s.ev)

/-- The next outbound frame of the Array Link. -/
def outboundArray (heldNow : Bool) (s : State) : State :=
  let f := s.ports.frames.outArray
  let s1 := startFrame f heldNow s
  { s1 with ports := { s1.ports with
      ado := arrayFrame s1 f
      frames := { s1.ports.frames with outArray := f + 1 } } }

/-- The next outbound frame of the Codec Link (R17). -/
def outboundCodec (heldNow : Bool) (s : State) : State :=
  let f := s.ports.frames.outCodec
  let s1 := startFrame f heldNow s
  { s1 with ports := { s1.ports with
      cdo := codecFrame s1 f
      transmit := advanceTransmit s1.ports.transmit
      frames := { s1.ports.frames with outCodec := f + 1 } } }

/-- The next outbound frame of a link (R17). -/
def outbound (link : Link) (heldNow : Bool) (s : State) : State :=
  match link with
  | .array => outboundArray heldNow s
  | .codec => outboundCodec heldNow s

end Sys2Proof.Machine
end

