-- ==== Sys2Proof/Machine/Allocator.lean ====
section
/-! DEFINITION. The Pair Allocator (chapter 6) with what its transitions ask of the Canceller Core (R67 to
R71) and of the Snapshot Store: lookups (R123), captures (R108, R126), room reports (R109) and zone
changes (R125). -/

namespace Sys2Proof.Machine

/-! ### Wanted pairs (R100) -/

/-- A pair is wanted (R100). -/
def wanted (s : State) (p : PairId) : Bool :=
  s.cmd.op == .running && s.router.beams[pairBeam p].mode == .cancel &&
    s.tracker.refs[pairRef p].mode != .off && s.tracker.refs[pairRef p].activity != .silent &&
    s.alloc.mask[p]

/-- Which pairs are wanted, by pair index. -/
def wantedPairs (s : State) : Vector Bool 128 := Vector.ofFn fun p => wanted s p

/-! ### Lookups (R123) -/

/-- The valid way of a set that holds a tag. -/
def findWay (x : StoreSet) (tag : Nat) : Option WayId :=
  (List.finRange 2).find? fun w => x.ways[w].valid && x.ways[w].tag == tag

/-- A lookup of a set under a tag hits (R123). -/
def lookupHit (s : State) (p : SetId) (tag : Nat) : Bool :=
  s.store.enabled && (findWay s.store.sets[p] tag).isSome

/-- The fill request of a lookup that hits enters the queue, in place of an earlier one of the same slot
(R123). -/
def pushFill (sl : SlotId) (p : SetId) (tag : Nat) (s : State) : State :=
  setFills (s.store.fills.filter (·.slot ≠ sl) ++
    [⟨sl, s.core.slots[sl].ticket, p, tag, s.blk.count⟩]) s

/-- A lookup for a slot: a hit forms a request with the slot's ticket, a miss forms none (R123). -/
def lookup (sl : SlotId) (p : SetId) (tag : Nat) (s : State) : State :=
  if lookupHit s p tag then pushFill sl p tag s else s

/-- The tag a beam serves. -/
def beamTag (b : BeamId) (s : State) : Nat := s.router.beams[b].tag

/-! ### The Core's part (R67, R69) -/

/-- A slot made cold: coefficients zero, ticket raised, origin COLD, phase WARMUP (R67, R69, R86). -/
def coldSlot (sl : SlotId) (s : State) : State :=
  let s1 := raiseTicket sl (zeroSlot sl s)
  markCold sl (setPhaseRun sl .warmup
    (setCoreSlot sl { s1.core.slots[sl] with origin := .cold } s1))

/-- The clamped flag of a slot turns off (R67). -/
def clearClamped (sl : SlotId) (s : State) : State :=
  setCoreSlot sl { s.core.slots[sl] with clamped := false } s

/-! ### Assignment (R104, R105) -/

/-- A FREE slot is assigned to a pair: RUNNING and HELD, cold, with a lookup of the pair's set under its
beam's tag (R67, R104); a reset that follows at the same boundary reaches it (R94). -/
def assignSlot (sl : SlotId) (p : PairId) (s : State) : State :=
  let s1 := unmarkReset sl
    (clearClamped sl (coldSlot sl (setPair p (.held sl) (setSlotState sl (.running p) s))))
  lookup sl p (beamTag (pairBeam p) s1) s1

/-- A slot that has become FREE goes to the oldest waiting pair, if any (R105). -/
def giveToWaiter (sl : SlotId) (s : State) : State :=
  match s.alloc.waiting with
  | [] => s
  | p :: rest => assignSlot sl p (setWaiting rest s)

/-- The slot of a pair becomes FREE and the pair's entry NONE (R105, R108). -/
def freeSlot (sl : SlotId) (p : PairId) (s : State) : State :=
  giveToWaiter sl (setSlotState sl .free (setPair p .none s))

/-! ### Captures (R107 to R109, R126) -/

/-- The bound of the capture area (R126). -/
def captureLimit : Nat := 8

/-- The capture area has room. -/
def captureRoom (s : State) : Bool := s.store.captures.length < captureLimit

/-- A slot is capture-eligible for a pair (R107, R125): TRACKING, the beam's estimate at or above
capture_erle as it was before the boundary's writes, and the store ENABLED. -/
def eligible (sl : SlotId) (p : PairId) (s : State) : Bool :=
  s.ctl.slots[sl].phase == .tracking &&
    decide ((captureErle s.blk.tuning : Int) ≤ s.ctl.beams[pairBeam p].erle) && s.store.enabled

/-- A copy of a slot's head enters the capture area (R71, R126). -/
def pushCapture (sl : SlotId) (p : SetId) (tag q : Nat) (s : State) : State :=
  setCaptures (s.store.captures ++ [⟨p, tag, q, headCopy sl s, s.blk.count⟩]) s

/-- A RUNNING slot is released (R108). -/
def releaseSlot (sl : SlotId) (p : PairId) (s : State) : State :=
  let tag := beamTag (pairBeam p) s
  let q := quality (pairBeam p) s
  if eligible sl p s then
    if captureRoom s then freeSlot sl p (pushCapture sl p tag q (raiseTicket sl s))
    else setSlotState sl (.draining p tag q) (raiseTicket sl s)
  else freeSlot sl p (raiseTicket sl s)

/-- The lowest-numbered slot that is DRAINING, with its pair, tag and quality. -/
def lowestDraining (s : State) : Option (SlotId × PairId × Nat × Nat) :=
  allSlots.findSome? fun sl =>
    match s.alloc.slots[sl] with
    | .draining p tag q => some (sl, p, tag, q)
    | .free => none
    | .running _ => none

/-- A report of capture-area room wakes the lowest-numbered DRAINING slot, whose head enters the area and
which becomes FREE (R109). -/
def roomReport (s : State) : State :=
  match lowestDraining s with
  | some (sl, p, tag, q) => if captureRoom s then freeSlot sl p (pushCapture sl p tag q s) else s
  | none => s

/-- Several room reports, taken in turn (R126). -/
def roomReports (n : Nat) (s : State) : State := (List.range n).foldl (fun s _ => roomReport s) s

/-- The store frees the DRAINING slots of the sets that `which` picks, in ascending slot number, without
a capture (R111). R124 orders the requests of zone changes and of the Allocator's events (R101); this is an event
of the store, and the requests of the waiting pairs that take its slots enter the queue as the slots are taken
(DESIGN CHOICE, log 22). -/
def freeDraining (which : SetId → Bool) (s : State) : State :=
  allSlots.foldl (fun s sl =>
    match s.alloc.slots[sl] with
    | .draining p _ _ => if which p then freeSlot sl p s else s
    | .free => s
    | .running _ => s) s

/-! ### Preemption (R113) -/

/-- The activity state and linger counter handed for the boundary's block (R28): those decided for it,
unless a write or a change of operating state at the boundary has overtaken them (R26, R27). -/
def handed (s : State) (r : RefId) : Activity × Nat :=
  let ref := s.tracker.refs[r]
  if s.blk.live && s.blk.op == .running && s.cmd.op == .running && s.blk.refModes[r] != .off &&
      ref.mode != .off then s.blk.decided[r]
  else (ref.activity, ref.linger)

/-- The candidate for a victim that a slot is: its linger counter, its number and its pair. -/
def victimOf (s : State) (sl : SlotId) : Option (Nat × SlotId × PairId) :=
  match s.alloc.slots[sl] with
  | .running p =>
    if (handed s (pairRef p)).1 = .linger then some ((handed s (pairRef p)).2, sl, p) else none
  | .free => none
  | .draining _ _ _ => none

/-- The victim: the RUNNING slot whose reference lingers with the smallest counter, and of those the
lowest-numbered (R113). -/
def chooseVictim (s : State) : Option (SlotId × PairId) :=
  ((allSlots.filterMap (victimOf s)).foldl (fun best x =>
    match best with
    | none => some x
    | some y => if x.1 < y.1 then some x else some y) none).map (·.2)

/-- A capture that does not wait: an eligible slot's head enters the area, or is dropped for want of room
and CAPTURE_DROPPED is set (R113, R125). -/
def captureOrDrop (sl : SlotId) (p : PairId) (tag : Nat) (s : State) : State :=
  if eligible sl p s then
    if captureRoom s then pushCapture sl p tag (quality (pairBeam p) s) s
    else reportSource .captureDropped s
  else s

/-- A victim is preempted: captured if eligible and there is room, its ticket raised, FREE without draining,
its pair at the end of the wait list, the slot to the oldest waiter (R113). -/
def preemptSlot (sl : SlotId) (q : PairId) (s : State) : State :=
  let s1 := raiseTicket sl (captureOrDrop sl q (beamTag (pairBeam q) s) s)
  let s2 := setSlotState sl .free (setPair q .waiting s1)
  giveToWaiter sl (setWaiting (s2.alloc.waiting ++ [q]) s2)

/-! ### Changes of wanted-ness (R101, R104, R106) -/

/-- A pair leaves the wait list (R106). -/
def leaveWait (p : PairId) (s : State) : State :=
  setPair p .none (setWaiting (s.alloc.waiting.filter (· ≠ p)) s)

/-- A pair stops being wanted (R106). -/
def unwantPair (p : PairId) (s : State) : State :=
  match s.alloc.pairs[p] with
  | .none => s
  | .waiting => leaveWait p s
  | .held sl =>
    match s.alloc.slots[sl] with
    | .running q => releaseSlot sl q s
    | .draining _ _ _ => s
    | .free => s

/-- The lowest-numbered FREE slot of the pool (R104). -/
def lowestFree (s : State) : Option SlotId :=
  allSlots.find? fun sl => decide (sl.val < slotCount s) && s.alloc.slots[sl] == .free

/-- A pair joins the wait list and POOL_FULL is set; under PREEMPT a victim is preempted (R104, R113). -/
def joinWait (p : PairId) (s : State) : State :=
  let s1 := reportSource .poolFull (setPair p .waiting (setWaiting (s.alloc.waiting ++ [p]) s))
  if poolPolicy s.blk.tuning = 1 then
    match chooseVictim s1 with
    | some (sl, q) => preemptSlot sl q s1
    | none => s1
  else s1

/-- A pair becomes wanted (R104). -/
def wantPair (p : PairId) (s : State) : State :=
  match s.alloc.pairs[p] with
  | .held sl =>
    match s.alloc.slots[sl] with
    | .draining q _ _ => setSlotState sl (.running q) s
    | .running _ => s
    | .free => s
  | .waiting => s
  | .none =>
    match lowestFree s with
    | some sl => assignSlot sl p s
    | none => joinWait p s

/-- The requests in the fill queue that did not stand in `before` go behind those that did, in ascending pair
index (R124). -/
def orderRequests (before : List FillReq) (s : State) : State :=
  setFills (s.store.fills.filter (· ∈ before) ++
    allPairs.flatMap fun p => s.store.fills.filter fun r => r ∉ before ∧ r.set = p) s

/-- The pool after the changes of one event, from the pairs wanted before it to those wanted after it: first
every pair that stops being wanted, then every pair that becomes wanted, each in ascending pair index (R101). -/
def changePairs (was : Vector Bool 128) (s : State) : State :=
  let now := wantedPairs s
  let s1 := allPairs.foldl (fun s p => if was[p] && !now[p] then unwantPair p s else s) s
  allPairs.foldl (fun s p => if !was[p] && now[p] then wantPair p s else s) s1

/-- One event of the Allocator (R101). The requests that its assignments form, those of the waiting pairs that
take a slot it frees among them (R105, R113), enter the fill queue in ascending pair index (R124). -/
def allocEvent (was : Vector Bool 128) (s : State) : State :=
  orderRequests s.store.fills (changePairs was s)

/-- STOP as the Allocator takes it: the wait list empties, then every RUNNING slot is released in
ascending pair index (R115). -/
def stopPool (s : State) : State :=
  let s1 := s.alloc.waiting.foldl (fun s p => setPair p .none s) s
  allPairs.foldl (fun s p => unwantPair p s) (setWaiting [] s1)

/-! ### Zone changes (R70, R125) -/

/-- The lookup of a new tag for a slot whose ticket has been raised: a miss carries the slot, unless it was
made cold at this boundary (R70, R125). -/
def zoneLookup (new : Nat) (sl : SlotId) (p : PairId) (s : State) : State :=
  if lookupHit s p new then pushFill sl p new s
  else if s.blk.cold.contains sl then s
  else setPhaseKeepRun sl .converging
    (setCoreSlot sl { s.core.slots[sl] with origin := .carried } s)

/-- A RUNNING slot whose beam changes zone: captured under the old tag if eligible, its ticket raised, the
new tag looked up (R125). -/
def zoneSlot (old new : Nat) (sl : SlotId) (p : PairId) (s : State) : State :=
  zoneLookup new sl p (raiseTicket sl (captureOrDrop sl p old s))

/-- A zone change of a beam, told to the store: its RUNNING slots in ascending number (R125). -/
def zoneChange (b : BeamId) (old new : Nat) (s : State) : State :=
  allSlots.foldl (fun s sl =>
    match s.alloc.slots[sl] with
    | .running p => if pairBeam p = b then zoneSlot old new sl p s else s
    | .free => s
    | .draining _ _ _ => s) s

/-- A steering record is applied to its beam: RUNNING tells the store, CONFIG does not (R34, R35). -/
def applyRecord (r : SteerRec) (s : State) : State :=
  let beam := s.router.beams[r.beam]
  if beam.tag = r.tag then s
  else
    let s1 := setBeam r.beam { beam with tag := r.tag } s
    match s.cmd.op with
    | .running => zoneChange r.beam beam.tag r.tag s1
    | .config => s1

/-- The steer queue is applied, oldest first, at a boundary for which the Array Link is LOCKED (R34 to
R36). -/
def applySteer (s : State) : State :=
  match s.ports.arrayRx.lock with
  | .seeking => s
  | .locked =>
    s.router.queue.foldl (fun s r => applyRecord r s)
      { s with router := { s.router with queue := [] } }

/-! ### Cold resets (R69, R91, R93) -/

/-- A cold reset of a RUNNING slot with a lookup of its beam's tag; a slot that has been reset at this boundary
is not reset again (R69, R91, R93, R94). -/
def resetSlot (sl : SlotId) (p : PairId) (s : State) : State :=
  if s.blk.resets.contains sl then s
  else
    let s1 := markReset sl (coldSlot sl s)
    lookup sl p (beamTag (pairBeam p) s1) s1

/-- A clamp run of a slot of the beam is complete: the beam's divergence count rises and DIVERGED is set
(R91). -/
def clampBeam (b : BeamId) (s : State) : State :=
  reportDiverged b
    (setCtlBeam b { s.ctl.beams[b] with divCount := countUp255 s.ctl.beams[b].divCount } s)

/-- The beam's part of a divergence reset (R93): the estimate and the counter become 0, the count rises
and DIVERGED is set. -/
def divergeBeam (b : BeamId) (s : State) : State :=
  reportDiverged b (markDiverged b
    (setCtlBeam b { s.ctl.beams[b] with
      erle := 0, divCtr := 0, divCount := countUp255 s.ctl.beams[b].divCount } s))

/-- Cold resets of the RUNNING slots that `which` picks by slot and pair, each once. R124 orders the fill
requests of zone changes and of the allocator's events, and the spec gives no order among those of several
cold resets; the model takes the slots, and so queues their requests, in ascending slot number (DESIGN
CHOICE, log 22). -/
def resetSlots (which : SlotId → PairId → Bool) (s : State) : State :=
  allSlots.foldl (fun s sl =>
    match s.alloc.slots[sl] with
    | .running p => if which sl p then resetSlot sl p s else s
    | .free => s
    | .draining _ _ _ => s) s

end Sys2Proof.Machine
end

