-- ==== Sys2Proof/Machine/StorePort.lean ====
section
/-! DEFINITION. The Snapshot Store: the store port, its grants and completions (R127 to R132, R143, R144),
flush, invalidation and abandonment (R133 to R135), check failures and the disabled state (R137, R138),
the bulk delay change (R29), and the disturbance of an entry (R121). -/

namespace Sys2Proof.Machine

/-! ### Replies of the store's host accesses (R166) -/

/-- The code of an ENTRY READ reply's kind and of an ENTRY COMMIT reply's kind (R193). -/
def entryReadReply : Byte := 0xC3

/-- The reply kind of ENTRY COMMIT (R193). -/
def entryCommitReply : Byte := 0xC5

/-- Status codes (R166). -/
inductive Status
  | ok
  | clamped
  | badLength
  | badValue
  | state
  | busy
  | unknown
  | checkFail
  | disabled
  deriving DecidableEq, Repr

/-- A status's code (R166). -/
def statusCode : Status → Byte
  | .ok => 0
  | .clamped => 1
  | .badLength => 2
  | .badValue => 3
  | .state => 4
  | .busy => 5
  | .unknown => 6
  | .checkFail => 7
  | .disabled => 8

/-- The reply kind of a waiting host access. -/
def hostReply : HostAccess → Byte
  | .commit _ _ _ _ => entryCommitReply
  | .read _ _ _ => entryReadReply

/-! ### Entries -/

/-- An entry balances (R120). -/
def entryBalances (e : Entry) : Bool := balances e.head e.tag e.quality e.check

/-- The entry of a set and a way. -/
def entryOf (s : State) (p : SetId) (w : WayId) : Entry := s.store.sets[p].ways[w]

/-- An entry becomes invalid: its flag clears and its cells keep what they hold (R119). -/
def invalidateEntry (p : SetId) (w : WayId) (s : State) : State :=
  setEntry p w { entryOf s p w with valid := false } s

/-- A set whose two entries are invalid. -/
def setInvalid (x : StoreSet) : StoreSet :=
  { x with ways := Vector.ofFn fun w => { x.ways[w] with valid := false } }

/-- Every entry of the sets that `which` picks becomes invalid, and their LRU bits 0 (R134, R135). -/
def clearSets (which : SetId → Bool) (s : State) : State :=
  setSets (Vector.ofFn fun p =>
    if which p then { setInvalid s.store.sets[p] with lru := 0 } else s.store.sets[p]) s

/-- Every entry becomes invalid, the LRU bits kept (R138). -/
def invalidateAll (s : State) : State :=
  setSets (Vector.ofFn fun p => setInvalid s.store.sets[p]) s

/-- The way that a write under a tag takes (R130). -/
def chooseWay (x : StoreSet) (tag : Nat) : WayId :=
  match findWay x tag with
  | some w => w
  | none =>
    if !x.ways[0].valid then 0
    else if !x.ways[1].valid then 1
    else if x.ways[0].quality < x.ways[1].quality then 0
    else if x.ways[1].quality < x.ways[0].quality then 1
    else if x.lru = 0 then 1 else 0

/-- The chosen way becomes invalid and takes the new tag at the grant (R130). -/
def reserveWay (p : SetId) (w : WayId) (tag : Nat) (s : State) : State :=
  setEntry p w { entryOf s p w with valid := false, tag := tag } s

/-- The chosen way is written and becomes valid, and the LRU bit names it (R132, R143). -/
def writeWay (p : SetId) (w : WayId) (e : Entry) (s : State) : State := setLru p w (setEntry p w e s)

/-! ### Installation (R72) -/

/-- A fill request is current: its slot is RUNNING for the pair of the set, with the request's ticket
(R72, R129). -/
def fillCurrent (s : State) (r : FillReq) : Bool :=
  s.alloc.slots[r.slot] == .running r.set && s.core.slots[r.slot].ticket == r.ticket

/-- A head is installed in a slot (R72, R86). -/
def installHead (sl : SlotId) (h : Head) (s : State) : State :=
  let s1 := setMem (memInstall s.core.mem (tailLen s) sl.val h) s
  setPhaseRun sl .tracking (setCoreSlot sl { s.core.slots[sl] with origin := .restored } s1)

/-! ### Check failures (R122, R137, R138) -/

/-- The first-error record latches a failure when it is empty (R122). -/
def latchError (e : FirstError) (s : State) : State :=
  match s.store.firstError with
  | none => setFirstError (some e) s
  | some _ => s

/-- The error count at which the store is disabled (R138). -/
def errorLimit : Nat := 4

/-- A waiting host access is withdrawn with reply DISABLED (R145). -/
def withdrawHost (s : State) : State :=
  match s.store.host with
  | none => s
  | some h => completeReply ⟨hostReply h.access, [statusCode .disabled]⟩ (setHost none s)

/-- The tickets of every slot with a fill request in the queue, and of the failing fill's slot, are raised
(R138). -/
def raiseNamed (failing : SlotId) (s : State) : State :=
  let named := s.store.fills.map (·.slot)
  allSlots.foldl (fun s sl =>
    if named.contains sl || sl = failing then raiseTicket sl s else s) s

/-- The capture area is emptied; each record removed is a room report (R126, R138). -/
def emptyCaptures (s : State) : State := roomReports s.store.captures.length (setCaptures [] s)

/-- The store becomes DISABLED at the failure of the fill of `failing` (R138). The DISABLED reply of a host
access withdrawn stands after the notice of STORE_FAULT, which R163 and R183 leave open (DESIGN CHOICE, log
20). -/
def disableStore (failing : SlotId) (s : State) : State :=
  let s1 := raiseNamed failing (invalidateAll (setEnabled false s))
  let s2 := emptyCaptures (freeDraining (fun _ => true) (setFills [] s1))
  reportSource .storeFault (withdrawHost s2)

/-- A fill's entry fails its check (R137); the fourth failure disables the store (R138). STORE_FAULT is
reported, and its notice appended, before the disabling withdraws a host access with its reply (DESIGN
CHOICE, log 20). -/
def checkFailure (t : Transfer) (r : FillReq) (e : Entry) (s : State) : State :=
  let s1 := setErrors (s.store.errors + 1) (invalidateEntry t.set t.way s)
  let s2 := reportSource .storeFault (latchError ⟨t.set, t.way, e.tag, .fill⟩ s1)
  if errorLimit ≤ s2.store.errors then disableStore r.slot s2 else s2

/-! ### Completions (R131, R132, R143, R144) -/

/-- A FILL transfer completes (R131). -/
def finishFill (t : Transfer) (r : FillReq) (e : Entry) (s : State) : State :=
  if t.abandoned then s
  else if entryBalances e then (if fillCurrent s r then installHead r.slot e.head s else s)
  else checkFailure t r e s

/-- A CAPTURE transfer completes (R132). -/
def finishCapture (t : Transfer) (c : CaptureRec) (s : State) : State :=
  if t.abandoned then s
  else writeWay t.set t.way
    ⟨true, c.tag, c.quality, balancingCheck c.head c.tag c.quality, c.head⟩ s

/-- A COMMIT transfer completes (R143). -/
def finishCommit (t : Transfer) (tag q : Nat) (check : BitVec 16) (s : State) : State :=
  if t.abandoned then s
  else
    let s1 := writeWay t.set t.way ⟨true, tag, q, check, s.cmd.loadTaps⟩ s
    completeReply ⟨entryCommitReply, [statusCode .ok]⟩ (setWritten 0 s1)

/-- A READ transfer completes (R144). -/
def finishRead (t : Transfer) (chunk : Nat) (s : State) : State :=
  if t.abandoned then s
  else
    let e := entryOf s t.set t.way
    let fields := [flagCode e.valid, u8 e.tag, u8 e.quality] ++ chunkBytes e.head chunk
    if e.valid && !entryBalances e then
      completeReply ⟨entryReadReply, statusCode .checkFail :: fields⟩
        (latchError ⟨t.set, t.way, e.tag, .read⟩ s)
    else completeReply ⟨entryReadReply, statusCode .ok :: fields⟩ s

/-- The transfer in flight that a kind of completion takes: one granted at an earlier boundary (R127). -/
def dueTransfer (s : State) : Option Transfer :=
  match s.store.port with
  | some t => if t.granted < s.blk.count then some t else none
  | none => none

/-- A transfer completes and the port is idle (R127). -/
def finishTransfer (t : Transfer) (s : State) : State :=
  let s1 := setPort none s
  match t.cargo with
  | .fill r e => finishFill t r e s1
  | .capture c => finishCapture t c s1
  | .commit tag q check => finishCommit t tag q check s1
  | .read chunk => finishRead t chunk s1

/-- The port's completion stage at a boundary (R127). -/
def completeDue (s : State) : State :=
  match dueTransfer s with
  | some t => finishTransfer t s
  | none => s

/-! ### Grants (R128 to R130) -/

/-- The fill requests that are candidates and fail the checks of their grant leave the queue until one
passes: the queue that stays, and the request granted with its way (R128, R129). -/
def pickFill (s : State) : List FillReq → List FillReq × Option (FillReq × WayId)
  | [] => ([], none)
  | r :: rest =>
    if s.blk.count ≤ r.born then (r :: rest, none)
    else
      match fillCurrent s r, findWay s.store.sets[r.set] r.tag with
      | true, some w => (rest, some (r, w))
      | _, _ => pickFill s rest

/-- A fill is granted (R129). -/
def grantFill (r : FillReq) (w : WayId) (s : State) : State :=
  setPort (some ⟨.fill r (entryOf s r.set w), r.set, w, false, s.blk.count⟩) (setLru r.set w s)

/-- The oldest record of the capture area is granted: it leaves the area, which is a room report (R109,
R130). -/
def grantCapture (s : State) : State :=
  match s.store.captures with
  | [] => s
  | c :: rest =>
    let w := chooseWay s.store.sets[c.set] c.tag
    roomReport (setCaptures rest
      (setPort (some ⟨.capture c, c.set, w, false, s.blk.count⟩) (reserveWay c.set w c.tag s)))

/-- The waiting host access is granted (R128, R143, R144). -/
def grantHost (s : State) : State :=
  match s.store.host with
  | none => s
  | some h =>
    if s.blk.count ≤ h.born then s
    else
      let s1 := setHost none s
      match h.access with
      | .commit p tag q check =>
        let w := chooseWay s.store.sets[p] tag
        setPort (some ⟨.commit tag q check, p, w, false, s.blk.count⟩) (reserveWay p w tag s1)
      | .read p w chunk => setPort (some ⟨.read chunk, p, w, false, s.blk.count⟩) s1

/-- The number of records of the capture area that are candidates (R127). -/
def candidateCaptures (s : State) : Nat :=
  (s.store.captures.filter fun c => c.born < s.blk.count).length

/-- The idle port grants one transfer (R128). -/
def grantIdle (s : State) : State :=
  if captureLimit ≤ candidateCaptures s then grantCapture s
  else
    match pickFill s s.store.fills with
    | (q, some (r, w)) => grantFill r w (setFills q s)
    | (q, none) =>
      if 0 < candidateCaptures s then grantCapture (setFills q s) else grantHost (setFills q s)

/-- The port's operation at a boundary: it completes its transfer, and then grants (R127, R128). -/
def grantDue (s : State) : State :=
  let s1 := completeDue s
  match s1.store.port with
  | none => grantIdle s1
  | some _ => s1

/-! ### Flush, invalidation, delay change (R29, R133 to R135) -/

/-- The transfer in flight is marked abandoned when its set is covered (R133). -/
def abandonTransfer (which : SetId → Bool) (s : State) : State :=
  match s.store.port with
  | some t => if which t.set then setPort (some { t with abandoned := true }) s else s
  | none => s

/-- The sets that `which` picks are invalidated (R135); with every set, a flush (R134). -/
def invalidateSets (which : SetId → Bool) (s : State) : State :=
  let s1 := clearSets which (freeDraining which s)
  let gone := (s1.store.captures.filter fun c => which c.set).length
  let s2 := setFills (s1.store.fills.filter fun r => !which r.set)
    (setCaptures (s1.store.captures.filter fun c => !which c.set) s1)
  abandonTransfer which (roomReports gone s2)

/-- The sets 8b + r of a reference. -/
def setsOfRef (r : RefId) (p : SetId) : Bool := pairRef p == r

/-- The RUNNING slots of a reference are reset to cold, without a lookup (R29, R69). -/
def resetReference (r : RefId) (s : State) : State :=
  allSlots.foldl (fun s sl =>
    match s.alloc.slots[sl] with
    | .running p => if pairRef p = r then coldSlot sl s else s
    | .free => s
    | .draining _ _ _ => s) s

/-- A change of bulk delay of a reference (R29). R29 and R69 give the reset of its RUNNING slots and the
invalidation of its sets no order; the model resets first, so a DRAINING slot of the reference that the
invalidation frees, and that a waiting pair of the reference takes, is assigned cold and not reset once more: its
ticket rises by 1 (DESIGN CHOICE, log 24). -/
def delayChange (r : RefId) (s : State) : State := invalidateSets (setsOfRef r) (resetReference r s)

/-! ### Reports of the store (R124, R147) -/

/-- A slot has a fill pending (R124). -/
def fillPending (s : State) (sl : SlotId) : Bool :=
  let current : FillReq → Bool := fun r => r.slot = sl && r.ticket == s.core.slots[sl].ticket
  s.store.fills.any current ||
    match s.store.port with
    | some t =>
      match t.cargo with
      | .fill r _ => !t.abandoned && current r
      | .capture _ => false
      | .commit _ _ _ => false
      | .read _ => false
    | none => false

/-! ### Disturbance (R121) -/

/-- A head with cells that hold other values. -/
def disturbHead (h : Head) (cells : List (Fin 1536 × Tap)) : Head :=
  cells.foldl (fun h c => memPut h c.1.val c.2) h

/-- A soft error leaves other values in an entry's head, quality and check, so that the entry no longer
balances; the valid flag and the tag stay (R121). Values that leave the entry balancing are no
disturbance. -/
def disturbEntry (p : SetId) (w : WayId) (cells : List (Fin 1536 × Tap)) (q : Byte)
    (check : BitVec 16) (s : State) : State :=
  let e := entryOf s p w
  let e1 := { e with head := disturbHead e.head cells, quality := q.toNat, check := check }
  if entryBalances e1 then s else setEntry p w e1 s

end Sys2Proof.Machine
end

