-- ==== Sys2Proof/Machine/Tables.lean ====
section
/-! DEFINITION. The eight tables (R174, R194): the judgment of a TABLE WRITE's header and entries (R174 to
R176), what each table's write brings about in the other blocks, and the reading of entries (R177). -/

namespace Sys2Proof.Machine

/-! ### Replies (R166) -/

/-- The reply to a command: its kind plus 0x80, the status, and the results (R166). -/
def replyMsg (m : Msg) (st : Status) (results : List Byte) : Msg :=
  ⟨m.kind + 0x80, statusCode st :: results⟩

/-- A command is answered with a status alone (R166). -/
def answer (m : Msg) (st : Status) (s : State) : State := completeReply (replyMsg m st []) s

/-! ### The tables (R174) -/

/-- The eight tables. -/
inductive Table
  | beam
  | reference
  | pairmask
  | step
  | tuning
  | threshold
  | meter
  | monitor
  deriving DecidableEq, Repr

/-- A table's id (R174). -/
def tableId : Table → Byte
  | .beam => 1
  | .reference => 2
  | .pairmask => 3
  | .step => 4
  | .tuning => 5
  | .threshold => 6
  | .meter => 7
  | .monitor => 8

/-- The table that an id names (R174). -/
def tableOf (b : Byte) : Option Table :=
  [Table.beam, .reference, .pairmask, .step, .tuning, .threshold, .meter, .monitor].find?
    fun t => tableId t == b

/-- The number of entries of a table (R174). -/
def tableEntries : Table → Nat
  | .beam => 16
  | .reference => 8
  | .pairmask => 128
  | .step => 12
  | .tuning => 26
  | .threshold => 17
  | .meter => 4
  | .monitor => 2

/-- The write size of a table's entries (R174). -/
def writeSize : Table → Nat
  | .beam => 3
  | .reference => 3
  | .pairmask => 1
  | .step => 1
  | .tuning => 2
  | .threshold => 1
  | .meter => 3
  | .monitor => 3

/-! ### Tuning entries (R168, R178) -/

/-- The bounds of the tuning entries (R178); those read by their low byte reach 255. -/
def tuningBounds : Vector (Nat × Nat) 26 :=
  #v[(0, 65535), (0, 423), (1, 64), (0, 128), (0, 255), (0, 1000), (0, 7), (0, 255), (0, 64),
    (1, 10000), (0, 10000), (0, 64), (1, 1000), (1, 1000), (0, 255), (1, 4095), (0, 96), (1, 128),
    (1, 96), (0, 96), (0, 96), (0, 96), (1, 1000), (0, 255), (0, 1), (1, 8)]

/-- The tuning entries of which the part reads the low byte alone: dt_arm, track_erle, capture_erle and
degrade_time (R168, R192). -/
def lowByteEntry (i : Nat) : Bool := i == 4 || i == 7 || i == 14 || i == 23

/-- The tuning entry that is an enumeration, pool_policy (R178). -/
def poolPolicyEntry : Nat := 24

/-- A number after clamping to a range, and whether it was clamped (R168). -/
def clampNat (lo hi x : Nat) : Nat × Bool := (max lo (min hi x), x < lo || hi < x)

/-! ### Writing one entry (R176, R194) -/

/-- A written entry, and whether a number of it was clamped; none where the write stops at it. -/
abbrev Written := Option (State × Bool)

/-- An entry of the BEAM table (R30). -/
def writeBeam (i : Nat) (p : List Byte) (s : State) : Written :=
  if h : i < 16 then
    match beamModeOf (byteAt p 0), flagOf (byteAt p 1), flagOf (byteAt p 2) with
    | some mode, some su, some cn =>
      some (setBeam ⟨i, h⟩ { s.router.beams[i] with mode := mode, suppress := su, comfort := cn } s,
        false)
    | _, _, _ => none
  else none

/-- An entry of the REFERENCE table (R21). -/
def writeReference (i : Nat) (p : List Byte) (s : State) : Written :=
  if h : i < 8 then
    match refModeOf (byteAt p 0), meterOf (byteAt p 1) with
    | some mode, some meter =>
      let d := clampNat 0 63 (byteAt p 2).toNat
      some (setRef ⟨i, h⟩ { s.tracker.refs[i] with mode := mode, meter := meter, delay := d.1 } s,
        d.2)
    | _, _ => none
  else none

/-- An entry of the PAIRMASK table (R38). -/
def writePairmask (i : Nat) (p : List Byte) (s : State) : Written :=
  if _h : i < 128 then
    match flagOf (byteAt p 0) with
    | some allowed => some ({ s with alloc := { s.alloc with mask := s.alloc.mask.set i allowed } },
        false)
    | none => none
  else none

/-- An entry of the STEP table (R66). -/
def writeStep (i : Nat) (p : List Byte) (s : State) : Written :=
  if _h : i < 12 then
    some ({ s with core := { s.core with step := s.core.step.set i (byteAt p 0) } }, false)
  else none

/-- The tuning table takes an entry. -/
def setTuning (i : Nat) (h : i < 26) (x : Nat) (s : State) : State :=
  { s with cmd := { s.cmd with tuning := s.cmd.tuning.set i x h } }

/-- An entry of the TUNING table (R168, R178). -/
def writeTuning (i : Nat) (p : List Byte) (s : State) : Written :=
  if h : i < 26 then
    let raw := if lowByteEntry i then (byteAt p 1).toNat else beNat [byteAt p 0, byteAt p 1]
    if i = poolPolicyEntry then (if raw ≤ 1 then some (setTuning i h raw s, false) else none)
    else
      let x := clampNat tuningBounds[i].1 tuningBounds[i].2 raw
      some (setTuning i h x.1 s, x.2)
  else none

/-- An entry of the THRESHOLD table (R95). -/
def writeThreshold (i : Nat) (p : List Byte) (s : State) : Written :=
  if _h : i < 17 then
    some ({ s with ctl := { s.ctl with thresholds := s.ctl.thresholds.set i (byteAt p 0) } }, false)
  else none

/-- An entry of the METER table: the ceiling, and the clamp count becomes 0 (R20). -/
def writeMeter (i : Nat) (p : List Byte) (s : State) : Written :=
  if _h : i < 4 then
    let c := clampNat 0 8388607 (beNat [byteAt p 0, byteAt p 1, byteAt p 2])
    some ({ s with play := { s.play with meters := s.play.meters.set i ⟨c.1, 0⟩ } }, c.2)
  else none

/-- The index and point that a monitor record of a kind may hold (R158). -/
def monitorAllowed (k : MonKind) (index point : Byte) : Bool :=
  match k with
  | .none => true
  | .beam => index.toNat ≤ 15 && point.toNat ≤ 3
  | .reference => index.toNat ≤ 7 && point == 4

/-- An entry of the MONITOR table (R158). -/
def writeMonitor (i : Nat) (p : List Byte) (s : State) : Written :=
  if _h : i < 2 then
    match monKindOf (byteAt p 0) with
    | some k =>
      if monitorAllowed k (byteAt p 1) (byteAt p 2) then
        some ({ s with out := { s.out with
          monitors := s.out.monitors.set i ⟨k, byteAt p 1, byteAt p 2⟩ } }, false)
      else none
    | none => none
  else none

/-- An entry of a table is judged and written (R176). -/
def writeEntry (t : Table) (i : Nat) (p : List Byte) (s : State) : Written :=
  match t with
  | .beam => writeBeam i p s
  | .reference => writeReference i p s
  | .pairmask => writePairmask i p s
  | .step => writeStep i p s
  | .tuning => writeTuning i p s
  | .threshold => writeThreshold i p s
  | .meter => writeMeter i p s
  | .monitor => writeMonitor i p s

/-- `count` entries from index `i` are judged in ascending order, up to the one that stops the write: the
state, whether a number was clamped, and how many entries were not written (R175, R176). -/
def writeEntries (t : Table) : Nat → Nat → List Byte → State → State × Bool × Nat
  | 0, _, _, s => (s, false, 0)
  | count + 1, i, p, s =>
    match writeEntry t i p s with
    | none => (s, false, count + 1)
    | some (s1, c) =>
      let r := writeEntries t count (i + 1) (p.drop (writeSize t)) s1
      (r.1, c || r.2.1, r.2.2)

/-! ### What a write brings about, as one event after its last entry (R101, R176) -/

/-- A reference is SILENT with its linger counter at 0 (R26). -/
def silenceRef (r : RefId) (s : State) : State :=
  setRef r { s.tracker.refs[r] with activity := .silent, linger := 0 } s

/-- A REFERENCE write: the changes of bulk delay, then those of mode (R26, R29, R176). Where one write
changes several bulk delays the spec gives no order among them; the model takes one invalidation for each
reference, in ascending order, which decides which waiting pair takes which DRAINING slot that is freed
(DESIGN CHOICE, log 24). -/
def referenceEvent (before s : State) : State :=
  let s1 := allRefs.foldl (fun x r =>
    if before.tracker.refs[r].delay = s.tracker.refs[r].delay then x else delayChange r x) s
  let s2 := allRefs.foldl (fun x r =>
    match s.tracker.refs[r].mode with
    | .off => silenceRef r x
    | .on => x
    | .onShort => x) s1
  allocEvent (wantedPairs before) s2

/-- The degrade watch is disabled: counters 0, flags cleared (R97). -/
def clearDegrade (s : State) : State :=
  { s with ctl := { s.ctl with
      beams := Vector.ofFn fun b => { s.ctl.beams[b] with degCtr := 0, degraded := false } } }

/-- A TUNING write: the hold-off condition, the applied attenuations and the degrade watch take their
entries at once (R97, R151, R161). -/
def tuningEvent (s : State) : State :=
  let s1 := updateHold (lowerAtt (attMax s.cmd.tuning) s)
  if degradeCode s.cmd.tuning = 0 then clearDegrade s1 else s1

/-- What a write of a table brings about in the other blocks, given the state before it. -/
def tableEvent (t : Table) (before s : State) : State :=
  match t with
  | .beam => allocEvent (wantedPairs before) s
  | .reference => referenceEvent before s
  | .pairmask => allocEvent (wantedPairs before) s
  | .tuning => tuningEvent s
  | .monitor => rehandMonitors s
  | .step => s
  | .threshold => s
  | .meter => s

/-! ### TABLE WRITE (R174, R175) -/

/-- A count field, 0 meaning up to the end of the table. -/
def resolveCount (t : Table) (first count : Nat) : Nat :=
  if count = 0 then tableEntries t - first else count

/-- The reply of a TABLE WRITE: the status and the count not written (R175). -/
def writeReply (m : Msg) (st : Status) (notWritten : Nat) : Msg := replyMsg m st [u8 notWritten]

/-- The header of a TABLE WRITE names a table: it is judged, and the entries are written (R174 to
R176). The notices that its own effects raise are appended before its reply, where R163 and R183 allow
either (DESIGN CHOICE, log 20). -/
def writeTable (t : Table) (m : Msg) (s : State) : State :=
  let first := (byteAt m.payload 1).toNat
  let n := resolveCount t first (byteAt m.payload 2).toNat
  if (byteAt m.payload 3).toNat ≠ writeSize t then completeReply (writeReply m .badLength n) s
  else if tableEntries t ≤ first then completeReply (writeReply m .badValue n) s
  else if m.payload.length ≠ 4 + n * writeSize t then completeReply (writeReply m .badLength n) s
  else
    let r := writeEntries t n first (m.payload.drop 4) s
    let st : Status := if r.2.2 ≠ 0 then .badValue else if r.2.1 then .clamped else .ok
    completeReply (writeReply m st r.2.2) (tableEvent t s r.1)

/-- TABLE WRITE is executed (R174). -/
def runTableWrite (m : Msg) (s : State) : State :=
  if m.payload.length < 4 then completeReply (writeReply m .badLength 0) s
  else
    match tableOf (byteAt m.payload 0) with
    | none => completeReply (writeReply m .badValue (byteAt m.payload 2).toNat) s
    | some t => writeTable t m s

/-! ### TABLE READ (R177, R194) -/

/-- An entry of a table as a read returns it (R194). -/
def readEntry (s : State) (t : Table) (i : Nat) : List Byte :=
  match t with
  | .beam =>
    match s.router.beams[i]? with
    | some x => [beamModeCode x.mode, flagCode x.suppress, flagCode x.comfort]
    | none => []
  | .reference =>
    match s.tracker.refs[i]? with
    | some x => [refModeCode x.mode, meterCode x.meter, u8 x.delay]
    | none => []
  | .pairmask =>
    match s.alloc.mask[i]? with
    | some x => [flagCode x]
    | none => []
  | .step =>
    match s.core.step[i]? with
    | some x => [x]
    | none => []
  | .tuning =>
    match s.cmd.tuning[i]? with
    | some x => u16 x
    | none => []
  | .threshold =>
    match s.ctl.thresholds[i]? with
    | some x => [x]
    | none => []
  | .meter =>
    match s.play.meters[i]? with
    | some x => u24 x.ceiling ++ u16 x.clamps
    | none => []
  | .monitor =>
    match s.out.monitors[i]? with
    | some x => [monKindCode x.kind, x.index, x.point]
    | none => []

/-- The reply of a TABLE READ by the values that stand (R167, R177). -/
def tableReadReply (m : Msg) (s : State) : Msg :=
  if m.payload.length ≠ 3 then replyMsg m .badLength []
  else
    match tableOf (byteAt m.payload 0) with
    | none => replyMsg m .badValue []
    | some t =>
      let first := (byteAt m.payload 1).toNat
      let n := resolveCount t first (byteAt m.payload 2).toNat
      if tableEntries t ≤ first then replyMsg m .badValue []
      else if tableEntries t < first + n then replyMsg m .badValue []
      else replyMsg m .ok ([tableId t, u8 first, u8 n] ++
        (List.range n).flatMap fun i => readEntry s t (first + i))

end Sys2Proof.Machine
end

