-- ==== Sys2Proof/Machine/Commands.lean ====
section
/-! DEFINITION. The host's commands beside the tables: taking the head message (R162), the judgment of
each kind (R167), the report replies (R179, R185, R187, R188, R192, R193), and the commands' effects
(R98, R114, R134, R135, R140 to R144, R170 to R173, R185, R186). -/

namespace Sys2Proof.Machine

/-! ### Taking a command (R162) -/

/-- An IDLE Command Unit that has not had its turn at this boundary takes the head message, if it is one
that `pred` picks and the reply queue has room, and executes it (R161, R162). -/
def takeIf (pred : Msg → Bool) (act : Msg → State → State) (s : State) : State :=
  match s.cmd.state, s.cmd.queue with
  | .idle, m :: rest =>
    if s.cmd.turn && s.cmd.replies.length < replyLimit && pred m then
      act m (updateHold { s with cmd := { s.cmd with queue := rest, turn := false } })
    else s
  | _, _ => s

/-- A command whose payload must have a length (R167, R193). -/
def withLength (n : Nat) (act : Msg → State → State) (m : Msg) (s : State) : State :=
  if m.payload.length = n then act m s else answer m .badLength s

/-- A command that names no operand and is answered OK. -/
def done (f : State → State) (m : Msg) (s : State) : State := answer m .ok (f s)

/-! ### RUN, STOP and SET TAIL (R170 to R172) -/

/-- A beam's record as RUN takes effect (R77, R82, R85). -/
def beamRun (rec : CtlBeam) : CtlBeam :=
  { rec with talk := .idle, hangCtr := 0, erle := 0, divCtr := 0, degCtr := 0 }

/-- Every reference is SILENT with its linger counter at 0 (R26). -/
def silenceAll (s : State) : State := allRefs.foldl (fun s r => silenceRef r s) s

/-- The operating state. -/
def setOp (op : OpState) (s : State) : State := { s with cmd := { s.cmd with op := op } }

/-- RUN takes effect (R170); in RUNNING it has none. -/
def startRunning (s : State) : State :=
  match s.cmd.op with
  | .running => s
  | .config =>
    let s1 := silenceAll (setOp .running s)
    { s1 with ctl := { s1.ctl with beams := Vector.ofFn fun b => beamRun s1.ctl.beams[b] } }

/-- STOP takes effect (R115, R171); in CONFIG it has none. -/
def stopRunning (s : State) : State :=
  match s.cmd.op with
  | .config => s
  | .running => stopPool (silenceAll (setOp .config s))

/-- A slot of the pool is DRAINING. -/
def anyDraining (s : State) : Bool := (lowestDraining s).isSome

/-- The tail changes (R74, R77, R116). -/
def changeTail (code : Fin 6) (s : State) : State :=
  { s with
    core := { s.core with
      tail := code, mem := []
      slots := Vector.ofFn fun sl =>
        { s.core.slots[sl] with origin := .cold, clamped := false } }
    ctl := { s.ctl with slots := Vector.replicate 128 CtlSlot.powerOn } }

/-- SET TAIL is judged (R116, R172). -/
def judgeSetTail (m : Msg) (s : State) : State :=
  if h : (byteAt m.payload 0).toNat < 6 then
    match s.cmd.op with
    | .running => answer m .state s
    | .config =>
      if anyDraining s then answer m .busy s
      else done (changeTail ⟨(byteAt m.payload 0).toNat, h⟩) m s
  else answer m .badValue s

/-! ### SOFT RESET (R173) -/

/-- The Link Ports through a soft reset (R5, R10, R16, R18). -/
def resetPorts (p : Ports) : Ports :=
  { p with arrayAsm := Assembly.empty, codecAsm := Assembly.empty, steerErrors := 0 }

/-- The Playback Path through a soft reset (R9, R20). -/
def resetPlay (keep : Bool) (p : Playback) : Playback :=
  { p with
    meters := Vector.ofFn fun m => ⟨if keep then p.meters[m].ceiling else Meter.powerOn.ceiling, 0⟩
    clamped := false }

/-- A reference through a soft reset (R21). -/
def resetRef (keep : Bool) (r : Reference) : Reference :=
  if keep then { r with activity := .silent, linger := 0, level := 0 } else Reference.powerOn

/-- A beam record through a soft reset. The frozen flag is cleared whatever the keep flag, as the table of
R30, R39 and the first sentence of R98's last paragraph say; the second sentence of that paragraph counts a
SOFT RESET with its keep flag at 1 among what keeps the flag, and the model does not follow it (DESIGN
CHOICE, log 21). -/
def resetBeam (keep : Bool) (b : Beam) : Beam :=
  if keep then { b with frozen := false, tag := 32 } else Beam.powerOn

/-- The store through a soft reset (R146). -/
def resetStore (st : Store) : Store :=
  { st with
    fills := [], captures := [], host := none
    port := st.port.map fun t => { t with abandoned := true } }

/-- The accepted SOFT RESET, up to its reply (R173). The outputs of the block at hand stay as they are, and
those of the next block are zero (R44; log 14). -/
def softResetState (keep : Bool) (s : State) : State :=
  { s with
    ports := resetPorts s.ports
    play := resetPlay keep s.play
    tracker := ⟨Vector.ofFn fun r => resetRef keep s.tracker.refs[r], Vector.replicate 8 []⟩
    router := ⟨Vector.ofFn fun b => resetBeam keep s.router.beams[b], []⟩
    banks := Banks.powerOn
    core := { Canceller.powerOn with
      tail := if keep then s.core.tail else Canceller.powerOn.tail
      step := if keep then s.core.step else stepDefaults }
    ctl := { Controller.powerOn with
      thresholds := if keep then s.ctl.thresholds else Controller.powerOn.thresholds }
    alloc := { Allocator.powerOn with
      mask := if keep then s.alloc.mask else Allocator.powerOn.mask }
    store := resetStore s.store
    supp := Suppressor.powerOn
    out := { Output.powerOn with
      monitors := if keep then s.out.monitors else Output.powerOn.monitors
      current := OutBlock.silent s.blk.count
      earlier := heldOutputs s (outputsAtHand s)
      lockHist := s.out.lockHist }
    cmd := { Command.powerOn with
      tuning := if keep then s.cmd.tuning else tuningDefaults
      loadTaps := s.cmd.loadTaps }
    ev := Events.powerOn
    blk := Block.discarded s.blk.count }

/-- SOFT RESET is judged (R173). -/
def judgeSoftReset (m : Msg) (s : State) : State :=
  match flagOf (byteAt m.payload 0) with
  | none => answer m .badValue s
  | some keep => answer m .ok (softResetState keep s)

/-! ### Events (R185, R186) -/

/-- The reply of EVENT READ (R185, R193). -/
def eventReadReply (m : Msg) (s : State) : Msg :=
  if m.payload.length ≠ 0 then replyMsg m .badLength []
  else replyMsg m .ok ([s.ev.status, s.ev.mask, u8 (pendingCode s.ev), s.ev.causes] ++
    u16 s.ev.diverged.toNat ++ u16 s.ev.degraded.toNat)

/-- EVENT CLEAR's effect (R185). -/
def clearEvents (set : Byte) (s : State) : State :=
  { s with ev := { s.ev with
      status := s.ev.status &&& ~~~set
      diverged := if inSet set (sourceBit .diverged) then 0 else s.ev.diverged
      degraded := if inSet set (sourceBit .degraded) then 0 else s.ev.degraded
      causes := if inSet set (sourceBit .msgError) then 0 else s.ev.causes } }

/-- EVENT SETUP is judged (R186). -/
def judgeEventSetup (m : Msg) (s : State) : State :=
  match noticeModeOf (byteAt m.payload 1) with
  | none => answer m .badValue s
  | some mode => done
      (fun s => { s with ev := { s.ev with mask := byteAt m.payload 0, mode := mode } }) m s

/-! ### FREEZE (R98) -/

/-- A named beam takes the setting; a beam newly frozen has its divergence counter at 0 (R98). -/
def freezeBeam (on : Bool) (b : BeamId) (s : State) : State :=
  let beam := s.router.beams[b]
  let s1 := setBeam b { beam with frozen := on } s
  if on && !beam.frozen then setCtlBeam b { s.ctl.beams[b] with divCtr := 0 } s1 else s1

/-- FREEZE is judged (R98, R180). -/
def judgeFreeze (m : Msg) (s : State) : State :=
  match flagOf (byteAt m.payload 2) with
  | none => answer m .badValue s
  | some on => done (fun s => allBeams.foldl (fun s b =>
      if inSet (beamSetAt m.payload 0) b.val then freezeBeam on b s else s) s) m s

/-! ### The store's commands (R134, R135, R140 to R144) -/

/-- STORE FLUSH's effect (R134). -/
def flushStore (s : State) : State := invalidateSets (fun _ => true) s

/-- The sets that a STORE INVALIDATE covers (R135). -/
def coveredSets (beams : BitVec 16) (refs : Byte) (p : SetId) : Bool :=
  inSet beams (pairBeam p).val && inSet refs (pairRef p).val

/-- STORE ENABLE's effect (R140). -/
def enableStore (s : State) : State :=
  setFirstError none (setErrors 0 (setEnabled true s))

/-- A host access waits for the port and the unit is in PORT_WAIT (R145, R164). -/
def waitPort (a : HostAccess) (s : State) : State :=
  { s with
    store := { s.store with host := some ⟨a, s.blk.count⟩ }
    cmd := { s.cmd with state := .portWait } }

/-- ENTRY READ is judged (R144, R167). -/
def judgeEntryRead (m : Msg) (s : State) : State :=
  let w := (byteAt m.payload 1).toNat
  let c := (byteAt m.payload 2).toNat
  if hp : (byteAt m.payload 0).toNat < 128 then
    if hw : w < 2 then
      if 63 < c then answer m .badValue s
      else if s.store.enabled then waitPort (.read ⟨(byteAt m.payload 0).toNat, hp⟩ ⟨w, hw⟩ c) s
      else answer m .disabled s
    else answer m .badValue s
  else answer m .badValue s

/-- ENTRY LOAD's effect: the chunk's taps are replaced and the chunk joins the written set (R141). -/
def loadChunk (c : Nat) (taps : List Byte) (s : State) : State :=
  { s with cmd := { s.cmd with
      loadTaps := chunkWrite s.cmd.loadTaps c taps
      loadWritten := setInsert s.cmd.loadWritten c } }

/-- ENTRY LOAD is judged (R141). -/
def judgeEntryLoad (m : Msg) (s : State) : State :=
  let c := (byteAt m.payload 0).toNat
  if 63 < c then answer m .badValue s else done (loadChunk c (m.payload.drop 1)) m s

/-- Every chunk is in the written set (R142). -/
def fullyLoaded (s : State) : Bool := s.cmd.loadWritten == BitVec.allOnes 64

/-- ENTRY COMMIT is judged (R142, R167). -/
def judgeEntryCommit (m : Msg) (s : State) : State :=
  let tag := (byteAt m.payload 1).toNat
  let q := (byteAt m.payload 2).toNat
  let check := BitVec.ofNat 16 (beNat [byteAt m.payload 3, byteAt m.payload 4])
  if hp : (byteAt m.payload 0).toNat < 128 then
    if 32 < tag then answer m .badValue s
    else if !s.store.enabled then answer m .disabled s
    else if !fullyLoaded s then answer m .state s
    else if !balances s.cmd.loadTaps tag q check then answer m .checkFail s
    else waitPort (.commit ⟨(byteAt m.payload 0).toNat, hp⟩ tag q check) s
  else answer m .badValue s

/-! ### The reports (R187, R188) -/

/-- The part revision (R188). -/
def partRevision : Byte := 1

/-- How many slots of the pool are in a state that `which` picks (R118). -/
def countSlots (s : State) (which : SlotState → Bool) : Nat :=
  (allSlots.filter fun sl => decide (sl.val < slotCount s) && which s.alloc.slots[sl]).length

/-- A slot state is FREE. -/
def isFree : SlotState → Bool
  | .free => true
  | .running _ => false
  | .draining _ _ _ => false

/-- A slot state is RUNNING. -/
def isRunning : SlotState → Bool
  | .free => false
  | .running _ => true
  | .draining _ _ _ => false

/-- A slot state is DRAINING. -/
def isDraining : SlotState → Bool
  | .free => false
  | .running _ => false
  | .draining _ _ _ => true

/-- The bytes of the first-error record: presence, set, way, tag and cause (R192, R193). -/
def firstErrorBytes : Option FirstError → List Byte
  | none => [0, 255, 255, 255, Config.emptyCause]
  | some e => [1, u8 e.set.val, u8 e.way.val, u8 e.tag, causeCode e.cause]

/-- The reply of STATUS READ (R188, R193). -/
def statusReadReply (m : Msg) (s : State) : Msg :=
  if m.payload.length ≠ 0 then replyMsg m .badLength []
  else replyMsg m .ok
    ([opCode s.cmd.op, u8 s.core.tail.val, u8 (slotCount s), u8 (countSlots s isFree),
      u8 (countSlots s isRunning), u8 (countSlots s isDraining), u8 s.alloc.waiting.length,
      lockCode s.ports.arrayRx.lock, lockCode s.ports.codecRx.lock, flagCode s.store.enabled,
      u8 s.store.errors] ++ firstErrorBytes s.store.firstError ++
      [u8 s.store.fills.length, u8 s.store.captures.length, u8 s.cmd.queue.length] ++
      u16 s.ports.steerErrors ++ [partRevision])

/-- The eleven bytes of a beam in a HEALTH READ (R187, R193). -/
def healthBytes (s : State) (b : BeamId) : List Byte :=
  let x := s.ctl.beams[b]
  [talkCode x.talk] ++ s16 x.erle ++ u16 x.noise ++ u16 s.core.micLu[b] ++
    [flagCode x.degraded, u8 x.divCount,
      u8 (runningSlots (fun p => pairBeam p == b) s).length, s.ctl.thresholds[16]]

/-- The reply of HEALTH READ (R179, R187). -/
def healthReadReply (m : Msg) (s : State) : Msg :=
  let first := (byteAt m.payload 0).toNat
  let n := (byteAt m.payload 1).toNat
  if m.payload.length ≠ 2 then replyMsg m .badLength []
  else if n = 0 ∨ 16 < n ∨ 15 < first ∨ 16 < first + n then replyMsg m .badValue []
  else replyMsg m .ok ([u8 first, u8 n] ++
    (allBeams.filter fun b => decide (first ≤ b.val ∧ b.val < first + n)).flatMap (healthBytes s))

/-- The pair index byte of a slot: 255 for a FREE slot (R192). -/
def pairByte : SlotState → Byte
  | .free => 255
  | .running p => u8 p.val
  | .draining p _ _ => u8 p.val

/-- The seven bytes of a slot in a SLOT READ (R187, R193). -/
def slotBytes (s : State) (sl : SlotId) : List Byte :=
  [slotStateCode s.alloc.slots[sl], pairByte s.alloc.slots[sl], phaseCode s.ctl.slots[sl].phase,
    originCode s.core.slots[sl].origin, flagCode (fillPending s sl)] ++ u16 s.ctl.slots[sl].run

/-- The reply of SLOT READ (R179, R187). -/
def slotReadReply (m : Msg) (s : State) : Msg :=
  let first := (byteAt m.payload 0).toNat
  let n := (byteAt m.payload 1).toNat
  if m.payload.length ≠ 2 then replyMsg m .badLength []
  else if n = 0 ∨ 16 < n ∨ slotCount s ≤ first ∨ slotCount s < first + n then
    replyMsg m .badValue []
  else replyMsg m .ok ([u8 first, u8 n] ++
    (allSlots.filter fun sl => decide (first ≤ sl.val ∧ sl.val < first + n)).flatMap (slotBytes s))

/-- A report is answered by the values that stand, and the boundary remembers it, so that its values are
those after every event of the boundary (R177, R179). -/
def report (reply : Msg → State → Msg) (m : Msg) (s : State) : State :=
  completeReply (reply m s) { s with blk := { s.blk with report := some m } }

/-! ### One definition per kind of the catalogue (R169) -/

/-- STATUS READ. -/
def runStatusRead (m : Msg) (s : State) : State := report statusReadReply m s
/-- RUN. -/
def runRun (m : Msg) (s : State) : State := withLength 0 (done startRunning) m s
/-- STOP. -/
def runStop (m : Msg) (s : State) : State := withLength 0 (done stopRunning) m s
/-- SET TAIL. -/
def runSetTail (m : Msg) (s : State) : State := withLength 1 judgeSetTail m s
/-- SOFT RESET. -/
def runSoftReset (m : Msg) (s : State) : State := withLength 1 judgeSoftReset m s
/-- TABLE READ. -/
def runTableRead (m : Msg) (s : State) : State := report tableReadReply m s
/-- EVENT READ. -/
def runEventRead (m : Msg) (s : State) : State := report eventReadReply m s
/-- EVENT CLEAR. -/
def runEventClear (m : Msg) (s : State) : State :=
  withLength 1 (done (clearEvents (byteAt m.payload 0))) m s
/-- EVENT SETUP. -/
def runEventSetup (m : Msg) (s : State) : State := withLength 2 judgeEventSetup m s
/-- HEALTH READ. -/
def runHealthRead (m : Msg) (s : State) : State := report healthReadReply m s
/-- SLOT READ. -/
def runSlotRead (m : Msg) (s : State) : State := report slotReadReply m s
/-- FREEZE. -/
def runFreeze (m : Msg) (s : State) : State := withLength 3 judgeFreeze m s
/-- STORE FLUSH. -/
def runStoreFlush (m : Msg) (s : State) : State := withLength 0 (done flushStore) m s
/-- STORE ENABLE. -/
def runStoreEnable (m : Msg) (s : State) : State := withLength 0 (done enableStore) m s
/-- STORE INVALIDATE. -/
def runStoreInvalidate (m : Msg) (s : State) : State :=
  withLength 3
    (done (invalidateSets (coveredSets (beamSetAt m.payload 0) (byteAt m.payload 2)))) m s
/-- ENTRY READ. -/
def runEntryRead (m : Msg) (s : State) : State := withLength 3 judgeEntryRead m s
/-- ENTRY LOAD. -/
def runEntryLoad (m : Msg) (s : State) : State := withLength 109 judgeEntryLoad m s
/-- ENTRY COMMIT. -/
def runEntryCommit (m : Msg) (s : State) : State := withLength 5 judgeEntryCommit m s
/-- A kind outside the catalogue (R167). -/
def runUnknown (m : Msg) (s : State) : State := answer m .unknown s

/-- What carries out a command of a kind of the catalogue (R169). -/
def catalogue (kind : Byte) : Option (Msg → State → State) :=
  match kind.toNat with
  | 0x01 => some runStatusRead
  | 0x02 => some runRun
  | 0x03 => some runStop
  | 0x04 => some runSetTail
  | 0x05 => some runSoftReset
  | 0x10 => some runTableWrite
  | 0x11 => some runTableRead
  | 0x20 => some runEventRead
  | 0x21 => some runEventClear
  | 0x22 => some runEventSetup
  | 0x28 => some runHealthRead
  | 0x29 => some runSlotRead
  | 0x30 => some runFreeze
  | 0x40 => some runStoreFlush
  | 0x41 => some runStoreEnable
  | 0x42 => some runStoreInvalidate
  | 0x43 => some runEntryRead
  | 0x44 => some runEntryLoad
  | 0x45 => some runEntryCommit
  | _ => none

/-- A taken command is judged by its kind and executed (R163, R167). -/
def runCommand (m : Msg) (s : State) : State :=
  match catalogue m.kind with
  | some f => f m s
  | none => runUnknown m s

/-- The Command Unit takes and executes the head message, whatever it is (R162, R163). -/
def takeCommand (s : State) : State := takeIf (fun _ => true) runCommand s

/-- The same, with the reply kept for its own place in the boundary (R163). The command's own notices are
appended as it is executed; the reply of an accepted SOFT RESET, which stands in its queue alone, is not
kept (R173). -/
def takeKeeping (s : State) : State :=
  if s.cmd.replies.length < replyLimit then
    let t := takeCommand { s with cmd := { s.cmd with replies := [] } }
    if t.blk.live then
      { t with
        cmd := { t.cmd with replies := (s.cmd.replies ++ t.cmd.replies.dropLast).take replyLimit }
        blk := { t.blk with reply := t.cmd.replies.getLast? } }
    else takeCommand s
  else s

/-- The reply that the boundary has kept is appended, or held (R163). -/
def appendKept (s : State) : State :=
  match s.blk.reply with
  | some r => completeReply r { s with blk := { s.blk with reply := none } }
  | none => s

/-- The unit has been considered at this boundary, and takes nothing more at it (R162, R164). -/
def endTurn (s : State) : State := { s with cmd := { s.cmd with turn := false } }

/-- The command event of a boundary: the unit takes the head command, or takes nothing (R162). -/
def commandEvent (keep : Bool) (s : State) : State :=
  endTurn (if keep then takeKeeping s else takeCommand s)

/-- The reply of a report command by the values that stand. -/
def reportReply (m : Msg) (s : State) : Option Msg :=
  match m.kind.toNat with
  | 0x01 => some (statusReadReply m s)
  | 0x11 => some (tableReadReply m s)
  | 0x20 => some (eventReadReply m s)
  | 0x28 => some (healthReadReply m s)
  | 0x29 => some (slotReadReply m s)
  | _ => none

/-- The last message of a kind in a queue, replaced. -/
def replaceLast (kind : Byte) (r : Msg) (q : List Msg) : List Msg :=
  (q.reverse.foldl (fun (acc : Bool × List Msg) m =>
    if !acc.1 && m.kind == kind then (true, r :: acc.2) else (acc.1, m :: acc.2)) (false, [])).2

/-- At the end of a boundary, the reply of a report taken at it carries the values that stand after every
event of the boundary (R177, R179). -/
def refreshReport (s : State) : State :=
  match s.blk.report with
  | none => s
  | some m =>
    match reportReply m s with
    | none => s
    | some r =>
      match s.cmd.state with
      | .replyHeld _ => { s with cmd := { s.cmd with state := .replyHeld r } }
      | .idle | .portWait =>
        { s with cmd := { s.cmd with replies := replaceLast r.kind r s.cmd.replies } }

end Sys2Proof.Machine
end

