-- ==== Sys2Proof/Machine/Boundary.lean ====
section
/-! DEFINITION. The block boundary (R60, R78): the work that every block does for block n, and the events
of the boundary, in any order the spec leaves open (R26, R90, R94, R101, R110, R136, R140, R146, R151,
R163, R164, R173, R183). -/

namespace Sys2Proof.Machine

/-! ### The settings in force before the boundary's events -/

/-- The number of the boundary rises, the settings in force for the block are taken, and the Command Unit's
turn comes (R162). -/
def snapshotBlock (s : State) : State :=
  { s with
    cmd := { s.cmd with turn := true }
    blk := { Block.discarded (s.blk.count + 1) with
      live := true, op := s.cmd.op, tuning := s.cmd.tuning, step := s.core.step
      thresholds := s.ctl.thresholds, beams := s.router.beams
      refModes := Vector.ofFn fun r => s.tracker.refs[r].mode
      counted := false } }

/-! ### Analysis and references (R23, R24, R25, R40, R55, R56) -/

/-- The analysis banks take their input blocks: beams from the bypass lines' newest 48 samples, references
from the delay lines at their bulk delays; the reference levels are computed (R23, R24, R40). -/
def analyseBlock (s : State) : State :=
  let bh := Vector.ofFn fun b : BeamId => bankPush s.banks.beamHist[b] (lineBlock s.out.bypass[b] 0)
  let rh := Vector.ofFn fun r : RefId =>
    bankPush s.banks.refHist[r] (lineBlock s.tracker.lines[r] s.tracker.refs[r].delay)
  let refBands := Vector.ofFn fun r : RefId => analyse rh[r]
  { s with
    banks := { s.banks with
      beamHist := bh, refHist := rh
      beamSynth := Vector.ofFn fun b => synthAge s.banks.beamSynth[b]
      monSynth := Vector.ofFn fun t => synthAge s.banks.monSynth[t] }
    tracker := { s.tracker with
      refs := Vector.ofFn fun r =>
        { s.tracker.refs[r] with level := lu (blockEnergy refBands[r]) } }
    blk := { s.blk with
      refBands := refBands
      work := Vector.ofFn fun b => { s.blk.work[b] with micBands := analyse bh[b] } } }

/-- The decision of a reference for the block (R25, R26). -/
def decideRef (s : State) (r : RefId) : Activity × Nat :=
  let ref := s.tracker.refs[r]
  match s.blk.op, ref.mode with
  | .config, _ => (.silent, 0)
  | .running, .off => (.silent, 0)
  | .running, mode =>
    decideActivity ref.activity ref.linger
      (effectiveLinger mode (lingerBlocks s.blk.tuning) (tailLen s))
      (decide (actThreshold s.blk.tuning ≤ ref.level))

/-- The Reference Tracker decides the activity states of the block (R25). -/
def decideBlock (s : State) : State :=
  { s with blk := { s.blk with decided := Vector.ofFn fun r => decideRef s r } }

/-- Stage 1 of the Core: histories and window powers (R55, R56). -/
def pushHistories (s : State) : State :=
  let hist := Vector.ofFn fun r => pushHistory s.core.hist[r] s.blk.refBands[r]
  { s with core := { s.core with
      hist := hist
      power := Vector.ofFn fun r => Vector.ofFn fun j => windowPower (tailLen s) hist[r] j } }

/-! ### Estimates, errors and levels (R49, R57 to R59) -/

/-- The slots of the block: those RUNNING before the boundary's events, with their pairs (R57), with the
phase and counts they hold for the block (R78). -/
def slotsOfBlock (s : State) : List BlockSlot :=
  allSlots.filterMap fun sl =>
    match s.alloc.slots[sl] with
    | .running p =>
      let c := s.ctl.slots[sl]
      some ⟨sl, p, false, c.phase, c.counter, c.run, false⟩
    | .free => none
    | .draining _ _ _ => none

/-- The slots of the block that serve a beam, with their pairs. -/
def slotsOfBeam (slots : List BlockSlot) (b : BeamId) : List (SlotId × PairId) :=
  (slots.filter fun x => pairBeam x.pair == b).map fun x => (x.slot, x.pair)

/-- Stages 2 and 3 of the Core for a beam: Y, E and the three levels (R49, R58, R59). -/
def estimateBeam (s : State) (slots : List BlockSlot) (b : BeamId) : BlockBeam :=
  let d := s.blk.work[b].micBands
  let y := beamEstimate s.core.mem (tailLen s) s.core.hist (slotsOfBeam slots b)
  let e := beamError d y
  { s.blk.work[b] with
    mic := lu (blockEnergy d), echo := lu (blockEnergy y), res := lu (blockEnergy e)
    echoBands := y, errBands := e }

/-- Stages 2 and 3 of the Core (R60). -/
def estimateBlock (s : State) : State :=
  let slots := slotsOfBlock s
  let work := Vector.ofFn fun b => estimateBeam s slots b
  { s with
    core := { s.core with micLu := Vector.ofFn fun b => work[b].mic }
    blk := { s.blk with slots := slots, work := work } }

/-! ### The Controller's stages 1 to 5 (R78) -/

/-- Far-end presence (R79), with the references that the Controller sees ACTIVE. -/
def farEnd (active : RefId → Bool) (slots : List BlockSlot) (b : BeamId) : Bool :=
  slots.any fun x => pairBeam x.pair == b && active (pairRef x.pair)

/-- No slot of the block that serves the beam is in WARMUP (R80). -/
def noneWarm (slots : List BlockSlot) (b : BeamId) : Bool :=
  slots.all fun x => pairBeam x.pair != b || x.phase != .warmup

/-- Stages 1 to 4 for a beam at a boundary for which the Array Link is LOCKED: its record, and what is
handed on for the block. -/
def controlBeam (active : RefId → Bool) (s : State) (b : BeamId) : CtlBeam × BlockBeam :=
  let w := s.blk.work[b]
  let rec0 := s.ctl.beams[b]
  let far := farEnd active s.blk.slots b
  let near := nearEnd s.blk.tuning (noneWarm s.blk.slots b) rec0 w.mic w.echo
  let rec1 := beamStages s.blk.tuning far near w.mic w.res rec0
  (rec1, { w with
    far := far, near := near, talk := rec1.talk, erle := rec1.erle
    frozen := s.blk.beams[b].frozen, divCtr := rec0.divCtr, degCtr := rec0.degCtr
    degraded := rec0.degraded })

/-- The same at a boundary for which the Array Link is not LOCKED (R82). -/
def controlUnlocked (s : State) (b : BeamId) : CtlBeam × BlockBeam :=
  let rec1 := beamUnlocked s.ctl.beams[b]
  (rec1, { s.blk.work[b] with
    far := false, near := false, talk := .idle, erle := rec1.erle
    frozen := s.blk.beams[b].frozen, divCtr := rec1.divCtr, degCtr := rec1.degCtr
    degraded := rec1.degraded })

/-- The noise floor of a beam rises at the boundary, by its record before it (R50). -/
def floorRose (s : State) (b : BeamId) : Bool :=
  s.ports.arrayRx.lock == .locked &&
    floorRises s.ctl.beams[b].noise s.ctl.beams[b].rise s.blk.work[b].mic (noiseRise s.blk.tuning)

/-- Stages 1 to 4 of the Controller (R78). -/
def controlBlock (active : RefId → Bool) (s : State) : State :=
  let r : Vector (CtlBeam × BlockBeam) 16 := Vector.ofFn fun b =>
    match s.ports.arrayRx.lock with
    | .locked => controlBeam active s b
    | .seeking => controlUnlocked s b
  { s with
    ctl := { s.ctl with beams := Vector.ofFn fun b => r[b].1 }
    blk := { s.blk with
      work := Vector.ofFn fun b => r[b].2
      rose := allBeams.filter (floorRose s) } }

/-- A slot of the block is granted adaptation (R83). -/
def granted (s : State) (x : BlockSlot) : Bool :=
  let w := s.blk.work[pairBeam x.pair]
  w.talk == .far && !w.frozen && s.ports.arrayRx.lock == .locked && phaseSteps s.blk.step x.phase

/-- Stage 5 of the Controller: the grants (R83). -/
def grantBlock (s : State) : State :=
  { s with blk := { s.blk with
      slots := s.blk.slots.map fun x => { x with granted := granted s x } } }

/-! ### The Core's stage 5 (R61 to R65) -/

/-- What the update of a slot of the block needs. -/
def updateInput (s : State) (x : BlockSlot) : UpdateInput :=
  { tailLen := tailLen s, slot := x.slot.val, step := s.blk.step, phase := x.phase
    delta := regDelta (regR s.blk.tuning), err := s.blk.work[pairBeam x.pair].errBands
    hist := s.core.hist[pairRef x.pair], power := s.core.power[pairRef x.pair] }

/-- The granted slots are updated: the coefficient memory, and the slots with their clamped flags. -/
def updateSlots (s : State) : List BlockSlot → TapMem → TapMem × List BlockSlot
  | [], mem => (mem, [])
  | x :: xs, mem =>
    let u := if x.granted then updateSlot (updateInput s x) mem else (mem, false)
    let rest := updateSlots s xs u.1
    (rest.1, { x with clamped := u.2 } :: rest.2)

/-- The clamped flag of a slot for the block: off for a slot not updated in it (R53, R64). -/
def clampedIn (slots : List BlockSlot) (sl : SlotId) : Bool :=
  slots.any fun x => x.slot == sl && x.clamped

/-- The Core updates every slot that adapts and hands over the clamped flags (R61, R65). -/
def updateBlock (s : State) : State :=
  let r := updateSlots s s.blk.slots s.core.mem
  { s with
    core := { s.core with
      mem := r.1
      slots := Vector.ofFn fun sl => { s.core.slots[sl] with clamped := clampedIn r.2 sl } }
    blk := { s.blk with slots := r.2 } }

/-- For which of the newest blocks the Array Link was LOCKED (R7, R156). -/
def pushLock (s : State) : State :=
  { s with out := { s.out with
      lockHist := ((s.ports.arrayRx.lock == .locked) :: s.out.lockHist).take 3 } }

/-- The work for the block up to the Core's update: analysis, levels, decisions, estimates, stages 1 to 5
of the Controller and the update (R60, R78). `sees` picks the references whose decided state the
Controller sees; the others it sees SILENT (R26). -/
def openBlock (sees : RefId → Bool) (s : State) : State :=
  let s1 := decideBlock (analyseBlock (pushLock (snapshotBlock s)))
  let s2 := estimateBlock (pushHistories s1)
  let active : RefId → Bool := fun r => sees r && s2.blk.decided[r].1 == .active
  updateBlock (grantBlock (controlBlock active s2))

/-! ### The events of the boundary -/

/-- The activity states reach the references, unless a write or a change of operating state at the
boundary has overtaken them (R25 to R27). -/
def applyDecided (s : State) : State :=
  { s with tracker := { s.tracker with
      refs := Vector.ofFn fun r =>
        { s.tracker.refs[r] with activity := (handed s r).1, linger := (handed s r).2 } } }

/-- The Reference Tracker hands the activity states to the Pair Allocator (R25, R28, R101). -/
def activityEvent (s : State) : State := allocEvent (wantedPairs s) (applyDecided s)

/-- The Playback Path reports the clamps of the block (R19). -/
def clippingEvent (s : State) : State :=
  if s.play.clamped then
    reportSource .clipping { s with play := { s.play with clamped := false } }
  else s

/-- The counting of a slot of the block (R87 to R89, R91): the phase and the clamp run are written unless
another block's event has set them at this boundary (R86). -/
def countSlot (s : State) (x : BlockSlot) : State :=
  if x.granted then
    let ph := countPhase s.blk.tuning s.blk.work[pairBeam x.pair].erle x.phase x.counter
    let c := s.ctl.slots[x.slot]
    let c1 := if s.blk.phaseSet.contains x.slot then c
      else { c with phase := ph.1, counter := ph.2 }
    let c2 := if s.blk.runSet.contains x.slot then c1
      else { c1 with run := countRun x.run x.clamped }
    setCtlSlot x.slot c2 s
  else s

/-- The clamp run of a slot of the block is complete (R91). -/
def runComplete (s : State) (x : BlockSlot) : Bool :=
  x.granted && x.clamped && decide (clampLimit s.blk.tuning ≤ countRun x.run x.clamped)

/-- The divergence counting reaches a beam (R92): FAR and not frozen. -/
def divergenceCounted (w : BlockBeam) : Bool := w.talk == .far && !w.frozen

/-- The divergence counter of a beam after the block (R92). -/
def divergenceCtr (s : State) (b : BeamId) : Nat :=
  countDivergence s.blk.tuning s.blk.work[b].divCtr s.blk.work[b].mic s.blk.work[b].res

/-- The counting of a beam's divergence (R92); a beam newly frozen at this boundary keeps the 0 that the
FREEZE set (R98). -/
def countBeam (s : State) (b : BeamId) : State :=
  if divergenceCounted s.blk.work[b] then
    setCtlBeam b { s.ctl.beams[b] with
      divCtr := if s.router.beams[b].frozen then 0 else divergenceCtr s b } s
  else s

/-- A beam's divergence counter reaches div_count at this boundary (R93). -/
def divergenceReached (s : State) (b : BeamId) : Bool :=
  divergenceCounted s.blk.work[b] && decide (divLimit s.blk.tuning ≤ divergenceCtr s b)

/-- The counting of the Controller's stage 6, once for the block (R78, R87 to R92). -/
def countBlock (s : State) : State :=
  if s.blk.counted then s
  else
    let s1 := s.blk.slots.foldl countSlot s
    let s2 := allBeams.foldl countBeam s1
    { s2 with blk := { s2.blk with
        counted := true
        clampDone := (s.blk.slots.filter (runComplete s)).map fun x => (x.slot, x.pair)
        divDone := allBeams.filter (divergenceReached s) } }

/-- The cold resets that the counting calls for, each slot once, and what they bring the beams (R91, R93,
R94). The spec gives no order among the resets of one boundary; the model resets the slots of all its
clamp runs and divergences in one ascending sweep of slot numbers, in which their fill requests queue, and
then tells the beams, clamp runs before divergences (DESIGN CHOICE, log 22). R91 gives what becomes of a slot
that is DRAINING or FREE when its reset comes; one that is RUNNING again by then is reset where it serves the pair
whose run it completed, and not where it serves another (DESIGN CHOICE, log 22). -/
def resetEvent (s : State) : State :=
  let s0 := countBlock s
  let cd := s0.blk.clampDone
  let dd := s0.blk.divDone
  let s1 := resetSlots (fun sl p => cd.contains (sl, p) || dd.contains (pairBeam p)) s0
  let s2 := cd.foldl (fun s x => clampBeam (pairBeam x.2) s) s1
  let s3 := dd.foldl (fun s b => divergeBeam b s) s2
  { s3 with blk := { s3.blk with
      runDone := cd.map (·.1) ++ s3.blk.runDone, clampDone := [], divDone := [] } }

/-- The degrade watch of a beam, from the counter and the flag before the boundary's events (R96). A code 0
written at this boundary has cleared the record, or will: it stays cleared, and what the block brings is
reported all the same (R97, R99). -/
def degradeBeam (limit : Nat) (s : State) (b : BeamId) : State :=
  let w := s.blk.work[b]
  if w.talk == .far then
    let r := countDegrade limit w.erle s.blk.thresholds[b.val].toNat w.degCtr w.degraded
    let s1 := if degradeCode s.cmd.tuning = 0 then s
      else setCtlBeam b { s.ctl.beams[b] with degCtr := r.1, degraded := r.2.1 } s
    if r.2.2 then reportDegraded b s1 else s1
  else s

/-- The degrade watch of stage 6, by the degrade time in force before the boundary's events (R96, R97,
R99). -/
def degradeEvent (s : State) : State :=
  match degradeTime (degradeCode s.blk.tuning) with
  | none => s
  | some limit => allBeams.foldl (degradeBeam limit) s

/-- An event of a block's own work, which a reset at the boundary discards (R173). -/
def whileLive (f : State → State) (s : State) : State := if s.blk.live then f s else s

/-- One event of the boundary; `keep` keeps the reply of the command taken for its own place. -/
def boundaryEvent (keep : Bool) (e : BoundaryEvent) (s : State) : State :=
  match e with
  | .activity => whileLive activityEvent s
  | .clipping => whileLive clippingEvent s
  | .counting => whileLive countBlock s
  | .resets => whileLive resetEvent s
  | .degrade => whileLive degradeEvent s
  | .suppress => whileLive suppressBlock s
  | .view => s
  | .steer => applySteer s
  | .complete => completeDue s
  | .grant => grantDue s
  | .command => commandEvent keep s
  | .reply => appendKept s

/-- The events of the blocks' own work, which every boundary holds. -/
def ownWork : List BoundaryEvent := [.activity, .clipping, .counting, .resets, .degrade, .suppress]

/-- The events of a boundary in order: those given, each once, then the blocks' own work that they do not
name. -/
def eventOrder (order : List BoundaryEvent) : List BoundaryEvent :=
  order.eraseDups ++ ownWork.filter fun e => !order.contains e

/-- Events taken in turn. -/
def runEvents (keep : Bool) (es : List BoundaryEvent) (s : State) : State :=
  es.foldl (fun s e => boundaryEvent keep e s) s

/-- An order gives the reply a place of its own, after the command (R163, R183). -/
def keepsReply (order : List BoundaryEvent) : Bool :=
  (order.dropWhile (· != .command)).contains .reply

/-- The events that come before the command event in an order that takes it before the Controller's
stages 1 to 5; none where the order does not, or cannot. -/
def beforeView (order : List BoundaryEvent) : Option (List BoundaryEvent) :=
  let p := order.takeWhile (· != .command)
  if order.contains .command && order.contains .view &&
      !(p.any fun e => e == .view || e == .counting || e == .resets || e == .degrade ||
        e == .suppress)
  then some p else none

/-- The references whose decided states the Controller sees: where the command is taken before its stages
1 to 5, not those that the command leaves OFF, and none once it leaves RUNNING (R26). -/
def controllerSees (order : List BoundaryEvent) (s : State) : RefId → Bool :=
  match beforeView order with
  | none => fun _ => true
  | some p =>
    let s1 := takeCommand (runEvents false p (openBlock (fun _ => true) s))
    fun r => s1.tracker.refs[r].mode != .off && s1.cmd.op == .running

/-- The end of BLOCK_BOUNDARY: output assembly, and the values of a report taken at it (R42, R177). -/
def closeBlock (s : State) : State := refreshReport (whileLive assembleOutput s)

/-- The work of one block boundary (R60, R78). A reply still held takes a free place first (R163). -/
def boundary (order : List BoundaryEvent) (s : State) : State :=
  let events := eventOrder order
  let s0 := appendHeld s
  closeBlock (runEvents (keepsReply events) events (openBlock (controllerSees events s0) s0))

/-! ### The end of a boundary -/

/-- What every boundary holds and the sender has not asked for by BLOCK_BOUNDARY's operand or by a row happens
before the boundary is past: the steer queue is applied, the store port completes and grants, and a unit that
still has its turn takes the head command (R34, R127, R128, R162). A report taken at the boundary carries the
values after all of its events (R118, R147, R177, R179, R185, R187, R188). What came in the block's last frame
for after the boundary is then delivered: commands to the command queue (R160), the Array Link's control field to
its assembly (R191). The order here is the model's (DESIGN CHOICE, log 6). -/
def settleBoundary (s : State) : State :=
  joinControl (joinCommands (refreshReport (commandEvent false (grantDue (applySteer s)))))

/-- The boundary at which the part stands is past when the outbound Codec Link frame of the block's last number
sends its control field (R4, R191). -/
def endBoundary (s : State) : State := if atBoundary s then settleBoundary s else s

end Sys2Proof.Machine
end

