-- ==== Sys2Proof/WellFormed.lean ====
section
/-! DEFINITION. The check of a command's operands: what no link and no boundary can bring. A message
carries at most 240 payload bytes (spec 1.6, R14), and a boundary takes each of its events once. The
other operands are numbers of a type that holds no value out of range. -/

namespace Sys2Proof

/-- The largest payload a message can carry (spec 1.6). -/
def maxPayload : Nat := 240

/-- A command whose operands the part can meet. -/
def Instr.wellFormed : Instr → Bool
  | .commandDelivery _ payload => payload.length ≤ maxPayload
  | .steer _ payload => payload.length ≤ maxPayload
  | .blockBoundary order => order.Nodup
  | .powerOnReset | .resetnRelease | .inboundFrame _ _ | .lockAcquired _ _ | .lossOfLock _ _
  | .messageTruncation _ | .resyncEnd _ | .outboundFrame _ _ | .heldReplyAppend
  | .lingerExpiry _ | .noiseFloorRise _ | .hangoverEnd _ | .warmupEnd _ | .trackingEntry _
  | .clampRunReset _ | .divergenceReset _ | .degradeTimeExpiry _ | .waitListAssignment _
  | .drainingSlotCapture | .steerApplication | .portGrant | .fillCompletion | .storeDisable
  | .captureCompletion | .entryCommitCompletion | .entryReadCompletion
  | .statusRead | .run | .stop | .setTail | .softReset
  | .beamTableWrite | .referenceTableWrite | .pairmaskTableWrite | .stepTableWrite
  | .tuningTableWrite | .thresholdTableWrite | .meterTableWrite | .monitorTableWrite | .tableRead
  | .eventRead | .eventClear | .eventSetup | .healthRead | .slotRead | .freeze
  | .storeFlush | .storeEnable | .storeInvalidate | .entryRead | .entryLoad | .entryCommit
  | .unknownCommand | .entryDisturbance _ _ _ _ _ => true

end Sys2Proof
end

