-- ==== Sys2Proof/Machine/LinkEvents.lean ====
section
/-! DEFINITION. The meanings of the rows of reset, frames and messages. -/

namespace Sys2Proof.Machine

/-- A command whose meaning has an effect while RESETN is released, and ends in a next state. -/
def up (f : State → State) (s : State) : Host.Outcome State Fault Refusal := .next (whenUp f s)

/-- A command whose meaning has an effect at a block boundary alone, while RESETN is released (R1). -/
def upAtBoundary (f : State → State) (s : State) : Host.Outcome State Fault Refusal :=
  up (fun s => if atBoundary s then f s else s) s

/-- POWER_ON_RESET: RESETN is low, every piece of state holds its power-on value, and ABCK, CBCK, ADO and
CDO are driven low (R189). -/
def execPowerOnReset (s : State) : Host.Outcome State Fault Refusal :=
  .next (setClocks .low { State.reset with pending := s.pending, resetn := false })

/-- RESETN_RELEASE: the part stands at frame 0 with its power-on values, and the clocks run (R1, R189). -/
def execResetnRelease (s : State) : Host.Outcome State Fault Refusal :=
  .next (setClocks .running { s with resetn := true })

/-- The next inbound frame of a link, where it may come: the frames of the four directions keep step (R1). -/
def inboundDue (link : Link) (bits : FrameBits) (s : State) : State :=
  if frameDue (inFrame link s) s then inbound link bits s else s

/-- The part as an outbound frame of a link finds it: the Codec Link's frame that follows a boundary ends it, and
sends the conditions that stand then (R4, R191). -/
def beforeOutbound (link : Link) (s : State) : State :=
  match link with
  | .array => s
  | .codec => endBoundary s

/-- The next outbound frame of a link, where it may come (R1, R4, R157). -/
def outboundNext (link : Link) (heldNow : Bool) (s : State) : State :=
  if outboundDue link s then outbound link heldNow (beforeOutbound link s) else s

/-- INBOUND_FRAME (R5, R6). -/
def execInboundFrame (link : Link) (bits : FrameBits) (s : State) :
    Host.Outcome State Fault Refusal := up (inboundDue link bits) s

/-- An inbound frame completes the good-marker count of its receiver (R5). -/
def acquires (link : Link) (bits : FrameBits) (s : State) : Bool :=
  (rxOf link s).lock == .seeking && decide (4 ≤ (rxOf link s).good + 1) && markerGood bits

/-- LOCK_ACQUIRED: the fourth frame of a correct-marker run, taken whole (R5). -/
def execLockAcquired (link : Link) (bits : FrameBits) (s : State) :
    Host.Outcome State Fault Refusal :=
  up (fun s => if acquires link bits s then inboundDue link bits s else s) s

/-- An inbound frame is the third consecutive wrong marker of its receiver (R6). -/
def loses (link : Link) (bits : FrameBits) (s : State) : Bool :=
  (rxOf link s).lock == .locked && decide (3 ≤ (rxOf link s).miss + 1) && !markerGood bits

/-- LOSS_OF_LOCK: the third consecutive frame with a wrong marker, taken whole (R6, R10). -/
def execLossOfLock (link : Link) (bits : FrameBits) (s : State) :
    Host.Outcome State Fault Refusal :=
  up (fun s => if loses link bits s then inboundDue link bits s else s) s

/-- An assembly stands one idle frame before its limit in a state that `which` picks. -/
def idleEnds (which : AsmState → Bool) (link : Link) (s : State) : Bool :=
  which (asmOf link s).st && decide (idleLimit ≤ (asmOf link s).idle + 1)

/-- A message is in progress (R13). -/
def inMessage : AsmState → Bool
  | .awaitKind => false
  | .awaitLength => true
  | .inPayload => true
  | .awaitCheck => true
  | .resync => false

/-- MESSAGE_TRUNCATION: the sixteenth idle frame truncates the message in progress (R13, R16). -/
def execMessageTruncation (link : Link) (s : State) : Host.Outcome State Fault Refusal :=
  up (fun s => if idleEnds inMessage link s then settleAsm link 0 (asmIdle (asmOf link s)) s
    else s) s

/-- RESYNC_END: the sixteenth idle frame ends the RESYNC gap (R14). -/
def execResyncEnd (link : Link) (s : State) : Host.Outcome State Fault Refusal :=
  up (fun s => if idleEnds (· == .resync) link s then settleAsm link 0 (asmIdle (asmOf link s)) s
    else s) s

/-- COMMAND_DELIVERY, from a Codec Link whose receiver is LOCKED: no byte of one that seeks reaches its
assembly (R10, R160, R190). The row names no frame: its message is completed in the newest inbound frame of
the link, so that one given after frame 48n + 47, while boundary n is not past, joins the queue after it (DESIGN
CHOICE, log 8). The row carries the whole message, and leaves the message assembly, which R12 returns to
AWAIT_KIND at the delivery of what it has assembled, as it stands, even where that is inside another message
(DESIGN CHOICE, log 8). -/
def execCommandDelivery (kind : Byte) (payload : List Byte) (s : State) :
    Host.Outcome State Fault Refusal :=
  if payload.length ≤ maxPayload then
    up (fun s => if s.ports.codecRx.lock == .locked then
      completeCommand (s.ports.frames.inCodec - 1) ⟨kind, payload⟩ s else s) s
  else .fault .messageTooLong

/-- STEER, from an Array Link whose receiver is LOCKED: no byte of one that seeks reaches its assembly
(R10, R32, R33). Its message is delivered in the newest inbound frame of the link, and the message assembly is
left as it stands (DESIGN CHOICE, log 8). -/
def execSteer (kind : Byte) (payload : List Byte) (s : State) : Host.Outcome State Fault Refusal :=
  if payload.length ≤ maxPayload then
    up (fun s => if s.ports.arrayRx.lock == .locked then
      completeSteer (s.ports.frames.inArray - 1) ⟨kind, payload⟩ s else s) s
  else .fault .messageTooLong

/-- OUTBOUND_FRAME (R3, R4, R9, R17). -/
def execOutboundFrame (link : Link) (heldNow : Bool) (s : State) :
    Host.Outcome State Fault Refusal :=
  up (outboundNext link heldNow) s

/-- HELD_REPLY_APPEND (R163). -/
def execHeldReplyAppend (s : State) : Host.Outcome State Fault Refusal := up appendHeld s

end Sys2Proof.Machine
end

