-- ==== Sys2Proof/Machine/BlockEvents.lean ====
section
/-! DEFINITION. The meanings of the rows of the block boundary. BLOCK_BOUNDARY is the whole boundary; each
row of a counter's end is the one advance that reaches the limit, with its consequence, by the settings and
the values that the boundary's block handed on (R50, R97 to R99, R178). It has no effect where the counter does
not stand there, where its end has come at this boundary already, or where the part does not stand at a
boundary whose work is live (log 6). -/

namespace Sys2Proof.Machine

/-- BLOCK_BOUNDARY: it comes when the inbound slots of the block's last frame have been received on both
links (R1, R60, R78, R189). -/
def execBlockBoundary (order : List BoundaryEvent) (s : State) :
    Host.Outcome State Fault Refusal :=
  up (fun s => if boundaryDue s then boundary order s else s) s

/-- A row of the blocks' own work, which a reset at the boundary discards (R173). -/
def upInBlock (f : State → State) (s : State) : Host.Outcome State Fault Refusal :=
  upAtBoundary (whileLive f) s

/-- A lingering reference meets a quiet block with its counter at its last step (R25). -/
def lingerEnds (r : RefId) (s : State) : Bool :=
  let ref := s.tracker.refs[r]
  s.cmd.op == .running && ref.mode != .off && ref.activity == .linger && decide (ref.linger ≤ 1) &&
    decide (ref.level < actThreshold s.blk.tuning)

/-- The reference becomes SILENT, and its pairs stop being wanted (R25, R101). -/
def endLinger (r : RefId) (s : State) : State :=
  let s1 := silenceRef r { s with blk := { s.blk with decided := s.blk.decided.set r (.silent, 0) } }
  allocEvent (wantedPairs s) s1

/-- LINGER_EXPIRY (R25). -/
def execLingerExpiry (r : RefId) (s : State) : Host.Outcome State Fault Refusal :=
  upInBlock (fun s => if lingerEnds r s then endLinger r s else s) s

/-- The noise floor of a beam is one block from a rise, and has not risen at this boundary (R50). -/
def floorDue (b : BeamId) (s : State) : Bool :=
  let c := s.ctl.beams[b]
  s.ports.arrayRx.lock == .locked && !s.blk.rose.contains b &&
    floorRises c.noise c.rise s.core.micLu[b] (noiseRise s.blk.tuning)

/-- The noise floor rises (R50). -/
def raiseFloor (b : BeamId) (s : State) : State :=
  let c := s.ctl.beams[b]
  let fl := floorStep c.noise c.rise s.core.micLu[b] (noiseRise s.blk.tuning)
  markRose b (setCtlBeam b { c with noise := fl.1, rise := fl.2 } s)

/-- NOISE_FLOOR_RISE (R50). -/
def execNoiseFloorRise (b : BeamId) (s : State) : Host.Outcome State Fault Refusal :=
  upInBlock (fun s => if floorDue b s then raiseFloor b s else s) s

/-- The hangover of a beam is one block from its end, and far end and near end are not both present
(R81). -/
def hangoverEnds (b : BeamId) (s : State) : Bool :=
  let c := s.ctl.beams[b]
  let w := s.blk.work[b]
  s.ports.arrayRx.lock == .locked && c.talk == .hangover && decide (c.hangCtr ≤ 1) &&
    !(w.far && w.near)

/-- The beam takes its flag-given state with its counter at 0 (R81). -/
def endHangover (b : BeamId) (s : State) : State :=
  let w := s.blk.work[b]
  setCtlBeam b { s.ctl.beams[b] with talk := flagGiven w.far w.near, hangCtr := 0 } s

/-- HANGOVER_END (R81). -/
def execHangoverEnd (b : BeamId) (s : State) : Host.Outcome State Fault Refusal :=
  upInBlock (fun s => if hangoverEnds b s then endHangover b s else s) s

/-- A slot as it stood for the block at hand, if it is a slot of the block that was granted adaptation (R57,
R83). -/
def adapts (sl : SlotId) (s : State) : Option BlockSlot :=
  match s.blk.slots.find? (·.slot == sl) with
  | some x => if x.granted then some x else none
  | none => none

/-- A slot stood in a phase for the block and stands in it still, and no other block's event has set its
phase at this boundary (R78, R86). -/
def countsIn (ph : Phase) (x : BlockSlot) (sl : SlotId) (s : State) : Bool :=
  x.phase == ph && s.ctl.slots[sl].phase == ph && !s.blk.phaseSet.contains sl

/-- One more adapting block ends the slot's WARMUP (R87). -/
def warmupEnds (sl : SlotId) (s : State) : Bool :=
  match adapts sl s with
  | some x => countsIn .warmup x sl s &&
      decide (warmBlocks s.blk.tuning ≤ s.ctl.slots[sl].counter + 1)
  | none => false

/-- The slot enters a phase with its counter at 0 (R87, R88). -/
def enterPhase (ph : Phase) (sl : SlotId) (s : State) : State :=
  setCtlSlot sl { s.ctl.slots[sl] with phase := ph, counter := 0 } s

/-- WARMUP_END (R87). -/
def execWarmupEnd (sl : SlotId) (s : State) : Host.Outcome State Fault Refusal :=
  upInBlock (fun s => if warmupEnds sl s then enterPhase .converging sl s else s) s

/-- One more adapting block, by its beam's estimate for the block, takes the slot to TRACKING (R88). -/
def trackingBegins (sl : SlotId) (s : State) : Bool :=
  match adapts sl s with
  | some x => countsIn .converging x sl s &&
      decide ((trackErle s.blk.tuning : Int) ≤ s.blk.work[pairBeam x.pair].erle) &&
      decide (trackCount s.blk.tuning ≤ s.ctl.slots[sl].counter + 1)
  | none => false

/-- TRACKING_ENTRY (R88). -/
def execTrackingEntry (sl : SlotId) (s : State) : Host.Outcome State Fault Refusal :=
  upInBlock (fun s => if trackingBegins sl s then enterPhase .tracking sl s else s) s

/-- One more clamp completes the clamp run that the slot's block has left it, which has not been completed at
this boundary. What has happened to the slot since, a divergence reset or a release, does not take the run from
its block (R91, R94). -/
def clampRunEnds (x : BlockSlot) (sl : SlotId) (s : State) : Bool :=
  x.clamped && !s.blk.runDone.contains sl &&
    decide (clampLimit s.blk.tuning ≤ countRun x.run x.clamped + 1)

/-- A clamp run is complete: the slot is reset with a lookup where it is RUNNING for its pair and has not been
reset at this boundary, and the divergence count of the pair's beam rises either way (R91, R94). A slot that has
been released and is RUNNING again at this boundary is reset where it serves the same pair, and not where it
serves another (DESIGN CHOICE, log 22). -/
def completeRun (x : BlockSlot) (sl : SlotId) (s : State) : State :=
  clampBeam (pairBeam x.pair) (markRun sl
    (if s.alloc.slots[sl] = .running x.pair then resetSlot sl x.pair s else s))

/-- The clamp run of a slot that adapts is completed where one more clamp completes it (R91). -/
def advanceRun (sl : SlotId) (s : State) : State :=
  match adapts sl s with
  | some x => if clampRunEnds x sl s then completeRun x sl s else s
  | none => s

/-- CLAMP_RUN_RESET (R91). -/
def execClampRunReset (sl : SlotId) (s : State) : Host.Outcome State Fault Refusal :=
  upInBlock (advanceRun sl) s

/-- A FAR block of a beam not frozen for it meets the divergence condition and completes the beam's run, and
the beam has had no divergence reset at this boundary (R92, R93, R98). -/
def divergenceEnds (b : BeamId) (s : State) : Bool :=
  let w := s.blk.work[b]
  divergenceCounted w && !s.blk.diverged.contains b && decide (w.mic + divMargin s.blk.tuning < w.res) &&
    decide (divLimit s.blk.tuning ≤ s.ctl.beams[b].divCtr + 1)

/-- A divergence reset of a beam, in which a slot that a clamp run has reset at this boundary is not reset again
(R93, R94). -/
def divergenceBeam (b : BeamId) (s : State) : State :=
  divergeBeam b (resetSlots (fun _ p => pairBeam p == b) s)

/-- DIVERGENCE_RESET (R93). -/
def execDivergenceReset (b : BeamId) (s : State) : Host.Outcome State Fault Refusal :=
  upInBlock (fun s => if divergenceEnds b s then divergenceBeam b s else s) s

/-- A FAR block below the threshold in force for it takes the beam's degrade counter to the degrade time in
force for it, and the beam is not flagged (R96, R97, R99). -/
def degradeEnds (limit : Nat) (b : BeamId) (s : State) : Bool :=
  let c := s.ctl.beams[b]
  let w := s.blk.work[b]
  w.talk == .far && !c.degraded && decide (w.erle < (s.blk.thresholds[b.val].toNat : Int)) &&
    decide (limit ≤ c.degCtr + 1)

/-- The degraded flag is set and DEGRADED reported (R96); a code 0 written at this boundary keeps the record
cleared (R97). -/
def endDegrade (limit : Nat) (b : BeamId) (s : State) : State :=
  let c := s.ctl.beams[b]
  let r := countDegrade limit s.blk.work[b].erle s.blk.thresholds[b.val].toNat c.degCtr c.degraded
  reportDegraded b (if degradeCode s.cmd.tuning = 0 then s
    else setCtlBeam b { c with degCtr := r.1, degraded := true } s)

/-- The degrade counter of a beam reaches the degrade time where one more block takes it there (R96). -/
def advanceDegrade (b : BeamId) (s : State) : State :=
  match degradeTime (degradeCode s.blk.tuning) with
  | some limit => if degradeEnds limit b s then endDegrade limit b s else s
  | none => s

/-- DEGRADE_TIME_EXPIRY (R96). -/
def execDegradeTimeExpiry (b : BeamId) (s : State) : Host.Outcome State Fault Refusal :=
  upInBlock (advanceDegrade b) s

/-- A slot of the pool is FREE. -/
def slotFree (sl : SlotId) (s : State) : Bool :=
  s.alloc.slots[sl] == .free && decide (sl.val < slotCount s)

/-- WAIT_LIST_ASSIGNMENT (R105). -/
def execWaitListAssignment (sl : SlotId) (s : State) : Host.Outcome State Fault Refusal :=
  upAtBoundary (fun s => if slotFree sl s then giveToWaiter sl s else s) s

/-- DRAINING_SLOT_CAPTURE (R109). -/
def execDrainingSlotCapture (s : State) : Host.Outcome State Fault Refusal :=
  upAtBoundary roomReport s

/-- STEER_APPLICATION (R34 to R36). -/
def execSteerApplication (s : State) : Host.Outcome State Fault Refusal :=
  upAtBoundary applySteer s

end Sys2Proof.Machine
end

