-- ==== Sys2Proof/Machine/HostCommands.lean ====
section
/-! DEFINITION. The meanings of the rows of the host's commands: at a block boundary, an IDLE Command
Unit that has not had its turn there, with room in the reply queue, takes the head message where it is a
command of the row, and executes it (R162, R163); a row that does not find this so has no effect (log 5). -/

namespace Sys2Proof.Machine

/-- The message is of a kind. -/
def kindIs (k : Byte) (m : Msg) : Bool := m.kind == k

/-- The message is a TABLE WRITE that a row of a table takes: it names the table, or its header names none
and is refused whatever the row. -/
def writesTable (t : Table) (m : Msg) : Bool :=
  m.kind == 0x10 &&
    (decide (m.payload.length < 4) ||
      match tableOf (byteAt m.payload 0) with
      | some t1 => t1 == t
      | none => true)

/-- The message is of a kind outside the catalogue (R167, R169). -/
def outside (m : Msg) : Bool := (catalogue m.kind).isNone

/-- STATUS READ is taken (R188). -/
def execStatusRead (s : State) : Host.Outcome State Fault Refusal :=
  upAtBoundary (takeIf (kindIs 0x01) runStatusRead) s

/-- RUN is taken (R170). -/
def execRun (s : State) : Host.Outcome State Fault Refusal :=
  upAtBoundary (takeIf (kindIs 0x02) runRun) s

/-- STOP is taken (R171). -/
def execStop (s : State) : Host.Outcome State Fault Refusal :=
  upAtBoundary (takeIf (kindIs 0x03) runStop) s

/-- SET TAIL is taken (R172). -/
def execSetTail (s : State) : Host.Outcome State Fault Refusal :=
  upAtBoundary (takeIf (kindIs 0x04) runSetTail) s

/-- SOFT RESET is taken (R173). -/
def execSoftReset (s : State) : Host.Outcome State Fault Refusal :=
  upAtBoundary (takeIf (kindIs 0x05) runSoftReset) s

/-- TABLE WRITE of table 1 is taken (R30, R31). -/
def execBeamTableWrite (s : State) : Host.Outcome State Fault Refusal :=
  upAtBoundary (takeIf (writesTable .beam) runTableWrite) s

/-- TABLE WRITE of table 2 is taken (R21, R26, R27, R29). -/
def execReferenceTableWrite (s : State) : Host.Outcome State Fault Refusal :=
  upAtBoundary (takeIf (writesTable .reference) runTableWrite) s

/-- TABLE WRITE of table 3 is taken (R38). -/
def execPairmaskTableWrite (s : State) : Host.Outcome State Fault Refusal :=
  upAtBoundary (takeIf (writesTable .pairmask) runTableWrite) s

/-- TABLE WRITE of table 4 is taken (R66). -/
def execStepTableWrite (s : State) : Host.Outcome State Fault Refusal :=
  upAtBoundary (takeIf (writesTable .step) runTableWrite) s

/-- TABLE WRITE of table 5 is taken (R178). -/
def execTuningTableWrite (s : State) : Host.Outcome State Fault Refusal :=
  upAtBoundary (takeIf (writesTable .tuning) runTableWrite) s

/-- TABLE WRITE of table 6 is taken (R95, R97). -/
def execThresholdTableWrite (s : State) : Host.Outcome State Fault Refusal :=
  upAtBoundary (takeIf (writesTable .threshold) runTableWrite) s

/-- TABLE WRITE of table 7 is taken (R20). -/
def execMeterTableWrite (s : State) : Host.Outcome State Fault Refusal :=
  upAtBoundary (takeIf (writesTable .meter) runTableWrite) s

/-- TABLE WRITE of table 8 is taken (R158). -/
def execMonitorTableWrite (s : State) : Host.Outcome State Fault Refusal :=
  upAtBoundary (takeIf (writesTable .monitor) runTableWrite) s

/-- TABLE READ is taken (R177). -/
def execTableRead (s : State) : Host.Outcome State Fault Refusal :=
  upAtBoundary (takeIf (kindIs 0x11) runTableRead) s

/-- EVENT READ is taken (R185). -/
def execEventRead (s : State) : Host.Outcome State Fault Refusal :=
  upAtBoundary (takeIf (kindIs 0x20) runEventRead) s

/-- EVENT CLEAR is taken (R185). -/
def execEventClear (s : State) : Host.Outcome State Fault Refusal :=
  upAtBoundary (takeIf (kindIs 0x21) runEventClear) s

/-- EVENT SETUP is taken (R186). -/
def execEventSetup (s : State) : Host.Outcome State Fault Refusal :=
  upAtBoundary (takeIf (kindIs 0x22) runEventSetup) s

/-- HEALTH READ is taken (R187). -/
def execHealthRead (s : State) : Host.Outcome State Fault Refusal :=
  upAtBoundary (takeIf (kindIs 0x28) runHealthRead) s

/-- SLOT READ is taken (R187). -/
def execSlotRead (s : State) : Host.Outcome State Fault Refusal :=
  upAtBoundary (takeIf (kindIs 0x29) runSlotRead) s

/-- FREEZE is taken (R98). -/
def execFreeze (s : State) : Host.Outcome State Fault Refusal :=
  upAtBoundary (takeIf (kindIs 0x30) runFreeze) s

/-- STORE FLUSH is taken (R134). -/
def execStoreFlush (s : State) : Host.Outcome State Fault Refusal :=
  upAtBoundary (takeIf (kindIs 0x40) runStoreFlush) s

/-- STORE ENABLE is taken (R140). -/
def execStoreEnable (s : State) : Host.Outcome State Fault Refusal :=
  upAtBoundary (takeIf (kindIs 0x41) runStoreEnable) s

/-- STORE INVALIDATE is taken (R135). -/
def execStoreInvalidate (s : State) : Host.Outcome State Fault Refusal :=
  upAtBoundary (takeIf (kindIs 0x42) runStoreInvalidate) s

/-- ENTRY READ is taken (R144). -/
def execEntryRead (s : State) : Host.Outcome State Fault Refusal :=
  upAtBoundary (takeIf (kindIs 0x43) runEntryRead) s

/-- ENTRY LOAD is taken (R141). -/
def execEntryLoad (s : State) : Host.Outcome State Fault Refusal :=
  upAtBoundary (takeIf (kindIs 0x44) runEntryLoad) s

/-- ENTRY COMMIT is taken (R142). -/
def execEntryCommit (s : State) : Host.Outcome State Fault Refusal :=
  upAtBoundary (takeIf (kindIs 0x45) runEntryCommit) s

/-- A command of a kind outside the catalogue is taken (R167). -/
def execUnknownCommand (s : State) : Host.Outcome State Fault Refusal :=
  upAtBoundary (takeIf outside runUnknown) s

end Sys2Proof.Machine
end

