-- ==== Sys2Proof/Machine/StoreEvents.lean ====
section
/-! DEFINITION. The meanings of the rows of the store port and of the disturbance of an entry. A completion
row takes a transfer of its kind that an earlier boundary granted, and has no effect where the port holds
none or the part does not stand at a boundary (log 6). -/

namespace Sys2Proof.Machine

/-- PORT_GRANT: the port's operation at a boundary, the completion before the grant (R127, R128). -/
def execPortGrant (s : State) : Host.Outcome State Fault Refusal := upAtBoundary grantDue s

/-- A transfer that is due and that `which` picks completes. -/
def completeWhich (which : Transfer → Bool) (s : State) : State :=
  match dueTransfer s with
  | some t => if which t then finishTransfer t s else s
  | none => s

/-- A FILL transfer. -/
def isFill (t : Transfer) : Bool :=
  match t.cargo with
  | .fill _ _ => true
  | .capture _ => false
  | .commit _ _ _ => false
  | .read _ => false

/-- A CAPTURE transfer. -/
def isCapture (t : Transfer) : Bool :=
  match t.cargo with
  | .fill _ _ => false
  | .capture _ => true
  | .commit _ _ _ => false
  | .read _ => false

/-- A COMMIT transfer. -/
def isCommit (t : Transfer) : Bool :=
  match t.cargo with
  | .fill _ _ => false
  | .capture _ => false
  | .commit _ _ _ => true
  | .read _ => false

/-- A READ transfer. -/
def isRead (t : Transfer) : Bool :=
  match t.cargo with
  | .fill _ _ => false
  | .capture _ => false
  | .commit _ _ _ => false
  | .read _ => true

/-- A FILL transfer whose failing check disables the store (R137, R138). -/
def disables (s : State) (t : Transfer) : Bool :=
  match t.cargo with
  | .fill _ e => !t.abandoned && !entryBalances e && decide (errorLimit ≤ s.store.errors + 1)
  | .capture _ => false
  | .commit _ _ _ => false
  | .read _ => false

/-- FILL_COMPLETION (R131). -/
def execFillCompletion (s : State) : Host.Outcome State Fault Refusal :=
  upAtBoundary (completeWhich isFill) s

/-- STORE_DISABLE: the fill completion whose failed check is the fourth (R138). -/
def execStoreDisable (s : State) : Host.Outcome State Fault Refusal :=
  upAtBoundary (fun s => completeWhich (disables s) s) s

/-- CAPTURE_COMPLETION (R132). -/
def execCaptureCompletion (s : State) : Host.Outcome State Fault Refusal :=
  upAtBoundary (completeWhich isCapture) s

/-- ENTRY_COMMIT_COMPLETION (R143). -/
def execEntryCommitCompletion (s : State) : Host.Outcome State Fault Refusal :=
  upAtBoundary (completeWhich isCommit) s

/-- ENTRY_READ_COMPLETION (R144). -/
def execEntryReadCompletion (s : State) : Host.Outcome State Fault Refusal :=
  upAtBoundary (completeWhich isRead) s

/-- ENTRY_DISTURBANCE (R121). -/
def execEntryDisturbance (set : SetId) (way : WayId) (cells : List (Fin 1536 × Tap)) (quality : Byte)
    (check : BitVec 16) (s : State) : Host.Outcome State Fault Refusal :=
  up (disturbEntry set way cells quality check) s

end Sys2Proof.Machine
end

