-- ==== Sys2Proof/Machine/Dispatch.lean ====
section
/-! DEFINITION. What each command does: one arm per constructor, one direct call of its meaning. -/

namespace Sys2Proof.Machine

def exec (i : Instr) (s : State) : Host.Outcome State Fault Refusal :=
  match i with
  | .powerOnReset => Sys2Proof.Machine.execPowerOnReset s
  | .resetnRelease => Sys2Proof.Machine.execResetnRelease s
  | .inboundFrame link bits => Sys2Proof.Machine.execInboundFrame link bits s
  | .lockAcquired link bits => Sys2Proof.Machine.execLockAcquired link bits s
  | .lossOfLock link bits => Sys2Proof.Machine.execLossOfLock link bits s
  | .messageTruncation link => Sys2Proof.Machine.execMessageTruncation link s
  | .resyncEnd link => Sys2Proof.Machine.execResyncEnd link s
  | .commandDelivery kind payload => Sys2Proof.Machine.execCommandDelivery kind payload s
  | .steer kind payload => Sys2Proof.Machine.execSteer kind payload s
  | .outboundFrame link heldNow => Sys2Proof.Machine.execOutboundFrame link heldNow s
  | .heldReplyAppend => Sys2Proof.Machine.execHeldReplyAppend s
  | .blockBoundary order => Sys2Proof.Machine.execBlockBoundary order s
  | .lingerExpiry r => Sys2Proof.Machine.execLingerExpiry r s
  | .noiseFloorRise b => Sys2Proof.Machine.execNoiseFloorRise b s
  | .hangoverEnd b => Sys2Proof.Machine.execHangoverEnd b s
  | .warmupEnd sl => Sys2Proof.Machine.execWarmupEnd sl s
  | .trackingEntry sl => Sys2Proof.Machine.execTrackingEntry sl s
  | .clampRunReset sl => Sys2Proof.Machine.execClampRunReset sl s
  | .divergenceReset b => Sys2Proof.Machine.execDivergenceReset b s
  | .degradeTimeExpiry b => Sys2Proof.Machine.execDegradeTimeExpiry b s
  | .waitListAssignment sl => Sys2Proof.Machine.execWaitListAssignment sl s
  | .drainingSlotCapture => Sys2Proof.Machine.execDrainingSlotCapture s
  | .steerApplication => Sys2Proof.Machine.execSteerApplication s
  | .portGrant => Sys2Proof.Machine.execPortGrant s
  | .fillCompletion => Sys2Proof.Machine.execFillCompletion s
  | .storeDisable => Sys2Proof.Machine.execStoreDisable s
  | .captureCompletion => Sys2Proof.Machine.execCaptureCompletion s
  | .entryCommitCompletion => Sys2Proof.Machine.execEntryCommitCompletion s
  | .entryReadCompletion => Sys2Proof.Machine.execEntryReadCompletion s
  | .statusRead => Sys2Proof.Machine.execStatusRead s
  | .run => Sys2Proof.Machine.execRun s
  | .stop => Sys2Proof.Machine.execStop s
  | .setTail => Sys2Proof.Machine.execSetTail s
  | .softReset => Sys2Proof.Machine.execSoftReset s
  | .beamTableWrite => Sys2Proof.Machine.execBeamTableWrite s
  | .referenceTableWrite => Sys2Proof.Machine.execReferenceTableWrite s
  | .pairmaskTableWrite => Sys2Proof.Machine.execPairmaskTableWrite s
  | .stepTableWrite => Sys2Proof.Machine.execStepTableWrite s
  | .tuningTableWrite => Sys2Proof.Machine.execTuningTableWrite s
  | .thresholdTableWrite => Sys2Proof.Machine.execThresholdTableWrite s
  | .meterTableWrite => Sys2Proof.Machine.execMeterTableWrite s
  | .monitorTableWrite => Sys2Proof.Machine.execMonitorTableWrite s
  | .tableRead => Sys2Proof.Machine.execTableRead s
  | .eventRead => Sys2Proof.Machine.execEventRead s
  | .eventClear => Sys2Proof.Machine.execEventClear s
  | .eventSetup => Sys2Proof.Machine.execEventSetup s
  | .healthRead => Sys2Proof.Machine.execHealthRead s
  | .slotRead => Sys2Proof.Machine.execSlotRead s
  | .freeze => Sys2Proof.Machine.execFreeze s
  | .storeFlush => Sys2Proof.Machine.execStoreFlush s
  | .storeEnable => Sys2Proof.Machine.execStoreEnable s
  | .storeInvalidate => Sys2Proof.Machine.execStoreInvalidate s
  | .entryRead => Sys2Proof.Machine.execEntryRead s
  | .entryLoad => Sys2Proof.Machine.execEntryLoad s
  | .entryCommit => Sys2Proof.Machine.execEntryCommit s
  | .unknownCommand => Sys2Proof.Machine.execUnknownCommand s
  | .entryDisturbance set way cells quality check => Sys2Proof.Machine.execEntryDisturbance set way cells quality check s

end Sys2Proof.Machine
end

