-- ==== Sys2Proof/Safety.lean ====
section
/-! DEFINITION. What a sound state of the C1608 is: the invariants that the spec gives and that every step
keeps, in the terms the statements use. -/

namespace Sys2Proof.Machine

/-! ### Queues (R33, R124, R126, R160, R165) -/

/-- Every queue stays within its bound: at most 8 commands and 8 replies, 8 capture records, at most one
steering record per beam and one fill request per slot. -/
structure QueuesBounded (s : State) : Prop where
  commands : s.cmd.queue.length ≤ 8
  replies : s.cmd.replies.length ≤ 8
  captures : s.store.captures.length ≤ 8
  steering : (s.router.queue.map (·.beam)).Nodup
  fills : (s.store.fills.map (·.slot)).Nodup

/-! ### Tap memories (R52, R119) -/

/-- The head a transfer carries, if it carries one. -/
def cargoHead : Cargo → Option Head
  | .fill _ e => some e.head
  | .capture c => some c.head
  | .commit _ _ _ => none
  | .read _ => none

/-- Every tap memory of the part is in its canonical form: the coefficient memory, the load area, and the
heads of entries, capture records and the transfer in flight. -/
structure MemoryCanonical (s : State) : Prop where
  coefficients : memWf s.core.mem = true
  load : memWf s.cmd.loadTaps = true
  entries : ∀ (p : SetId) (w : WayId), memWf (entryOf s p w).head = true
  captures : ∀ c ∈ s.store.captures, memWf c.head = true
  port : ∀ t h, s.store.port = some t → cargoHead t.cargo = some h → memWf h = true

/-! ### The pool (R102, R103, R112, R115) -/

/-- A slot holds a pair: it is RUNNING or DRAINING for it (R102). -/
def holds (st : SlotState) (p : PairId) : Prop :=
  st = .running p ∨ ∃ tag q, st = .draining p tag q

/-- The pairing table, the slots and the wait list agree (R102, R112), and no slot numbered S or above is
RUNNING or DRAINING (R103). -/
structure PoolAgrees (s : State) : Prop where
  held : ∀ (sl : SlotId) (p : PairId), holds s.alloc.slots[sl] p ↔ s.alloc.pairs[p] = .held sl
  waiting : ∀ p : PairId, p ∈ s.alloc.waiting ↔ s.alloc.pairs[p] = .waiting
  once : s.alloc.waiting.Nodup
  inPool : ∀ sl : SlotId, slotCount s ≤ sl.val → s.alloc.slots[sl] = .free

/-- In CONFIG no slot is RUNNING and the wait list is empty (R115). -/
structure ConfigIdle (s : State) : Prop where
  slots : s.cmd.op = .config → ∀ (sl : SlotId) (p : PairId), s.alloc.slots[sl] ≠ .running p
  waiting : s.cmd.op = .config → s.alloc.waiting = []

/-- Exactly the wanted pairs are served: a pair is wanted when and only when it waits or a slot is RUNNING
for it (R100, R104, R106). -/
def WantedServed (s : State) : Prop :=
  ∀ p : PairId, wanted s p = true ↔
    (p ∈ s.alloc.waiting ∨ ∃ sl : SlotId, s.alloc.slots[sl] = .running p)

/-- No slot of the pool stands FREE while a pair waits (R105), so that no more pairs wait than the slots leave
over (R112). -/
structure NoneIdle (s : State) : Prop where
  free : ∀ sl : SlotId, sl.val < slotCount s → s.alloc.slots[sl] = .free → s.alloc.waiting = []
  bound : s.alloc.waiting.length ≤ 128 - slotCount s

/-- The pool is sound. -/
structure PoolSound (s : State) : Prop where
  agrees : PoolAgrees s
  config : ConfigIdle s
  served : WantedServed s
  none : NoneIdle s

/-! ### The store (R119, R122, R127, R138, R139) -/

/-- The tag that a transfer in flight will write, if it writes (R130). -/
def writesTag : Cargo → Option Nat
  | .fill _ _ => none
  | .capture c => some c.tag
  | .commit tag _ _ => some tag
  | .read _ => none

/-- No set holds two valid ways with the same tag, now or once the transfer in flight completes (R119). -/
structure TagsDistinct (s : State) : Prop where
  ways : ∀ (p : SetId) (v w : WayId), v ≠ w → (entryOf s p v).valid = true →
    (entryOf s p w).valid = true → (entryOf s p v).tag ≠ (entryOf s p w).tag
  port : ∀ t tag w, s.store.port = some t → t.abandoned = false → writesTag t.cargo = some tag →
    w ≠ t.way → (entryOf s t.set w).valid = true → (entryOf s t.set w).tag ≠ tag

/-- A slot is DRAINING. -/
def someDraining (s : State) : Prop := ∃ (sl : SlotId) (p : PairId) (tag q : Nat),
  s.alloc.slots[sl] = .draining p tag q

/-- While the store is ENABLED the error count is at most 3; while it is DISABLED the count is 4, no entry
is valid, the queues are empty, the port is idle and no slot is DRAINING (R122, R138, R139). -/
structure StoreState (s : State) : Prop where
  enabled : s.store.enabled = true → s.store.errors ≤ 3
  errors : s.store.enabled = false → s.store.errors = 4
  entries : s.store.enabled = false → ∀ (p : SetId) (w : WayId), (entryOf s p w).valid = false
  fills : s.store.enabled = false → s.store.fills = []
  captures : s.store.enabled = false → s.store.captures = []
  port : s.store.enabled = false → s.store.port = none
  host : s.store.enabled = false → s.store.host = none
  draining : s.store.enabled = false → ¬ someDraining s

/-- The store is sound. -/
structure StoreSound (s : State) : Prop where
  tags : TagsDistinct s
  state : StoreState s

/-! ### The Command Unit and the port (R133, R145, R164) -/

/-- A transfer is the host's. -/
def hostCargo : Cargo → Bool
  | .fill _ _ => false
  | .capture _ => false
  | .commit _ _ _ => true
  | .read _ => true

/-- A transfer of the host is in flight. -/
def hostInFlight (s : State) : Prop := ∃ t, s.store.port = some t ∧ hostCargo t.cargo = true

/-- The unit is in PORT_WAIT exactly while a host access waits or is in flight, at most one exists, and none
in flight is abandoned (R133, R145, R164). -/
structure UnitSound (s : State) : Prop where
  wait : s.cmd.state = .portWait ↔ (s.store.host.isSome = true ∨ hostInFlight s)
  one : s.store.host.isSome = true → ¬ hostInFlight s
  kept : ∀ t, s.store.port = some t → hostCargo t.cargo = true → t.abandoned = false

/-! ### The links (R5, R6, R10 to R14) -/

/-- A receiver's counts are in the range of its lock state (1.3). -/
def rxSound (rx : Receiver) : Prop :=
  (rx.lock = .seeking → rx.good ≤ 3) ∧ (rx.lock = .locked → rx.miss ≤ 2)

/-- A message assembly holds what its state says (1.6, R10 to R14). -/
def asmSound (a : Assembly) : Prop :=
  match a.st with
  | .awaitKind => a = Assembly.empty
  | .awaitLength => ∃ k, a.bytes = [k] ∧ a.sum = k ∧ a.idle ≤ 15
  | .inPayload => ∃ k n p, a.bytes = k :: n :: p ∧ a.sum = sum8 a.bytes ∧ 1 ≤ a.expected ∧
      p.length + a.expected = n.toNat ∧ n.toNat ≤ 240 ∧ a.idle ≤ 15
  | .awaitCheck => ∃ k n p, a.bytes = k :: n :: p ∧ a.sum = sum8 a.bytes ∧ p.length = n.toNat ∧
      n.toNat ≤ 240 ∧ a.idle ≤ 15
  | .resync => a.bytes = [] ∧ a.idle ≤ 15

/-- The four directions are within one frame of one another, no direction is ahead of the frames started or
more than one behind, outbound Codec Link frame f follows inbound frame f of both links and the boundary of a
block whose last frame it is, no frame has started beyond the block at hand, and the boundaries taken are those
of the blocks whose frames have all been received (R1, R4, R157, R191). -/
structure FramesInStep (s : State) : Prop where
  inArray : s.ports.frames.inArray ≤ s.ports.frames.started ∧
    s.ports.frames.started ≤ s.ports.frames.inArray + 1
  inCodec : s.ports.frames.inCodec ≤ s.ports.frames.started ∧
    s.ports.frames.started ≤ s.ports.frames.inCodec + 1
  outArray : s.ports.frames.outArray ≤ s.ports.frames.started ∧
    s.ports.frames.started ≤ s.ports.frames.outArray + 1
  outCodec : s.ports.frames.outCodec ≤ s.ports.frames.started ∧
    s.ports.frames.started ≤ s.ports.frames.outCodec + 1
  answers : s.ports.frames.outCodec ≤ s.ports.frames.inArray ∧
    s.ports.frames.outCodec ≤ s.ports.frames.inCodec ∧
    s.ports.frames.outCodec < 48 * (s.blk.count + 1)
  block : s.ports.frames.started ≤ 48 * (s.blk.count + 1)
  received : 48 * s.blk.count ≤ s.ports.frames.inArray ∧ 48 * s.blk.count ≤ s.ports.frames.inCodec

/-- The links are sound: the frames of the four directions keep step (R1), the receivers' counts, the
assemblies, an assembly empty while its receiver seeks (R10), and no message longer than 240 payload bytes
anywhere on its way (R14). -/
structure LinksSound (s : State) : Prop where
  frames : FramesInStep s
  arrayRx : rxSound s.ports.arrayRx
  codecRx : rxSound s.ports.codecRx
  arrayAsm : asmSound s.ports.arrayAsm
  codecAsm : asmSound s.ports.codecAsm
  arraySeek : s.ports.arrayRx.lock = .seeking →
    s.ports.arrayAsm = Assembly.empty ∧ s.ports.lateControl = []
  codecSeek : s.ports.codecRx.lock = .seeking → s.ports.codecAsm = Assembly.empty
  late : ∀ m ∈ s.ports.lateCommands ++ s.ports.lateSteers, m.payload.length ≤ 240
  queue : ∀ m ∈ s.cmd.queue, m.payload.length ≤ 240

/-! ### Ranges of settings and measures -/

/-- The tuning entries lie within the ranges of R178. -/
def tuningInRange (t : Vector Nat 26) : Prop :=
  ∀ i : Fin 26, tuningBounds[i].1 ≤ t[i] ∧ t[i] ≤ tuningBounds[i].2

/-- The settings, the measures and the counters lie within the ranges the spec gives them (R16, R19, R21, R24,
R25, R33, R46, R49, R50, R77, R84, R93, R148, R158, R178). -/
structure RangesSound (s : State) : Prop where
  steerErrors : s.ports.steerErrors ≤ 65535
  meters : ∀ m : Fin 4, s.play.meters[m].ceiling ≤ 8388607 ∧ s.play.meters[m].clamps ≤ 65535
  delays : ∀ r : RefId, s.tracker.refs[r].delay ≤ 63
  tags : ∀ b : BeamId, s.router.beams[b].tag ≤ 32
  steering : ∀ r ∈ s.router.queue, r.tag ≤ 32
  erle : ∀ b : BeamId, -128 ≤ s.ctl.beams[b].erle ∧ s.ctl.beams[b].erle ≤ 255
  noise : ∀ b : BeamId, s.ctl.beams[b].noise ≤ 423
  divCount : ∀ b : BeamId, s.ctl.beams[b].divCount ≤ 255
  beamCounters : ∀ b : BeamId, s.ctl.beams[b].rise ≤ 999 ∧ s.ctl.beams[b].hangCtr ≤ 1000 ∧
    s.ctl.beams[b].divCtr ≤ 1000 ∧ s.ctl.beams[b].degCtr ≤ 4080
  slotCounters : ∀ sl : SlotId, s.ctl.slots[sl].run ≤ 1000 ∧ s.ctl.slots[sl].counter ≤ 10000
  levels : (∀ r : RefId, s.tracker.refs[r].level ≤ 423) ∧ ∀ b : BeamId, s.core.micLu[b] ≤ 423
  linger : ∀ r : RefId, s.tracker.refs[r].linger ≤ 65535
  tuning : tuningInRange s.cmd.tuning
  blockTuning : tuningInRange s.blk.tuning
  attenuation : ∀ (b : BeamId) (j : Fin 32), s.supp.att[b][j] ≤ attMax s.cmd.tuning
  monitors : ∀ t : Fin 2, monitorAllowed s.out.monitors[t].kind s.out.monitors[t].index
    s.out.monitors[t].point = true

/-! ### Comfort noise (R154) -/

/-- No comfort-noise generator stands at zero. -/
def GeneratorsRun (s : State) : Prop := ∀ b : BeamId, s.supp.lfsr[b] ≠ 0

/-! ### Frames and boundaries (R1) -/

/-- Frame f may come on a direction: the four directions have carried every earlier frame, and the boundary
of every earlier block has been taken (R1). -/
structure FrameDue (f : Nat) (s : State) : Prop where
  block : f < 48 * (s.blk.count + 1)
  inArray : f ≤ s.ports.frames.inArray
  inCodec : f ≤ s.ports.frames.inCodec
  outArray : f ≤ s.ports.frames.outArray
  outCodec : f ≤ s.ports.frames.outCodec

/-- The next outbound frame of a link may come: its direction keeps step, and on the Codec Link the inbound
frames of its number have been received on both links, and the boundary has been taken of a block whose last
frame it is (R1, R4, R157, R191). -/
structure OutboundDue (link : Link) (s : State) : Prop where
  frame : FrameDue (outFrame link s) s
  answers : link = .codec → s.ports.frames.outCodec < s.ports.frames.inArray ∧
    s.ports.frames.outCodec < s.ports.frames.inCodec ∧
    s.ports.frames.outCodec + 1 < 48 * (s.blk.count + 1)

/-- RESETN is released, and the inbound slots of the last frame of the block at hand have been received on
both links (R1). -/
structure BoundaryDue (s : State) : Prop where
  resetn : s.resetn = true
  array : s.ports.frames.inArray = 48 * (s.blk.count + 1)
  codec : s.ports.frames.inCodec = 48 * (s.blk.count + 1)

/-- RESETN is released, and the part stands at a block boundary: the next outbound Codec Link frame, whose
control field follows the boundary, is the last of the newest block taken (R1, R4, R191). -/
structure AtBoundary (s : State) : Prop where
  resetn : s.resetn = true
  frame : s.ports.frames.outCodec + 1 = 48 * s.blk.count

/-- The rows of what happens at a block boundary: the counters that end there, the pool, the steer queue, the
store port, and the host's commands. -/
def boundaryRow : Instr → Bool
  | .lingerExpiry _ | .noiseFloorRise _ | .hangoverEnd _ | .warmupEnd _ | .trackingEntry _
  | .clampRunReset _ | .divergenceReset _ | .degradeTimeExpiry _ | .waitListAssignment _
  | .drainingSlotCapture | .steerApplication | .portGrant | .fillCompletion | .storeDisable
  | .captureCompletion | .entryCommitCompletion | .entryReadCompletion | .statusRead | .run | .stop
  | .setTail | .softReset | .beamTableWrite | .referenceTableWrite | .pairmaskTableWrite
  | .stepTableWrite | .tuningTableWrite | .thresholdTableWrite | .meterTableWrite | .monitorTableWrite
  | .tableRead | .eventRead | .eventClear | .eventSetup | .healthRead | .slotRead | .freeze
  | .storeFlush | .storeEnable | .storeInvalidate | .entryRead | .entryLoad | .entryCommit
  | .unknownCommand => true
  | .powerOnReset | .resetnRelease | .inboundFrame _ _ | .lockAcquired _ _ | .lossOfLock _ _
  | .messageTruncation _ | .resyncEnd _ | .commandDelivery _ _ | .steer _ _ | .outboundFrame _ _
  | .heldReplyAppend | .blockBoundary _ | .entryDisturbance _ _ _ _ _ => false

/-! ### A command that stands ready to be taken (R162) -/

/-- The Command Unit is IDLE, the reply queue has room, and the message is at the head of the command
queue. -/
structure Waiting (s : State) (m : Msg) (rest : List Msg) : Prop where
  idle : s.cmd.state = .idle
  room : s.cmd.replies.length < 8
  head : s.cmd.queue = m :: rest

/-- The part stands at a block boundary at which the Command Unit has still its turn, and the message waits
for an IDLE unit with room for its reply (R162). -/
structure Ready (s : State) (m : Msg) (rest : List Msg) : Prop where
  boundary : AtBoundary s
  turn : s.cmd.turn = true
  idle : s.cmd.state = .idle
  room : s.cmd.replies.length < 8
  head : s.cmd.queue = m :: rest

/-- The hold-off condition after a taking that leaves `rest` in the queue (R161). -/
def holdLeft (s : State) (rest : List Msg) : Bool :=
  holdAfter s.cmd.hold rest.length (holdTrigger s.cmd.tuning)

/-- The Command Unit's records after it has taken the head command, which leaves `rest` and ends its turn at
the boundary (R161, R162). -/
def afterTaking (s : State) (rest : List Msg) : Command :=
  { s.cmd with queue := rest, hold := holdLeft s rest, turn := false }

/-- The Command Unit's records after it has taken a command and appended its reply, all else in them as
before (R161 to R163). -/
def answered (s : State) (rest : List Msg) (reply : Msg) : Command :=
  { afterTaking s rest with replies := s.cmd.replies ++ [reply] }

/-! ### What a move of the pool touches -/

/-- t differs from s at most in the slots, the pairing table and the wait list, in the slots' coefficients
and records, in the fill queue and the capture area, and in the boundary's notes. -/
def PoolMoves (s t : State) : Prop :=
  t = { s with
    core := { s.core with mem := t.core.mem, slots := t.core.slots }
    ctl := { s.ctl with slots := t.ctl.slots }
    alloc := { s.alloc with
      slots := t.alloc.slots, pairs := t.alloc.pairs, waiting := t.alloc.waiting }
    store := { s.store with fills := t.store.fills, captures := t.store.captures }
    blk := { s.blk with
      phaseSet := t.blk.phaseSet, runSet := t.blk.runSet, resets := t.blk.resets
      cold := t.blk.cold } }

/-- A slot as it stood for the boundary's block, granted adaptation for it (R57, R78, R83), whose work no reset
has discarded. -/
structure SlotAdapts (s : State) (sl : SlotId) (x : BlockSlot) : Prop where
  live : s.blk.live = true
  block : s.blk.slots.find? (·.slot == sl) = some x
  granted : x.granted = true

/-- The counting of a slot of the block, as the block's record of it says what it held before: the phase with its
counter where no other block's event has set it at the boundary, and the clamp run likewise. A slot that did not
adapt keeps both (R86 to R89, R91). -/
structure SlotCounted (s t : State) (x : BlockSlot) : Prop where
  phase : x.slot ∉ t.blk.phaseSet →
    let c := s.ctl.slots[x.slot]
    let d := t.ctl.slots[x.slot]
    let u := s.cmd.tuning
    let erle := t.blk.work[pairBeam x.pair].erle
    (x.granted = false → d.phase = c.phase ∧ d.counter = c.counter) ∧
    (x.granted = true → (d.phase, d.counter) = match c.phase with
      | .warmup => if warmBlocks u ≤ c.counter + 1 then (.converging, 0) else (.warmup, c.counter + 1)
      | .converging =>
        if (trackErle u : Int) ≤ erle then
          if trackCount u ≤ c.counter + 1 then (.tracking, 0) else (.converging, c.counter + 1)
        else (.converging, 0)
      | .tracking =>
        if erle < (trackErle u : Int) - min (trackHyst u) (trackErle u) then (.converging, 0)
        else (.tracking, 0))
  run : x.slot ∉ t.blk.runSet → t.ctl.slots[x.slot].run =
    if x.granted = false then s.ctl.slots[x.slot].run
    else if x.clamped = true then min 1000 (s.ctl.slots[x.slot].run + 1) else 0

/-- A slot of the block completes its clamp run: it adapted and clamped, and one more clamp takes the run that it
held before the boundary to the limit (R91). -/
def runCompletes (limit : Nat) (x : BlockSlot) : Bool :=
  x.granted && x.clamped && decide (limit ≤ min 1000 (x.run + 1))

/-- A slot that adapts stood in a phase for the block and stands in it still, and no other block's event has set
its phase at this boundary (R78, R86). -/
structure SlotCounts (s : State) (sl : SlotId) (x : BlockSlot) (ph : Phase) : Prop where
  adapts : SlotAdapts s sl x
  was : x.phase = ph
  still : s.ctl.slots[sl].phase = ph
  own : sl ∉ s.blk.phaseSet

/-- A slot is capture-eligible for a pair: TRACKING, its beam's estimate at or above capture_erle as it was
before the boundary's writes, and the store ENABLED (R107, R125). -/
structure Eligible (s : State) (sl : SlotId) (p : PairId) : Prop where
  phase : s.ctl.slots[sl].phase = .tracking
  estimate : (captureErle s.blk.tuning : Int) ≤ s.ctl.beams[pairBeam p].erle
  store : s.store.enabled = true

/-- The capture record of a slot RUNNING for a pair: its beam's tag and estimate, and a copy of its head
(R71, R108, R126). -/
def captureOf (s : State) (sl : SlotId) (p : PairId) : CaptureRec :=
  ⟨p, s.router.beams[pairBeam p].tag, s.ctl.beams[pairBeam p].erle.toNat, headCopy sl s, s.blk.count⟩

/-- The captures that a steering record owes: none where the beam keeps its tag, and else one of each RUNNING
slot of the beam that is capture-eligible, in ascending slot number (R107, R125). -/
def steerCaptures (s : State) (x : SteerRec) : List CaptureRec :=
  if x.tag = s.router.beams[x.beam].tag then []
  else allSlots.filterMap fun sl =>
    match s.alloc.slots[sl] with
    | .running p =>
      if pairBeam p = x.beam ∧ s.ctl.slots[sl].phase = .tracking ∧
          (captureErle s.blk.tuning : Int) ≤ s.ctl.beams[pairBeam p].erle ∧ s.store.enabled = true then
        some (captureOf s sl p)
      else none
    | .free => none
    | .draining _ _ _ => none

/-- A slot has been made cold: its coefficients are zero, its ticket is raised, its origin is COLD, and its
phase is WARMUP with its counter and clamp run at 0 (R67, R69, R86). -/
structure MadeCold (s t : State) (sl : SlotId) : Prop where
  taps : ∀ (j : Fin 32) (k : Nat), k < tailLen s →
    memGet t.core.mem (tapAddr (tailLen s) sl.val j.val k) = tapZero
  ticket : t.core.slots[sl].ticket = s.core.slots[sl].ticket + 1
  origin : t.core.slots[sl].origin = .cold
  record : t.ctl.slots[sl] = ⟨.warmup, 0, 0⟩

/-- A slot keeps its coefficients and its records. -/
structure SlotKept (s t : State) (sl : SlotId) : Prop where
  taps : ∀ (j : Fin 32) (k : Nat), k < tailLen s →
    memGet t.core.mem (tapAddr (tailLen s) sl.val j.val k) =
      memGet s.core.mem (tapAddr (tailLen s) sl.val j.val k)
  numeric : t.core.slots[sl] = s.core.slots[sl]
  record : t.ctl.slots[sl] = s.ctl.slots[sl]

/-- The fill queue after a lookup for a slot whose ticket has just been raised (R54, R123, R124). -/
def fillsAfterLookup (s : State) (sl : SlotId) (p : PairId) (tag : Nat) : List FillReq :=
  s.store.fills.filter (·.slot ≠ sl) ++
    if lookupHit s p tag then [⟨sl, s.core.slots[sl].ticket + 1, p, tag, s.blk.count⟩] else []

/-- The store has been cleared of the sets that `covered` picks: no valid entry, LRU bits 0, no request, no
capture record, no kept transfer and no DRAINING slot of one; the entries of the other sets and every RUNNING
slot are kept, and the requests of the RUNNING slots and the capture records of the other sets stay, in their
order, with what a freed slot brings behind them (R133 to R135). -/
structure StoreCleared (covered : SetId → Bool) (s t : State) : Prop where
  entries : ∀ (p : SetId) (w : WayId), covered p = true → (entryOf t p w).valid = false
  lru : ∀ p : SetId, covered p = true → t.store.sets[p].lru = 0
  others : ∀ p : SetId, covered p = false → t.store.sets[p] = s.store.sets[p]
  fills : ∀ x ∈ t.store.fills, covered x.set = false
  captures : ∀ x ∈ t.store.captures, covered x.set = false
  requests :
    let runs := fun (r : FillReq) => match s.alloc.slots[r.slot] with
      | .running _ => true
      | .free => false
      | .draining _ _ _ => false
    t.store.fills.filter runs = s.store.fills.filter fun r => runs r && !covered r.set
  records : s.store.captures.filter (fun c => !covered c.set) <+: t.store.captures
  port : t.store.port = s.store.port.map fun x => { x with abandoned := x.abandoned || covered x.set }
  draining : ∀ (sl : SlotId) (p : PairId) (tag q : Nat), t.alloc.slots[sl] = .draining p tag q →
    covered p = false
  running : ∀ (sl : SlotId) (p : PairId), s.alloc.slots[sl] = .running p →
    t.alloc.slots[sl] = .running p ∧ SlotKept s t sl

/-! ### The signal work of one block (chapters 4 and 8)

`s` is the part before the boundary and `t` after it. -/

/-- The Core's work for a beam's block: the levels, and in each band the total estimate, the rounded sums of
the taps by the reference histories over the slots RUNNING for the beam, and the error (R49, R57 to
R59). -/
structure EchoCancelled (s t : State) (b : BeamId) : Prop where
  mic : t.blk.work[b].mic = lu (blockEnergy t.blk.work[b].micBands)
  echo : t.blk.work[b].echo = lu (blockEnergy t.blk.work[b].echoBands)
  res : t.blk.work[b].res = lu (blockEnergy t.blk.work[b].errBands)
  estimate : ∀ j : Fin 32,
    let tap := fun (sl : SlotId) (k : Nat) => memGet s.core.mem (tapAddr (tailLen s) sl.val j.val k)
    let ref := fun (p : PairId) (k : Nat) => (t.core.hist[pairRef p].getD k zeroBands)[j]
    let re := fun (sl : SlotId) (p : PairId) =>
      saturate (-8388608) 8388607 (roundDiv (((List.range (tailLen s)).map fun k =>
        (tap sl k).re.toInt * (ref p k).re - (tap sl k).im.toInt * (ref p k).im).sum) 65536)
    let im := fun (sl : SlotId) (p : PairId) =>
      saturate (-8388608) 8388607 (roundDiv (((List.range (tailLen s)).map fun k =>
        (tap sl k).re.toInt * (ref p k).im + (tap sl k).im.toInt * (ref p k).re).sum) 65536)
    let total := fun (part : SlotId → PairId → Int) =>
      saturate (-8388608) 8388607 (allSlots.map fun sl =>
        match s.alloc.slots[sl] with
        | .running p => if pairBeam p = b then part sl p else 0
        | .free => 0
        | .draining _ _ _ => 0).sum
    t.blk.work[b].echoBands[j] = ⟨total re, total im⟩
  error : ∀ j : Fin 32,
    let d := t.blk.work[b].micBands[j]
    let y := t.blk.work[b].echoBands[j]
    t.blk.work[b].errBands[j] = ⟨saturate (-8388608) 8388607 (d.re - y.re),
      saturate (-8388608) 8388607 (d.im - y.im)⟩

/-- The Core's stage 5 for a slot RUNNING for a pair that was granted adaptation: every tap moves by 256 times the
step of its phase and band times the beam's error times the conjugate of the reference value, divided by the
window power and 2^20 times the regularization setting, rounded and saturated; and the slot has clamped exactly
when a component of some tap saturates (R61 to R65). -/
structure SlotUpdated (s t : State) (sl : SlotId) (p : PairId) : Prop where
  taps :
    let clamp := fun (x : Int) => max (-131072) (min 131071 x)
    let old := fun (j : Fin 32) (k : Nat) => memGet s.core.mem (tapAddr (tailLen s) sl.val j.val k)
    let first := match s.ctl.slots[sl].phase with
      | .warmup => 0
      | .converging => 4
      | .tracking => 8
    let mu := fun (j : Fin 32) => 256 * (s.core.step.toList.getD (first + j.val / 8) 0).toNat
    let e := fun (j : Fin 32) => t.blk.work[pairBeam p].errBands[j]
    let div := fun (j : Fin 32) => t.core.power[pairRef p][j] + 2 ^ 20 * regR s.cmd.tuning
    let re := fun (j : Fin 32) (k : Nat) (x : Bands) => (old j k).re.toInt +
      roundDiv (mu j * ((e j).re * x[j].re + (e j).im * x[j].im)) (div j)
    let im := fun (j : Fin 32) (k : Nat) (x : Bands) => (old j k).im.toInt +
      roundDiv (mu j * ((e j).im * x[j].re - (e j).re * x[j].im)) (div j)
    (∀ (j : Fin 32) (k : Nat), k < tailLen s →
      memGet t.core.mem (tapAddr (tailLen s) sl.val j.val k) =
        match t.core.hist[pairRef p][k]? with
        | some x => ⟨BitVec.ofInt 18 (clamp (re j k x)), BitVec.ofInt 18 (clamp (im j k x))⟩
        | none => old j k) ∧
    (t.core.slots[sl].clamped = true ↔ ∃ (j : Fin 32) (k : Nat) (x : Bands), k < tailLen s ∧
      t.core.hist[pairRef p][k]? = some x ∧
      (clamp (re j k x) ≠ re j k x ∨ clamp (im j k x) ≠ im j k x))

/-- The analysis banks take their input blocks, newest sample first: a beam's the 48 samples received last, a
reference's the 48 limited samples at its tap point, so many blocks back as its bulk delay says; each keeps the
192 samples before them. The band values are those of the free banks, each component within 24 bits, and exactly
zero for a silent history (R23, R40, R41). -/
structure BanksAnalyse (s t : State) : Prop where
  beams : ∀ (b : BeamId) (i : Nat), i < 240 → (t.banks.beamHist[b]).getD i 0 =
    if i < 48 then (s.out.bypass[b]).getD i 0 else (s.banks.beamHist[b]).getD (i - 48) 0
  refs : ∀ (r : RefId) (i : Nat), i < 240 → (t.banks.refHist[r]).getD i 0 =
    if i < 48 then (s.tracker.lines[r]).getD (48 * s.tracker.refs[r].delay + i) 0
    else (s.banks.refHist[r]).getD (i - 48) 0
  lengths : (∀ b : BeamId, (t.banks.beamHist[b]).length ≤ 240) ∧
    ∀ r : RefId, (t.banks.refHist[r]).length ≤ 240
  beamBands : ∀ b : BeamId, t.blk.work[b].micBands = analyse t.banks.beamHist[b]
  refBands : ∀ r : RefId, t.blk.refBands[r] = analyse t.banks.refHist[r]
  bounded : ∀ (h : List Sample) (j : Fin 32),
    -8388608 ≤ (analyse h)[j].re ∧ (analyse h)[j].re ≤ 8388607 ∧
      -8388608 ≤ (analyse h)[j].im ∧ (analyse h)[j].im ≤ 8388607
  silent : ∀ h : List Sample, (∀ x ∈ h, x = 0) → ∀ j : Fin 32, (analyse h)[j] = ⟨0, 0⟩

/-- The synthesis banks are handed the block's band values and keep those of the four blocks before it: a beam's
the suppressed ones, a monitor's those of the point its record selects. The samples of the next block are those
of the free banks, and a monitor slot repeats the cleaned-beam slot of its OUT point (R42, R152, R159). -/
structure BanksSynthesise (s t : State) : Prop where
  beams : ∀ b : BeamId, t.banks.beamSynth[b] = ⟨t.blk.work[b].outBands,
    (s.banks.beamSynth[b].current :: s.banks.beamSynth[b].previous).take 4⟩
  monitors : ∀ k : Fin 2,
    let m := s.out.monitors[k]
    let none : Bands := Vector.replicate 32 ⟨0, 0⟩
    ∃ v : Bands, t.banks.monSynth[k] = ⟨v,
        (s.banks.monSynth[k].current :: s.banks.monSynth[k].previous).take 4⟩ ∧
      (m.kind = .none → v = none) ∧
      (∀ b : BeamId, m.kind = .beam → m.index.toNat = b.val →
        let cancel := s.router.beams[b].mode = .cancel
        (m.point = 0 → v = t.blk.work[b].micBands) ∧
        (m.point = 1 → v = if cancel then t.blk.work[b].echoBands else none) ∧
        (m.point = 2 → v = if cancel then t.blk.work[b].errBands else none) ∧
        (m.point = 3 → v = t.blk.work[b].outBands ∧ t.out.current.repeats[k] = some b) ∧
        (m.point.toNat < 3 → t.out.current.repeats[k] = Option.none)) ∧
      (∀ r : RefId, m.kind = .reference → m.index.toNat = r.val → v = t.blk.refBands[r]) ∧
      (m.kind ≠ .beam → t.out.current.repeats[k] = Option.none)
  emitted : t.out.current.index = t.blk.count ∧ t.out.earlier = s.out.current ∧
    (∀ b : BeamId, t.out.current.samples[b] = synthesise t.banks.beamSynth[b]) ∧
    ∀ k : Fin 2, t.out.current.monitors[k] = synthesise t.banks.monSynth[k]

/-- The Suppressor's work for a band of a beam: the target by the SER and the cap of DOUBLE and HANGOVER, the
attenuation that closes at once and opens by the release step, and the scaled value with comfort noise from
the generator's outputs 2j and 2j + 1 (R149 to R154). -/
structure BandSuppressed (s t : State) (b : BeamId) (j : Fin 32) : Prop where
  attenuation :
    let u := s.cmd.tuning
    let w := t.blk.work[b]
    let ser : Int := (lu (energy w.errBands[j]) : Int) - (lu (energy w.echoBands[j]) - max 0 w.erle)
    let target : Nat :=
      if s.router.beams[b].mode = .cancel ∧ s.router.beams[b].suppress = true ∧
          (∃ (sl : SlotId) (p : PairId), s.alloc.slots[sl] = .running p ∧ pairBeam p = b) then
        if (clearLevel u : Int) ≤ ser then 0
        else if ser ≤ 0 then attMax u
        else (roundDiv ((attMax u : Int) * (clearLevel u - ser)) (clearLevel u)).toNat
      else 0
    let capped := if w.talk = .double ∨ w.talk = .hangover then min target (doubleCap u) else target
    t.supp.att[b][j] = min (attMax u)
      (if s.supp.att[b][j] ≤ capped then capped else max capped (s.supp.att[b][j] - releaseStep u))
  value :
    let u := s.cmd.tuning
    let e := t.blk.work[b].errBands[j]
    let att := t.supp.att[b][j]
    let gain : Int := (gainTable[att % 16]'(Nat.mod_lt _ (by decide)) : Nat)
    let scaled := fun (x : Int) => roundDiv (x * gain) (2 ^ (16 + att / 16))
    let amp : Int :=
      2 ^ (max 0 (((t.ctl.beams[b].noise : Int) - cnOffset u - 48) / 16)).toNat
    let noisy := fun (x : Int) (draw : Nat) => saturate (-8388608) 8388607
      (scaled x + if (drawNoise 64 s.supp.lfsr[b]).1.getD draw false = true then amp else -amp)
    t.blk.work[b].outBands[j] =
      if s.router.beams[b].comfort = true ∧ cnOnset u ≤ att then
        ⟨noisy e.re (2 * j.val), noisy e.im (2 * j.val + 1)⟩
      else ⟨scaled e.re, scaled e.im⟩

/-! ### A message assembly over several frames (R11 to R15) -/

/-- An assembly over a run of frames, each a byte or idle, with what they bring about beside nothing. -/
def assemble : Assembly → List (Option Byte) → Assembly × List AsmOutcome
  | a, [] => (a, [])
  | a, d :: rest =>
    let r := match d with
      | some b => asmByte a b
      | none => asmIdle a
    let u := assemble r.1 rest
    (u.1, if r.2 = .nothing then u.2 else r.2 :: u.2)

/-- Bytes, each after a gap of so many idle frames. -/
def spread : List Byte → List Nat → List (Option Byte)
  | b :: bytes, g :: gaps => List.replicate g none ++ some b :: spread bytes gaps
  | _, _ => []

/-! ### The rows of the host's commands (R162, R169) -/

/-- The messages that a host row takes; none for a row that is no host command. -/
def taken : Instr → Option (Msg → Bool)
  | .statusRead => some (kindIs 0x01)
  | .run => some (kindIs 0x02)
  | .stop => some (kindIs 0x03)
  | .setTail => some (kindIs 0x04)
  | .softReset => some (kindIs 0x05)
  | .beamTableWrite => some (writesTable .beam)
  | .referenceTableWrite => some (writesTable .reference)
  | .pairmaskTableWrite => some (writesTable .pairmask)
  | .stepTableWrite => some (writesTable .step)
  | .tuningTableWrite => some (writesTable .tuning)
  | .thresholdTableWrite => some (writesTable .threshold)
  | .meterTableWrite => some (writesTable .meter)
  | .monitorTableWrite => some (writesTable .monitor)
  | .tableRead => some (kindIs 0x11)
  | .eventRead => some (kindIs 0x20)
  | .eventClear => some (kindIs 0x21)
  | .eventSetup => some (kindIs 0x22)
  | .healthRead => some (kindIs 0x28)
  | .slotRead => some (kindIs 0x29)
  | .freeze => some (kindIs 0x30)
  | .storeFlush => some (kindIs 0x40)
  | .storeEnable => some (kindIs 0x41)
  | .storeInvalidate => some (kindIs 0x42)
  | .entryRead => some (kindIs 0x43)
  | .entryLoad => some (kindIs 0x44)
  | .entryCommit => some (kindIs 0x45)
  | .unknownCommand => some outside
  | .powerOnReset | .resetnRelease | .inboundFrame _ _ | .lockAcquired _ _ | .lossOfLock _ _
  | .messageTruncation _ | .resyncEnd _ | .commandDelivery _ _ | .steer _ _ | .outboundFrame _ _
  | .heldReplyAppend | .blockBoundary _ | .lingerExpiry _ | .noiseFloorRise _ | .hangoverEnd _
  | .warmupEnd _ | .trackingEntry _ | .clampRunReset _ | .divergenceReset _ | .degradeTimeExpiry _
  | .waitListAssignment _ | .drainingSlotCapture | .steerApplication | .portGrant | .fillCompletion
  | .storeDisable | .captureCompletion | .entryCommitCompletion | .entryReadCompletion
  | .entryDisturbance _ _ _ _ _ => none

/-- The row that takes a TABLE WRITE of a table. -/
def tableRow : Table → Instr
  | .beam => .beamTableWrite
  | .reference => .referenceTableWrite
  | .pairmask => .pairmaskTableWrite
  | .step => .stepTableWrite
  | .tuning => .tuningTableWrite
  | .threshold => .thresholdTableWrite
  | .meter => .meterTableWrite
  | .monitor => .monitorTableWrite

/-- A boundary in an order takes no command: the order does not hold the command event, or no message waits,
or the reply queue is full (R162). -/
def noCommandTaken (order : List BoundaryEvent) (s : State) : Prop :=
  BoundaryEvent.command ∉ order ∨ s.cmd.queue = [] ∨ 8 ≤ s.cmd.replies.length

/-- The part after a command taken by an IDLE unit with room, answered with a status alone, that has no
other effect (R162 to R167). -/
def refusedWith (s : State) (m : Msg) (rest : List Msg) (st : Status) : State :=
  { s with cmd := answered s rest ⟨m.kind + 0x80, [statusCode st]⟩ }

end Sys2Proof.Machine
end

