-- ==== Sys2Proof/Certificates/Slice0/Obligations.lean ====
section
/-! DEFINITION. The statements about the C1608, each a proposition for the provers. -/

open Sys2Proof Sys2Proof.Machine

/-! ### The step and the rows as a whole -/

/-- A step takes the command at the front of the queue and is exec of it with the queue's rest; on an empty
queue the part idles (the model's queue: log 4). -/
def Obligations.StepTakesFront : Prop :=
  (∀ (c : Instr) (rest : List Instr) (s : State),
    step { s with pending := c :: rest } = exec c { s with pending := rest }) ∧
  ∀ s : State, s.pending = [] → step s = .next s

/-- No command changes the commands that wait after it (log 4). -/
def Obligations.ExecLeavesPending : Prop :=
  ∀ (c : Instr) (s t : State), exec c s = .next t → t.pending = s.pending

/-- Every command the part can meet ends in a next state, and a message longer than any link delivers
(R14) in the model's one fault (log 18). RESETN low brings every piece of state to its power-on value and
the clocks, ADO and CDO low; its release changes nothing but the pin and the clocks, which run; and while it
is low no other command has an effect (R189; the model's own queue stays: log 4). -/
def Obligations.CompletionAndReset : Prop :=
  ((∀ (c : Instr) (s : State), c.wellFormed = true → ∃ t, exec c s = .next t) ∧
    ∀ (kind : Byte) (payload : List Byte) (s : State), 240 < payload.length →
      exec (.commandDelivery kind payload) s = .fault .messageTooLong ∧
      exec (.steer kind payload) s = .fault .messageTooLong) ∧
  (∀ s : State, ∃ t, exec .powerOnReset s = .next t ∧
    t = { State.reset with
      pending := s.pending, resetn := false
      ports := { State.reset.ports with abck := .low, cbck := .low } } ∧
    t.ports.ado = 0 ∧ t.ports.cdo = 0) ∧
  (∀ s : State, exec .resetnRelease s = .next { s with
    resetn := true, ports := { s.ports with abck := .running, cbck := .running } }) ∧
  (∀ s t : State, exec .powerOnReset s = .next t →
    exec .resetnRelease t = .next { State.reset with pending := s.pending }) ∧
  ∀ (c : Instr) (s : State), s.resetn = false → c.wellFormed = true → c ≠ .powerOnReset →
    c ≠ .resetnRelease → exec c s = .next s

/-- What the tables of power-on values give (R5, R10, R20, R21, R30, R50, R66, R77, R117, R146, R178,
R154). Two values are the model's own: the miss count of 0 of each receiver, which R5 does not give, and the
count of payload bytes still expected of each assembly, 0, which R10 does not give (log 17). -/
def Obligations.ResetValues : Prop :=
  let s := State.reset
  (s.ports.arrayRx = ⟨.seeking, 0, 0⟩ ∧ s.ports.codecRx = ⟨.seeking, 0, 0⟩ ∧
    s.ports.arrayAsm = Assembly.empty ∧ s.ports.codecAsm = Assembly.empty ∧
    s.ports.steerErrors = 0 ∧ s.ports.transmit = none ∧
    s.ports.abck = .running ∧ s.ports.cbck = .running) ∧
  (∀ m : Fin 4, s.play.meters[m] = ⟨8388607, 0⟩) ∧
  (∀ r : RefId, s.tracker.refs[r] = ⟨.on, none, 0, .silent, 0, 0⟩) ∧
  (∀ b : BeamId, s.router.beams[b] = ⟨.cancel, true, true, false, 32⟩ ∧
    s.ctl.beams[b] = ⟨.idle, 0, 0, 0, 0, 0, false, 160, 0⟩ ∧
    s.supp.lfsr[b].toNat = b.val + 1) ∧
  (s.router.queue = [] ∧ ∀ b : BeamId, s.core.micLu[b] = 0) ∧
  (∀ j : Fin 32, ∀ b : BeamId, s.supp.att[b][j] = 0) ∧
  (∀ k : Fin 2, s.out.monitors[k] = ⟨.none, 0, 0⟩) ∧
  (∀ sl : SlotId, s.alloc.slots[sl] = .free ∧ s.ctl.slots[sl] = ⟨.warmup, 0, 0⟩ ∧
    s.core.slots[sl] = ⟨0, .cold, false⟩) ∧
  (s.alloc.waiting = [] ∧ ∀ p : PairId, s.alloc.pairs[p] = .none ∧ s.alloc.mask[p] = true ∧
    s.store.sets[p].lru = 0) ∧
  (s.core.tail = 4 ∧ tailLen s = 256 ∧ slotCount s = 48 ∧ s.core.mem = [] ∧
    s.core.step = #v[192, 192, 160, 128, 128, 128, 96, 64, 32, 32, 24, 16]) ∧
  (s.store.enabled = true ∧ s.store.errors = 0 ∧ s.store.firstError = none ∧ s.store.port = none ∧
    s.store.fills = [] ∧ s.store.captures = [] ∧
    ∀ (p : SetId) (w : WayId), entryOf s p w = ⟨false, 0, 0, 0, []⟩) ∧
  (s.cmd.op = .config ∧ s.cmd.state = .idle ∧ s.cmd.queue = [] ∧ s.cmd.replies = [] ∧
    s.cmd.hold = false ∧ s.cmd.loadWritten = 0 ∧ s.cmd.loadTaps = [] ∧
    s.cmd.tuning = #v[500, 120, 16, 24, 40, 60, 3, 48, 8, 200, 100, 8, 50, 20, 56, 1, 64, 32, 2, 24,
      16, 8, 16, 0, 0, 6]) ∧
  (s.ev = ⟨0, 0, .none, 0, 0, 0⟩ ∧ ∀ i : Fin 17, s.ctl.thresholds[i] = 0)

/-- The part at power-on meets every invariant stated below (its assemblies' count of payload bytes still
expected, 0, is the model's: log 17). -/
def Obligations.ResetSound : Prop :=
  QueuesBounded State.reset ∧ MemoryCanonical State.reset ∧ PoolSound State.reset ∧
    StoreSound State.reset ∧ UnitSound State.reset ∧ LinksSound State.reset ∧
    RangesSound State.reset ∧ GeneratorsRun State.reset

/-! ### Invariants that every step keeps -/

/-- Every step keeps the queues within their bounds (R33, R124, R126, R160, R165). -/
def Obligations.QueuesStayBounded : Prop :=
  ∀ s t : State, QueuesBounded s → step s = .next t → QueuesBounded t

/-- Every step keeps every tap memory in its canonical form (the sparse form is the model's: log 17; the
memories are those of R52, R71, R119, R126 and R141). -/
def Obligations.MemoryStaysCanonical : Prop :=
  ∀ s t : State, MemoryCanonical s → step s = .next t → MemoryCanonical t

/-- Every step keeps the pool sound: slots, pairing table and wait list agree, exactly the wanted pairs are
served, no slot of the pool stands FREE while a pair waits, so that at most 128 − S pairs wait, and CONFIG
has no RUNNING slot and no waiting pair (R100, R102, R103, R105, R112, R115). -/
def Obligations.PoolStaysSound : Prop :=
  ∀ s t : State, PoolSound s → step s = .next t → PoolSound t

/-- Every step keeps the store sound: no two valid ways of a set with one tag, and the disabled state as
R138 and R139 leave it (R119, R122, R138, R139). -/
def Obligations.StoreStaysSound : Prop :=
  ∀ s t : State, StoreSound s → step s = .next t → StoreSound t

/-- Every step keeps PORT_WAIT and the host's access to the store port together (R133, R145, R164). -/
def Obligations.UnitStaysSound : Prop :=
  ∀ s t : State, UnitSound s → step s = .next t → UnitSound t

/-- Every step keeps the frames of the four directions in step with one another and with the boundaries, and
the receivers' counts and the message assemblies in the range of their states (R1, R4 to R6, R10 to R14; the
count for each direction is the model's: log 8; so is the 0 of an empty assembly's count of payload bytes
still expected, for which R10 gives no value: log 17). -/
def Obligations.LinksStaySound : Prop :=
  ∀ s t : State, LinksSound s → step s = .next t → LinksSound t

/-- Every step keeps the settings, the measures and the counters in their ranges (R16, R19, R21, R24, R25,
R33, R49, R50, R77, R84, R151, R158; the tuning ranges are those that TableEntryWritten spells out). -/
def Obligations.RangesStaySound : Prop :=
  ∀ s t : State, RangesSound s → step s = .next t → RangesSound t

/-- No step stops a comfort-noise generator (R154). -/
def Obligations.GeneratorsNeverStop : Prop :=
  ∀ s t : State, GeneratorsRun s → step s = .next t → GeneratorsRun t

/-! ### Encodings -/

/-- A message sent as its bytes, with no gap of sixteen idle frames inside it, is delivered whole and leaves
the assembly empty, and the sum of its bytes is 0 (1.6, R11 to R15; that an empty assembly's count of
payload bytes still expected is 0 is the model's: log 17). -/
def Obligations.MessageStreamRoundTrip : Prop :=
  ∀ (m : Msg) (first : Nat) (gaps : List Nat), m.payload.length ≤ 240 →
    gaps.length = m.payload.length + 2 → (∀ g ∈ gaps, g ≤ 15) →
    assemble Assembly.empty (spread (msgBytes m) (first :: gaps)) = (Assembly.empty, [.delivered m]) ∧
    sum8 (msgBytes m) = 0 ∧ (msgBytes m).length = m.payload.length + 3

/-- The entry chunk: the 108 bytes of a chunk spell its 24 taps, and writing 108 bytes replaces these taps
and no other (R141, R195). -/
def Obligations.ChunkRoundTrip : Prop :=
  (∀ (h : Head) (c t : Nat), t < 24 →
    (chunkBytes h c).length = 108 ∧ chunkTap (chunkBytes h c) t = memGet h (chunkIndex c t)) ∧
  (∀ (h : Head) (bytes : List Byte) (c t : Nat), memWf h = true → t < 24 →
    memGet (chunkWrite h c bytes) (chunkIndex c t) = chunkTap bytes t) ∧
  ∀ (h : Head) (bytes : List Byte) (c i : Nat), memWf h = true →
    (∀ t, t < 24 → i ≠ chunkIndex c t) → memGet (chunkWrite h c bytes) i = memGet h i

/-- The fields of an outbound frame stand at their bit periods: the marker, the slots, and the control field
with CV, HO, EP, the reserved 0 and the data byte; the bit periods after it are 0 (R1, R3, R191). -/
def Obligations.FrameFields : Prop :=
  ∀ (slots : List Sample) (data : Option Byte) (ho ep : Bool), slots.length ≤ 20 →
    let bits := outboundBits slots data ho ep
    let c := 8 + 24 * slots.length
    frameField bits 0 8 = 0x9D ∧
    (∀ (k : Nat) (h : k < slots.length), frameSlot bits k = slots[k]) ∧
    frameField bits c 1 = (if data.isSome then 1 else 0) ∧
    frameField bits (c + 1) 1 = (if ho then 1 else 0) ∧
    frameField bits (c + 2) 1 = (if ep then 1 else 0) ∧
    frameField bits (c + 3) 1 = 0 ∧
    frameField bits (c + 4) 8 = data.getD 0 ∧
    frameField bits (c + 12) (500 - c) = 0

/-! ### The numbers of the part -/

/-- The level of an energy (R46). -/
def Obligations.LevelRule : Prop :=
  (lu 0 = 0 ∧ lu 1 = 0) ∧
  (∀ e, 2 ≤ e → ∃ m, 2 ^ m ≤ e ∧ (∀ k, 2 ^ k ≤ e → k ≤ m) ∧
    (e - 2 ^ m) * 8 / 2 ^ m ≤ 7 ∧ lu e = 8 * m + (e - 2 ^ m) * 8 / 2 ^ m) ∧
  (∀ e f, e ≤ f → lu e ≤ lu f) ∧
  (∀ e, 1 ≤ e → lu (2 * e) = lu e + 8) ∧
  (∀ e, 8 ≤ lu e → 2 ^ (lu e / 8) * (8 + lu e % 8) ≤ 8 * e ∧
    8 * e < 2 ^ (lu e / 8) * (8 + lu e % 8 + 1)) ∧
  (∀ e, e < 2 ^ 53 → lu e ≤ 423) ∧ lu (2 ^ 47) = 376 ∧ lu (2 ^ 52) = 416

/-- Rounding to the nearest integer with ties away from zero, and saturation, each component of a complex
value on its own, rounded first (R47); and the gain table, by which a component is scaled (R51). -/
def Obligations.RoundingRule : Prop :=
  (∀ (n : Int) (d : Nat), 0 < d →
    2 * |n - d * roundDiv n d| ≤ d ∧ (2 * |n - d * roundDiv n d| = d → |n| < d * |roundDiv n d|)) ∧
  (∀ lo hi x : Int, lo ≤ hi → (hi < x → saturate lo hi x = hi) ∧ (x < lo → saturate lo hi x = lo) ∧
    (lo ≤ x → x ≤ hi → saturate lo hi x = x)) ∧
  (∀ (v : Cx) (d : Nat), cround24 v d =
    ⟨saturate (-8388608) 8388607 (roundDiv v.re d), saturate (-8388608) 8388607 (roundDiv v.im d)⟩) ∧
  gainTable.toList = [65536, 62757, 60097, 57549, 55109, 52773, 50535, 48393, 46341, 44376, 42495, 40693,
    38968, 37316, 35734, 34219] ∧
  ∀ (x : Int) (q r : Nat) (h : r < 16),
    attenuate x (16 * q + r) = roundDiv (x * (gainTable[r] : Nat)) (2 ^ (16 + q))

/-- Exponential smoothing, its properties, and its use by the ERLE estimate (R48). -/
def Obligations.SmoothingRule : Prop :=
  (∀ (a x : Int) (k : Nat), smooth a x k = a + roundDiv (x - a) (2 ^ k)) ∧
  (∀ a x : Int, smooth a x 0 = x) ∧
  (∀ (a x : Int) (k : Nat), a ≤ x → a ≤ smooth a x k ∧ smooth a x k ≤ x) ∧
  (∀ (a x : Int) (k : Nat), x ≤ a → x ≤ smooth a x k ∧ smooth a x k ≤ a) ∧
  (∀ (a x : Int) (k : Nat), 2 * |2 ^ k * (smooth a x k - a) - (x - a)| ≤ 2 ^ k) ∧
  (∀ (a x : Int) (k : Nat), 2 * |x - a| < 2 ^ k → smooth a x k = a) ∧
  (∀ (a x : Int) (k : Nat), 2 * (x - a) = 2 ^ k → smooth a x k = a + 1) ∧
  (∀ (a x : Int) (k : Nat), 2 * (a - x) = 2 ^ k → smooth a x k = a - 1) ∧
  ∀ (a : Int) (mic res k : Nat),
    erleStep a mic res k = saturate (-128) 255 (smooth a ((mic : Int) - res) k)

/-- The sum of an entry and its balance, over the 1536 taps of a head, and the check that balances; and
ENTRY_DISTURBANCE, which changes the head, quality and check of one entry so that it no longer balances, and
not its valid flag or its tag, while values that leave it balancing are no disturbance (R120, R121; log
16). -/
def Obligations.EntryCheckAndDisturbance : Prop :=
  ((∀ (h : Head) (tag q : Nat) (check : BitVec 16), memWf h = true → (∀ c ∈ h, c.1 < 1536) →
      (balances h tag q check = true ↔
        (((List.range 1536).map fun i => (memGet h i).re.toNat + (memGet h i).im.toNat).sum + tag + q +
          check.toNat) % 65536 = 0)) ∧
    ∀ (h : Head) (tag q : Nat), balances h tag q (balancingCheck h tag q) = true) ∧
  ∀ (p : SetId) (w : WayId) (cells : List (Fin 1536 × Tap)) (q : Byte) (check : BitVec 16)
    (s : State), s.resetn = true →
    let e := entryOf s p w
    let head := cells.foldl (fun h c => memPut h c.1.val c.2) e.head
    let left : Entry := ⟨e.valid, e.tag, q.toNat, check, head⟩
    (entryBalances left = false →
      exec (.entryDisturbance p w cells q check) s = .next { s with store := { s.store with
        sets := s.store.sets.set p { s.store.sets[p] with
          ways := s.store.sets[p].ways.set w left } } }) ∧
    (entryBalances left = true → exec (.entryDisturbance p w cells q check) s = .next s)

/-- One step of a comfort-noise generator: bit k is stage k + 1 (R154). -/
def Obligations.NoiseStepRule : Prop :=
  ∀ g : BitVec 23,
    (noiseStep g).2 = Bool.xor (g.getLsbD 22) (g.getLsbD 17) ∧
    (noiseStep g).1.getLsbD 0 = (noiseStep g).2 ∧
    (∀ k, k < 22 → (noiseStep g).1.getLsbD (k + 1) = g.getLsbD k) ∧
    (g ≠ 0 → (noiseStep g).1 ≠ 0) ∧
    noiseSign true = 1 ∧ noiseSign false = -1

/-- The update of a slot: every tap of every band moves by its increment from the same errors, histories and
window powers, saturated; no other address changes; and the slot has clamped exactly when a component of
some tap saturates. The increment is 256 times the step times the error times the conjugate of the reference
value, divided by the window power and the regularization and rounded (R61 to R64). -/
def Obligations.CoefficientUpdate : Prop :=
  ∀ (u : UpdateInput) (mem : TapMem), memWf mem = true →
    let r := updateSlot u mem
    let addr := fun (j : Fin 32) (k : Nat) => tapAddr u.tailLen u.slot j.val k
    let step := fun (j : Fin 32) =>
      let first := match u.phase with
        | .warmup => 0
        | .converging => 4
        | .tracking => 8
      (u.step.toList.getD (first + j.val / 8) 0).toNat
    let re := fun (j : Fin 32) (k : Nat) (x : Bands) => (memGet mem (addr j k)).re.toInt +
      roundDiv (256 * step j * (u.err[j].re * x[j].re + u.err[j].im * x[j].im)) (u.power[j] + u.delta)
    let im := fun (j : Fin 32) (k : Nat) (x : Bands) => (memGet mem (addr j k)).im.toInt +
      roundDiv (256 * step j * (u.err[j].im * x[j].re - u.err[j].re * x[j].im)) (u.power[j] + u.delta)
    let clamp := fun (x : Int) => max (-131072) (min 131071 x)
    (∀ (j : Fin 32) (k : Nat) (x : Bands), k < u.tailLen → u.hist[k]? = some x →
      memGet r.1 (addr j k) =
        ⟨BitVec.ofInt 18 (clamp (re j k x)), BitVec.ofInt 18 (clamp (im j k x))⟩) ∧
    (∀ (j : Fin 32) (k : Nat), k < u.tailLen → u.hist[k]? = none →
      memGet r.1 (addr j k) = memGet mem (addr j k)) ∧
    (∀ a, (∀ (j : Fin 32) (k : Nat), k < u.tailLen → a ≠ addr j k) →
      memGet r.1 a = memGet mem a) ∧
    (r.2 = true ↔ ∃ (j : Fin 32) (k : Nat) (x : Bands), k < u.tailLen ∧ u.hist[k]? = some x ∧
      (clamp (re j k x) ≠ re j k x ∨ clamp (im j k x) ≠ im j k x))

/-- Installing a head: taps 0 to 47 of every band are the head's, the rest of the slot is zero, no other
address changes, and a copy of the slot's head is then the head installed (R71, R72). -/
def Obligations.HeadInstallation : Prop :=
  ∀ (m : TapMem) (T sl : Nat) (h : Head), memWf m = true → 48 ≤ T →
    (∀ (j : Fin 32) (k : Nat), k < T → memGet (memInstall m T sl h) (tapAddr T sl j.val k) =
      if k < 48 then memGet h (48 * j.val + k) else tapZero) ∧
    (∀ a, (∀ (j : Fin 32) (k : Nat), k < T → a ≠ tapAddr T sl j.val k) →
      memGet (memInstall m T sl h) a = memGet m a) ∧
    (memWf h = true → (∀ c ∈ h, c.1 < 1536) → headOf (memInstall m T sl h) T sl = h)

/-! ### The links -/

/-- A frame met in SEEKING: a wrong marker and a count short of 4 leave slots of zero and an ignored control
field; the fourth correct marker locks the receiver and is accepted whole, by either row. Frames come in
step: a frame of a link that the four directions have not reached, or whose block's predecessor has not had
its boundary, has no effect, by any row. What an accepted control field brings stands in LockedFrame (R1,
R5; the count for each direction is the model's: log 8). -/
def Obligations.SeekingFrame : Prop :=
  (∀ (link : Link) (bits : FrameBits) (s : State), s.resetn = true →
    ¬ FrameDue (inFrame link s) s →
      exec (.inboundFrame link bits) s = .next s ∧ exec (.lockAcquired link bits) s = .next s ∧
      exec (.lossOfLock link bits) s = .next s) ∧
  ∀ (link : Link) (bits : FrameBits) (s : State), s.resetn = true → FrameDue (inFrame link s) s →
    (rxOf link s).lock = .seeking →
    let f := inFrame link s
    let u := startFrame f true s
    (markerGood bits = false →
      exec (.inboundFrame link bits) s = .next (countInbound link
        (takeSlots link false bits (setRx link { rxOf link s with good := 0 } u))) ∧
      exec (.lockAcquired link bits) s = .next s) ∧
    (markerGood bits = true → (rxOf link s).good + 1 < 4 →
      exec (.inboundFrame link bits) s = .next (countInbound link (takeSlots link false bits
        (setRx link { rxOf link s with good := (rxOf link s).good + 1 } u))) ∧
      exec (.lockAcquired link bits) s = .next s) ∧
    (markerGood bits = true → 4 ≤ (rxOf link s).good + 1 →
      let t := countInbound link (takeControl link f (frameControl link bits)
        (takeSlots link true bits (setRx link ⟨.locked, 4, 0⟩ u)))
      exec (.inboundFrame link bits) s = .next t ∧ exec (.lockAcquired link bits) s = .next t)

/-- A frame met in LOCKED: a correct marker is accepted, a wrong one is missed and counts as idle, and the
third wrong one in a row loses lock, discards the message in assembly without a report and sets
LINK_LOST, by either row. The control field of an accepted frame, a byte or idle, moves the message assembly of
its link on: a complete message with the right sum joins the command queue, after the boundary for a frame
48n + 47, or goes to the Beam Router; a wrong sum, a length above 240 and a sixteenth idle frame inside a
message discard it, which the Codec Link reports as MSG_ERROR with its cause and the Array Link counts as a
steer error (R6, R10 to R16, R160; that the Array Link control field of a frame 48n + 47 stands after the
boundary: log 8; the order of a frame's parts: log 7; the expected count of 0: log 17). -/
def Obligations.LockedFrame : Prop :=
  (∀ (link : Link) (bits : FrameBits) (s : State), s.resetn = true → FrameDue (inFrame link s) s →
    (rxOf link s).lock = .locked →
    let f := inFrame link s
    let u := startFrame f true s
    (markerGood bits = true →
      exec (.inboundFrame link bits) s = .next (countInbound link (takeControl link f
        (frameControl link bits)
        (takeSlots link true bits (setRx link { rxOf link s with miss := 0 } u)))) ∧
      exec (.lossOfLock link bits) s = .next s) ∧
    (markerGood bits = false → (rxOf link s).miss + 1 < 3 →
      exec (.inboundFrame link bits) s = .next (countInbound link (takeControl link f none
        (takeSlots link false bits
          (setRx link { rxOf link s with miss := (rxOf link s).miss + 1 } u)))) ∧
      exec (.lossOfLock link bits) s = .next s) ∧
    (markerGood bits = false → 3 ≤ (rxOf link s).miss + 1 →
      let t := countInbound link (reportSource .linkLost (dropMessage link
        (takeSlots link false bits (setRx link ⟨.seeking, 0, 3⟩ u))))
      exec (.inboundFrame link bits) s = .next t ∧ exec (.lossOfLock link bits) s = .next t ∧
        asmOf link t = Assembly.empty ∧ inSet t.ev.status 0 = true)) ∧
  ∀ (link : Link) (f : Nat) (s : State),
    let a := asmOf link s
    let empty : Assembly := ⟨.awaitKind, [], 0, 0, 0⟩
    let ahead := f % 48 = 47 ∧ s.ports.frames.outCodec ≤ f
    let delivers := fun (m : Msg) =>
      let u := setAsm link empty s
      match link with
      | .array => deliverSteer m u
      | .codec => if ahead then
          { u with ports := { u.ports with lateCommands := s.ports.lateCommands ++ [m] } }
        else deliverCommand m u
    let discards := fun (left : Assembly) (c : MsgCause) =>
      let u := setAsm link left s
      match link with
      | .array => { u with ports := { u.ports with
          steerErrors := min 65535 (s.ports.steerErrors + 1) } }
      | .codec => reportMsgError c u
    (link = .array → ahead → ∀ data, takeControl link f data s = { s with
      ports := { s.ports with lateControl := s.ports.lateControl ++ [data] } }) ∧
    (link = .codec ∨ ¬ ahead →
      (∀ b : Byte,
        (a.st = .awaitKind →
          takeControl link f (some b) s = setAsm link ⟨.awaitLength, [b], b, 0, 0⟩ s) ∧
        (a.st = .awaitLength → b.toNat ≤ 240 → takeControl link f (some b) s =
          setAsm link ⟨if b.toNat = 0 then .awaitCheck else .inPayload, a.bytes ++ [b], a.sum + b,
            b.toNat, 0⟩ s) ∧
        (a.st = .awaitLength → 240 < b.toNat →
          takeControl link f (some b) s = discards ⟨.resync, [], 0, 0, 0⟩ .length) ∧
        (a.st = .inPayload → takeControl link f (some b) s =
          setAsm link ⟨if a.expected ≤ 1 then .awaitCheck else .inPayload, a.bytes ++ [b], a.sum + b,
            a.expected - 1, 0⟩ s) ∧
        (a.st = .awaitCheck → a.sum + b = 0 →
          takeControl link f (some b) s = delivers ⟨a.bytes.getD 0 0, a.bytes.drop 2⟩) ∧
        (a.st = .awaitCheck → a.sum + b ≠ 0 →
          takeControl link f (some b) s = discards empty .check) ∧
        (a.st = .resync → takeControl link f (some b) s = setAsm link { a with idle := 0 } s)) ∧
      (a.st = .awaitKind → takeControl link f none s = setAsm link a s) ∧
      (a.st ≠ .awaitKind → a.idle < 15 →
        takeControl link f none s = setAsm link { a with idle := a.idle + 1 } s) ∧
      (a.st ≠ .awaitKind → a.st ≠ .resync → 15 ≤ a.idle →
        takeControl link f none s = discards empty .truncated) ∧
      (a.st = .resync → 15 ≤ a.idle → takeControl link f none s = setAsm link empty s))

/-- What becomes of the slots of an inbound frame, accepted or taken as zero: beam samples enter the bypass
lines, and playback samples are limited by their meters, counted, and handed to the speaker feeds and the
delay lines; nothing else changes (R2, R9, R19, R22; how much a line keeps is the model's: log 9). -/
def Obligations.FrameSamples : Prop :=
  ∀ (accepted : Bool) (bits : FrameBits) (s : State),
    (let t := takeSlots .array accepted bits s
     t = { s with out := { s.out with bypass := t.out.bypass } } ∧
     ∀ b : BeamId, t.out.bypass[b] =
      ((if accepted then frameSlot bits b.val else 0) :: s.out.bypass[b]).take 240) ∧
    ((∀ m : Fin 4, s.play.meters[m].ceiling ≤ 8388607) →
     let t := takeSlots .codec accepted bits s
     let raw : RefId → Sample := fun r => if accepted then frameSlot bits r.val else 0
     t = { s with
      play := { s.play with
        meters := t.play.meters, clamped := t.play.clamped, speaker := t.play.speaker }
      tracker := { s.tracker with lines := t.tracker.lines } } ∧
     ∃ limited : Vector Sample 8,
      (∀ r : RefId, limited[r].toInt =
        match s.tracker.refs[r].meter with
        | none => (raw r).toInt
        | some m => max (-(s.play.meters[m].ceiling : Int))
            (min s.play.meters[m].ceiling (raw r).toInt)) ∧
      t.play.speaker = (limited :: s.play.speaker).take 50 ∧
      (∀ r : RefId, t.tracker.lines[r] = (limited[r] :: s.tracker.lines[r]).take 3072) ∧
      (∀ m : Fin 4, t.play.meters[m].ceiling = s.play.meters[m].ceiling ∧
        t.play.meters[m].clamps = min 65535 (s.play.meters[m].clamps +
          (allRefs.filter fun r => s.tracker.refs[r].meter == some m &&
            limited[r] != raw r).length)) ∧
      (t.play.clamped = true ↔ s.play.clamped = true ∨ ∃ r : RefId, limited[r] ≠ raw r))

/-- What the start of a frame brings: the first direction to reach a frame starts it on all four, a reply held
takes a place that stands free, and an empty transmit record takes the head reply, whose place a held reply may
take at once; nothing else changes. The row HELD_REPLY_APPEND lets a held reply take a free place, and has no
effect with no place or no reply held; at a block boundary a held reply takes a free place before all else
(R17, R163; when a frame starts, and the operand heldNow, which lets a notice of the frame have the place first,
are the model's: log 8). -/
def Obligations.ReplyMoves : Prop :=
  (∀ (f : Nat) (heldNow : Bool) (s : State),
      let queued := match s.cmd.state with
        | .replyHeld r => if s.cmd.replies.length < 8 then
            { s.cmd with state := .idle, replies := s.cmd.replies ++ [r] } else s.cmd
        | .idle => s.cmd
        | .portWait => s.cmd
      let placed := { s with
        ports := { s.ports with frames := { s.ports.frames with started := f + 1 } }
        cmd := queued }
      (f < s.ports.frames.started → startFrame f heldNow s = s) ∧
      (s.ports.frames.started ≤ f →
        (∀ t, s.ports.transmit = some t → startFrame f heldNow s = placed) ∧
        (queued.replies = [] → startFrame f heldNow s = placed) ∧
        ∀ m rest, s.ports.transmit = none → queued.replies = m :: rest →
          let u := { placed with
            ports := { placed.ports with transmit := some ⟨m, 0⟩ }
            cmd := { queued with replies := rest } }
          (heldNow = false → startFrame f heldNow s = u) ∧
          (∀ r, heldNow = true → queued.state = .replyHeld r → rest.length < 8 →
            startFrame f heldNow s =
              { u with cmd := { queued with state := .idle, replies := rest ++ [r] } }) ∧
          ((∀ r, queued.state ≠ .replyHeld r) → startFrame f heldNow s = u))) ∧
  (∀ s : State, s.resetn = true →
    (∀ r, s.cmd.state = .replyHeld r → s.cmd.replies.length < 8 → exec .heldReplyAppend s = .next
      { s with cmd := { s.cmd with state := .idle, replies := s.cmd.replies ++ [r] } }) ∧
    ((8 ≤ s.cmd.replies.length ∨ ∀ r, s.cmd.state ≠ .replyHeld r) →
      exec .heldReplyAppend s = .next s)) ∧
  ∀ (order : List BoundaryEvent) (s t : State), BoundaryDue s → exec .heldReplyAppend s = .next t →
    exec (.blockBoundary order) s = exec (.blockBoundary order) t

/-- Sixteen idle frames truncate a message in progress and end a RESYNC gap, each by its row; where fewer
have passed the rows have no effect (R13, R14, R16; that the rows act on the assembly alone and count no
frame is the model's: log 7; so is the 0 of an emptied assembly's count of payload bytes still expected, for
which R13 and R14 give no value: log 17). -/
def Obligations.IdleLimit : Prop :=
  ∀ (link : Link) (s : State), s.resetn = true →
    ((inMessage (asmOf link s).st = true ∧ 15 ≤ (asmOf link s).idle →
        (link = .codec → exec (.messageTruncation link) s = .next (reportMsgError .truncated
          { s with ports := { s.ports with codecAsm := ⟨.awaitKind, [], 0, 0, 0⟩ } })) ∧
        (link = .array → exec (.messageTruncation link) s = .next
          { s with ports := { s.ports with
              arrayAsm := ⟨.awaitKind, [], 0, 0, 0⟩
              steerErrors := min 65535 (s.ports.steerErrors + 1) } })) ∧
      ((inMessage (asmOf link s).st = false ∨ (asmOf link s).idle < 15) →
        exec (.messageTruncation link) s = .next s)) ∧
    (((asmOf link s).st = .resync ∧ 15 ≤ (asmOf link s).idle →
        exec (.resyncEnd link) s = .next (setAsm link ⟨.awaitKind, [], 0, 0, 0⟩ s)) ∧
      (((asmOf link s).st ≠ .resync ∨ (asmOf link s).idle < 15) →
        exec (.resyncEnd link) s = .next s))

/-- A delivered command joins the end of the command queue where it has room, with the hold-off condition
judged by the new count; a full queue discards it and adds OVERFLOW. The rows COMMAND_DELIVERY and STEER
deliver in the newest inbound frame of their link, to the command queue and to the Beam Router, and leave
the message assembly as it stands; where that frame is 48n + 47 and boundary n is not past, the message
waits until it is; while its receiver seeks, no message comes from a link (R10, R32, R160, R161; the frame
that either row falls in, and the assembly it leaves, are the model's choice: log 8). -/
def Obligations.CommandDelivered : Prop :=
  (∀ (m : Msg) (s : State),
    (s.cmd.queue.length < 8 → deliverCommand m s = { s with cmd := { s.cmd with
      queue := s.cmd.queue ++ [m]
      hold := decide (holdTrigger s.cmd.tuning ≤ s.cmd.queue.length + 1) || s.cmd.hold } }) ∧
    (8 ≤ s.cmd.queue.length → ∃ t, deliverCommand m s = t ∧
      t = { s with
        cmd := { s.cmd with replies := t.cmd.replies }
        ev := { s.ev with status := t.ev.status, causes := t.ev.causes } } ∧
      t.ev.status = s.ev.status ||| 8 ∧ t.ev.causes = s.ev.causes ||| 8)) ∧
  ∀ (kind : Byte) (payload : List Byte) (s : State), s.resetn = true → payload.length ≤ 240 →
    let ahead := fun (f : Nat) => f % 48 = 47 ∧ s.ports.frames.outCodec ≤ f
    let f := s.ports.frames.inCodec - 1
    let g := s.ports.frames.inArray - 1
    (s.ports.codecRx.lock = .locked → ¬ ahead f →
      exec (.commandDelivery kind payload) s = .next (deliverCommand ⟨kind, payload⟩ s)) ∧
    (s.ports.codecRx.lock = .locked → ahead f →
      exec (.commandDelivery kind payload) s = .next { s with ports := { s.ports with
        lateCommands := s.ports.lateCommands ++ [⟨kind, payload⟩] } }) ∧
    (s.ports.codecRx.lock = .seeking → exec (.commandDelivery kind payload) s = .next s) ∧
    (s.ports.arrayRx.lock = .locked → ¬ ahead g →
      exec (.steer kind payload) s = .next (deliverSteer ⟨kind, payload⟩ s)) ∧
    (s.ports.arrayRx.lock = .locked → ahead g →
      exec (.steer kind payload) s = .next { s with ports := { s.ports with
        lateSteers := s.ports.lateSteers ++ [⟨kind, payload⟩] } }) ∧
    (s.ports.arrayRx.lock = .seeking → exec (.steer kind payload) s = .next s)

/-- A report to the Event Unit sets its source, and on the transition from clear to set raises a notice where
the mode allows the source and the mask leaves it, with the lowest unmasked code and the status; a full
reply queue skips the notice. MSG_ERROR adds its cause to the cause set (R16, R181 to R184). The clause on the
notice's code byte, the lowest code that is set and unmasked just after the notice's own transition, is the
model's choice where R183's two sentences on it cannot both hold: log 20. -/
def Obligations.EventReported : Prop :=
  (∀ (src : Source) (s : State),
    let t := reportSource src s
    let bit := sourceCode src - 1
    let status := s.ev.status ||| BitVec.ofNat 8 (2 ^ bit)
    let raised := !s.ev.status.getLsbD bit && !s.ev.mask.getLsbD bit &&
      match s.ev.mode with
      | .none => false
      | .errors => decide (sourceCode src ≤ 4)
      | .all => true
    ∃ code : Nat,
      t = { s with
        ev := { s.ev with status := status }
        cmd := { s.cmd with replies := s.cmd.replies ++
          if raised && decide (s.cmd.replies.length < 8) then [⟨0xF0, [BitVec.ofNat 8 code, status]⟩]
          else [] } } ∧
      (raised = true → 1 ≤ code ∧ code ≤ 8 ∧ (status &&& ~~~s.ev.mask).getLsbD (code - 1) = true ∧
        ∀ c, 1 ≤ c → c < code → (status &&& ~~~s.ev.mask).getLsbD (c - 1) = false)) ∧
  ∀ (c : MsgCause) (s : State), reportMsgError c s = reportSource .msgError { s with ev := { s.ev with
    causes := s.ev.causes ||| match c with
      | .check => 1
      | .truncated => 2
      | .length => 4
      | .overflow => 8 } }

/-- The Beam Router's treatment of every delivered message: a valid STEER notice forms a record that
replaces the tag of its beam's record in place, or joins the end of the steer queue; every other message
adds 1 to the steer error count, which saturates. Nothing else changes (R16, R32, R33). The row STEER stands
in CommandDelivered. -/
def Obligations.SteerNotice : Prop :=
  (∀ (b z : Byte) (hb : b.toNat < 16) (s : State), (z.toNat ≤ 31 ∨ z.toNat = 255) →
    let beam : BeamId := ⟨b.toNat, hb⟩
    let tag := if z.toNat = 255 then 32 else z.toNat
    ((∀ x ∈ s.router.queue, x.beam ≠ beam) → deliverSteer ⟨0x31, [b, z]⟩ s =
      { s with router := { s.router with queue := s.router.queue ++ [⟨beam, tag⟩] } }) ∧
    ((∃ x ∈ s.router.queue, x.beam = beam) → ∃ q, deliverSteer ⟨0x31, [b, z]⟩ s =
        { s with router := { s.router with queue := q } } ∧
      q.length = s.router.queue.length ∧
      ∀ (i : Nat) (h : i < s.router.queue.length) (h' : i < q.length),
        q[i] = if s.router.queue[i].beam = beam then ⟨beam, tag⟩ else s.router.queue[i])) ∧
  ∀ (kind : Byte) (payload : List Byte) (s : State),
    (kind ≠ 0x31 ∨ payload.length ≠ 2 ∨ 16 ≤ (payload.getD 0 0).toNat ∨
      (32 ≤ (payload.getD 1 0).toNat ∧ (payload.getD 1 0).toNat ≤ 254)) →
    deliverSteer ⟨kind, payload⟩ s = { s with ports := { s.ports with
      steerErrors := min 65535 (s.ports.steerErrors + 1) } }

/-- The next outbound frame of each link, where it may come; on the Codec Link it follows the inbound frames
of its number, and the boundary of a block whose last frame it is, which is past with it
(BoundaryTakesCommand), so that it carries the conditions that stand when its control field is sent. Array
Link: speaker feed r carries the limited sample of frame f − 2. Codec Link: a cleaned-beam slot carries what
its source of the block says, the sample of its synthesis bank, the inbound sample of 192 frames before, or
zero, and zero while the Array Link is not LOCKED; a monitor slot repeats a cleaned-beam slot or carries its
bank's sample; the control field carries the byte of the message in transmission, or CV = 0 and data bits of
zero, both conditions and the reserved 0, and zero follows it; and the transmit record moves on (R1 to R4,
R9, R17, R156, R157, R159, R191; the count for each direction and the two blocks of outputs are the model's:
logs 8 and 10). -/
def Obligations.OutboundFrame : Prop :=
  ∀ (heldNow : Bool) (s : State), s.resetn = true →
    (∀ link : Link, ¬ OutboundDue link s → exec (.outboundFrame link heldNow) s = .next s) ∧
    (OutboundDue .array s → ∃ t, exec (.outboundFrame .array heldNow) s = .next t ∧
      let f := s.ports.frames.outArray
      let u := startFrame f heldNow s
      t = { u with ports := { u.ports with
        ado := t.ports.ado, frames := { u.ports.frames with outArray := f + 1 } } } ∧
      frameField t.ports.ado 0 8 = 0x9D ∧
      (∀ r : RefId, (f < 2 → frameSlot t.ports.ado r.val = 0) ∧
        ∀ (back : Nat) (xs : Vector Sample 8), 2 ≤ f → s.ports.frames.inCodec = f - 1 + back →
          s.play.speaker[back]? = some xs → frameSlot t.ports.ado r.val = xs[r]) ∧
      frameField t.ports.ado 200 312 = 0) ∧
    (OutboundDue .codec s → ∃ t, exec (.outboundFrame .codec heldNow) s = .next t ∧
      let f := s.ports.frames.outCodec
      let v := endBoundary s
      let u := startFrame f heldNow v
      let slot := fun (k : Nat) => frameSlot t.ports.cdo k
      let stands := fun (o : OutBlock) =>
        (v.out.current.index = f / 48 ∧ o = v.out.current) ∨
          (v.out.current.index ≠ f / 48 ∧ v.out.earlier.index = f / 48 ∧ o = v.out.earlier)
      t = { u with ports := { u.ports with
        cdo := t.ports.cdo
        transmit := (match u.ports.transmit with
          | none => none
          | some x => if x.pos + 1 < x.msg.payload.length + 3 then some ⟨x.msg, x.pos + 1⟩ else none)
        frames := { u.ports.frames with outCodec := f + 1 } } } ∧
      frameField t.ports.cdo 0 8 = 0x9D ∧
      (∀ b : BeamId,
        (s.ports.arrayRx.lock = .seeking → slot b.val = 0) ∧
        (v.out.current.index ≠ f / 48 → v.out.earlier.index ≠ f / 48 → slot b.val = 0) ∧
        ∀ o, s.ports.arrayRx.lock = .locked → stands o → slot b.val =
          match o.sources[b] with
          | .zero => 0
          | .synthesis => o.samples[b].getD (f % 48) 0
          | .bypass =>
            if f < 192 then 0 else v.out.bypass[b].getD (s.ports.frames.inArray + 191 - f) 0) ∧
      (∀ k : Fin 2,
        (v.out.current.index ≠ f / 48 → v.out.earlier.index ≠ f / 48 → slot (16 + k.val) = 0) ∧
        ∀ o, stands o →
          (∀ b : BeamId, o.repeats[k] = some b → slot (16 + k.val) = slot b.val) ∧
          (o.repeats[k] = none → slot (16 + k.val) = o.monitors[k].getD (f % 48) 0)) ∧
      frameField t.ports.cdo 440 1 = (if u.ports.transmit.isSome then 1 else 0) ∧
      frameField t.ports.cdo 441 1 = (if u.cmd.hold then 1 else 0) ∧
      frameField t.ports.cdo 442 1 = (if eventPending u.ev then 1 else 0) ∧
      frameField t.ports.cdo 443 1 = 0 ∧ frameField t.ports.cdo 452 60 = 0 ∧
      (u.ports.transmit = none → frameField t.ports.cdo 444 8 = 0) ∧
      (∀ x, u.ports.transmit = some x →
        frameField t.ports.cdo 444 8 = (msgBytes x.msg).getD x.pos 0))

/-! ### The block boundary -/

/-- A boundary at which no command is taken: it is counted, the analysis and synthesis banks take the block,
every reference has the level of its band values, a block in which a sample was clamped sets CLIPPING, every
reference history and window power moves on, every beam's echo is estimated and taken from it and its
residue is suppressed, every generator takes 64 steps, and the settings stay, and the tags where the order
leaves the steer queue to its own row (log 6). The coefficients of every slot that was RUNNING and granted
adaptation are updated, and those of every other slot kept, but for the slots made cold at the boundary and,
where the order holds the store port's completion, the installed. Short of the last frame of the block on
both links there is no boundary (R1, R19, R23, R24, R40 to R42, R49, R55 to R65, R149 to R154, R159). -/
def Obligations.BoundaryTakesBlock : Prop :=
  (∀ (order : List BoundaryEvent) (s : State), s.resetn = true → ¬ BoundaryDue s →
    exec (.blockBoundary order) s = .next s) ∧
  ∀ (order : List BoundaryEvent) (s : State), BoundaryDue s → noCommandTaken order s →
    ∃ t, exec (.blockBoundary order) s = .next t ∧
      t.resetn = true ∧ t.blk.count = s.blk.count + 1 ∧
      BanksAnalyse s t ∧ BanksSynthesise s t ∧
      (∀ r : RefId, t.tracker.refs[r].level = lu (blockEnergy t.blk.refBands[r])) ∧
      t.play.clamped = false ∧
      t.ev.status.getLsbD 7 = (s.ev.status.getLsbD 7 || s.play.clamped) ∧
      (∀ r : RefId, t.core.hist[r] = (t.blk.refBands[r] :: s.core.hist[r]).take 384 ∧
        ∀ j : Fin 32, t.core.power[r][j] =
          ((t.core.hist[r].take (tailLen s)).map fun x => energy x[j]).sum) ∧
      (∀ b : BeamId, t.core.micLu[b] = lu (blockEnergy t.blk.work[b].micBands) ∧
        EchoCancelled s t b ∧ (∀ j : Fin 32, BandSuppressed s t b j) ∧
        t.supp.lfsr[b] = (drawNoise 64 s.supp.lfsr[b]).2) ∧
      t.core.tail = s.core.tail ∧ t.core.step = s.core.step ∧
      t.ctl.thresholds = s.ctl.thresholds ∧ t.alloc.mask = s.alloc.mask ∧
      t.cmd.op = s.cmd.op ∧ t.cmd.tuning = s.cmd.tuning ∧ t.cmd.loadTaps = s.cmd.loadTaps ∧
      t.ev.mask = s.ev.mask ∧ t.ev.mode = s.ev.mode ∧
      t.play.meters = s.play.meters ∧ t.play.speaker = s.play.speaker ∧
      t.tracker.lines = s.tracker.lines ∧ t.out.bypass = s.out.bypass ∧
      t.out.monitors = s.out.monitors ∧
      t.ports = s.ports ∧
      (∀ r : RefId, t.tracker.refs[r].mode = s.tracker.refs[r].mode ∧
        t.tracker.refs[r].meter = s.tracker.refs[r].meter ∧
        t.tracker.refs[r].delay = s.tracker.refs[r].delay) ∧
      (BoundaryEvent.steer ∉ order → t.router.beams = s.router.beams) ∧
      (memWf s.core.mem = true → BoundaryEvent.complete ∉ order → BoundaryEvent.grant ∉ order →
        ∀ sl : SlotId, sl ∉ t.blk.cold →
          (∀ p : PairId, s.alloc.slots[sl] = .running p →
            (∃ x ∈ t.blk.slots, x.slot = sl ∧ x.granted = true) → SlotUpdated s t sl p) ∧
          ((∀ x ∈ t.blk.slots, x.slot = sl → x.granted = false) →
            t.core.slots[sl].clamped = false ∧
            ∀ (j : Fin 32) (k : Nat), k < tailLen s →
              memGet t.core.mem (tapAddr (tailLen s) sl.val j.val k) =
                memGet s.core.mem (tapAddr (tailLen s) sl.val j.val k)))

/-- At a boundary for which the Array Link is LOCKED, and at which no command is taken: the activity states
and the effective linger (R25); far-end and near-end presence (R79, R80); the noise floor (R50) and the
double-talk state (R81); the slots of the block with their grants (R57, R83) and their counting, phases and
clamp runs (R86 to R89, R91), where a slot that completes its run and serves its pair after it stands cold,
and each run and divergence adds 1 to the count of its beam, up to 255 (R91, R93); of a beam that is FAR the
step of the estimate (R84), the divergence counting with its reset (R92, R93) and the degrade counting
(R96), and of any other none of these; and the source of each cleaned-beam slot of the next block (R156).
Three clauses rest on a choice of the model: a degrade counter that stands above the degrade time is kept
(log 23), a slot released and RUNNING again for its pair when the reset of its run comes is reset (log 22),
and a source is zero where fewer than two blocks came before (log 10). -/
def Obligations.BoundaryLocked : Prop :=
  ∀ (order : List BoundaryEvent) (s : State), BoundaryDue s → noCommandTaken order s →
    s.ports.arrayRx.lock = .locked →
    ∃ t, exec (.blockBoundary order) s = .next t ∧
      (∀ r : RefId, s.cmd.op = .running → s.tracker.refs[r].mode ≠ .off →
        (t.tracker.refs[r].activity, t.tracker.refs[r].linger) =
          let ref := s.tracker.refs[r]
          let limit := if ref.mode = .onShort then tailLen s else max (lingerBlocks s.cmd.tuning) (tailLen s)
          if actThreshold s.cmd.tuning ≤ t.tracker.refs[r].level then
            (.active, if ref.activity = .active then ref.linger else 0)
          else match ref.activity with
            | .silent => (.silent, 0)
            | .active => (.linger, limit)
            | .linger => if ref.linger ≤ 1 then (.silent, 0) else (.linger, ref.linger - 1)) ∧
      (t.blk.slots.map fun x => (x.slot, x.pair, x.phase, x.counter, x.run)) =
        allSlots.filterMap (fun sl => match s.alloc.slots[sl] with
          | .running p => some (sl, p, s.ctl.slots[sl].phase, s.ctl.slots[sl].counter, s.ctl.slots[sl].run)
          | .free => none
          | .draining _ _ _ => none) ∧
      (∀ x ∈ t.blk.slots,
        (x.granted = true ↔ t.blk.work[pairBeam x.pair].talk = .far ∧
          s.router.beams[pairBeam x.pair].frozen = false ∧
          ∃ j : Fin 32, 0 < stepOf s.core.step x.phase j) ∧
        (x.granted = false → x.clamped = false) ∧
        (x.slot ∉ t.blk.cold → BoundaryEvent.complete ∉ order → BoundaryEvent.grant ∉ order →
          t.core.slots[x.slot].clamped = x.clamped) ∧
        SlotCounted s t x ∧
        (runCompletes (clampLimit s.cmd.tuning) x = true → t.alloc.slots[x.slot] = .running x.pair →
          BoundaryEvent.complete ∉ order → BoundaryEvent.grant ∉ order →
          x.slot ∈ t.blk.cold ∧ t.ctl.slots[x.slot] = ⟨.warmup, 0, 0⟩)) ∧
      t.out.current.index = t.blk.count ∧
      ∀ b : BeamId,
        let u := s.cmd.tuning
        let c := s.ctl.beams[b]
        let d := t.ctl.beams[b]
        let w := t.blk.work[b]
        let counted := d.talk = .far ∧ s.router.beams[b].frozen = false
        let run := if w.mic + divMargin u < w.res then c.divCtr + 1 else 0
        let code := degradeCode u
        let limit := if code ≤ 15 then 250 else code * 16
        let below := w.erle < (s.ctl.thresholds[b.val].toNat : Int)
        (w.far = true ↔ ∃ (sl : SlotId) (p : PairId), s.alloc.slots[sl] = .running p ∧
          pairBeam p = b ∧ t.blk.decided[pairRef p].1 = .active) ∧
        (w.near = true ↔ (dtArm u : Int) ≤ c.erle ∧
          (∀ (sl : SlotId) (p : PairId), s.alloc.slots[sl] = .running p → pairBeam p = b →
            s.ctl.slots[sl].phase ≠ .warmup) ∧
          w.echo + dtMargin u ≤ w.mic ∧ c.noise + presenceMargin u ≤ w.mic) ∧
        (b ∈ t.blk.rose ↔ c.noise ≤ t.core.micLu[b] ∧ noiseRise u ≤ c.rise + 1) ∧
        (b ∈ t.blk.diverged ↔ counted ∧ divLimit u ≤ run) ∧
        (d.noise, d.rise) = (if t.core.micLu[b] < c.noise then (t.core.micLu[b], 0)
          else if noiseRise u ≤ c.rise + 1 then (min 423 (c.noise + 1), 0) else (c.noise, c.rise + 1)) ∧
        (d.talk, d.hangCtr) = (
          let given : Talk := if w.far = true then .far else if w.near = true then .near else .idle
          if w.far = true ∧ w.near = true then (.double, if c.talk = .hangover then 0 else c.hangCtr)
          else match c.talk with
            | .idle | .far | .near => (given, c.hangCtr)
            | .double => if hangoverTime u = 0 then (given, 0) else (.hangover, hangoverTime u)
            | .hangover => if c.hangCtr ≤ 1 then (given, 0) else (.hangover, c.hangCtr - 1)) ∧
        (let runs := (t.blk.slots.filter fun x =>
            pairBeam x.pair == b && runCompletes (clampLimit u) x).length
         let added := runs + if counted ∧ divLimit u ≤ run then 1 else 0
         d.divCount = (if added = 0 then c.divCount else min 255 (c.divCount + added)) ∧
         (0 < runs → t.ev.diverged.getLsbD b.val = true ∧ t.ev.status.getLsbD 2 = true)) ∧
        w.talk = d.talk ∧
        (d.talk ≠ .far → w.erle = c.erle ∧ d.erle = c.erle ∧ d.divCtr = c.divCtr ∧
          d.degCtr = c.degCtr ∧ d.degraded = c.degraded) ∧
        (d.talk = .far → w.erle = saturate (-128) 255
          (smooth c.erle ((w.mic : Int) - w.res) (erleShift u))) ∧
        (counted → run < divLimit u → d.divCtr = run ∧ d.erle = w.erle) ∧
        (counted → divLimit u ≤ run → d.divCtr = 0 ∧ d.erle = 0 ∧
          t.ev.diverged.getLsbD b.val = true ∧ t.ev.status.getLsbD 2 = true) ∧
        (d.talk = .far → s.router.beams[b].frozen = true →
          d.divCtr = c.divCtr ∧ d.erle = w.erle) ∧
        (d.talk = .far → code = 0 → d.degCtr = c.degCtr ∧ d.degraded = c.degraded) ∧
        (d.talk = .far → code ≠ 0 → ¬ below → d.degCtr = 0 ∧ d.degraded = false) ∧
        (d.talk = .far → code ≠ 0 → below → c.degCtr + 1 < limit →
          d.degCtr = c.degCtr + 1 ∧ d.degraded = c.degraded) ∧
        (d.talk = .far → code ≠ 0 → below → limit ≤ c.degCtr + 1 →
          d.degCtr = max limit c.degCtr ∧ d.degraded = true ∧
          (c.degraded = false → t.ev.degraded.getLsbD b.val = true ∧ t.ev.status.getLsbD 5 = true)) ∧
        t.out.current.sources[b] =
          if s.out.lockHist.take 2 = [true, true] then
            match s.cmd.op, s.router.beams[b].mode with
            | .config, _ => .bypass
            | .running, .cancel => .synthesis
            | .running, .bypass => .bypass
            | .running, .mute => .zero
          else .zero

/-- At a boundary for which the Array Link is not LOCKED, and at which no command is taken: every beam is
IDLE with its hangover at 0 and keeps its floor, its estimate and its counts, the steer queue keeps its
records with their tags, and every cleaned-beam source of the next block is zero (R36, R50, R82, R156). -/
def Obligations.BoundaryUnlocked : Prop :=
  ∀ (order : List BoundaryEvent) (s : State), BoundaryDue s → noCommandTaken order s →
    s.ports.arrayRx.lock = .seeking →
    ∃ t, exec (.blockBoundary order) s = .next t ∧
      (∀ b : BeamId, t.ctl.beams[b] = { s.ctl.beams[b] with talk := .idle, hangCtr := 0 }) ∧
      t.router.beams = s.router.beams ∧ t.router.queue = s.router.queue ∧
      ∀ b : BeamId, t.out.current.sources[b] = .zero

/-- At a boundary whose order holds the command event, a unit that finds a message waiting takes it and
answers it, at once, at the place the order gives its reply, or, for ENTRY READ and ENTRY COMMIT alone,
which then wait for the port from this boundary, once it has served them, and has no further turn at that
boundary; the reply joins the queue or is held. The hold-off condition is judged by the count that the
taking leaves, and by the hold_trigger that a TUNING write leaves. Only where notices of events ordered
before the taking have filled the reply queue does the unit take nothing, and the message stays at the head;
never where the command comes first or no notice is raised. The soft reset, which empties the queue, has its
own statement. A boundary is past with the outbound Codec Link frame of its block's last number: the steer
queue, the store port's operation and the taking of a command by a unit that still has its turn, as their
rows give them, happen then if they have not yet; a report taken at the boundary carries what stands after
all of its events, as its row would answer it; and the messages that came in the block's last frame are
delivered, commands to the command queue and the Array Link's control field to its assembly and the Beam
Router (R4, R34, R118, R127, R128, R145, R160 to R162, R163, R166, R177, R179; the order in which the three
happen is the model's: log 6). -/
def Obligations.BoundaryTakesCommand : Prop :=
  (∀ (order : List BoundaryEvent) (s : State) (m : Msg) (rest : List Msg), BoundaryDue s →
    Waiting s m rest → BoundaryEvent.command ∈ order → UnitSound s → m.kind ≠ 0x05 →
    ∃ t, exec (.blockBoundary order) s = .next t ∧ t.blk.count = s.blk.count + 1 ∧
      t.cmd.turn = false ∧ t.blk.reply = none ∧
      ((t.cmd.queue = rest ∧
        t.cmd.hold = holdAfter (holdLeft s rest) rest.length (holdTrigger t.cmd.tuning) ∧
        ((t.cmd.state = .portWait ∧ (m.kind = 0x43 ∨ m.kind = 0x45) ∧
          ∃ a, t.store.host = some ⟨a, t.blk.count⟩) ∨ ∃ r, r.kind = m.kind + 0x80 ∧
          (r ∈ t.cmd.replies ∨ t.cmd.state = .replyHeld r))) ∨
       (s.ev.mode ≠ .none ∧ order.head? ≠ some .command ∧ t.cmd.queue = m :: rest ∧
        t.cmd.hold = s.cmd.hold ∧ t.cmd.state = .idle ∧ 8 ≤ t.cmd.replies.length))) ∧
  ∀ s : State,
    (¬ AtBoundary { s with resetn := true } → endBoundary s = s) ∧
    (AtBoundary s → ∃ a b c d e : State,
      exec .steerApplication s = .next a ∧ exec .portGrant a = .next b ∧
      (∀ (row : Instr) (pred : Msg → Bool) (m : Msg) (rest : List Msg), taken row = some pred →
        Ready b m rest → pred m = true → exec row b = .next c) ∧
      ((∀ (m : Msg) (rest : List Msg), ¬ Ready b m rest) →
        c = { b with cmd := { b.cmd with turn := false } }) ∧
      (c.blk.report = none → d = c) ∧
      d = { c with cmd := { c.cmd with state := d.cmd.state, replies := d.cmd.replies } } ∧
      (∀ (m r : Msg) (row : Instr) (pred : Msg → Bool) (x : State), c.blk.report = some m →
        taken row = some pred → pred m = true →
        m.kind = 0x01 ∨ m.kind = 0x11 ∨ m.kind = 0x20 ∨ m.kind = 0x28 ∨ m.kind = 0x29 →
        exec row { c with cmd := { c.cmd with
          state := .idle, queue := m :: c.cmd.queue, replies := [], turn := true } } = .next x →
        x.cmd.replies = [r] →
        (∀ held, c.cmd.state = .replyHeld held →
          d.cmd.state = .replyHeld r ∧ d.cmd.replies = c.cmd.replies) ∧
        ∀ before old after, (∀ held, c.cmd.state ≠ .replyHeld held) →
          c.cmd.replies = before ++ old :: after → old.kind = r.kind → (∀ x ∈ after, x.kind ≠ r.kind) →
          d.cmd.state = c.cmd.state ∧ d.cmd.replies = before ++ r :: after) ∧
      e = d.ports.lateCommands.foldl (fun s m => deliverCommand m s)
        { d with ports := { d.ports with lateCommands := [] } } ∧
      ∃ t, endBoundary s = t ∧
        t = e.ports.lateSteers.foldl (fun s m => deliverSteer m s)
          (e.ports.lateControl.foldl (fun s x => takeControl .array 0 x s)
            { e with ports := { e.ports with lateControl := [], lateSteers := [] } }) ∧
        t = { e with
          ports := { e.ports with
            lateControl := [], lateSteers := []
            arrayAsm := t.ports.arrayAsm, steerErrors := t.ports.steerErrors }
          router := { e.router with queue := t.router.queue } })

/-! ### Counters that reach their limits at a boundary -/

/-- LINGER_EXPIRY: a lingering reference at its last step that meets a quiet block becomes SILENT, no pair
of it waits or is RUNNING any more, and only the pool moves with it, where the fill requests of the waiting
pairs that take its slots stand behind the others in ascending pair index; otherwise the row has no effect.
A block is quiet by the act_threshold in force before the boundary's writes (R25, R101, R106, R124, R178;
that the row is the one advance that reaches the limit: log 6, and its test of a quiet block: log 7). -/
def Obligations.LingerExpiry : Prop :=
  ∀ (r : RefId) (s : State), AtBoundary s →
    let ref := s.tracker.refs[r]
    let due := s.blk.live = true ∧ s.cmd.op = .running ∧ ref.mode ≠ .off ∧ ref.activity = .linger ∧
      ref.linger ≤ 1 ∧ ref.level < actThreshold s.blk.tuning
    (due → PoolSound s → ∃ t u, exec (.lingerExpiry r) s = .next t ∧
      t.tracker.refs[r] = { ref with activity := .silent, linger := 0 } ∧
      (∀ q : RefId, q ≠ r → t.tracker.refs[q] = s.tracker.refs[q]) ∧
      (∀ p : PairId, pairRef p = r →
        p ∉ t.alloc.waiting ∧ ∀ sl : SlotId, t.alloc.slots[sl] ≠ .running p) ∧
      u = { s with
        tracker := { s.tracker with refs := t.tracker.refs }
        blk := { s.blk with decided := t.blk.decided } } ∧
      PoolMoves u t ∧
      (let formed := t.store.fills.filter (· ∉ s.store.fills)
       t.store.fills = t.store.fills.filter (· ∈ s.store.fills) ++ formed ∧
        (formed.map (·.set)).Pairwise (· ≤ ·))) ∧
    (¬ due → exec (.lingerExpiry r) s = .next s)

/-- The rows of the counters of a beam's noise floor and hangover and of a slot's phase: each is the one
advance that reaches the limit, changes only its record, and otherwise has no effect. They read the settings in
force before the boundary's writes and what its block handed on: a slot's phase moves only where the slot was
granted adaptation for the block, by the beam's estimate for it, and a floor rises once at a boundary (R7, R50,
R81, R83, R86 to R88, R97 to R99; log 6). -/
def Obligations.CounterRows : Prop :=
  ∀ s : State, AtBoundary s →
    (∀ b : BeamId,
      let c := s.ctl.beams[b]
      let rises := s.blk.live = true ∧ s.ports.arrayRx.lock = .locked ∧ b ∉ s.blk.rose ∧
        c.noise ≤ s.core.micLu[b] ∧ noiseRise s.blk.tuning ≤ c.rise + 1
      (rises → exec (.noiseFloorRise b) s = .next { s with
        ctl := { s.ctl with
          beams := s.ctl.beams.set b { c with noise := min 423 (c.noise + 1), rise := 0 } }
        blk := { s.blk with rose := b :: s.blk.rose } }) ∧
      (¬ rises → exec (.noiseFloorRise b) s = .next s)) ∧
    (∀ b : BeamId,
      let c := s.ctl.beams[b]
      let w := s.blk.work[b]
      let ends := s.blk.live = true ∧ s.ports.arrayRx.lock = .locked ∧ c.talk = .hangover ∧
        c.hangCtr ≤ 1 ∧ ¬ (w.far = true ∧ w.near = true)
      let given : Talk := if w.far = true then .far else if w.near = true then .near else .idle
      (ends → exec (.hangoverEnd b) s = .next { s with ctl := { s.ctl with
        beams := s.ctl.beams.set b { c with talk := given, hangCtr := 0 } } }) ∧
      (¬ ends → exec (.hangoverEnd b) s = .next s)) ∧
    ∀ sl : SlotId,
      let c := s.ctl.slots[sl]
      let warm := (∃ x, SlotCounts s sl x .warmup) ∧ warmBlocks s.blk.tuning ≤ c.counter + 1
      let tracks := ∃ x, SlotCounts s sl x .converging ∧
        (trackErle s.blk.tuning : Int) ≤ s.blk.work[pairBeam x.pair].erle ∧
        trackCount s.blk.tuning ≤ c.counter + 1
      (warm → exec (.warmupEnd sl) s = .next { s with ctl := { s.ctl with
        slots := s.ctl.slots.set sl { c with phase := .converging, counter := 0 } } }) ∧
      (¬ warm → exec (.warmupEnd sl) s = .next s) ∧
      (tracks → exec (.trackingEntry sl) s = .next { s with ctl := { s.ctl with
        slots := s.ctl.slots.set sl { c with phase := .tracking, counter := 0 } } }) ∧
      (¬ tracks → exec (.trackingEntry sl) s = .next s)

/-- CLAMP_RUN_RESET: where the slot adapted and clamped in the block, and one more clamp completes the run
that the block has left it, by the clamp_limit in force before the boundary's writes, the beam's divergence
count rises, the beam joins the diverged set and DIVERGED is set; the slot, if it is RUNNING for its pair,
is reset to cold with a lookup of its beam's tag, and one that is not, or has been reset at this boundary
already, is kept; every other slot and every pair is kept. Otherwise, and where the run has been completed
at this boundary, the row has no effect (R69, R83, R86, R91, R94, R99; that the row is the one advance that
reaches clamp_limit: log 6; that a slot released and RUNNING again for its pair is reset: log 22). -/
def Obligations.ClampRunReset : Prop :=
  ∀ (sl : SlotId) (s : State), AtBoundary s →
    let due := fun (x : BlockSlot) => SlotAdapts s sl x ∧ x.clamped = true ∧ sl ∉ s.blk.runDone ∧
      clampLimit s.blk.tuning ≤ min 1000 (x.run + 1) + 1
    (∀ x : BlockSlot, due x →
      let p := x.pair
      let b := pairBeam p
      ∃ t, exec (.clampRunReset sl) s = .next t ∧ exec (.clampRunReset sl) t = .next t ∧
        (s.alloc.slots[sl] = .running p → sl ∉ s.blk.resets → MadeCold s t sl ∧
          t.store.fills = fillsAfterLookup s sl p s.router.beams[b].tag) ∧
        (s.alloc.slots[sl] ≠ .running p ∨ sl ∈ s.blk.resets → SlotKept s t sl ∧ t.store.fills = s.store.fills) ∧
        (∀ other : SlotId, other ≠ sl → SlotKept s t other) ∧
        t.ctl.beams = s.ctl.beams.set b { s.ctl.beams[b] with
          divCount := min 255 (s.ctl.beams[b].divCount + 1) } ∧
        t.ev.diverged = s.ev.diverged ||| BitVec.ofNat 16 (2 ^ b.val) ∧
        t.ev.status = s.ev.status ||| 4 ∧
        t = { s with
          core := { s.core with mem := t.core.mem, slots := t.core.slots }
          ctl := { s.ctl with beams := t.ctl.beams, slots := t.ctl.slots }
          store := { s.store with fills := t.store.fills }
          cmd := { s.cmd with replies := t.cmd.replies }
          ev := { s.ev with status := t.ev.status, diverged := t.ev.diverged }
          blk := { s.blk with
            phaseSet := t.blk.phaseSet, runSet := t.blk.runSet, resets := t.blk.resets
            cold := t.blk.cold, runDone := sl :: s.blk.runDone } }) ∧
    ((∀ x : BlockSlot, ¬ due x) → exec (.clampRunReset sl) s = .next s)

/-- DIVERGENCE_RESET: where the beam was FAR and not frozen for the block, the block's error stands above
its input by more than the margin, and one more such block completes the count, by the settings in force
before the boundary's writes, every RUNNING slot of the beam that has not been reset at this boundary is
reset to cold with a lookup of the beam's tag, its estimate and divergence counter become 0, its divergence
count rises, it joins the diverged set and DIVERGED is set; every other slot and every pair is kept.
Otherwise, and where the beam has had its reset at this boundary, the row has no effect (R7, R69, R92 to
R94, R98, R99; that the row is the one advance that reaches div_count: log 6, and the ascending order in
which the lookups' requests queue: log 22). -/
def Obligations.DivergenceReset : Prop :=
  ∀ (b : BeamId) (s : State), AtBoundary s →
    let c := s.ctl.beams[b]
    let tag := s.router.beams[b].tag
    let w := s.blk.work[b]
    let due := s.blk.live = true ∧ w.talk = .far ∧ w.frozen = false ∧ b ∉ s.blk.diverged ∧
      w.mic + divMargin s.blk.tuning < w.res ∧ divLimit s.blk.tuning ≤ c.divCtr + 1
    let served : SlotId → Option PairId := fun sl =>
      match s.alloc.slots[sl] with
      | .running p => if pairBeam p = b ∧ sl ∉ s.blk.resets then some p else none
      | .free => none
      | .draining _ _ _ => none
    (due → ∃ t, exec (.divergenceReset b) s = .next t ∧
      (∀ (sl : SlotId) (p : PairId), s.alloc.slots[sl] = .running p → pairBeam p = b →
        sl ∉ s.blk.resets → MadeCold s t sl) ∧
      (∀ sl : SlotId, (∀ p, s.alloc.slots[sl] = .running p → pairBeam p ≠ b) ∨ sl ∈ s.blk.resets →
        SlotKept s t sl) ∧
      t.store.fills = s.store.fills.filter (fun r => (served r.slot).isNone) ++
        allSlots.filterMap (fun sl =>
          match served sl with
          | some p => if lookupHit s p tag then
              some ⟨sl, s.core.slots[sl].ticket + 1, p, tag, s.blk.count⟩ else none
          | none => none) ∧
      t.ctl.beams = s.ctl.beams.set b { c with
        erle := 0, divCtr := 0, divCount := min 255 (c.divCount + 1) } ∧
      t.ev.diverged = s.ev.diverged ||| BitVec.ofNat 16 (2 ^ b.val) ∧
      t.ev.status = s.ev.status ||| 4 ∧
      t = { s with
        core := { s.core with mem := t.core.mem, slots := t.core.slots }
        ctl := { s.ctl with beams := t.ctl.beams, slots := t.ctl.slots }
        store := { s.store with fills := t.store.fills }
        cmd := { s.cmd with replies := t.cmd.replies }
        ev := { s.ev with status := t.ev.status, diverged := t.ev.diverged }
        blk := { s.blk with
          phaseSet := t.blk.phaseSet, runSet := t.blk.runSet, resets := t.blk.resets
          cold := t.blk.cold
          diverged := b :: s.blk.diverged } } ∧
      exec (.divergenceReset b) t = .next t) ∧
    (¬ due → exec (.divergenceReset b) s = .next s)

/-- DEGRADE_TIME_EXPIRY: a beam that was FAR for the block, with its estimate for it below the threshold in
force before the boundary's writes, and whose counter reaches the degrade time in force before them, is
flagged, joins the degraded set and sets DEGRADED; a code 0 written at the boundary keeps its record
cleared. Otherwise the row has no effect (R7, R95 to R97, R99; that the row is the one advance that reaches
the degrade time: log 6, and a counter above it: log 23). -/
def Obligations.DegradeTimeExpiry : Prop :=
  ∀ (b : BeamId) (s : State), AtBoundary s →
    let c := s.ctl.beams[b]
    let w := s.blk.work[b]
    let code := degradeCode s.blk.tuning
    let limit := if code ≤ 15 then 250 else code * 16
    let due := s.blk.live = true ∧ code ≠ 0 ∧ w.talk = .far ∧ c.degraded = false ∧
      w.erle < (s.blk.thresholds[b.val].toNat : Int) ∧ limit ≤ c.degCtr + 1
    (due → ∃ t, exec (.degradeTimeExpiry b) s = .next t ∧
      t.ctl.beams = (if degradeCode s.cmd.tuning = 0 then s.ctl.beams
        else s.ctl.beams.set b { c with degCtr := max limit c.degCtr, degraded := true }) ∧
      t.ev.degraded = s.ev.degraded ||| BitVec.ofNat 16 (2 ^ b.val) ∧
      t.ev.status = s.ev.status ||| 32 ∧
      t = { s with
        ctl := { s.ctl with beams := t.ctl.beams }
        cmd := { s.cmd with replies := t.cmd.replies }
        ev := { s.ev with status := t.ev.status, degraded := t.ev.degraded } }) ∧
    (¬ due → exec (.degradeTimeExpiry b) s = .next s)

/-! ### The pool and the steer queue -/

/-- WAIT_LIST_ASSIGNMENT: a FREE slot of the pool goes to the oldest waiting pair, cold, with a lookup of the
pair's set under its beam's tag; every other slot and pair is kept. Where no pair waits or the slot is not a
FREE slot of the pool the row has no effect (R67, R105; that the row meets a FREE slot while a pair waits,
which R105 leaves to no run: log 7). -/
def Obligations.WaitListAssignment : Prop :=
  ∀ (sl : SlotId) (s : State), AtBoundary s →
    (∀ (p : PairId) (rest : List PairId), s.alloc.slots[sl] = .free → sl.val < slotCount s →
      s.alloc.waiting = p :: rest →
      ∃ t, exec (.waitListAssignment sl) s = .next t ∧
        t.alloc = { s.alloc with
          slots := s.alloc.slots.set sl (.running p)
          pairs := s.alloc.pairs.set p (.held sl)
          waiting := rest } ∧
        MadeCold s t sl ∧ t.core.slots[sl].clamped = false ∧
        (∀ other : SlotId, other ≠ sl → SlotKept s t other) ∧
        t.store.fills = fillsAfterLookup s sl p s.router.beams[pairBeam p].tag ∧
        t.store.captures = s.store.captures ∧ PoolMoves s t) ∧
    ((s.alloc.slots[sl] ≠ .free ∨ slotCount s ≤ sl.val ∨ s.alloc.waiting = []) →
      exec (.waitListAssignment sl) s = .next s)

/-- DRAINING_SLOT_CAPTURE: with room in the capture area, the lowest-numbered DRAINING slot's head joins the
area's end under its recorded tag and quality, and the slot becomes FREE, or goes to the oldest waiting
pair, cold, with a lookup of the pair's set under its beam's tag; with no room or no DRAINING slot the row
has no effect (R71, R105, R109, R123; that the row meets room beside a DRAINING slot outside the room
report: log 7). -/
def Obligations.DrainingSlotCapture : Prop :=
  ∀ s : State, AtBoundary s →
    (∀ (sl : SlotId) (p : PairId) (tag q : Nat), s.alloc.slots[sl] = .draining p tag q →
      (∀ lower : SlotId, lower < sl → ∀ p' tag' q', s.alloc.slots[lower] ≠ .draining p' tag' q') →
      s.store.captures.length < 8 →
      ∃ t, exec .drainingSlotCapture s = .next t ∧
        t.store.captures = s.store.captures ++ [⟨p, tag, q, headCopy sl s, s.blk.count⟩] ∧
        (s.alloc.waiting = [] → t.alloc = { s.alloc with
            slots := s.alloc.slots.set sl .free, pairs := s.alloc.pairs.set p .none } ∧
          t.core = s.core ∧ t.ctl = s.ctl ∧ t.store.fills = s.store.fills) ∧
        (∀ w rest, s.alloc.waiting = w :: rest → t.alloc = { s.alloc with
            slots := s.alloc.slots.set sl (.running w)
            pairs := (s.alloc.pairs.set p .none).set w (.held sl)
            waiting := rest } ∧
          MadeCold s t sl ∧ t.core.slots[sl].clamped = false ∧
          t.store.fills = fillsAfterLookup s sl w s.router.beams[pairBeam w].tag) ∧
        (∀ other : SlotId, other ≠ sl → SlotKept s t other) ∧
        PoolMoves s t) ∧
    ((8 ≤ s.store.captures.length ∨ ∀ (sl : SlotId) p tag q, s.alloc.slots[sl] ≠ .draining p tag q) →
      exec .drainingSlotCapture s = .next s)

/-- STEER_APPLICATION: with the Array Link LOCKED every record is applied, oldest first, and the queue is empty
after it: in CONFIG with the tags alone; in RUNNING with a zone change of every beam whose tag changes. Each
RUNNING slot of such a beam is captured under the old tag where it is eligible and the area has room, and
where the area is full CAPTURE_DROPPED is set; its ticket is raised; and a lookup under the new tag that hits
forms a request and keeps its record, and one that misses carries it, with origin CARRIED and phase
CONVERGING at 0, unless it was made cold at this boundary. Every slot keeps its state, and the slots of other
beams keep all they hold. With the link not LOCKED nothing changes (R34 to R36, R54, R70, R107, R123,
R125). -/
def Obligations.SteerApplication : Prop :=
  ∀ s : State, AtBoundary s →
    (s.ports.arrayRx.lock = .seeking → exec .steerApplication s = .next s) ∧
    (s.ports.arrayRx.lock = .locked → (s.router.queue.map (·.beam)).Nodup →
      let owed := match s.cmd.op with
        | .config => []
        | .running => s.router.queue.flatMap (steerCaptures s)
      ∃ t u, exec .steerApplication s = .next t ∧
        t.router.queue = [] ∧
        (∀ x ∈ s.router.queue, t.router.beams[x.beam] = { s.router.beams[x.beam] with tag := x.tag }) ∧
        (∀ b : BeamId, (∀ x ∈ s.router.queue, x.beam ≠ b) →
          t.router.beams[b] = s.router.beams[b]) ∧
        t.alloc = s.alloc ∧
        (s.cmd.op = .config → t = { s with router := t.router }) ∧
        (s.cmd.op = .running → ∀ (sl : SlotId) (p : PairId), s.alloc.slots[sl] = .running p →
          ∀ x ∈ s.router.queue, x.beam = pairBeam p → x.tag ≠ s.router.beams[x.beam].tag →
          t.core.slots[sl].ticket = s.core.slots[sl].ticket + 1 ∧
          (∀ r ∈ t.store.fills, r.slot = sl →
            r = ⟨sl, s.core.slots[sl].ticket + 1, p, x.tag, s.blk.count⟩) ∧
          (lookupHit s p x.tag = true ↔ ∃ r ∈ t.store.fills, r.slot = sl) ∧
          (lookupHit s p x.tag = true ∨ sl ∈ s.blk.cold → t.ctl.slots[sl] = s.ctl.slots[sl] ∧
            t.core.slots[sl].origin = s.core.slots[sl].origin) ∧
          (lookupHit s p x.tag = false → sl ∉ s.blk.cold →
            t.ctl.slots[sl] = { s.ctl.slots[sl] with phase := .converging, counter := 0 } ∧
            t.core.slots[sl].origin = .carried)) ∧
        t.store.captures = s.store.captures ++ owed.take (8 - s.store.captures.length) ∧
        (t.ev.status = if 8 - s.store.captures.length < owed.length then s.ev.status ||| 64
          else s.ev.status) ∧
        (∀ sl : SlotId, (∀ p, s.alloc.slots[sl] = .running p → ∀ x ∈ s.router.queue,
            x.beam = pairBeam p → x.tag = s.router.beams[x.beam].tag) →
          SlotKept s t sl) ∧
        t.core.mem = s.core.mem ∧ t.ctl.beams = s.ctl.beams ∧ t.store.sets = s.store.sets ∧
        t.store.port = s.store.port ∧
        u = { s with
          router := t.router
          cmd := { s.cmd with replies := t.cmd.replies }
          ev := { s.ev with status := t.ev.status } } ∧
        PoolMoves u t)

/-! ### The Snapshot Store -/

/-- PORT_GRANT: where a transfer granted at an earlier boundary is in flight, its completion, as the row of
its kind gives it, and then the grant of the idle port; where one granted at this boundary is, no effect. At
an idle port: a full area's oldest record before a fill, the oldest current fill that still hits, then the
oldest record, then the host's access, each as its grant says; the place that a granted record leaves takes
the head of the lowest-numbered DRAINING slot, as DRAINING_SLOT_CAPTURE does; a request that is not current
or misses is dropped on the way; a request that has entered at this boundary is no candidate yet, and stays;
with nothing to grant no effect. A write takes a valid way of its tag, else an invalid way, way 0 before way
1, else the way of lower quality, else the way that the LRU bit does not name (R109, R127 to R130, R143,
R144). -/
def Obligations.PortGrant : Prop :=
  (∀ (x : StoreSet) (tag : Nat),
      let a := x.ways[(0 : WayId)]
      let b := x.ways[(1 : WayId)]
      let w := chooseWay x tag
      (a.valid = true → a.tag = tag → w = 0) ∧
      (¬ (a.valid = true ∧ a.tag = tag) → b.valid = true → b.tag = tag → w = 1) ∧
      (¬ (a.valid = true ∧ a.tag = tag) → ¬ (b.valid = true ∧ b.tag = tag) →
        (a.valid = false → w = 0) ∧
        (a.valid = true → b.valid = false → w = 1) ∧
        (a.valid = true → b.valid = true →
          (a.quality < b.quality → w = 0) ∧ (b.quality < a.quality → w = 1) ∧
          (a.quality = b.quality → w ≠ x.lru)))) ∧
  (∀ (s : State) (x : Transfer), AtBoundary s → s.store.port = some x →
    (s.blk.count ≤ x.granted → exec .portGrant s = .next s) ∧
    (x.granted < s.blk.count →
      let row : Instr := match x.cargo with
        | .fill _ _ => .fillCompletion
        | .capture _ => .captureCompletion
        | .commit _ _ _ => .entryCommitCompletion
        | .read _ => .entryReadCompletion
      ∃ u, exec row s = .next u ∧ AtBoundary u ∧ u.store.port = none ∧
        exec .portGrant s = exec .portGrant u)) ∧
  ∀ s : State, AtBoundary s → s.store.port = none →
    let noFill := s.store.fills = [] ∨ ∃ r rest, s.store.fills = r :: rest ∧ s.blk.count ≤ r.born
    (∀ (r : FillReq) (rest : List FillReq) (w : WayId), candidateCaptures s < 8 →
      s.store.fills = r :: rest → r.born < s.blk.count →
      s.alloc.slots[r.slot] = .running r.set → s.core.slots[r.slot].ticket = r.ticket →
      findWay s.store.sets[r.set] r.tag = some w →
      exec .portGrant s = .next { s with store := { s.store with
        sets := s.store.sets.set r.set { s.store.sets[r.set] with lru := w }
        fills := rest
        port := some ⟨.fill r (entryOf s r.set w), r.set, w, false, s.blk.count⟩ } }) ∧
    (∀ (r : FillReq) (rest : List FillReq), candidateCaptures s < 8 → s.store.fills = r :: rest →
      r.born < s.blk.count →
      (s.alloc.slots[r.slot] ≠ .running r.set ∨ s.core.slots[r.slot].ticket ≠ r.ticket ∨
        findWay s.store.sets[r.set] r.tag = none) →
      exec .portGrant s =
        exec .portGrant { s with store := { s.store with fills := rest } }) ∧
    (∀ (c : CaptureRec) (rest : List CaptureRec),
      (8 ≤ candidateCaptures s ∨ (0 < candidateCaptures s ∧ noFill)) →
      s.store.captures = c :: rest →
      let w := chooseWay s.store.sets[c.set] c.tag
      let u := { s with store := { s.store with
        sets := s.store.sets.set c.set { s.store.sets[c.set] with
          ways := s.store.sets[c.set].ways.set w
            { s.store.sets[c.set].ways[w] with valid := false, tag := c.tag } }
        captures := rest
        port := some ⟨.capture c, c.set, w, false, s.blk.count⟩ } }
      exec .portGrant s = exec .drainingSlotCapture u ∧
      ((∀ (sl : SlotId) p tag q, s.alloc.slots[sl] ≠ .draining p tag q) →
        exec .portGrant s = .next u) ∧
      ∀ (sl : SlotId) (p : PairId) (tag q : Nat), s.alloc.slots[sl] = .draining p tag q →
        (∀ lower : SlotId, lower < sl → ∀ p' tag' q', s.alloc.slots[lower] ≠ .draining p' tag' q') →
        rest.length < 8 →
        ∃ t, exec .portGrant s = .next t ∧
          t.store.captures = rest ++ [⟨p, tag, q, headCopy sl s, s.blk.count⟩] ∧
          ∀ (p' : PairId) tag' q', t.alloc.slots[sl] ≠ .draining p' tag' q') ∧
    (candidateCaptures s = 0 → noFill →
      (s.store.host = none → exec .portGrant s = .next s) ∧
      (∀ a born, s.store.host = some ⟨a, born⟩ → s.blk.count ≤ born →
        exec .portGrant s = .next s) ∧
      (∀ p w chunk born, s.store.host = some ⟨.read p w chunk, born⟩ → born < s.blk.count →
        exec .portGrant s = .next { s with store := { s.store with
          host := none, port := some ⟨.read chunk, p, w, false, s.blk.count⟩ } }) ∧
      ∀ p tag q check born, s.store.host = some ⟨.commit p tag q check, born⟩ → born < s.blk.count →
        let w := chooseWay s.store.sets[p] tag
        exec .portGrant s = .next { s with store := { s.store with
          sets := s.store.sets.set p { s.store.sets[p] with
            ways := s.store.sets[p].ways.set w
              { s.store.sets[p].ways[w] with valid := false, tag := tag } }
          host := none
          port := some ⟨.commit tag q check, p, w, false, s.blk.count⟩ } })

/-- FILL_COMPLETION short of the fourth failure: an abandoned fill does nothing, a balancing one installs its
head when its request is current and is discarded otherwise, and a failing one invalidates its entry, is
counted, sets STORE_FAULT and latches an empty first-error record (R72, R122, R131, R137). -/
def Obligations.FillCompletion : Prop :=
  ∀ (s : State) (r : FillReq) (e : Entry) (p : SetId) (w : WayId) (ab : Bool) (g : Nat),
    AtBoundary s → s.store.port = some ⟨.fill r e, p, w, ab, g⟩ → g < s.blk.count →
    let idle := { s with store := { s.store with port := none } }
    let current := s.alloc.slots[r.slot] = .running r.set ∧ s.core.slots[r.slot].ticket = r.ticket
    (ab = true → exec .fillCompletion s = .next idle) ∧
    (ab = false → entryBalances e = true → ¬ current → exec .fillCompletion s = .next idle) ∧
    (ab = false → entryBalances e = true → current →
      ∃ t, exec .fillCompletion s = .next t ∧
        t.core.mem = memInstall s.core.mem (tailLen s) r.slot.val e.head ∧
        t.core.slots = s.core.slots.set r.slot { s.core.slots[r.slot] with origin := .restored } ∧
        t.ctl.slots = s.ctl.slots.set r.slot ⟨.tracking, 0, 0⟩ ∧
        t = { idle with
          core := { s.core with mem := t.core.mem, slots := t.core.slots }
          ctl := { s.ctl with slots := t.ctl.slots }
          blk := { s.blk with phaseSet := t.blk.phaseSet, runSet := t.blk.runSet } }) ∧
    (ab = false → entryBalances e = false → s.store.errors + 1 < 4 →
      ∃ t, exec .fillCompletion s = .next t ∧ exec .storeDisable s = .next s ∧
        t.store.sets = s.store.sets.set p { s.store.sets[p] with
          ways := s.store.sets[p].ways.set w { s.store.sets[p].ways[w] with valid := false } } ∧
        t.store.errors = s.store.errors + 1 ∧
        t.store.firstError = (match s.store.firstError with
          | none => some ⟨p, w, e.tag, .fill⟩
          | some x => some x) ∧
        t.ev.status = s.ev.status ||| 2 ∧
        t = { s with
          store := { s.store with
            port := none, sets := t.store.sets, errors := t.store.errors
            firstError := t.store.firstError }
          cmd := { s.cmd with replies := t.cmd.replies }
          ev := { s.ev with status := t.ev.status } })

/-- STORE_DISABLE: only the fourth failing fill has an effect here, and it disables the store, by either
row: every entry invalid, the queues empty, the port idle, no host access waiting and no slot DRAINING, the
tickets of the failing fill's slot and of every slot with a request raised, STORE_FAULT set; every RUNNING
slot runs on, and a host access withdrawn is answered DISABLED, in the reply queue or held where it is full
(R137 to R139, R145, R164; that the notice of STORE_FAULT goes before that reply: log 20; one raise of the
ticket of a slot with both the failing fill and a request: log 17, and the pair of rows: log 7). -/
def Obligations.StoreDisable : Prop :=
  (∀ (s : State) (r : FillReq) (e : Entry) (p : SetId) (w : WayId) (ab : Bool) (g : Nat),
    AtBoundary s → s.store.port = some ⟨.fill r e, p, w, ab, g⟩ →
    ab = true ∨ entryBalances e = true ∨ s.store.errors + 1 < 4 → exec .storeDisable s = .next s) ∧
  ∀ (s : State) (r : FillReq) (e : Entry) (p : SetId) (w : WayId) (g : Nat),
    AtBoundary s → s.store.port = some ⟨.fill r e, p, w, false, g⟩ → g < s.blk.count →
    entryBalances e = false → 4 ≤ s.store.errors + 1 →
    ∃ t, exec .storeDisable s = .next t ∧ exec .fillCompletion s = .next t ∧
      t.store.enabled = false ∧ t.store.errors = s.store.errors + 1 ∧
      (∀ (p : SetId) (w : WayId), (entryOf t p w).valid = false) ∧
      t.store.fills = [] ∧ t.store.captures = [] ∧ t.store.port = none ∧ t.store.host = none ∧
      (∀ (sl : SlotId) p tag q, t.alloc.slots[sl] ≠ .draining p tag q) ∧
      (∀ (sl : SlotId) (q : PairId), s.alloc.slots[sl] = .running q → t.alloc.slots[sl] = .running q) ∧
      (∀ sl : SlotId, (∀ p tag q, s.alloc.slots[sl] ≠ .draining p tag q) →
        t.core.slots[sl].ticket = s.core.slots[sl].ticket +
          if sl = r.slot ∨ ∃ x ∈ s.store.fills, x.slot = sl then 1 else 0) ∧
      (s.store.host = none → t.cmd.state = s.cmd.state) ∧
      (∀ h, s.store.host = some h →
        let reply : Msg := match h.access with
          | .commit _ _ _ _ => ⟨0xC5, [8]⟩
          | .read _ _ _ => ⟨0xC3, [8]⟩
        (s.cmd.replies.length < 7 → t.cmd.state = .idle) ∧
        (8 ≤ s.cmd.replies.length → t.cmd.state = .replyHeld reply) ∧
        (t.cmd.state = .idle ∧ t.cmd.replies.getLast? = some reply ∨
          t.cmd.state = .replyHeld reply ∧ 8 ≤ t.cmd.replies.length)) ∧
      inSet t.ev.status 1 = true ∧ t.ctl.beams = s.ctl.beams ∧ t.router = s.router ∧
      t.tracker = s.tracker ∧ t.ports = s.ports

/-- CAPTURE_COMPLETION, ENTRY_COMMIT_COMPLETION and ENTRY_READ_COMPLETION: a write makes its way valid with
its head, tag, quality and check and sets the LRU bit; a commit empties the written set and is answered OK;
a read is answered with the entry's fields and the chunk, with CHECK_FAIL and a latch for a valid entry that
does not balance; an abandoned transfer only frees the port. A completed reply takes the unit out of
PORT_WAIT: it joins the reply queue's end where there is room, and the unit is IDLE, and where 8 wait the
unit holds it in REPLY_HELD. No completion row, those of a fill among them, has an effect at an idle port,
on a transfer granted at this boundary, or on one of another kind (R120, R127, R132, R143, R144, R163,
R164). -/
def Obligations.OtherCompletions : Prop :=
  (∀ (reply : Msg) (s : State),
    (s.cmd.replies.length < 8 → completeReply reply s =
      { s with cmd := { s.cmd with state := .idle, replies := s.cmd.replies ++ [reply] } }) ∧
    (8 ≤ s.cmd.replies.length → completeReply reply s =
      { s with cmd := { s.cmd with state := .replyHeld reply } })) ∧
  (∀ s : State, AtBoundary s →
    let stands := fun (row : Instr) => exec row s = .next s
    ((s.store.port = none ∨ ∃ x, s.store.port = some x ∧ s.blk.count ≤ x.granted) →
      stands .fillCompletion ∧ stands .storeDisable ∧ stands .captureCompletion ∧
      stands .entryCommitCompletion ∧ stands .entryReadCompletion) ∧
    ∀ x : Transfer, s.store.port = some x →
      (isFill x = false → stands .fillCompletion ∧ stands .storeDisable) ∧
      (isCapture x = false → stands .captureCompletion) ∧
      (isCommit x = false → stands .entryCommitCompletion) ∧
      (isRead x = false → stands .entryReadCompletion)) ∧
  ∀ (s : State) (p : SetId) (w : WayId) (g : Nat), AtBoundary s → g < s.blk.count →
    let idle := { s with store := { s.store with port := none } }
    let written := fun (e : Entry) => s.store.sets.set p
      { ways := s.store.sets[p].ways.set w e, lru := w }
    (∀ cargo, (∀ r e, cargo ≠ .fill r e) → s.store.port = some ⟨cargo, p, w, true, g⟩ →
      (isCapture ⟨cargo, p, w, true, g⟩ = true → exec .captureCompletion s = .next idle) ∧
      (isCommit ⟨cargo, p, w, true, g⟩ = true → exec .entryCommitCompletion s = .next idle) ∧
      (isRead ⟨cargo, p, w, true, g⟩ = true → exec .entryReadCompletion s = .next idle)) ∧
    (∀ c : CaptureRec, s.store.port = some ⟨.capture c, p, w, false, g⟩ →
      exec .captureCompletion s = .next { s with store := { s.store with
        port := none
        sets := written ⟨true, c.tag, c.quality, balancingCheck c.head c.tag c.quality, c.head⟩ } }) ∧
    (∀ tag q check, s.store.port = some ⟨.commit tag q check, p, w, false, g⟩ →
      exec .entryCommitCompletion s = .next (completeReply ⟨0xC5, [0]⟩ { s with
        store := { s.store with
          port := none, sets := written ⟨true, tag, q, check, s.cmd.loadTaps⟩ }
        cmd := { s.cmd with loadWritten := 0 } })) ∧
    ∀ chunk, s.store.port = some ⟨.read chunk, p, w, false, g⟩ →
      let e := entryOf s p w
      let fields := [if e.valid then 1 else 0, BitVec.ofNat 8 e.tag, BitVec.ofNat 8 e.quality] ++
        chunkBytes e.head chunk
      (e.valid = false ∨ entryBalances e = true →
        exec .entryReadCompletion s = .next (completeReply ⟨0xC3, 0 :: fields⟩ idle)) ∧
      (e.valid = true → entryBalances e = false →
        exec .entryReadCompletion s = .next (completeReply ⟨0xC3, 7 :: fields⟩ { idle with
          store := { idle.store with firstError := match s.store.firstError with
            | none => some ⟨p, w, e.tag, .read⟩
            | some x => some x } }))

/-! ### The host's commands -/

/-- A row of the host's commands has no effect where the unit is not IDLE or has had its turn at the boundary,
where the reply queue is full, and where the command queue is empty or its head is no command of the row;
and no row of what happens at a block boundary has an effect off one (R1, R162; the rows' reading of the
head: log 5). -/
def Obligations.CommandNotTaken : Prop :=
  (∀ (c : Instr) (s : State), s.resetn = true → boundaryRow c = true → ¬ AtBoundary s →
    exec c s = .next s) ∧
  ∀ (c : Instr) (pred : Msg → Bool) (s : State), s.resetn = true → taken c = some pred →
    (s.cmd.state ≠ .idle ∨ s.cmd.turn = false ∨ 8 ≤ s.cmd.replies.length ∨ s.cmd.queue = [] ∨
      ∃ m rest, s.cmd.queue = m :: rest ∧ pred m = false) →
    exec c s = .next s

/-- A taken command that fails its first test is answered with the status of that test and has no other
effect: a kind outside the catalogue UNKNOWN, a payload of the wrong length BAD_LENGTH, an operand out of
range BAD_VALUE, a store access of a DISABLED store DISABLED, an unloaded commit STATE, and a SET TAIL that
the operating state or a DRAINING slot forbids STATE or BUSY (R116, R142, R144, R166, R167). -/
def Obligations.CommandRefused : Prop :=
  ∀ (s : State) (m : Msg) (rest : List Msg), Ready s m rest →
    let n := m.payload.length
    let b := fun i => (m.payload.getD i 0).toNat
    (catalogue m.kind = none → exec .unknownCommand s = .next (refusedWith s m rest .unknown)) ∧
    (m.kind = 0x02 → n ≠ 0 → exec .run s = .next (refusedWith s m rest .badLength)) ∧
    (m.kind = 0x03 → n ≠ 0 → exec .stop s = .next (refusedWith s m rest .badLength)) ∧
    (m.kind = 0x04 →
      (n ≠ 1 → exec .setTail s = .next (refusedWith s m rest .badLength)) ∧
      (n = 1 → 5 < b 0 → exec .setTail s = .next (refusedWith s m rest .badValue)) ∧
      (n = 1 → b 0 ≤ 5 → s.cmd.op = .running →
        exec .setTail s = .next (refusedWith s m rest .state)) ∧
      (n = 1 → b 0 ≤ 5 → s.cmd.op = .config →
        (∃ (sl : SlotId) (p : PairId) (tag q : Nat), s.alloc.slots[sl] = .draining p tag q) →
        exec .setTail s = .next (refusedWith s m rest .busy))) ∧
    (m.kind = 0x05 →
      (n ≠ 1 → exec .softReset s = .next (refusedWith s m rest .badLength)) ∧
      (n = 1 → 1 < b 0 → exec .softReset s = .next (refusedWith s m rest .badValue))) ∧
    (m.kind = 0x21 → n ≠ 1 → exec .eventClear s = .next (refusedWith s m rest .badLength)) ∧
    (m.kind = 0x22 →
      (n ≠ 2 → exec .eventSetup s = .next (refusedWith s m rest .badLength)) ∧
      (n = 2 → 2 < b 1 → exec .eventSetup s = .next (refusedWith s m rest .badValue))) ∧
    (m.kind = 0x30 →
      (n ≠ 3 → exec .freeze s = .next (refusedWith s m rest .badLength)) ∧
      (n = 3 → 1 < b 2 → exec .freeze s = .next (refusedWith s m rest .badValue))) ∧
    (m.kind = 0x40 → n ≠ 0 → exec .storeFlush s = .next (refusedWith s m rest .badLength)) ∧
    (m.kind = 0x41 → n ≠ 0 → exec .storeEnable s = .next (refusedWith s m rest .badLength)) ∧
    (m.kind = 0x42 → n ≠ 3 → exec .storeInvalidate s = .next (refusedWith s m rest .badLength)) ∧
    (m.kind = 0x43 →
      (n ≠ 3 → exec .entryRead s = .next (refusedWith s m rest .badLength)) ∧
      (n = 3 → (127 < b 0 ∨ 1 < b 1 ∨ 63 < b 2) →
        exec .entryRead s = .next (refusedWith s m rest .badValue)) ∧
      (n = 3 → b 0 ≤ 127 → b 1 ≤ 1 → b 2 ≤ 63 → s.store.enabled = false →
        exec .entryRead s = .next (refusedWith s m rest .disabled))) ∧
    (m.kind = 0x44 →
      (n ≠ 109 → exec .entryLoad s = .next (refusedWith s m rest .badLength)) ∧
      (n = 109 → 63 < b 0 → exec .entryLoad s = .next (refusedWith s m rest .badValue))) ∧
    (m.kind = 0x45 →
      let balanced := balances s.cmd.loadTaps (b 1) (b 2) (BitVec.ofNat 16 (256 * b 3 + b 4))
      (n ≠ 5 → exec .entryCommit s = .next (refusedWith s m rest .badLength)) ∧
      (n = 5 → (127 < b 0 ∨ 32 < b 1) →
        exec .entryCommit s = .next (refusedWith s m rest .badValue)) ∧
      (n = 5 → b 0 ≤ 127 → b 1 ≤ 32 → s.store.enabled = false →
        exec .entryCommit s = .next (refusedWith s m rest .disabled)) ∧
      (n = 5 → b 0 ≤ 127 → b 1 ≤ 32 → s.store.enabled = true →
        s.cmd.loadWritten ≠ BitVec.allOnes 64 →
        exec .entryCommit s = .next (refusedWith s m rest .state)) ∧
      (n = 5 → b 0 ≤ 127 → b 1 ≤ 32 → s.store.enabled = true →
        s.cmd.loadWritten = BitVec.allOnes 64 → balanced = false →
        exec .entryCommit s = .next (refusedWith s m rest .checkFail)))

/-- RUN in CONFIG: every reference SILENT, every beam IDLE with its hangover, estimate, divergence and degrade
counters at 0, RUNNING, and all else kept; in RUNNING it is answered and has no effect. SET TAIL in CONFIG
with no slot DRAINING: the tail, the zeroed coefficient memory and the slots' fresh records, and all else
kept (R26, R74, R77, R82, R85, R116, R170, R172). -/
def Obligations.RunAndTailTaken : Prop :=
  (∀ (s : State) (rest : List Msg), Ready s ⟨0x02, []⟩ rest →
      (s.cmd.op = .config → ∃ t, exec .run s = .next t ∧
        t = { s with
          cmd := { answered s rest ⟨0x82, [0]⟩ with op := .running }
          tracker := { s.tracker with refs := t.tracker.refs }
          ctl := { s.ctl with beams := t.ctl.beams } } ∧
        (∀ r : RefId, t.tracker.refs[r] = { s.tracker.refs[r] with activity := .silent, linger := 0 }) ∧
        ∀ b : BeamId, t.ctl.beams[b] = { s.ctl.beams[b] with
          talk := .idle, hangCtr := 0, erle := 0, divCtr := 0, degCtr := 0 }) ∧
      (s.cmd.op = .running →
        exec .run s = .next { s with cmd := answered s rest ⟨0x82, [0]⟩ })) ∧
  ∀ (s : State) (code : Byte) (rest : List Msg) (h : code.toNat < 6), Ready s ⟨0x04, [code]⟩ rest →
    s.cmd.op = .config →
    (∀ (sl : SlotId) (p : PairId) (tag q : Nat), s.alloc.slots[sl] ≠ .draining p tag q) →
    ∃ t, exec .setTail s = .next t ∧
      t = { s with
        cmd := answered s rest ⟨0x84, [0]⟩
        core := { s.core with tail := ⟨code.toNat, h⟩, mem := [], slots := t.core.slots }
        ctl := { s.ctl with slots := t.ctl.slots } } ∧
      slotCount t = min 128 (12288 / tailLen t) ∧
      (∀ a, memGet t.core.mem a = tapZero) ∧
      ∀ sl : SlotId, t.core.slots[sl].ticket = s.core.slots[sl].ticket ∧
        t.core.slots[sl].origin = .cold ∧ t.core.slots[sl].clamped = false ∧
        t.ctl.slots[sl] = ⟨.warmup, 0, 0⟩

/-- STOP in RUNNING: every reference SILENT, the wait list empty, no slot RUNNING, every slot that was RUNNING
with its ticket raised, the estimates, counts, tables and tags kept. The slots are released in ascending
pair index: an eligible one is captured and FREE while the area has room, and DRAINING under its tag and
quality after that; one that is not eligible is FREE; a slot that was DRAINING stays so. In CONFIG STOP is
answered and has no effect (R26, R71, R107, R108, R115, R126, R171). -/
def Obligations.StopTaken : Prop :=
  ∀ (s : State) (rest : List Msg), Ready s ⟨0x03, []⟩ rest →
    (s.cmd.op = .running → PoolSound s → ∃ (t u : State) (owed : List (SlotId × PairId)),
      exec .stop s = .next t ∧
      u = { s with
        cmd := { answered s rest ⟨0x83, [0]⟩ with op := .config }
        tracker := { s.tracker with refs := t.tracker.refs } } ∧
      PoolMoves u t ∧
      (∀ r : RefId, t.tracker.refs[r] = { s.tracker.refs[r] with activity := .silent, linger := 0 }) ∧
      t.alloc.waiting = [] ∧
      (∀ (sl : SlotId) (p : PairId), t.alloc.slots[sl] ≠ .running p) ∧
      (∀ (sl : SlotId) (p : PairId), s.alloc.slots[sl] = .running p →
        t.core.slots[sl].ticket = s.core.slots[sl].ticket + 1) ∧
      owed.Pairwise (fun x y => x.2 < y.2) ∧
      (∀ (sl : SlotId) (p : PairId), (sl, p) ∈ owed ↔
        s.alloc.slots[sl] = .running p ∧ Eligible s sl p) ∧
      t.store.captures = s.store.captures ++
        (owed.take (8 - s.store.captures.length)).map (fun x => captureOf s x.1 x.2) ∧
      (∀ x ∈ owed.take (8 - s.store.captures.length),
        t.alloc.slots[x.1] = .free ∧ t.alloc.pairs[x.2] = .none) ∧
      (∀ x ∈ owed.drop (8 - s.store.captures.length), t.alloc.slots[x.1] = .draining x.2
          s.router.beams[pairBeam x.2].tag s.ctl.beams[pairBeam x.2].erle.toNat ∧
        t.alloc.pairs[x.2] = .held x.1) ∧
      (∀ (sl : SlotId) (p : PairId), s.alloc.slots[sl] = .running p → ¬ Eligible s sl p →
        t.alloc.slots[sl] = .free ∧ t.alloc.pairs[p] = .none) ∧
      (∀ (sl : SlotId) (p : PairId) (tag q : Nat), s.alloc.slots[sl] = .draining p tag q →
        t.alloc.slots[sl] = .draining p tag q) ∧
      t.ctl.slots = s.ctl.slots ∧ t.core.mem = s.core.mem) ∧
    (s.cmd.op = .config →
      exec .stop s = .next { s with cmd := answered s rest ⟨0x83, [0]⟩ })

/-- SOFT RESET accepted completes: every block as power-on reset leaves it, but for the frames, the
receivers, the transmit record, the late control field and commands, the samples on their way to the speaker
feeds, the store's entries and condition, and the load area's taps; with the keep flag the tables and the
tail stay too; the outbound frames of the block at hand carry what they would have carried, and those of the
next block zero; its reply is the only message left (R2, R5, R9, R10, R16, R18, R39, R44, R156, R173, R189).
The model's are what is kept beside the manual's list and the boundary's notes (logs 9 and 14), the frozen
flag with the keep flag at 1 (log 21), and the 0 of each emptied assembly's count of payload bytes still
expected, for which R10 gives no value (log 17). -/
def Obligations.SoftResetTaken : Prop :=
  ∀ (s : State) (flag : Byte) (rest : List Msg), Ready s ⟨0x05, [flag]⟩ rest → flag.toNat ≤ 1 →
    let keep := flag = 1
    ∃ t, exec .softReset s = .next t ∧
      t.pending = s.pending ∧ t.resetn = true ∧
      t.ports = { s.ports with
        arrayAsm := ⟨.awaitKind, [], 0, 0, 0⟩, codecAsm := ⟨.awaitKind, [], 0, 0, 0⟩
        steerErrors := 0 } ∧
      t.play.clamped = false ∧ t.play.speaker = s.play.speaker ∧
      (∀ m : Fin 4, t.play.meters[m] =
        ⟨if keep then s.play.meters[m].ceiling else 8388607, 0⟩) ∧
      (∀ r : RefId, t.tracker.lines[r] = [] ∧ t.tracker.refs[r] = if keep then
        { s.tracker.refs[r] with activity := .silent, linger := 0, level := 0 }
        else ⟨.on, none, 0, .silent, 0, 0⟩) ∧
      (∀ b : BeamId, t.router.beams[b] = if keep then
        { s.router.beams[b] with frozen := false, tag := 32 } else ⟨.cancel, true, true, false, 32⟩) ∧
      t.router.queue = [] ∧ t.banks = State.reset.banks ∧
      t.core = { State.reset.core with
        tail := if keep then s.core.tail else 4
        step := if keep then s.core.step else State.reset.core.step } ∧
      t.ctl.beams = State.reset.ctl.beams ∧ t.ctl.slots = State.reset.ctl.slots ∧
      (∀ i : Fin 17, t.ctl.thresholds[i] = if keep then s.ctl.thresholds[i] else 0) ∧
      t.alloc.slots = State.reset.alloc.slots ∧ t.alloc.pairs = State.reset.alloc.pairs ∧
      t.alloc.waiting = [] ∧
      (∀ p : PairId, t.alloc.mask[p] = if keep then s.alloc.mask[p] else true) ∧
      t.store = { s.store with
        fills := [], captures := [], host := none
        port := s.store.port.map fun x => { x with abandoned := true } } ∧
      t.supp = State.reset.supp ∧
      (∀ b : BeamId, t.out.bypass[b] = []) ∧ t.out.lockHist = s.out.lockHist ∧
      (t.out.monitors = if keep then s.out.monitors else State.reset.out.monitors) ∧
      t.out.current.index = s.blk.count ∧
      (∀ b : BeamId, t.out.current.sources[b] = .zero ∧ t.out.current.samples[b] = []) ∧
      (∀ k : Fin 2, t.out.current.monitors[k] = [] ∧ t.out.current.repeats[k] = none) ∧
      (s.out.current.index = s.blk.count → ∀ f : Nat, f / 48 + 1 = s.blk.count →
        (∀ b : BeamId, cleanedSlot t f b = cleanedSlot s f b) ∧
        ∀ k : Fin 2, monitorSlot t f k = monitorSlot s f k) ∧
      t.cmd = { s.cmd with
        state := .idle, op := .config, queue := [], replies := [⟨0x85, [0]⟩], hold := false
        tuning := if keep then s.cmd.tuning else State.reset.cmd.tuning
        loadWritten := 0, turn := false } ∧
      t.ev = ⟨0, 0, .none, 0, 0, 0⟩ ∧
      t.blk = { State.reset.blk with count := s.blk.count }

/-- A TABLE WRITE whose row finds it at the head: its header is judged in the order of R174, its entries are
written up to the first that is refused, its effects reach the other blocks as one event, and the reply
carries the status and the count not written. One row for each table; a TABLE WRITE shorter than its header,
or that names no table, is taken by any of them. The entries are judged in ascending index: those before the
one that stops the write stay written, that one and all after it are counted not written, and CLAMPED is
answered where none stops it and some number was clamped (R174 to R176; which row takes a write that names
no table is the model's: log 5; that the notices of the write's own effects go before its reply is the
model's choice: log 20). -/
def Obligations.TableWritten : Prop :=
  (∀ tb : Table, ((tableId tb).toNat, tableEntries tb, writeSize tb) = match tb with
    | .beam => (1, 16, 3)
    | .reference => (2, 8, 3)
    | .pairmask => (3, 128, 1)
    | .step => (4, 12, 1)
    | .tuning => (5, 26, 2)
    | .threshold => (6, 17, 1)
    | .meter => (7, 4, 3)
    | .monitor => (8, 2, 3)) ∧
  ∀ (tb : Table) (s : State) (m : Msg) (rest : List Msg), Ready s m rest → m.kind = 0x10 →
    let n := m.payload.length
    let b := fun i => (m.payload.getD i 0).toNat
    let count := if b 2 = 0 then tableEntries tb - b 1 else b 2
    let s1 := { s with cmd := afterTaking s rest }
    let refused := fun (st : Status) (k : Nat) =>
      { s with cmd := answered s rest ⟨0x90, [statusCode st, BitVec.ofNat 8 k]⟩ }
    (n < 4 → exec (tableRow tb) s = .next (refused .badLength 0)) ∧
    (4 ≤ n → (b 0 = 0 ∨ 8 < b 0) → exec (tableRow tb) s = .next (refused .badValue (b 2))) ∧
    (4 ≤ n → m.payload.getD 0 0 = tableId tb →
      (b 3 ≠ writeSize tb → exec (tableRow tb) s = .next (refused .badLength count)) ∧
      (b 3 = writeSize tb → tableEntries tb ≤ b 1 →
        exec (tableRow tb) s = .next (refused .badValue count)) ∧
      (b 3 = writeSize tb → b 1 < tableEntries tb → n ≠ 4 + count * writeSize tb →
        exec (tableRow tb) s = .next (refused .badLength count)) ∧
      (b 3 = writeSize tb → b 1 < tableEntries tb → n = 4 + count * writeSize tb →
        let entry := fun (i : Nat) (u : State) =>
          writeEntry tb (b 1 + i) (m.payload.drop (4 + i * writeSize tb)) u
        ∃ (k : Nat) (u : Nat → State) (clamped : Nat → Bool), k ≤ count ∧ u 0 = s1 ∧
          (∀ i, i < k → entry i (u i) = some (u (i + 1), clamped i)) ∧
          (k < count → entry k (u k) = none) ∧
          ∃ st : Status, (k < count → st = .badValue) ∧
            (k = count → (∃ i, i < k ∧ clamped i = true) → st = .clamped) ∧
            (k = count → (∀ i, i < k → clamped i = false) → st = .ok) ∧
            exec (tableRow tb) s = .next (completeReply
              ⟨0x90, [statusCode st, BitVec.ofNat 8 (count - k)]⟩ (tableEvent tb s1 (u k)))))

/-- What one entry of a table write does, by table: the values it writes, the values it refuses, and the
numbers it clamps, with the range of every tuning entry; what a write's payload holds after the entry has no
effect on it, and an entry may stand last (R20, R21, R30, R38, R66, R95, R158, R168, R178). -/
def Obligations.TableEntryWritten : Prop :=
  tuningBounds.toList = [(0, 65535), (0, 423), (1, 64), (0, 128), (0, 255), (0, 1000), (0, 7), (0, 255),
    (0, 64), (1, 10000), (0, 10000), (0, 64), (1, 1000), (1, 1000), (0, 255), (1, 4095), (0, 96), (1, 128),
    (1, 96), (0, 96), (0, 96), (0, 96), (1, 1000), (0, 255), (0, 1), (1, 8)] ∧
  ∀ (i : Nat) (x y z : Byte) (more : List Byte) (s : State),
    let one := x :: more
    let two := x :: y :: more
    let p := x :: y :: z :: more
    let num := 256 * x.toNat + y.toNat
    (∀ h : i < 16, writeEntry .beam i p s =
      if x.toNat ≤ 2 ∧ y.toNat ≤ 1 ∧ z.toNat ≤ 1 then
        some (setBeam ⟨i, h⟩ { s.router.beams[i] with
          mode := if x = 0 then .cancel else if x = 1 then .bypass else .mute
          suppress := decide (y = 1), comfort := decide (z = 1) } s, false)
      else none) ∧
    (∀ h : i < 8, writeEntry .reference i p s =
      if x.toNat ≤ 2 ∧ (y.toNat ≤ 3 ∨ y.toNat = 7) then
        some (setRef ⟨i, h⟩ { s.tracker.refs[i] with
          mode := if x = 0 then .off else if x = 1 then .on else .onShort
          meter := if h : y.toNat < 4 then some ⟨y.toNat, h⟩ else none
          delay := min 63 z.toNat } s, decide (63 < z.toNat))
      else none) ∧
    (∀ h : i < 128, writeEntry .pairmask i one s =
      if x.toNat ≤ 1 then
        some ({ s with alloc := { s.alloc with mask := s.alloc.mask.set i (decide (x = 1)) } }, false)
      else none) ∧
    (∀ h : i < 12, writeEntry .step i one s =
      some ({ s with core := { s.core with step := s.core.step.set i x } }, false)) ∧
    (∀ h : i < 26,
      let lo := (tuningBounds[i]).1
      let hi := (tuningBounds[i]).2
      let low := i = 4 ∨ i = 7 ∨ i = 14 ∨ i = 23
      let wrote := fun v => { s with cmd := { s.cmd with tuning := s.cmd.tuning.set i v } }
      (i ≠ 24 → ¬ low → writeEntry .tuning i two s =
        some (wrote (max lo (min hi num)), decide (num < lo) || decide (hi < num))) ∧
      (low → writeEntry .tuning i two s = some (wrote y.toNat, false)) ∧
      (i = 24 → writeEntry .tuning i two s = if num ≤ 1 then some (wrote num, false) else none)) ∧
    (∀ h : i < 17, writeEntry .threshold i one s =
      some ({ s with ctl := { s.ctl with thresholds := s.ctl.thresholds.set i x } }, false)) ∧
    (∀ h : i < 4, writeEntry .meter i p s =
      let v := 65536 * x.toNat + 256 * y.toNat + z.toNat
      some ({ s with play := { s.play with meters := s.play.meters.set i ⟨min 8388607 v, 0⟩ } },
        decide (8388607 < v))) ∧
    (∀ h : i < 2, writeEntry .monitor i p s =
      if x = 0 ∨ (x = 1 ∧ y.toNat ≤ 15 ∧ z.toNat ≤ 3) ∨ (x = 2 ∧ y.toNat ≤ 7 ∧ z = 4) then
        let kind : MonKind := if x = 0 then .none else if x = 1 then .beam else .reference
        some ({ s with out := { s.out with monitors := s.out.monitors.set i ⟨kind, y, z⟩ } }, false)
      else none) ∧
    (∀ (tb : Table) (payload : List Byte), tableEntries tb ≤ i → writeEntry tb i payload s = none)

/-- What a TABLE WRITE brings the other blocks. After a write of the BEAM, REFERENCE or PAIRMASK table
exactly the pairs then wanted are served, and an OFF reference is SILENT (R26, R31, R38, R101); the fill
requests of the assignments of a BEAM or PAIRMASK write stand behind the others in ascending pair index
(R124). A write that changes the bulk delay of one reference alone clears the sets of its pairs, and its
RUNNING slots are cold with no lookup, while the slots RUNNING for other references are kept (R29, R69,
R133, R135). A TUNING write judges the hold-off condition, bounds the attenuations, and with a degrade code
of 0 clears the counters and flags (R97, R151, R161). A STEP, THRESHOLD or METER write brings nothing else.
A MONITOR write at a boundary whose outputs are assembled hands the banks the new points, with their
histories kept, and fixes the samples and repeats of the next block, and nothing else (R42, R158). A pair
that a PAIRMASK write makes wanted takes back its DRAINING slot, takes the lowest FREE slot, or waits with
POOL_FULL set, and under PREEMPT a waiting pair takes the victim's slot (R104, R113). The order within a
delay change and of several of them, and the counters that a preemption compares, are the model's: logs 24
and 12. -/
def Obligations.DelayChanged : Prop :=
  (∀ (r : RefId) (s : State),
    let t := delayChange r s
    (∀ p : SetId, pairRef p ≠ r → t.store.sets[p] = s.store.sets[p]) ∧
    (∀ (p : SetId) (w : WayId), pairRef p = r →
      (entryOf t p w).valid = false ∧ t.store.sets[p].lru = 0) ∧
    (∀ x ∈ t.store.fills, pairRef x.set ≠ r) ∧ (∀ x ∈ t.store.captures, pairRef x.set ≠ r) ∧
    (∀ x, t.store.port = some x → pairRef x.set = r → x.abandoned = true) ∧
    (∀ (sl : SlotId) p tag q, t.alloc.slots[sl] = .draining p tag q → pairRef p ≠ r) ∧
    (∀ (sl : SlotId) (p : PairId), s.alloc.slots[sl] = .running p → pairRef p = r →
      t.alloc.slots[sl] = .running p ∧ MadeCold s t sl) ∧
    ∀ (sl : SlotId) (p : PairId), s.alloc.slots[sl] = .running p → pairRef p ≠ r →
      t.alloc.slots[sl] = .running p ∧ SlotKept s t sl) ∧
  (∀ (s : State) (r : RefId) (d : Byte) (rest : List Msg),
    let ref := s.tracker.refs[r]
    let m : Msg := ⟨0x10, [2, BitVec.ofNat 8 r.val, 1, 3, refModeCode ref.mode, meterCode ref.meter, d]⟩
    Ready s m rest → d.toNat ≤ 63 → d.toNat ≠ ref.delay →
    (∀ q : RefId, s.tracker.refs[q].mode = .off →
      s.tracker.refs[q].activity = .silent ∧ s.tracker.refs[q].linger = 0) →
    exec .referenceTableWrite s = .next (completeReply ⟨0x90, [0, 0]⟩ (delayChange r { s with
      cmd := afterTaking s rest
      tracker := { s.tracker with refs := s.tracker.refs.set r { ref with delay := d.toNat } } }))) ∧
  (∀ (s : State) (tb : Table) (m : Msg) (rest : List Msg), Ready s m rest → m.kind = 0x10 →
    m.payload.getD 0 0 = tableId tb → tb = .beam ∨ tb = .reference ∨ tb = .pairmask → PoolSound s →
    (∀ q : RefId, s.tracker.refs[q].mode = .off → s.tracker.refs[q].activity = .silent) →
    ∃ t, exec (tableRow tb) s = .next t ∧ WantedServed t ∧
      ∀ q : RefId, t.tracker.refs[q].mode = .off → t.tracker.refs[q].activity = .silent) ∧
  (∀ (before s : State) (tb : Table), tb = .beam ∨ tb = .pairmask →
    let t := tableEvent tb before s
    let formed := t.store.fills.filter (· ∉ s.store.fills)
    t.store.fills = t.store.fills.filter (· ∈ s.store.fills) ++ formed ∧
      (formed.map (·.set)).Pairwise (· ≤ ·)) ∧
  (∀ before s : State,
    (tableEvent .step before s = s ∧ tableEvent .threshold before s = s ∧
      tableEvent .meter before s = s) ∧
    (let u := s.cmd.tuning
     let t := tableEvent .tuning before s
     t = { s with
      cmd := { s.cmd with hold := t.cmd.hold }
      supp := { s.supp with att := t.supp.att }
      ctl := { s.ctl with beams := t.ctl.beams } } ∧
     (holdTrigger u ≤ s.cmd.queue.length → s.cmd.queue ≠ [] → t.cmd.hold = true) ∧
     (s.cmd.queue = [] → 1 ≤ holdTrigger u → t.cmd.hold = false) ∧
     (s.cmd.queue.length < holdTrigger u → s.cmd.queue ≠ [] → t.cmd.hold = s.cmd.hold) ∧
     (∀ (b : BeamId) (j : Fin 32), t.supp.att[b][j] = min s.supp.att[b][j] (attMax u)) ∧
     ∀ b : BeamId, t.ctl.beams[b] = if degradeCode u = 0 then
       { s.ctl.beams[b] with degCtr := 0, degraded := false } else s.ctl.beams[b]) ∧
    (let t := tableEvent .monitor before s
     (s.blk.live = false ∨ s.out.current.index ≠ s.blk.count → t = s) ∧
     (s.blk.live = true → s.out.current.index = s.blk.count → t = { s with
      banks := { s.banks with monSynth := t.banks.monSynth }
      out := { s.out with current := { s.out.current with
        monitors := t.out.current.monitors, repeats := t.out.current.repeats } } } ∧
      ∀ k : Fin 2,
      let x := s.out.monitors[k]
      let b : BeamId := ⟨x.index.toNat % 16, Nat.mod_lt _ (by decide)⟩
      let r : RefId := ⟨x.index.toNat % 8, Nat.mod_lt _ (by decide)⟩
      let w := s.blk.work[b]
      let cancelled := fun (v : Bands) => if s.blk.beams[b].mode = .cancel then v else zeroBands
      t.banks.monSynth[k].current = (match x.kind with
        | .none => zeroBands
        | .reference => s.blk.refBands[r]
        | .beam =>
          if x.point = 0 then w.micBands
          else if x.point = 1 then cancelled w.echoBands
          else if x.point = 2 then cancelled w.errBands
          else w.outBands) ∧
      t.banks.monSynth[k].previous = s.banks.monSynth[k].previous ∧
      t.out.current.monitors[k] = synthesise t.banks.monSynth[k] ∧
      t.out.current.repeats[k] = if x.kind = .beam ∧ x.point = 3 then some b else none))) ∧
  ∀ (s : State) (p : PairId) (rest : List Msg),
    Ready s ⟨0x10, [3, BitVec.ofNat 8 p.val, 1, 1, 1]⟩ rest → s.alloc.mask[p] = false →
    s.cmd.op = .running → s.router.beams[pairBeam p].mode = .cancel →
    s.tracker.refs[pairRef p].mode ≠ .off → s.tracker.refs[pairRef p].activity ≠ .silent →
    let full := ∀ sl : SlotId, sl.val < slotCount s → s.alloc.slots[sl] ≠ .free
    ∃ t, exec .pairmaskTableWrite s = .next t ∧ t.alloc.mask = s.alloc.mask.set p true ∧
      (∀ (sl : SlotId) (tag q : Nat), s.alloc.pairs[p] = .held sl →
        s.alloc.slots[sl] = .draining p tag q →
        t.alloc.slots = s.alloc.slots.set sl (.running p) ∧ t.alloc.pairs = s.alloc.pairs ∧
        t.core = s.core ∧ t.ctl = s.ctl ∧ t.store = s.store) ∧
      (∀ sl : SlotId, s.alloc.pairs[p] = .none → s.alloc.slots[sl] = .free → sl.val < slotCount s →
        (∀ lower : SlotId, lower < sl → s.alloc.slots[lower] ≠ .free) →
        t.alloc.slots = s.alloc.slots.set sl (.running p) ∧
        t.alloc.pairs = s.alloc.pairs.set p (.held sl) ∧ MadeCold s t sl ∧
        t.store.fills = fillsAfterLookup s sl p s.router.beams[pairBeam p].tag) ∧
      (s.alloc.pairs[p] = .none → full → t.ev.status = s.ev.status ||| 16 ∨
        t.ev.status = s.ev.status ||| 16 ||| 64) ∧
      (s.alloc.pairs[p] = .none → full → poolPolicy s.blk.tuning = 0 →
        t.alloc.slots = s.alloc.slots ∧ t.alloc.pairs = s.alloc.pairs.set p .waiting ∧
        t.alloc.waiting = s.alloc.waiting ++ [p] ∧ t.store = s.store) ∧
      ∀ (sl : SlotId) (q : PairId), s.alloc.pairs[p] = .none → full →
        poolPolicy s.blk.tuning = 1 → q ≠ p → s.alloc.slots[sl] = .running q →
        (handed s (pairRef q)).1 = .linger →
        (∀ (o : SlotId) (x : PairId), s.alloc.slots[o] = .running x →
          (handed s (pairRef x)).1 = .linger →
          (handed s (pairRef q)).2 < (handed s (pairRef x)).2 ∨
            ((handed s (pairRef q)).2 = (handed s (pairRef x)).2 ∧ sl ≤ o)) →
        ∀ (w : PairId) (left : List PairId), s.alloc.waiting ++ [p] ++ [q] = w :: left →
        t.alloc.waiting = left ∧
        t.alloc.slots = s.alloc.slots.set sl (.running w) ∧
        t.alloc.pairs =
          ((s.alloc.pairs.set p .waiting).set q .waiting).set w (.held sl) ∧
        t.core.slots[sl].ticket = s.core.slots[sl].ticket + 2 ∧ t.core.slots[sl].origin = .cold ∧
        t.ctl.slots[sl] = ⟨.warmup, 0, 0⟩ ∧
        (Eligible s sl q → s.store.captures.length < 8 →
          t.store.captures = s.store.captures ++ [captureOf s sl q]) ∧
        (Eligible s sl q → 8 ≤ s.store.captures.length →
          t.store.captures = s.store.captures ∧ t.ev.status = s.ev.status ||| 16 ||| 64) ∧
        (¬ Eligible s sl q → t.store.captures = s.store.captures)

/-- The reports: STATUS READ, HEALTH READ, SLOT READ and TABLE READ of a range that stands are answered with
the bytes of their layouts, one of a wrong length with BAD_LENGTH and one of a range that does not stand
with BAD_VALUE, and change nothing else but the boundary's note of the report, by which the reply comes to carry
what stands after every event of the boundary (BoundaryTakesCommand) (R177, R179, R187, R188, R192
to R194; the note is the model's: log 15). -/
def Obligations.ReportsTaken : Prop :=
  ∀ (s : State) (rest : List Msg),
    let after := fun (m reply : Msg) =>
      { s with cmd := answered s rest reply, blk := { s.blk with report := some m } }
    let byte := fun (n : Nat) => BitVec.ofNat 8 n
    let word := fun (n : Nat) => [BitVec.ofNat 8 (n / 256), BitVec.ofNat 8 n]
    let flag := fun (x : Bool) => if x then (1 : Byte) else 0
    let health := fun (b : BeamId) =>
      let c := s.ctl.beams[b]
      [match c.talk with
        | .idle => (0 : Byte)
        | .far => 1
        | .near => 2
        | .double => 3
        | .hangover => 4] ++
      word (c.erle % 65536).toNat ++ word c.noise ++ word s.core.micLu[b] ++
      [flag c.degraded, byte c.divCount,
        byte (allSlots.filter fun sl => match s.alloc.slots[sl] with
          | .running p => decide (pairBeam p = b)
          | .free => false
          | .draining _ _ _ => false).length, s.ctl.thresholds[16]]
    let slot := fun (sl : SlotId) =>
      (match s.alloc.slots[sl] with
        | .free => [(0 : Byte), 255]
        | .running p => [1, byte p.val]
        | .draining p _ _ => [2, byte p.val]) ++
      [(match s.ctl.slots[sl].phase with
        | .warmup => (0 : Byte)
        | .converging => 1
        | .tracking => 2),
       (match s.core.slots[sl].origin with
        | .cold => (0 : Byte)
        | .carried => 1
        | .restored => 2),
       flag (fillPending s sl)] ++ word s.ctl.slots[sl].run
    (Ready s ⟨0x01, []⟩ rest → ∃ bytes, bytes.length = 22 ∧
      exec .statusRead s = .next (after ⟨0x01, []⟩ ⟨0x81, 0 :: bytes⟩) ∧
      bytes.take 11 = [opCode s.cmd.op, BitVec.ofNat 8 s.core.tail.val, BitVec.ofNat 8 (slotCount s),
        BitVec.ofNat 8 (countSlots s isFree), BitVec.ofNat 8 (countSlots s isRunning),
        BitVec.ofNat 8 (countSlots s isDraining), BitVec.ofNat 8 s.alloc.waiting.length,
        lockCode s.ports.arrayRx.lock, lockCode s.ports.codecRx.lock, flagCode s.store.enabled,
        BitVec.ofNat 8 s.store.errors] ∧
      (s.store.firstError = none → (bytes.drop 11).take 4 = [0, 255, 255, 255]) ∧
      (∀ e, s.store.firstError = some e → (bytes.drop 11).take 5 =
        [1, BitVec.ofNat 8 e.set.val, BitVec.ofNat 8 e.way.val, BitVec.ofNat 8 e.tag,
          causeCode e.cause]) ∧
      bytes.drop 16 = [BitVec.ofNat 8 s.store.fills.length, BitVec.ofNat 8 s.store.captures.length,
        BitVec.ofNat 8 rest.length, BitVec.ofNat 8 (s.ports.steerErrors / 256),
        BitVec.ofNat 8 s.ports.steerErrors, 1]) ∧
    (∀ first n : Byte, Ready s ⟨0x28, [first, n]⟩ rest → 1 ≤ n.toNat → n.toNat ≤ 16 →
      first.toNat + n.toNat ≤ 16 → ∃ bytes, bytes.length = 11 * n.toNat ∧
        exec .healthRead s = .next (after ⟨0x28, [first, n]⟩ ⟨0xA8, 0 :: first :: n :: bytes⟩) ∧
        ∀ (k : Nat) (h : first.toNat + k < 16), k < n.toNat →
          (bytes.drop (11 * k)).take 11 = health ⟨first.toNat + k, h⟩) ∧
    (∀ first n : Byte, Ready s ⟨0x29, [first, n]⟩ rest → 1 ≤ n.toNat → n.toNat ≤ 16 →
      first.toNat + n.toNat ≤ slotCount s → ∃ bytes, bytes.length = 7 * n.toNat ∧
        exec .slotRead s = .next (after ⟨0x29, [first, n]⟩ ⟨0xA9, 0 :: first :: n :: bytes⟩) ∧
        ∀ (k : Nat) (h : first.toNat + k < 128), k < n.toNat →
          (bytes.drop (7 * k)).take 7 = slot ⟨first.toNat + k, h⟩) ∧
    (∀ (tb : Table) (first count : Byte), Ready s ⟨0x11, [tableId tb, first, count]⟩ rest →
      let n := if count.toNat = 0 then tableEntries tb - first.toNat else count.toNat
      first.toNat < tableEntries tb → first.toNat + n ≤ tableEntries tb →
      exec .tableRead s = .next (after ⟨0x11, [tableId tb, first, count]⟩
        ⟨0x91, 0 :: tableId tb :: first :: BitVec.ofNat 8 n ::
          (List.range n).flatMap fun i => readEntry s tb (first.toNat + i)⟩)) ∧
    (∀ b : BeamId, readEntry s .beam b.val = [(match s.router.beams[b].mode with
      | .cancel => (0 : Byte)
      | .bypass => 1
      | .mute => 2), flag s.router.beams[b].suppress, flag s.router.beams[b].comfort]) ∧
    (∀ r : RefId, readEntry s .reference r.val = [(match s.tracker.refs[r].mode with
      | .off => (0 : Byte)
      | .on => 1
      | .onShort => 2), (match s.tracker.refs[r].meter with
      | none => (7 : Byte)
      | some m => byte m.val), byte s.tracker.refs[r].delay]) ∧
    (∀ p : PairId, readEntry s .pairmask p.val = [flag s.alloc.mask[p]]) ∧
    (∀ i : Fin 12, readEntry s .step i.val = [s.core.step[i]]) ∧
    (∀ i : Fin 26, readEntry s .tuning i.val = word s.cmd.tuning[i]) ∧
    (∀ i : Fin 17, readEntry s .threshold i.val = [s.ctl.thresholds[i]]) ∧
    (∀ m : Fin 4, readEntry s .meter m.val = byte (s.play.meters[m].ceiling / 65536) ::
      word (s.play.meters[m].ceiling) ++ word s.play.meters[m].clamps) ∧
    (∀ k : Fin 2, readEntry s .monitor k.val = [(match s.out.monitors[k].kind with
      | .none => (0 : Byte)
      | .beam => 1
      | .reference => 2), s.out.monitors[k].index, s.out.monitors[k].point]) ∧
    ∀ m : Msg, Ready s m rest →
      let n := m.payload.length
      let b := fun i => (m.payload.getD i 0).toNat
      (m.kind = 0x01 → n ≠ 0 → exec .statusRead s = .next (after m ⟨0x81, [2]⟩)) ∧
      (m.kind = 0x28 →
        (n ≠ 2 → exec .healthRead s = .next (after m ⟨0xA8, [2]⟩)) ∧
        (n = 2 → (b 1 = 0 ∨ 16 < b 1 ∨ 15 < b 0 ∨ 16 < b 0 + b 1) →
          exec .healthRead s = .next (after m ⟨0xA8, [3]⟩))) ∧
      (m.kind = 0x29 →
        (n ≠ 2 → exec .slotRead s = .next (after m ⟨0xA9, [2]⟩)) ∧
        (n = 2 → (b 1 = 0 ∨ 16 < b 1 ∨ slotCount s ≤ b 0 ∨ slotCount s < b 0 + b 1) →
          exec .slotRead s = .next (after m ⟨0xA9, [3]⟩))) ∧
      (m.kind = 0x11 →
        (n ≠ 3 → exec .tableRead s = .next (after m ⟨0x91, [2]⟩)) ∧
        (n = 3 → (b 0 = 0 ∨ 8 < b 0) → exec .tableRead s = .next (after m ⟨0x91, [3]⟩)) ∧
        ∀ tb : Table, n = 3 → m.payload.getD 0 0 = tableId tb →
          (tableEntries tb ≤ b 1 ∨ tableEntries tb < b 1 + b 2) →
          exec .tableRead s = .next (after m ⟨0x91, [3]⟩))

/-- EVENT READ is answered with the status, the mask, the pending code and the detail sets; EVENT CLEAR clears
the named sources and their detail sets; EVENT SETUP writes the mask and the notice mode. FREEZE gives every
named beam the setting, and a beam newly frozen has its divergence counter at 0; no other beam changes. An
EVENT READ with a payload is answered BAD_LENGTH. EVENT READ by its own row is answered at once and leaves the
boundary's note of the report, which is the model's: log 15, by which the reply comes to carry what stands after
every event of the boundary (BoundaryTakesCommand); nothing else changes
(R98, R167, R185, R186, R192, R193). -/
def Obligations.EventAndFreezeTaken : Prop :=
  (∀ (s : State) (rest : List Msg),
      (Ready s ⟨0x20, []⟩ rest → exec .eventRead s = .next { s with
        cmd := answered s rest ⟨0xA0, [0, s.ev.status, s.ev.mask, BitVec.ofNat 8 (pendingCode s.ev),
          s.ev.causes, BitVec.ofNat 8 (s.ev.diverged.toNat / 256), BitVec.ofNat 8 s.ev.diverged.toNat,
          BitVec.ofNat 8 (s.ev.degraded.toNat / 256), BitVec.ofNat 8 s.ev.degraded.toNat]⟩
        blk := { s.blk with report := some ⟨0x20, []⟩ } }) ∧
      (∀ m : Msg, Ready s m rest → m.kind = 0x20 → m.payload ≠ [] →
        exec .eventRead s = .next { s with
          cmd := answered s rest ⟨0xA0, [2]⟩, blk := { s.blk with report := some m } }) ∧
      (∀ set : Byte, Ready s ⟨0x21, [set]⟩ rest → exec .eventClear s = .next { s with
        cmd := answered s rest ⟨0xA1, [0]⟩
        ev := { s.ev with
          status := s.ev.status &&& ~~~set
          diverged := if set.getLsbD 2 = true then 0 else s.ev.diverged
          causes := if set.getLsbD 3 = true then 0 else s.ev.causes
          degraded := if set.getLsbD 5 = true then 0 else s.ev.degraded } }) ∧
      ∀ mask mode : Byte, Ready s ⟨0x22, [mask, mode]⟩ rest → mode.toNat ≤ 2 →
        exec .eventSetup s = .next { s with
          cmd := answered s rest ⟨0xA2, [0]⟩
          ev := { s.ev with
            mask := mask
            mode := if mode = 0 then .none else if mode = 1 then .errors else .all } }) ∧
  ∀ (s : State) (hi lo on : Byte) (rest : List Msg), Ready s ⟨0x30, [hi, lo, on]⟩ rest →
    on.toNat ≤ 1 →
    let named : BeamId → Prop := fun b => (256 * hi.toNat + lo.toNat).testBit b.val = true
    ∃ t, exec .freeze s = .next t ∧
      t = { s with
        cmd := answered s rest ⟨0xB0, [0]⟩
        router := { s.router with beams := t.router.beams }
        ctl := { s.ctl with beams := t.ctl.beams } } ∧
      (∀ b : BeamId, named b →
        t.router.beams[b] = { s.router.beams[b] with frozen := decide (on = 1) } ∧
        t.ctl.beams[b] = if on = 1 ∧ s.router.beams[b].frozen = false then
          { s.ctl.beams[b] with divCtr := 0 } else s.ctl.beams[b]) ∧
      ∀ b : BeamId, ¬ named b →
        t.router.beams[b] = s.router.beams[b] ∧ t.ctl.beams[b] = s.ctl.beams[b]

/-- STORE ENABLE, STORE FLUSH and STORE INVALIDATE: an enable restores the condition and leaves the entries; a
flush clears the store, and an invalidation the sets 8b + r of the named beams and references; the requests and
records of the other sets stay in their order (R133 to R135, R140). -/
def Obligations.StoreCommandsTaken : Prop :=
  ∀ (s : State) (rest : List Msg),
    (Ready s ⟨0x41, []⟩ rest → exec .storeEnable s = .next { s with
      cmd := answered s rest ⟨0xC1, [0]⟩
      store := { s.store with enabled := true, errors := 0, firstError := none } }) ∧
    (Ready s ⟨0x40, []⟩ rest → ∃ t u, exec .storeFlush s = .next t ∧
      StoreCleared (fun _ => true) s t ∧
      u = { s with
        cmd := answered s rest ⟨0xC0, [0]⟩
        store := { s.store with sets := t.store.sets, port := t.store.port } } ∧
      PoolMoves u t) ∧
    ∀ hi lo refs : Byte, Ready s ⟨0x42, [hi, lo, refs]⟩ rest →
      let covered : SetId → Bool := fun p =>
        (256 * hi.toNat + lo.toNat).testBit (pairBeam p).val && refs.toNat.testBit (pairRef p).val
      ∃ t u, exec .storeInvalidate s = .next t ∧ StoreCleared covered s t ∧
        u = { s with
          cmd := answered s rest ⟨0xC2, [0]⟩
          store := { s.store with sets := t.store.sets, port := t.store.port } } ∧
        PoolMoves u t

/-- ENTRY LOAD replaces a chunk of the load area and answers OK; ENTRY READ and ENTRY COMMIT that pass their
tests become the waiting host access with the unit in PORT_WAIT, and are not answered yet (R141, R142, R144,
R145, R164). -/
def Obligations.EntryCommandsTaken : Prop :=
  ∀ (s : State) (rest : List Msg),
    let waits := fun (a : HostAccess) => { s with
      cmd := { afterTaking s rest with state := .portWait }
      store := { s.store with host := some ⟨a, s.blk.count⟩ } }
    (∀ (c : Byte) (taps : List Byte), taps.length = 108 → c.toNat ≤ 63 →
      Ready s ⟨0x44, c :: taps⟩ rest → exec .entryLoad s = .next { s with
        cmd := { answered s rest ⟨0xC4, [0]⟩ with
          loadTaps := chunkWrite s.cmd.loadTaps c.toNat taps
          loadWritten := s.cmd.loadWritten ||| BitVec.ofNat 64 (2 ^ c.toNat) } }) ∧
    (∀ (p w c : Byte) (hp : p.toNat < 128) (hw : w.toNat < 2), c.toNat ≤ 63 →
      Ready s ⟨0x43, [p, w, c]⟩ rest → s.store.enabled = true →
      exec .entryRead s = .next (waits (.read ⟨p.toNat, hp⟩ ⟨w.toNat, hw⟩ c.toNat))) ∧
    ∀ (p tag q hi lo : Byte) (hp : p.toNat < 128), tag.toNat ≤ 32 →
      Ready s ⟨0x45, [p, tag, q, hi, lo]⟩ rest → s.store.enabled = true →
      s.cmd.loadWritten = BitVec.allOnes 64 →
      let check := BitVec.ofNat 16 (256 * hi.toNat + lo.toNat)
      balances s.cmd.loadTaps tag.toNat q.toNat check = true →
      exec .entryCommit s = .next (waits (.commit ⟨p.toNat, hp⟩ tag.toNat q.toNat check))
end

