-- ==== Sys2Proof/Laws/State.lean ====
section
/-! SUPPORT. One lemma per field of State for each setter of Machine/Ops.lean: what the setter writes, and
that it leaves every other field. Each is true by computation, so that no later proof unfolds a record
update. -/

namespace Sys2Proof.Machine

/-! ### setSlotState -/

@[simp] theorem setSlotState_pending (sl : SlotId) (st : SlotState) (s : State) : (setSlotState sl st s).pending = s.pending := rfl
@[simp] theorem setSlotState_resetn (sl : SlotId) (st : SlotState) (s : State) : (setSlotState sl st s).resetn = s.resetn := rfl
@[simp] theorem setSlotState_ports (sl : SlotId) (st : SlotState) (s : State) : (setSlotState sl st s).ports = s.ports := rfl
@[simp] theorem setSlotState_play (sl : SlotId) (st : SlotState) (s : State) : (setSlotState sl st s).play = s.play := rfl
@[simp] theorem setSlotState_tracker (sl : SlotId) (st : SlotState) (s : State) : (setSlotState sl st s).tracker = s.tracker := rfl
@[simp] theorem setSlotState_router (sl : SlotId) (st : SlotState) (s : State) : (setSlotState sl st s).router = s.router := rfl
@[simp] theorem setSlotState_banks (sl : SlotId) (st : SlotState) (s : State) : (setSlotState sl st s).banks = s.banks := rfl
@[simp] theorem setSlotState_core (sl : SlotId) (st : SlotState) (s : State) : (setSlotState sl st s).core = s.core := rfl
@[simp] theorem setSlotState_ctl (sl : SlotId) (st : SlotState) (s : State) : (setSlotState sl st s).ctl = s.ctl := rfl
@[simp] theorem setSlotState_alloc (sl : SlotId) (st : SlotState) (s : State) :
    (setSlotState sl st s).alloc = { s.alloc with slots := s.alloc.slots.set sl st } := rfl
@[simp] theorem setSlotState_store (sl : SlotId) (st : SlotState) (s : State) : (setSlotState sl st s).store = s.store := rfl
@[simp] theorem setSlotState_supp (sl : SlotId) (st : SlotState) (s : State) : (setSlotState sl st s).supp = s.supp := rfl
@[simp] theorem setSlotState_out (sl : SlotId) (st : SlotState) (s : State) : (setSlotState sl st s).out = s.out := rfl
@[simp] theorem setSlotState_cmd (sl : SlotId) (st : SlotState) (s : State) : (setSlotState sl st s).cmd = s.cmd := rfl
@[simp] theorem setSlotState_ev (sl : SlotId) (st : SlotState) (s : State) : (setSlotState sl st s).ev = s.ev := rfl
@[simp] theorem setSlotState_blk (sl : SlotId) (st : SlotState) (s : State) : (setSlotState sl st s).blk = s.blk := rfl

/-! ### setPair -/

@[simp] theorem setPair_pending (p : PairId) (e : PairEntry) (s : State) : (setPair p e s).pending = s.pending := rfl
@[simp] theorem setPair_resetn (p : PairId) (e : PairEntry) (s : State) : (setPair p e s).resetn = s.resetn := rfl
@[simp] theorem setPair_ports (p : PairId) (e : PairEntry) (s : State) : (setPair p e s).ports = s.ports := rfl
@[simp] theorem setPair_play (p : PairId) (e : PairEntry) (s : State) : (setPair p e s).play = s.play := rfl
@[simp] theorem setPair_tracker (p : PairId) (e : PairEntry) (s : State) : (setPair p e s).tracker = s.tracker := rfl
@[simp] theorem setPair_router (p : PairId) (e : PairEntry) (s : State) : (setPair p e s).router = s.router := rfl
@[simp] theorem setPair_banks (p : PairId) (e : PairEntry) (s : State) : (setPair p e s).banks = s.banks := rfl
@[simp] theorem setPair_core (p : PairId) (e : PairEntry) (s : State) : (setPair p e s).core = s.core := rfl
@[simp] theorem setPair_ctl (p : PairId) (e : PairEntry) (s : State) : (setPair p e s).ctl = s.ctl := rfl
@[simp] theorem setPair_alloc (p : PairId) (e : PairEntry) (s : State) :
    (setPair p e s).alloc = { s.alloc with pairs := s.alloc.pairs.set p e } := rfl
@[simp] theorem setPair_store (p : PairId) (e : PairEntry) (s : State) : (setPair p e s).store = s.store := rfl
@[simp] theorem setPair_supp (p : PairId) (e : PairEntry) (s : State) : (setPair p e s).supp = s.supp := rfl
@[simp] theorem setPair_out (p : PairId) (e : PairEntry) (s : State) : (setPair p e s).out = s.out := rfl
@[simp] theorem setPair_cmd (p : PairId) (e : PairEntry) (s : State) : (setPair p e s).cmd = s.cmd := rfl
@[simp] theorem setPair_ev (p : PairId) (e : PairEntry) (s : State) : (setPair p e s).ev = s.ev := rfl
@[simp] theorem setPair_blk (p : PairId) (e : PairEntry) (s : State) : (setPair p e s).blk = s.blk := rfl

/-! ### setWaiting -/

@[simp] theorem setWaiting_pending (w : List PairId) (s : State) : (setWaiting w s).pending = s.pending := rfl
@[simp] theorem setWaiting_resetn (w : List PairId) (s : State) : (setWaiting w s).resetn = s.resetn := rfl
@[simp] theorem setWaiting_ports (w : List PairId) (s : State) : (setWaiting w s).ports = s.ports := rfl
@[simp] theorem setWaiting_play (w : List PairId) (s : State) : (setWaiting w s).play = s.play := rfl
@[simp] theorem setWaiting_tracker (w : List PairId) (s : State) : (setWaiting w s).tracker = s.tracker := rfl
@[simp] theorem setWaiting_router (w : List PairId) (s : State) : (setWaiting w s).router = s.router := rfl
@[simp] theorem setWaiting_banks (w : List PairId) (s : State) : (setWaiting w s).banks = s.banks := rfl
@[simp] theorem setWaiting_core (w : List PairId) (s : State) : (setWaiting w s).core = s.core := rfl
@[simp] theorem setWaiting_ctl (w : List PairId) (s : State) : (setWaiting w s).ctl = s.ctl := rfl
@[simp] theorem setWaiting_alloc (w : List PairId) (s : State) :
    (setWaiting w s).alloc = { s.alloc with waiting := w } := rfl
@[simp] theorem setWaiting_store (w : List PairId) (s : State) : (setWaiting w s).store = s.store := rfl
@[simp] theorem setWaiting_supp (w : List PairId) (s : State) : (setWaiting w s).supp = s.supp := rfl
@[simp] theorem setWaiting_out (w : List PairId) (s : State) : (setWaiting w s).out = s.out := rfl
@[simp] theorem setWaiting_cmd (w : List PairId) (s : State) : (setWaiting w s).cmd = s.cmd := rfl
@[simp] theorem setWaiting_ev (w : List PairId) (s : State) : (setWaiting w s).ev = s.ev := rfl
@[simp] theorem setWaiting_blk (w : List PairId) (s : State) : (setWaiting w s).blk = s.blk := rfl

/-! ### setCoreSlot -/

@[simp] theorem setCoreSlot_pending (sl : SlotId) (x : CoreSlot) (s : State) : (setCoreSlot sl x s).pending = s.pending := rfl
@[simp] theorem setCoreSlot_resetn (sl : SlotId) (x : CoreSlot) (s : State) : (setCoreSlot sl x s).resetn = s.resetn := rfl
@[simp] theorem setCoreSlot_ports (sl : SlotId) (x : CoreSlot) (s : State) : (setCoreSlot sl x s).ports = s.ports := rfl
@[simp] theorem setCoreSlot_play (sl : SlotId) (x : CoreSlot) (s : State) : (setCoreSlot sl x s).play = s.play := rfl
@[simp] theorem setCoreSlot_tracker (sl : SlotId) (x : CoreSlot) (s : State) : (setCoreSlot sl x s).tracker = s.tracker := rfl
@[simp] theorem setCoreSlot_router (sl : SlotId) (x : CoreSlot) (s : State) : (setCoreSlot sl x s).router = s.router := rfl
@[simp] theorem setCoreSlot_banks (sl : SlotId) (x : CoreSlot) (s : State) : (setCoreSlot sl x s).banks = s.banks := rfl
@[simp] theorem setCoreSlot_core (sl : SlotId) (x : CoreSlot) (s : State) :
    (setCoreSlot sl x s).core = { s.core with slots := s.core.slots.set sl x } := rfl
@[simp] theorem setCoreSlot_ctl (sl : SlotId) (x : CoreSlot) (s : State) : (setCoreSlot sl x s).ctl = s.ctl := rfl
@[simp] theorem setCoreSlot_alloc (sl : SlotId) (x : CoreSlot) (s : State) : (setCoreSlot sl x s).alloc = s.alloc := rfl
@[simp] theorem setCoreSlot_store (sl : SlotId) (x : CoreSlot) (s : State) : (setCoreSlot sl x s).store = s.store := rfl
@[simp] theorem setCoreSlot_supp (sl : SlotId) (x : CoreSlot) (s : State) : (setCoreSlot sl x s).supp = s.supp := rfl
@[simp] theorem setCoreSlot_out (sl : SlotId) (x : CoreSlot) (s : State) : (setCoreSlot sl x s).out = s.out := rfl
@[simp] theorem setCoreSlot_cmd (sl : SlotId) (x : CoreSlot) (s : State) : (setCoreSlot sl x s).cmd = s.cmd := rfl
@[simp] theorem setCoreSlot_ev (sl : SlotId) (x : CoreSlot) (s : State) : (setCoreSlot sl x s).ev = s.ev := rfl
@[simp] theorem setCoreSlot_blk (sl : SlotId) (x : CoreSlot) (s : State) : (setCoreSlot sl x s).blk = s.blk := rfl

/-! ### setMem -/

@[simp] theorem setMem_pending (m : TapMem) (s : State) : (setMem m s).pending = s.pending := rfl
@[simp] theorem setMem_resetn (m : TapMem) (s : State) : (setMem m s).resetn = s.resetn := rfl
@[simp] theorem setMem_ports (m : TapMem) (s : State) : (setMem m s).ports = s.ports := rfl
@[simp] theorem setMem_play (m : TapMem) (s : State) : (setMem m s).play = s.play := rfl
@[simp] theorem setMem_tracker (m : TapMem) (s : State) : (setMem m s).tracker = s.tracker := rfl
@[simp] theorem setMem_router (m : TapMem) (s : State) : (setMem m s).router = s.router := rfl
@[simp] theorem setMem_banks (m : TapMem) (s : State) : (setMem m s).banks = s.banks := rfl
@[simp] theorem setMem_core (m : TapMem) (s : State) :
    (setMem m s).core = { s.core with mem := m } := rfl
@[simp] theorem setMem_ctl (m : TapMem) (s : State) : (setMem m s).ctl = s.ctl := rfl
@[simp] theorem setMem_alloc (m : TapMem) (s : State) : (setMem m s).alloc = s.alloc := rfl
@[simp] theorem setMem_store (m : TapMem) (s : State) : (setMem m s).store = s.store := rfl
@[simp] theorem setMem_supp (m : TapMem) (s : State) : (setMem m s).supp = s.supp := rfl
@[simp] theorem setMem_out (m : TapMem) (s : State) : (setMem m s).out = s.out := rfl
@[simp] theorem setMem_cmd (m : TapMem) (s : State) : (setMem m s).cmd = s.cmd := rfl
@[simp] theorem setMem_ev (m : TapMem) (s : State) : (setMem m s).ev = s.ev := rfl
@[simp] theorem setMem_blk (m : TapMem) (s : State) : (setMem m s).blk = s.blk := rfl

/-! ### setCtlSlot -/

@[simp] theorem setCtlSlot_pending (sl : SlotId) (x : CtlSlot) (s : State) : (setCtlSlot sl x s).pending = s.pending := rfl
@[simp] theorem setCtlSlot_resetn (sl : SlotId) (x : CtlSlot) (s : State) : (setCtlSlot sl x s).resetn = s.resetn := rfl
@[simp] theorem setCtlSlot_ports (sl : SlotId) (x : CtlSlot) (s : State) : (setCtlSlot sl x s).ports = s.ports := rfl
@[simp] theorem setCtlSlot_play (sl : SlotId) (x : CtlSlot) (s : State) : (setCtlSlot sl x s).play = s.play := rfl
@[simp] theorem setCtlSlot_tracker (sl : SlotId) (x : CtlSlot) (s : State) : (setCtlSlot sl x s).tracker = s.tracker := rfl
@[simp] theorem setCtlSlot_router (sl : SlotId) (x : CtlSlot) (s : State) : (setCtlSlot sl x s).router = s.router := rfl
@[simp] theorem setCtlSlot_banks (sl : SlotId) (x : CtlSlot) (s : State) : (setCtlSlot sl x s).banks = s.banks := rfl
@[simp] theorem setCtlSlot_core (sl : SlotId) (x : CtlSlot) (s : State) : (setCtlSlot sl x s).core = s.core := rfl
@[simp] theorem setCtlSlot_ctl (sl : SlotId) (x : CtlSlot) (s : State) :
    (setCtlSlot sl x s).ctl = { s.ctl with slots := s.ctl.slots.set sl x } := rfl
@[simp] theorem setCtlSlot_alloc (sl : SlotId) (x : CtlSlot) (s : State) : (setCtlSlot sl x s).alloc = s.alloc := rfl
@[simp] theorem setCtlSlot_store (sl : SlotId) (x : CtlSlot) (s : State) : (setCtlSlot sl x s).store = s.store := rfl
@[simp] theorem setCtlSlot_supp (sl : SlotId) (x : CtlSlot) (s : State) : (setCtlSlot sl x s).supp = s.supp := rfl
@[simp] theorem setCtlSlot_out (sl : SlotId) (x : CtlSlot) (s : State) : (setCtlSlot sl x s).out = s.out := rfl
@[simp] theorem setCtlSlot_cmd (sl : SlotId) (x : CtlSlot) (s : State) : (setCtlSlot sl x s).cmd = s.cmd := rfl
@[simp] theorem setCtlSlot_ev (sl : SlotId) (x : CtlSlot) (s : State) : (setCtlSlot sl x s).ev = s.ev := rfl
@[simp] theorem setCtlSlot_blk (sl : SlotId) (x : CtlSlot) (s : State) : (setCtlSlot sl x s).blk = s.blk := rfl

/-! ### setCtlBeam -/

@[simp] theorem setCtlBeam_pending (b : BeamId) (x : CtlBeam) (s : State) : (setCtlBeam b x s).pending = s.pending := rfl
@[simp] theorem setCtlBeam_resetn (b : BeamId) (x : CtlBeam) (s : State) : (setCtlBeam b x s).resetn = s.resetn := rfl
@[simp] theorem setCtlBeam_ports (b : BeamId) (x : CtlBeam) (s : State) : (setCtlBeam b x s).ports = s.ports := rfl
@[simp] theorem setCtlBeam_play (b : BeamId) (x : CtlBeam) (s : State) : (setCtlBeam b x s).play = s.play := rfl
@[simp] theorem setCtlBeam_tracker (b : BeamId) (x : CtlBeam) (s : State) : (setCtlBeam b x s).tracker = s.tracker := rfl
@[simp] theorem setCtlBeam_router (b : BeamId) (x : CtlBeam) (s : State) : (setCtlBeam b x s).router = s.router := rfl
@[simp] theorem setCtlBeam_banks (b : BeamId) (x : CtlBeam) (s : State) : (setCtlBeam b x s).banks = s.banks := rfl
@[simp] theorem setCtlBeam_core (b : BeamId) (x : CtlBeam) (s : State) : (setCtlBeam b x s).core = s.core := rfl
@[simp] theorem setCtlBeam_ctl (b : BeamId) (x : CtlBeam) (s : State) :
    (setCtlBeam b x s).ctl = { s.ctl with beams := s.ctl.beams.set b x } := rfl
@[simp] theorem setCtlBeam_alloc (b : BeamId) (x : CtlBeam) (s : State) : (setCtlBeam b x s).alloc = s.alloc := rfl
@[simp] theorem setCtlBeam_store (b : BeamId) (x : CtlBeam) (s : State) : (setCtlBeam b x s).store = s.store := rfl
@[simp] theorem setCtlBeam_supp (b : BeamId) (x : CtlBeam) (s : State) : (setCtlBeam b x s).supp = s.supp := rfl
@[simp] theorem setCtlBeam_out (b : BeamId) (x : CtlBeam) (s : State) : (setCtlBeam b x s).out = s.out := rfl
@[simp] theorem setCtlBeam_cmd (b : BeamId) (x : CtlBeam) (s : State) : (setCtlBeam b x s).cmd = s.cmd := rfl
@[simp] theorem setCtlBeam_ev (b : BeamId) (x : CtlBeam) (s : State) : (setCtlBeam b x s).ev = s.ev := rfl
@[simp] theorem setCtlBeam_blk (b : BeamId) (x : CtlBeam) (s : State) : (setCtlBeam b x s).blk = s.blk := rfl

/-! ### setBeam -/

@[simp] theorem setBeam_pending (b : BeamId) (x : Beam) (s : State) : (setBeam b x s).pending = s.pending := rfl
@[simp] theorem setBeam_resetn (b : BeamId) (x : Beam) (s : State) : (setBeam b x s).resetn = s.resetn := rfl
@[simp] theorem setBeam_ports (b : BeamId) (x : Beam) (s : State) : (setBeam b x s).ports = s.ports := rfl
@[simp] theorem setBeam_play (b : BeamId) (x : Beam) (s : State) : (setBeam b x s).play = s.play := rfl
@[simp] theorem setBeam_tracker (b : BeamId) (x : Beam) (s : State) : (setBeam b x s).tracker = s.tracker := rfl
@[simp] theorem setBeam_router (b : BeamId) (x : Beam) (s : State) :
    (setBeam b x s).router = { s.router with beams := s.router.beams.set b x } := rfl
@[simp] theorem setBeam_banks (b : BeamId) (x : Beam) (s : State) : (setBeam b x s).banks = s.banks := rfl
@[simp] theorem setBeam_core (b : BeamId) (x : Beam) (s : State) : (setBeam b x s).core = s.core := rfl
@[simp] theorem setBeam_ctl (b : BeamId) (x : Beam) (s : State) : (setBeam b x s).ctl = s.ctl := rfl
@[simp] theorem setBeam_alloc (b : BeamId) (x : Beam) (s : State) : (setBeam b x s).alloc = s.alloc := rfl
@[simp] theorem setBeam_store (b : BeamId) (x : Beam) (s : State) : (setBeam b x s).store = s.store := rfl
@[simp] theorem setBeam_supp (b : BeamId) (x : Beam) (s : State) : (setBeam b x s).supp = s.supp := rfl
@[simp] theorem setBeam_out (b : BeamId) (x : Beam) (s : State) : (setBeam b x s).out = s.out := rfl
@[simp] theorem setBeam_cmd (b : BeamId) (x : Beam) (s : State) : (setBeam b x s).cmd = s.cmd := rfl
@[simp] theorem setBeam_ev (b : BeamId) (x : Beam) (s : State) : (setBeam b x s).ev = s.ev := rfl
@[simp] theorem setBeam_blk (b : BeamId) (x : Beam) (s : State) : (setBeam b x s).blk = s.blk := rfl

/-! ### setRef -/

@[simp] theorem setRef_pending (r : RefId) (x : Reference) (s : State) : (setRef r x s).pending = s.pending := rfl
@[simp] theorem setRef_resetn (r : RefId) (x : Reference) (s : State) : (setRef r x s).resetn = s.resetn := rfl
@[simp] theorem setRef_ports (r : RefId) (x : Reference) (s : State) : (setRef r x s).ports = s.ports := rfl
@[simp] theorem setRef_play (r : RefId) (x : Reference) (s : State) : (setRef r x s).play = s.play := rfl
@[simp] theorem setRef_tracker (r : RefId) (x : Reference) (s : State) :
    (setRef r x s).tracker = { s.tracker with refs := s.tracker.refs.set r x } := rfl
@[simp] theorem setRef_router (r : RefId) (x : Reference) (s : State) : (setRef r x s).router = s.router := rfl
@[simp] theorem setRef_banks (r : RefId) (x : Reference) (s : State) : (setRef r x s).banks = s.banks := rfl
@[simp] theorem setRef_core (r : RefId) (x : Reference) (s : State) : (setRef r x s).core = s.core := rfl
@[simp] theorem setRef_ctl (r : RefId) (x : Reference) (s : State) : (setRef r x s).ctl = s.ctl := rfl
@[simp] theorem setRef_alloc (r : RefId) (x : Reference) (s : State) : (setRef r x s).alloc = s.alloc := rfl
@[simp] theorem setRef_store (r : RefId) (x : Reference) (s : State) : (setRef r x s).store = s.store := rfl
@[simp] theorem setRef_supp (r : RefId) (x : Reference) (s : State) : (setRef r x s).supp = s.supp := rfl
@[simp] theorem setRef_out (r : RefId) (x : Reference) (s : State) : (setRef r x s).out = s.out := rfl
@[simp] theorem setRef_cmd (r : RefId) (x : Reference) (s : State) : (setRef r x s).cmd = s.cmd := rfl
@[simp] theorem setRef_ev (r : RefId) (x : Reference) (s : State) : (setRef r x s).ev = s.ev := rfl
@[simp] theorem setRef_blk (r : RefId) (x : Reference) (s : State) : (setRef r x s).blk = s.blk := rfl

/-! ### setFills -/

@[simp] theorem setFills_pending (q : List FillReq) (s : State) : (setFills q s).pending = s.pending := rfl
@[simp] theorem setFills_resetn (q : List FillReq) (s : State) : (setFills q s).resetn = s.resetn := rfl
@[simp] theorem setFills_ports (q : List FillReq) (s : State) : (setFills q s).ports = s.ports := rfl
@[simp] theorem setFills_play (q : List FillReq) (s : State) : (setFills q s).play = s.play := rfl
@[simp] theorem setFills_tracker (q : List FillReq) (s : State) : (setFills q s).tracker = s.tracker := rfl
@[simp] theorem setFills_router (q : List FillReq) (s : State) : (setFills q s).router = s.router := rfl
@[simp] theorem setFills_banks (q : List FillReq) (s : State) : (setFills q s).banks = s.banks := rfl
@[simp] theorem setFills_core (q : List FillReq) (s : State) : (setFills q s).core = s.core := rfl
@[simp] theorem setFills_ctl (q : List FillReq) (s : State) : (setFills q s).ctl = s.ctl := rfl
@[simp] theorem setFills_alloc (q : List FillReq) (s : State) : (setFills q s).alloc = s.alloc := rfl
@[simp] theorem setFills_store (q : List FillReq) (s : State) :
    (setFills q s).store = { s.store with fills := q } := rfl
@[simp] theorem setFills_supp (q : List FillReq) (s : State) : (setFills q s).supp = s.supp := rfl
@[simp] theorem setFills_out (q : List FillReq) (s : State) : (setFills q s).out = s.out := rfl
@[simp] theorem setFills_cmd (q : List FillReq) (s : State) : (setFills q s).cmd = s.cmd := rfl
@[simp] theorem setFills_ev (q : List FillReq) (s : State) : (setFills q s).ev = s.ev := rfl
@[simp] theorem setFills_blk (q : List FillReq) (s : State) : (setFills q s).blk = s.blk := rfl

/-! ### setCaptures -/

@[simp] theorem setCaptures_pending (q : List CaptureRec) (s : State) : (setCaptures q s).pending = s.pending := rfl
@[simp] theorem setCaptures_resetn (q : List CaptureRec) (s : State) : (setCaptures q s).resetn = s.resetn := rfl
@[simp] theorem setCaptures_ports (q : List CaptureRec) (s : State) : (setCaptures q s).ports = s.ports := rfl
@[simp] theorem setCaptures_play (q : List CaptureRec) (s : State) : (setCaptures q s).play = s.play := rfl
@[simp] theorem setCaptures_tracker (q : List CaptureRec) (s : State) : (setCaptures q s).tracker = s.tracker := rfl
@[simp] theorem setCaptures_router (q : List CaptureRec) (s : State) : (setCaptures q s).router = s.router := rfl
@[simp] theorem setCaptures_banks (q : List CaptureRec) (s : State) : (setCaptures q s).banks = s.banks := rfl
@[simp] theorem setCaptures_core (q : List CaptureRec) (s : State) : (setCaptures q s).core = s.core := rfl
@[simp] theorem setCaptures_ctl (q : List CaptureRec) (s : State) : (setCaptures q s).ctl = s.ctl := rfl
@[simp] theorem setCaptures_alloc (q : List CaptureRec) (s : State) : (setCaptures q s).alloc = s.alloc := rfl
@[simp] theorem setCaptures_store (q : List CaptureRec) (s : State) :
    (setCaptures q s).store = { s.store with captures := q } := rfl
@[simp] theorem setCaptures_supp (q : List CaptureRec) (s : State) : (setCaptures q s).supp = s.supp := rfl
@[simp] theorem setCaptures_out (q : List CaptureRec) (s : State) : (setCaptures q s).out = s.out := rfl
@[simp] theorem setCaptures_cmd (q : List CaptureRec) (s : State) : (setCaptures q s).cmd = s.cmd := rfl
@[simp] theorem setCaptures_ev (q : List CaptureRec) (s : State) : (setCaptures q s).ev = s.ev := rfl
@[simp] theorem setCaptures_blk (q : List CaptureRec) (s : State) : (setCaptures q s).blk = s.blk := rfl

/-! ### setSet -/

@[simp] theorem setSet_pending (p : SetId) (x : StoreSet) (s : State) : (setSet p x s).pending = s.pending := rfl
@[simp] theorem setSet_resetn (p : SetId) (x : StoreSet) (s : State) : (setSet p x s).resetn = s.resetn := rfl
@[simp] theorem setSet_ports (p : SetId) (x : StoreSet) (s : State) : (setSet p x s).ports = s.ports := rfl
@[simp] theorem setSet_play (p : SetId) (x : StoreSet) (s : State) : (setSet p x s).play = s.play := rfl
@[simp] theorem setSet_tracker (p : SetId) (x : StoreSet) (s : State) : (setSet p x s).tracker = s.tracker := rfl
@[simp] theorem setSet_router (p : SetId) (x : StoreSet) (s : State) : (setSet p x s).router = s.router := rfl
@[simp] theorem setSet_banks (p : SetId) (x : StoreSet) (s : State) : (setSet p x s).banks = s.banks := rfl
@[simp] theorem setSet_core (p : SetId) (x : StoreSet) (s : State) : (setSet p x s).core = s.core := rfl
@[simp] theorem setSet_ctl (p : SetId) (x : StoreSet) (s : State) : (setSet p x s).ctl = s.ctl := rfl
@[simp] theorem setSet_alloc (p : SetId) (x : StoreSet) (s : State) : (setSet p x s).alloc = s.alloc := rfl
@[simp] theorem setSet_store (p : SetId) (x : StoreSet) (s : State) :
    (setSet p x s).store = { s.store with sets := s.store.sets.set p x } := rfl
@[simp] theorem setSet_supp (p : SetId) (x : StoreSet) (s : State) : (setSet p x s).supp = s.supp := rfl
@[simp] theorem setSet_out (p : SetId) (x : StoreSet) (s : State) : (setSet p x s).out = s.out := rfl
@[simp] theorem setSet_cmd (p : SetId) (x : StoreSet) (s : State) : (setSet p x s).cmd = s.cmd := rfl
@[simp] theorem setSet_ev (p : SetId) (x : StoreSet) (s : State) : (setSet p x s).ev = s.ev := rfl
@[simp] theorem setSet_blk (p : SetId) (x : StoreSet) (s : State) : (setSet p x s).blk = s.blk := rfl

/-! ### setPort -/

@[simp] theorem setPort_pending (t : Option Transfer) (s : State) : (setPort t s).pending = s.pending := rfl
@[simp] theorem setPort_resetn (t : Option Transfer) (s : State) : (setPort t s).resetn = s.resetn := rfl
@[simp] theorem setPort_ports (t : Option Transfer) (s : State) : (setPort t s).ports = s.ports := rfl
@[simp] theorem setPort_play (t : Option Transfer) (s : State) : (setPort t s).play = s.play := rfl
@[simp] theorem setPort_tracker (t : Option Transfer) (s : State) : (setPort t s).tracker = s.tracker := rfl
@[simp] theorem setPort_router (t : Option Transfer) (s : State) : (setPort t s).router = s.router := rfl
@[simp] theorem setPort_banks (t : Option Transfer) (s : State) : (setPort t s).banks = s.banks := rfl
@[simp] theorem setPort_core (t : Option Transfer) (s : State) : (setPort t s).core = s.core := rfl
@[simp] theorem setPort_ctl (t : Option Transfer) (s : State) : (setPort t s).ctl = s.ctl := rfl
@[simp] theorem setPort_alloc (t : Option Transfer) (s : State) : (setPort t s).alloc = s.alloc := rfl
@[simp] theorem setPort_store (t : Option Transfer) (s : State) :
    (setPort t s).store = { s.store with port := t } := rfl
@[simp] theorem setPort_supp (t : Option Transfer) (s : State) : (setPort t s).supp = s.supp := rfl
@[simp] theorem setPort_out (t : Option Transfer) (s : State) : (setPort t s).out = s.out := rfl
@[simp] theorem setPort_cmd (t : Option Transfer) (s : State) : (setPort t s).cmd = s.cmd := rfl
@[simp] theorem setPort_ev (t : Option Transfer) (s : State) : (setPort t s).ev = s.ev := rfl
@[simp] theorem setPort_blk (t : Option Transfer) (s : State) : (setPort t s).blk = s.blk := rfl

/-! ### markCold -/

@[simp] theorem markCold_pending (sl : SlotId) (s : State) : (markCold sl s).pending = s.pending := rfl
@[simp] theorem markCold_resetn (sl : SlotId) (s : State) : (markCold sl s).resetn = s.resetn := rfl
@[simp] theorem markCold_ports (sl : SlotId) (s : State) : (markCold sl s).ports = s.ports := rfl
@[simp] theorem markCold_play (sl : SlotId) (s : State) : (markCold sl s).play = s.play := rfl
@[simp] theorem markCold_tracker (sl : SlotId) (s : State) : (markCold sl s).tracker = s.tracker := rfl
@[simp] theorem markCold_router (sl : SlotId) (s : State) : (markCold sl s).router = s.router := rfl
@[simp] theorem markCold_banks (sl : SlotId) (s : State) : (markCold sl s).banks = s.banks := rfl
@[simp] theorem markCold_core (sl : SlotId) (s : State) : (markCold sl s).core = s.core := rfl
@[simp] theorem markCold_ctl (sl : SlotId) (s : State) : (markCold sl s).ctl = s.ctl := rfl
@[simp] theorem markCold_alloc (sl : SlotId) (s : State) : (markCold sl s).alloc = s.alloc := rfl
@[simp] theorem markCold_store (sl : SlotId) (s : State) : (markCold sl s).store = s.store := rfl
@[simp] theorem markCold_supp (sl : SlotId) (s : State) : (markCold sl s).supp = s.supp := rfl
@[simp] theorem markCold_out (sl : SlotId) (s : State) : (markCold sl s).out = s.out := rfl
@[simp] theorem markCold_cmd (sl : SlotId) (s : State) : (markCold sl s).cmd = s.cmd := rfl
@[simp] theorem markCold_ev (sl : SlotId) (s : State) : (markCold sl s).ev = s.ev := rfl
@[simp] theorem markCold_blk (sl : SlotId) (s : State) :
    (markCold sl s).blk = { s.blk with cold := sl :: s.blk.cold } := rfl

/-! ### markRun -/

@[simp] theorem markRun_pending (sl : SlotId) (s : State) :
    (markRun sl s).pending = s.pending := rfl
@[simp] theorem markRun_resetn (sl : SlotId) (s : State) : (markRun sl s).resetn = s.resetn := rfl
@[simp] theorem markRun_ports (sl : SlotId) (s : State) : (markRun sl s).ports = s.ports := rfl
@[simp] theorem markRun_play (sl : SlotId) (s : State) : (markRun sl s).play = s.play := rfl
@[simp] theorem markRun_tracker (sl : SlotId) (s : State) :
    (markRun sl s).tracker = s.tracker := rfl
@[simp] theorem markRun_router (sl : SlotId) (s : State) : (markRun sl s).router = s.router := rfl
@[simp] theorem markRun_banks (sl : SlotId) (s : State) : (markRun sl s).banks = s.banks := rfl
@[simp] theorem markRun_core (sl : SlotId) (s : State) : (markRun sl s).core = s.core := rfl
@[simp] theorem markRun_ctl (sl : SlotId) (s : State) : (markRun sl s).ctl = s.ctl := rfl
@[simp] theorem markRun_alloc (sl : SlotId) (s : State) : (markRun sl s).alloc = s.alloc := rfl
@[simp] theorem markRun_store (sl : SlotId) (s : State) : (markRun sl s).store = s.store := rfl
@[simp] theorem markRun_supp (sl : SlotId) (s : State) : (markRun sl s).supp = s.supp := rfl
@[simp] theorem markRun_out (sl : SlotId) (s : State) : (markRun sl s).out = s.out := rfl
@[simp] theorem markRun_cmd (sl : SlotId) (s : State) : (markRun sl s).cmd = s.cmd := rfl
@[simp] theorem markRun_ev (sl : SlotId) (s : State) : (markRun sl s).ev = s.ev := rfl
@[simp] theorem markRun_blk (sl : SlotId) (s : State) :
    (markRun sl s).blk = { s.blk with runDone := sl :: s.blk.runDone } := rfl

/-! ### markReset -/

@[simp] theorem markReset_pending (sl : SlotId) (s : State) :
    (markReset sl s).pending = s.pending := rfl
@[simp] theorem markReset_resetn (sl : SlotId) (s : State) : (markReset sl s).resetn = s.resetn := rfl
@[simp] theorem markReset_ports (sl : SlotId) (s : State) : (markReset sl s).ports = s.ports := rfl
@[simp] theorem markReset_play (sl : SlotId) (s : State) : (markReset sl s).play = s.play := rfl
@[simp] theorem markReset_tracker (sl : SlotId) (s : State) :
    (markReset sl s).tracker = s.tracker := rfl
@[simp] theorem markReset_router (sl : SlotId) (s : State) : (markReset sl s).router = s.router := rfl
@[simp] theorem markReset_banks (sl : SlotId) (s : State) : (markReset sl s).banks = s.banks := rfl
@[simp] theorem markReset_core (sl : SlotId) (s : State) : (markReset sl s).core = s.core := rfl
@[simp] theorem markReset_ctl (sl : SlotId) (s : State) : (markReset sl s).ctl = s.ctl := rfl
@[simp] theorem markReset_alloc (sl : SlotId) (s : State) : (markReset sl s).alloc = s.alloc := rfl
@[simp] theorem markReset_store (sl : SlotId) (s : State) : (markReset sl s).store = s.store := rfl
@[simp] theorem markReset_supp (sl : SlotId) (s : State) : (markReset sl s).supp = s.supp := rfl
@[simp] theorem markReset_out (sl : SlotId) (s : State) : (markReset sl s).out = s.out := rfl
@[simp] theorem markReset_cmd (sl : SlotId) (s : State) : (markReset sl s).cmd = s.cmd := rfl
@[simp] theorem markReset_ev (sl : SlotId) (s : State) : (markReset sl s).ev = s.ev := rfl
@[simp] theorem markReset_blk (sl : SlotId) (s : State) :
    (markReset sl s).blk = { s.blk with resets := sl :: s.blk.resets } := rfl

/-! ### unmarkReset -/

@[simp] theorem unmarkReset_pending (sl : SlotId) (s : State) :
    (unmarkReset sl s).pending = s.pending := rfl
@[simp] theorem unmarkReset_resetn (sl : SlotId) (s : State) : (unmarkReset sl s).resetn = s.resetn := rfl
@[simp] theorem unmarkReset_ports (sl : SlotId) (s : State) : (unmarkReset sl s).ports = s.ports := rfl
@[simp] theorem unmarkReset_play (sl : SlotId) (s : State) : (unmarkReset sl s).play = s.play := rfl
@[simp] theorem unmarkReset_tracker (sl : SlotId) (s : State) :
    (unmarkReset sl s).tracker = s.tracker := rfl
@[simp] theorem unmarkReset_router (sl : SlotId) (s : State) : (unmarkReset sl s).router = s.router := rfl
@[simp] theorem unmarkReset_banks (sl : SlotId) (s : State) : (unmarkReset sl s).banks = s.banks := rfl
@[simp] theorem unmarkReset_core (sl : SlotId) (s : State) : (unmarkReset sl s).core = s.core := rfl
@[simp] theorem unmarkReset_ctl (sl : SlotId) (s : State) : (unmarkReset sl s).ctl = s.ctl := rfl
@[simp] theorem unmarkReset_alloc (sl : SlotId) (s : State) : (unmarkReset sl s).alloc = s.alloc := rfl
@[simp] theorem unmarkReset_store (sl : SlotId) (s : State) : (unmarkReset sl s).store = s.store := rfl
@[simp] theorem unmarkReset_supp (sl : SlotId) (s : State) : (unmarkReset sl s).supp = s.supp := rfl
@[simp] theorem unmarkReset_out (sl : SlotId) (s : State) : (unmarkReset sl s).out = s.out := rfl
@[simp] theorem unmarkReset_cmd (sl : SlotId) (s : State) : (unmarkReset sl s).cmd = s.cmd := rfl
@[simp] theorem unmarkReset_ev (sl : SlotId) (s : State) : (unmarkReset sl s).ev = s.ev := rfl
@[simp] theorem unmarkReset_blk (sl : SlotId) (s : State) :
    (unmarkReset sl s).blk = { s.blk with resets := s.blk.resets.filter (· ≠ sl) } := rfl

/-! ### markRose -/

@[simp] theorem markRose_pending (b : BeamId) (s : State) :
    (markRose b s).pending = s.pending := rfl
@[simp] theorem markRose_resetn (b : BeamId) (s : State) : (markRose b s).resetn = s.resetn := rfl
@[simp] theorem markRose_ports (b : BeamId) (s : State) : (markRose b s).ports = s.ports := rfl
@[simp] theorem markRose_play (b : BeamId) (s : State) : (markRose b s).play = s.play := rfl
@[simp] theorem markRose_tracker (b : BeamId) (s : State) :
    (markRose b s).tracker = s.tracker := rfl
@[simp] theorem markRose_router (b : BeamId) (s : State) : (markRose b s).router = s.router := rfl
@[simp] theorem markRose_banks (b : BeamId) (s : State) : (markRose b s).banks = s.banks := rfl
@[simp] theorem markRose_core (b : BeamId) (s : State) : (markRose b s).core = s.core := rfl
@[simp] theorem markRose_ctl (b : BeamId) (s : State) : (markRose b s).ctl = s.ctl := rfl
@[simp] theorem markRose_alloc (b : BeamId) (s : State) : (markRose b s).alloc = s.alloc := rfl
@[simp] theorem markRose_store (b : BeamId) (s : State) : (markRose b s).store = s.store := rfl
@[simp] theorem markRose_supp (b : BeamId) (s : State) : (markRose b s).supp = s.supp := rfl
@[simp] theorem markRose_out (b : BeamId) (s : State) : (markRose b s).out = s.out := rfl
@[simp] theorem markRose_cmd (b : BeamId) (s : State) : (markRose b s).cmd = s.cmd := rfl
@[simp] theorem markRose_ev (b : BeamId) (s : State) : (markRose b s).ev = s.ev := rfl
@[simp] theorem markRose_blk (b : BeamId) (s : State) :
    (markRose b s).blk = { s.blk with rose := b :: s.blk.rose } := rfl

/-! ### markDiverged -/

@[simp] theorem markDiverged_pending (b : BeamId) (s : State) :
    (markDiverged b s).pending = s.pending := rfl
@[simp] theorem markDiverged_resetn (b : BeamId) (s : State) :
    (markDiverged b s).resetn = s.resetn := rfl
@[simp] theorem markDiverged_ports (b : BeamId) (s : State) :
    (markDiverged b s).ports = s.ports := rfl
@[simp] theorem markDiverged_play (b : BeamId) (s : State) : (markDiverged b s).play = s.play := rfl
@[simp] theorem markDiverged_tracker (b : BeamId) (s : State) :
    (markDiverged b s).tracker = s.tracker := rfl
@[simp] theorem markDiverged_router (b : BeamId) (s : State) :
    (markDiverged b s).router = s.router := rfl
@[simp] theorem markDiverged_banks (b : BeamId) (s : State) :
    (markDiverged b s).banks = s.banks := rfl
@[simp] theorem markDiverged_core (b : BeamId) (s : State) : (markDiverged b s).core = s.core := rfl
@[simp] theorem markDiverged_ctl (b : BeamId) (s : State) : (markDiverged b s).ctl = s.ctl := rfl
@[simp] theorem markDiverged_alloc (b : BeamId) (s : State) :
    (markDiverged b s).alloc = s.alloc := rfl
@[simp] theorem markDiverged_store (b : BeamId) (s : State) :
    (markDiverged b s).store = s.store := rfl
@[simp] theorem markDiverged_supp (b : BeamId) (s : State) : (markDiverged b s).supp = s.supp := rfl
@[simp] theorem markDiverged_out (b : BeamId) (s : State) : (markDiverged b s).out = s.out := rfl
@[simp] theorem markDiverged_cmd (b : BeamId) (s : State) : (markDiverged b s).cmd = s.cmd := rfl
@[simp] theorem markDiverged_ev (b : BeamId) (s : State) : (markDiverged b s).ev = s.ev := rfl
@[simp] theorem markDiverged_blk (b : BeamId) (s : State) :
    (markDiverged b s).blk = { s.blk with diverged := b :: s.blk.diverged } := rfl

/-! ### updateHold -/

@[simp] theorem updateHold_pending (s : State) : (updateHold s).pending = s.pending := rfl
@[simp] theorem updateHold_resetn (s : State) : (updateHold s).resetn = s.resetn := rfl
@[simp] theorem updateHold_ports (s : State) : (updateHold s).ports = s.ports := rfl
@[simp] theorem updateHold_play (s : State) : (updateHold s).play = s.play := rfl
@[simp] theorem updateHold_tracker (s : State) : (updateHold s).tracker = s.tracker := rfl
@[simp] theorem updateHold_router (s : State) : (updateHold s).router = s.router := rfl
@[simp] theorem updateHold_banks (s : State) : (updateHold s).banks = s.banks := rfl
@[simp] theorem updateHold_core (s : State) : (updateHold s).core = s.core := rfl
@[simp] theorem updateHold_ctl (s : State) : (updateHold s).ctl = s.ctl := rfl
@[simp] theorem updateHold_alloc (s : State) : (updateHold s).alloc = s.alloc := rfl
@[simp] theorem updateHold_store (s : State) : (updateHold s).store = s.store := rfl
@[simp] theorem updateHold_supp (s : State) : (updateHold s).supp = s.supp := rfl
@[simp] theorem updateHold_out (s : State) : (updateHold s).out = s.out := rfl
@[simp] theorem updateHold_cmd (s : State) :
    (updateHold s).cmd = { s.cmd with hold := holdAfter s.cmd.hold s.cmd.queue.length (holdTrigger s.cmd.tuning) } := rfl
@[simp] theorem updateHold_ev (s : State) : (updateHold s).ev = s.ev := rfl
@[simp] theorem updateHold_blk (s : State) : (updateHold s).blk = s.blk := rfl

/-! ### setSets -/

@[simp] theorem setSets_pending (x : Vector StoreSet 128) (s : State) : (setSets x s).pending = s.pending := rfl
@[simp] theorem setSets_resetn (x : Vector StoreSet 128) (s : State) : (setSets x s).resetn = s.resetn := rfl
@[simp] theorem setSets_ports (x : Vector StoreSet 128) (s : State) : (setSets x s).ports = s.ports := rfl
@[simp] theorem setSets_play (x : Vector StoreSet 128) (s : State) : (setSets x s).play = s.play := rfl
@[simp] theorem setSets_tracker (x : Vector StoreSet 128) (s : State) : (setSets x s).tracker = s.tracker := rfl
@[simp] theorem setSets_router (x : Vector StoreSet 128) (s : State) : (setSets x s).router = s.router := rfl
@[simp] theorem setSets_banks (x : Vector StoreSet 128) (s : State) : (setSets x s).banks = s.banks := rfl
@[simp] theorem setSets_core (x : Vector StoreSet 128) (s : State) : (setSets x s).core = s.core := rfl
@[simp] theorem setSets_ctl (x : Vector StoreSet 128) (s : State) : (setSets x s).ctl = s.ctl := rfl
@[simp] theorem setSets_alloc (x : Vector StoreSet 128) (s : State) : (setSets x s).alloc = s.alloc := rfl
@[simp] theorem setSets_store (x : Vector StoreSet 128) (s : State) :
    (setSets x s).store = { s.store with sets := x } := rfl
@[simp] theorem setSets_supp (x : Vector StoreSet 128) (s : State) : (setSets x s).supp = s.supp := rfl
@[simp] theorem setSets_out (x : Vector StoreSet 128) (s : State) : (setSets x s).out = s.out := rfl
@[simp] theorem setSets_cmd (x : Vector StoreSet 128) (s : State) : (setSets x s).cmd = s.cmd := rfl
@[simp] theorem setSets_ev (x : Vector StoreSet 128) (s : State) : (setSets x s).ev = s.ev := rfl
@[simp] theorem setSets_blk (x : Vector StoreSet 128) (s : State) : (setSets x s).blk = s.blk := rfl

/-! ### setHost -/

@[simp] theorem setHost_pending (h : Option HostWait) (s : State) : (setHost h s).pending = s.pending := rfl
@[simp] theorem setHost_resetn (h : Option HostWait) (s : State) : (setHost h s).resetn = s.resetn := rfl
@[simp] theorem setHost_ports (h : Option HostWait) (s : State) : (setHost h s).ports = s.ports := rfl
@[simp] theorem setHost_play (h : Option HostWait) (s : State) : (setHost h s).play = s.play := rfl
@[simp] theorem setHost_tracker (h : Option HostWait) (s : State) : (setHost h s).tracker = s.tracker := rfl
@[simp] theorem setHost_router (h : Option HostWait) (s : State) : (setHost h s).router = s.router := rfl
@[simp] theorem setHost_banks (h : Option HostWait) (s : State) : (setHost h s).banks = s.banks := rfl
@[simp] theorem setHost_core (h : Option HostWait) (s : State) : (setHost h s).core = s.core := rfl
@[simp] theorem setHost_ctl (h : Option HostWait) (s : State) : (setHost h s).ctl = s.ctl := rfl
@[simp] theorem setHost_alloc (h : Option HostWait) (s : State) : (setHost h s).alloc = s.alloc := rfl
@[simp] theorem setHost_store (h : Option HostWait) (s : State) :
    (setHost h s).store = { s.store with host := h } := rfl
@[simp] theorem setHost_supp (h : Option HostWait) (s : State) : (setHost h s).supp = s.supp := rfl
@[simp] theorem setHost_out (h : Option HostWait) (s : State) : (setHost h s).out = s.out := rfl
@[simp] theorem setHost_cmd (h : Option HostWait) (s : State) : (setHost h s).cmd = s.cmd := rfl
@[simp] theorem setHost_ev (h : Option HostWait) (s : State) : (setHost h s).ev = s.ev := rfl
@[simp] theorem setHost_blk (h : Option HostWait) (s : State) : (setHost h s).blk = s.blk := rfl

/-! ### setErrors -/

@[simp] theorem setErrors_pending (n : Nat) (s : State) : (setErrors n s).pending = s.pending := rfl
@[simp] theorem setErrors_resetn (n : Nat) (s : State) : (setErrors n s).resetn = s.resetn := rfl
@[simp] theorem setErrors_ports (n : Nat) (s : State) : (setErrors n s).ports = s.ports := rfl
@[simp] theorem setErrors_play (n : Nat) (s : State) : (setErrors n s).play = s.play := rfl
@[simp] theorem setErrors_tracker (n : Nat) (s : State) : (setErrors n s).tracker = s.tracker := rfl
@[simp] theorem setErrors_router (n : Nat) (s : State) : (setErrors n s).router = s.router := rfl
@[simp] theorem setErrors_banks (n : Nat) (s : State) : (setErrors n s).banks = s.banks := rfl
@[simp] theorem setErrors_core (n : Nat) (s : State) : (setErrors n s).core = s.core := rfl
@[simp] theorem setErrors_ctl (n : Nat) (s : State) : (setErrors n s).ctl = s.ctl := rfl
@[simp] theorem setErrors_alloc (n : Nat) (s : State) : (setErrors n s).alloc = s.alloc := rfl
@[simp] theorem setErrors_store (n : Nat) (s : State) :
    (setErrors n s).store = { s.store with errors := n } := rfl
@[simp] theorem setErrors_supp (n : Nat) (s : State) : (setErrors n s).supp = s.supp := rfl
@[simp] theorem setErrors_out (n : Nat) (s : State) : (setErrors n s).out = s.out := rfl
@[simp] theorem setErrors_cmd (n : Nat) (s : State) : (setErrors n s).cmd = s.cmd := rfl
@[simp] theorem setErrors_ev (n : Nat) (s : State) : (setErrors n s).ev = s.ev := rfl
@[simp] theorem setErrors_blk (n : Nat) (s : State) : (setErrors n s).blk = s.blk := rfl

/-! ### setEnabled -/

@[simp] theorem setEnabled_pending (on : Bool) (s : State) : (setEnabled on s).pending = s.pending := rfl
@[simp] theorem setEnabled_resetn (on : Bool) (s : State) : (setEnabled on s).resetn = s.resetn := rfl
@[simp] theorem setEnabled_ports (on : Bool) (s : State) : (setEnabled on s).ports = s.ports := rfl
@[simp] theorem setEnabled_play (on : Bool) (s : State) : (setEnabled on s).play = s.play := rfl
@[simp] theorem setEnabled_tracker (on : Bool) (s : State) : (setEnabled on s).tracker = s.tracker := rfl
@[simp] theorem setEnabled_router (on : Bool) (s : State) : (setEnabled on s).router = s.router := rfl
@[simp] theorem setEnabled_banks (on : Bool) (s : State) : (setEnabled on s).banks = s.banks := rfl
@[simp] theorem setEnabled_core (on : Bool) (s : State) : (setEnabled on s).core = s.core := rfl
@[simp] theorem setEnabled_ctl (on : Bool) (s : State) : (setEnabled on s).ctl = s.ctl := rfl
@[simp] theorem setEnabled_alloc (on : Bool) (s : State) : (setEnabled on s).alloc = s.alloc := rfl
@[simp] theorem setEnabled_store (on : Bool) (s : State) :
    (setEnabled on s).store = { s.store with enabled := on } := rfl
@[simp] theorem setEnabled_supp (on : Bool) (s : State) : (setEnabled on s).supp = s.supp := rfl
@[simp] theorem setEnabled_out (on : Bool) (s : State) : (setEnabled on s).out = s.out := rfl
@[simp] theorem setEnabled_cmd (on : Bool) (s : State) : (setEnabled on s).cmd = s.cmd := rfl
@[simp] theorem setEnabled_ev (on : Bool) (s : State) : (setEnabled on s).ev = s.ev := rfl
@[simp] theorem setEnabled_blk (on : Bool) (s : State) : (setEnabled on s).blk = s.blk := rfl

/-! ### setFirstError -/

@[simp] theorem setFirstError_pending (e : Option FirstError) (s : State) : (setFirstError e s).pending = s.pending := rfl
@[simp] theorem setFirstError_resetn (e : Option FirstError) (s : State) : (setFirstError e s).resetn = s.resetn := rfl
@[simp] theorem setFirstError_ports (e : Option FirstError) (s : State) : (setFirstError e s).ports = s.ports := rfl
@[simp] theorem setFirstError_play (e : Option FirstError) (s : State) : (setFirstError e s).play = s.play := rfl
@[simp] theorem setFirstError_tracker (e : Option FirstError) (s : State) : (setFirstError e s).tracker = s.tracker := rfl
@[simp] theorem setFirstError_router (e : Option FirstError) (s : State) : (setFirstError e s).router = s.router := rfl
@[simp] theorem setFirstError_banks (e : Option FirstError) (s : State) : (setFirstError e s).banks = s.banks := rfl
@[simp] theorem setFirstError_core (e : Option FirstError) (s : State) : (setFirstError e s).core = s.core := rfl
@[simp] theorem setFirstError_ctl (e : Option FirstError) (s : State) : (setFirstError e s).ctl = s.ctl := rfl
@[simp] theorem setFirstError_alloc (e : Option FirstError) (s : State) : (setFirstError e s).alloc = s.alloc := rfl
@[simp] theorem setFirstError_store (e : Option FirstError) (s : State) :
    (setFirstError e s).store = { s.store with firstError := e } := rfl
@[simp] theorem setFirstError_supp (e : Option FirstError) (s : State) : (setFirstError e s).supp = s.supp := rfl
@[simp] theorem setFirstError_out (e : Option FirstError) (s : State) : (setFirstError e s).out = s.out := rfl
@[simp] theorem setFirstError_cmd (e : Option FirstError) (s : State) : (setFirstError e s).cmd = s.cmd := rfl
@[simp] theorem setFirstError_ev (e : Option FirstError) (s : State) : (setFirstError e s).ev = s.ev := rfl
@[simp] theorem setFirstError_blk (e : Option FirstError) (s : State) : (setFirstError e s).blk = s.blk := rfl

/-! ### setWritten -/

@[simp] theorem setWritten_pending (w : BitVec 64) (s : State) : (setWritten w s).pending = s.pending := rfl
@[simp] theorem setWritten_resetn (w : BitVec 64) (s : State) : (setWritten w s).resetn = s.resetn := rfl
@[simp] theorem setWritten_ports (w : BitVec 64) (s : State) : (setWritten w s).ports = s.ports := rfl
@[simp] theorem setWritten_play (w : BitVec 64) (s : State) : (setWritten w s).play = s.play := rfl
@[simp] theorem setWritten_tracker (w : BitVec 64) (s : State) : (setWritten w s).tracker = s.tracker := rfl
@[simp] theorem setWritten_router (w : BitVec 64) (s : State) : (setWritten w s).router = s.router := rfl
@[simp] theorem setWritten_banks (w : BitVec 64) (s : State) : (setWritten w s).banks = s.banks := rfl
@[simp] theorem setWritten_core (w : BitVec 64) (s : State) : (setWritten w s).core = s.core := rfl
@[simp] theorem setWritten_ctl (w : BitVec 64) (s : State) : (setWritten w s).ctl = s.ctl := rfl
@[simp] theorem setWritten_alloc (w : BitVec 64) (s : State) : (setWritten w s).alloc = s.alloc := rfl
@[simp] theorem setWritten_store (w : BitVec 64) (s : State) : (setWritten w s).store = s.store := rfl
@[simp] theorem setWritten_supp (w : BitVec 64) (s : State) : (setWritten w s).supp = s.supp := rfl
@[simp] theorem setWritten_out (w : BitVec 64) (s : State) : (setWritten w s).out = s.out := rfl
@[simp] theorem setWritten_cmd (w : BitVec 64) (s : State) :
    (setWritten w s).cmd = { s.cmd with loadWritten := w } := rfl
@[simp] theorem setWritten_ev (w : BitVec 64) (s : State) : (setWritten w s).ev = s.ev := rfl
@[simp] theorem setWritten_blk (w : BitVec 64) (s : State) : (setWritten w s).blk = s.blk := rfl

/-! ### setEntry and setLru -/

@[simp] theorem setEntry_pending (p : SetId) (w : WayId) (e : Entry) (s : State) : (setEntry p w e s).pending = s.pending := rfl
@[simp] theorem setEntry_resetn (p : SetId) (w : WayId) (e : Entry) (s : State) : (setEntry p w e s).resetn = s.resetn := rfl
@[simp] theorem setEntry_ports (p : SetId) (w : WayId) (e : Entry) (s : State) : (setEntry p w e s).ports = s.ports := rfl
@[simp] theorem setEntry_play (p : SetId) (w : WayId) (e : Entry) (s : State) : (setEntry p w e s).play = s.play := rfl
@[simp] theorem setEntry_tracker (p : SetId) (w : WayId) (e : Entry) (s : State) : (setEntry p w e s).tracker = s.tracker := rfl
@[simp] theorem setEntry_router (p : SetId) (w : WayId) (e : Entry) (s : State) : (setEntry p w e s).router = s.router := rfl
@[simp] theorem setEntry_banks (p : SetId) (w : WayId) (e : Entry) (s : State) : (setEntry p w e s).banks = s.banks := rfl
@[simp] theorem setEntry_core (p : SetId) (w : WayId) (e : Entry) (s : State) : (setEntry p w e s).core = s.core := rfl
@[simp] theorem setEntry_ctl (p : SetId) (w : WayId) (e : Entry) (s : State) : (setEntry p w e s).ctl = s.ctl := rfl
@[simp] theorem setEntry_alloc (p : SetId) (w : WayId) (e : Entry) (s : State) : (setEntry p w e s).alloc = s.alloc := rfl
@[simp] theorem setEntry_supp (p : SetId) (w : WayId) (e : Entry) (s : State) : (setEntry p w e s).supp = s.supp := rfl
@[simp] theorem setEntry_out (p : SetId) (w : WayId) (e : Entry) (s : State) : (setEntry p w e s).out = s.out := rfl
@[simp] theorem setEntry_cmd (p : SetId) (w : WayId) (e : Entry) (s : State) : (setEntry p w e s).cmd = s.cmd := rfl
@[simp] theorem setEntry_ev (p : SetId) (w : WayId) (e : Entry) (s : State) : (setEntry p w e s).ev = s.ev := rfl
@[simp] theorem setEntry_blk (p : SetId) (w : WayId) (e : Entry) (s : State) : (setEntry p w e s).blk = s.blk := rfl
@[simp] theorem setLru_pending (p : SetId) (w : WayId) (s : State) : (setLru p w s).pending = s.pending := rfl
@[simp] theorem setLru_resetn (p : SetId) (w : WayId) (s : State) : (setLru p w s).resetn = s.resetn := rfl
@[simp] theorem setLru_ports (p : SetId) (w : WayId) (s : State) : (setLru p w s).ports = s.ports := rfl
@[simp] theorem setLru_play (p : SetId) (w : WayId) (s : State) : (setLru p w s).play = s.play := rfl
@[simp] theorem setLru_tracker (p : SetId) (w : WayId) (s : State) : (setLru p w s).tracker = s.tracker := rfl
@[simp] theorem setLru_router (p : SetId) (w : WayId) (s : State) : (setLru p w s).router = s.router := rfl
@[simp] theorem setLru_banks (p : SetId) (w : WayId) (s : State) : (setLru p w s).banks = s.banks := rfl
@[simp] theorem setLru_core (p : SetId) (w : WayId) (s : State) : (setLru p w s).core = s.core := rfl
@[simp] theorem setLru_ctl (p : SetId) (w : WayId) (s : State) : (setLru p w s).ctl = s.ctl := rfl
@[simp] theorem setLru_alloc (p : SetId) (w : WayId) (s : State) : (setLru p w s).alloc = s.alloc := rfl
@[simp] theorem setLru_supp (p : SetId) (w : WayId) (s : State) : (setLru p w s).supp = s.supp := rfl
@[simp] theorem setLru_out (p : SetId) (w : WayId) (s : State) : (setLru p w s).out = s.out := rfl
@[simp] theorem setLru_cmd (p : SetId) (w : WayId) (s : State) : (setLru p w s).cmd = s.cmd := rfl
@[simp] theorem setLru_ev (p : SetId) (w : WayId) (s : State) : (setLru p w s).ev = s.ev := rfl
@[simp] theorem setLru_blk (p : SetId) (w : WayId) (s : State) : (setLru p w s).blk = s.blk := rfl

@[simp] theorem setEntry_store (p : SetId) (w : WayId) (e : Entry) (s : State) :
    (setEntry p w e s).store = { s.store with
      sets := s.store.sets.set p { s.store.sets[p] with ways := s.store.sets[p].ways.set w e } } := rfl
@[simp] theorem setLru_store (p : SetId) (w : WayId) (s : State) :
    (setLru p w s).store = { s.store with
      sets := s.store.sets.set p { s.store.sets[p] with lru := w } } := rfl

/-! ### setClocks -/

@[simp] theorem setClocks_pending (c : ClockPin) (s : State) : (setClocks c s).pending = s.pending := rfl
@[simp] theorem setClocks_resetn (c : ClockPin) (s : State) : (setClocks c s).resetn = s.resetn := rfl
@[simp] theorem setClocks_play (c : ClockPin) (s : State) : (setClocks c s).play = s.play := rfl
@[simp] theorem setClocks_tracker (c : ClockPin) (s : State) : (setClocks c s).tracker = s.tracker := rfl
@[simp] theorem setClocks_router (c : ClockPin) (s : State) : (setClocks c s).router = s.router := rfl
@[simp] theorem setClocks_banks (c : ClockPin) (s : State) : (setClocks c s).banks = s.banks := rfl
@[simp] theorem setClocks_core (c : ClockPin) (s : State) : (setClocks c s).core = s.core := rfl
@[simp] theorem setClocks_ctl (c : ClockPin) (s : State) : (setClocks c s).ctl = s.ctl := rfl
@[simp] theorem setClocks_alloc (c : ClockPin) (s : State) : (setClocks c s).alloc = s.alloc := rfl
@[simp] theorem setClocks_store (c : ClockPin) (s : State) : (setClocks c s).store = s.store := rfl
@[simp] theorem setClocks_supp (c : ClockPin) (s : State) : (setClocks c s).supp = s.supp := rfl
@[simp] theorem setClocks_out (c : ClockPin) (s : State) : (setClocks c s).out = s.out := rfl
@[simp] theorem setClocks_cmd (c : ClockPin) (s : State) : (setClocks c s).cmd = s.cmd := rfl
@[simp] theorem setClocks_ev (c : ClockPin) (s : State) : (setClocks c s).ev = s.ev := rfl
@[simp] theorem setClocks_blk (c : ClockPin) (s : State) : (setClocks c s).blk = s.blk := rfl
@[simp] theorem setClocks_ports (c : ClockPin) (s : State) :
    (setClocks c s).ports = { s.ports with abck := c, cbck := c } := rfl

end Sys2Proof.Machine
end

