-- ==== Sys2Proof/Laws/Frames.lean ====
section
/-! SUPPORT. What the shared operations of the pool and the store leave unchanged: `PoolFrame s t` says that
t differs from s at most in the pool, the slots' coefficients and records, the Controller's records, the
boundary's notes, the store, the event records, and the reply queue with the unit's state. One lemma per
operation; the relation composes. -/

namespace Sys2Proof.Machine

/-- What every operation of the Pair Allocator and the Snapshot Store leaves unchanged. -/
structure PoolFrame (s t : State) : Prop where
  pending : t.pending = s.pending
  resetn : t.resetn = s.resetn
  ports : t.ports = s.ports
  play : t.play = s.play
  tracker : t.tracker = s.tracker
  router : t.router = s.router
  banks : t.banks = s.banks
  supp : t.supp = s.supp
  out : t.out = s.out
  cmd : t.cmd = { s.cmd with
    state := t.cmd.state, replies := t.cmd.replies, loadWritten := t.cmd.loadWritten }
  core : t.core = { s.core with mem := t.core.mem, slots := t.core.slots }
  mask : t.alloc.mask = s.alloc.mask
  thresholds : t.ctl.thresholds = s.ctl.thresholds
  evMask : t.ev.mask = s.ev.mask
  evMode : t.ev.mode = s.ev.mode
  blk : t.blk = { s.blk with
    phaseSet := t.blk.phaseSet, runSet := t.blk.runSet, resets := t.blk.resets
    diverged := t.blk.diverged, cold := t.blk.cold }

theorem PoolFrame.refl (s : State) : PoolFrame s s := by constructor <;> rfl

theorem PoolFrame.trans {s t u : State} (h : PoolFrame s t) (k : PoolFrame t u) : PoolFrame s u := by
  constructor
  · rw [k.pending, h.pending]
  · rw [k.resetn, h.resetn]
  · rw [k.ports, h.ports]
  · rw [k.play, h.play]
  · rw [k.tracker, h.tracker]
  · rw [k.router, h.router]
  · rw [k.banks, h.banks]
  · rw [k.supp, h.supp]
  · rw [k.out, h.out]
  · rw [k.cmd, h.cmd]
  · rw [k.core, h.core]
  · rw [k.mask, h.mask]
  · rw [k.thresholds, h.thresholds]
  · rw [k.evMask, h.evMask]
  · rw [k.evMode, h.evMode]
  · rw [k.blk, h.blk]

/-- A fold of operations that keep the frame keeps it. -/
theorem PoolFrame.foldl {α : Type} (f : State → α → State) (h : ∀ s x, PoolFrame s (f s x))
    (l : List α) (s : State) : PoolFrame s (l.foldl f s) := by
  induction l generalizing s with
  | nil => exact PoolFrame.refl s
  | cons x l ih => exact (h s x).trans (ih _)

/-! ### Setters -/

theorem setSlotState_frame (sl : SlotId) (st : SlotState) (s : State) :
    PoolFrame s (setSlotState sl st s) := by constructor <;> rfl
theorem setPair_frame (p : PairId) (e : PairEntry) (s : State) : PoolFrame s (setPair p e s) := by
  constructor <;> rfl
theorem setWaiting_frame (w : List PairId) (s : State) : PoolFrame s (setWaiting w s) := by
  constructor <;> rfl
theorem setCoreSlot_frame (sl : SlotId) (x : CoreSlot) (s : State) :
    PoolFrame s (setCoreSlot sl x s) := by constructor <;> rfl
theorem setMem_frame (m : TapMem) (s : State) : PoolFrame s (setMem m s) := by constructor <;> rfl
theorem setCtlSlot_frame (sl : SlotId) (x : CtlSlot) (s : State) : PoolFrame s (setCtlSlot sl x s) := by
  constructor <;> rfl
theorem setCtlBeam_frame (b : BeamId) (x : CtlBeam) (s : State) : PoolFrame s (setCtlBeam b x s) := by
  constructor <;> rfl
theorem setFills_frame (q : List FillReq) (s : State) : PoolFrame s (setFills q s) := by
  constructor <;> rfl
theorem setCaptures_frame (q : List CaptureRec) (s : State) : PoolFrame s (setCaptures q s) := by
  constructor <;> rfl
theorem setSet_frame (p : SetId) (x : StoreSet) (s : State) : PoolFrame s (setSet p x s) := by
  constructor <;> rfl
theorem setEntry_frame (p : SetId) (w : WayId) (e : Entry) (s : State) :
    PoolFrame s (setEntry p w e s) := by constructor <;> rfl
theorem setLru_frame (p : SetId) (w : WayId) (s : State) : PoolFrame s (setLru p w s) := by
  constructor <;> rfl
theorem setPort_frame (t : Option Transfer) (s : State) : PoolFrame s (setPort t s) := by
  constructor <;> rfl
theorem setSets_frame (x : Vector StoreSet 128) (s : State) : PoolFrame s (setSets x s) := by
  constructor <;> rfl
theorem setHost_frame (h : Option HostWait) (s : State) : PoolFrame s (setHost h s) := by
  constructor <;> rfl
theorem setErrors_frame (n : Nat) (s : State) : PoolFrame s (setErrors n s) := by
  constructor <;> rfl
theorem setEnabled_frame (on : Bool) (s : State) : PoolFrame s (setEnabled on s) := by
  constructor <;> rfl
theorem setFirstError_frame (e : Option FirstError) (s : State) : PoolFrame s (setFirstError e s) := by
  constructor <;> rfl
theorem setWritten_frame (w : BitVec 64) (s : State) : PoolFrame s (setWritten w s) := by
  constructor <;> rfl
theorem markCold_frame (sl : SlotId) (s : State) : PoolFrame s (markCold sl s) := by
  constructor <;> rfl
theorem markReset_frame (sl : SlotId) (s : State) : PoolFrame s (markReset sl s) := by
  constructor <;> rfl
theorem unmarkReset_frame (sl : SlotId) (s : State) : PoolFrame s (unmarkReset sl s) := by
  constructor <;> rfl
theorem markDiverged_frame (b : BeamId) (s : State) : PoolFrame s (markDiverged b s) := by
  constructor <;> rfl
theorem setPhaseRun_frame (sl : SlotId) (ph : Phase) (s : State) :
    PoolFrame s (setPhaseRun sl ph s) := by constructor <;> rfl
theorem setPhaseKeepRun_frame (sl : SlotId) (ph : Phase) (s : State) :
    PoolFrame s (setPhaseKeepRun sl ph s) := by constructor <;> rfl
theorem zeroSlot_frame (sl : SlotId) (s : State) : PoolFrame s (zeroSlot sl s) := by
  constructor <;> rfl
theorem raiseTicket_frame (sl : SlotId) (s : State) : PoolFrame s (raiseTicket sl s) := by
  constructor <;> rfl

/-! ### Events and replies -/

theorem appendNotice_frame (s : State) : PoolFrame s (appendNotice s) := by
  unfold appendNotice; split <;> constructor <;> rfl

theorem reportSource_frame (src : Source) (s : State) : PoolFrame s (reportSource src s) := by
  unfold reportSource
  have h : PoolFrame s { s with ev := { s.ev with
    status := setInsert s.ev.status (sourceBit src) } } := by constructor <;> rfl
  dsimp only
  split
  · exact h.trans (appendNotice_frame _)
  · exact h

theorem reportDiverged_frame (b : BeamId) (s : State) : PoolFrame s (reportDiverged b s) := by
  have h : PoolFrame s { s with ev := { s.ev with diverged := setInsert s.ev.diverged b.val } } := by
    constructor <;> rfl
  exact h.trans (reportSource_frame _ _)

theorem reportDegraded_frame (b : BeamId) (s : State) : PoolFrame s (reportDegraded b s) := by
  have h : PoolFrame s { s with ev := { s.ev with degraded := setInsert s.ev.degraded b.val } } := by
    constructor <;> rfl
  exact h.trans (reportSource_frame _ _)

theorem reportMsgError_frame (c : MsgCause) (s : State) : PoolFrame s (reportMsgError c s) := by
  have h : PoolFrame s { s with ev := { s.ev with causes := setInsert s.ev.causes (causeBit c) } } := by
    constructor <;> rfl
  exact h.trans (reportSource_frame _ _)

theorem completeReply_frame (r : Msg) (s : State) : PoolFrame s (completeReply r s) := by
  unfold completeReply; split <;> constructor <;> rfl

/-! ### Lookups, assignment, release -/

theorem pushFill_frame (sl : SlotId) (p : SetId) (tag : Nat) (s : State) :
    PoolFrame s (pushFill sl p tag s) := setFills_frame _ s

theorem lookup_frame (sl : SlotId) (p : SetId) (tag : Nat) (s : State) :
    PoolFrame s (lookup sl p tag s) := by
  unfold lookup; split
  · exact pushFill_frame _ _ _ _
  · exact PoolFrame.refl s

theorem coldSlot_frame (sl : SlotId) (s : State) : PoolFrame s (coldSlot sl s) :=
  ((zeroSlot_frame sl s).trans (raiseTicket_frame sl _)).trans
    ((setCoreSlot_frame sl _ _).trans
      ((setPhaseRun_frame sl .warmup _).trans (markCold_frame sl _)))

theorem clearClamped_frame (sl : SlotId) (s : State) : PoolFrame s (clearClamped sl s) :=
  setCoreSlot_frame sl _ s

theorem assignSlot_frame (sl : SlotId) (p : PairId) (s : State) : PoolFrame s (assignSlot sl p s) :=
  ((setSlotState_frame sl _ s).trans (setPair_frame p _ _)).trans
    ((coldSlot_frame sl _).trans ((clearClamped_frame sl _).trans
      ((unmarkReset_frame sl _).trans (lookup_frame sl p _ _))))

theorem giveToWaiter_frame (sl : SlotId) (s : State) : PoolFrame s (giveToWaiter sl s) := by
  unfold giveToWaiter; split
  · exact PoolFrame.refl s
  · exact (setWaiting_frame _ s).trans (assignSlot_frame sl _ _)

theorem freeSlot_frame (sl : SlotId) (p : PairId) (s : State) : PoolFrame s (freeSlot sl p s) :=
  ((setPair_frame p _ s).trans (setSlotState_frame sl _ _)).trans (giveToWaiter_frame sl _)

theorem pushCapture_frame (sl : SlotId) (p : SetId) (tag q : Nat) (s : State) :
    PoolFrame s (pushCapture sl p tag q s) := setCaptures_frame _ s

theorem releaseSlot_frame (sl : SlotId) (p : PairId) (s : State) :
    PoolFrame s (releaseSlot sl p s) := by
  unfold releaseSlot; dsimp only; split
  · split
    · exact ((raiseTicket_frame sl s).trans (pushCapture_frame _ _ _ _ _)).trans
        (freeSlot_frame _ _ _)
    · exact (raiseTicket_frame sl s).trans (setSlotState_frame _ _ _)
  · exact (raiseTicket_frame sl s).trans (freeSlot_frame _ _ _)

theorem roomReport_frame (s : State) : PoolFrame s (roomReport s) := by
  unfold roomReport; split
  · split
    · exact (pushCapture_frame _ _ _ _ s).trans (freeSlot_frame _ _ _)
    · exact PoolFrame.refl s
  · exact PoolFrame.refl s

theorem roomReports_frame (n : Nat) (s : State) : PoolFrame s (roomReports n s) :=
  PoolFrame.foldl _ (fun s _ => roomReport_frame s) _ s

theorem freeDraining_frame (which : SetId → Bool) (s : State) :
    PoolFrame s (freeDraining which s) := by
  refine PoolFrame.foldl _ (fun s sl => ?_) _ s
  split
  · split
    · exact freeSlot_frame _ _ _
    · exact PoolFrame.refl s
  · exact PoolFrame.refl s
  · exact PoolFrame.refl s

theorem captureOrDrop_frame (sl : SlotId) (p : PairId) (tag : Nat) (s : State) :
    PoolFrame s (captureOrDrop sl p tag s) := by
  unfold captureOrDrop; split
  · split
    · exact pushCapture_frame _ _ _ _ s
    · exact reportSource_frame _ s
  · exact PoolFrame.refl s

theorem preemptSlot_frame (sl : SlotId) (q : PairId) (s : State) :
    PoolFrame s (preemptSlot sl q s) :=
  ((captureOrDrop_frame sl q _ s).trans (raiseTicket_frame sl _)).trans
    (((setPair_frame q _ _).trans (setSlotState_frame sl _ _)).trans
      ((setWaiting_frame _ _).trans (giveToWaiter_frame sl _)))

theorem leaveWait_frame (p : PairId) (s : State) : PoolFrame s (leaveWait p s) :=
  (setWaiting_frame _ s).trans (setPair_frame p _ _)

theorem unwantPair_frame (p : PairId) (s : State) : PoolFrame s (unwantPair p s) := by
  unfold unwantPair; split
  · exact PoolFrame.refl s
  · exact leaveWait_frame p s
  · split
    · exact releaseSlot_frame _ _ s
    · exact PoolFrame.refl s
    · exact PoolFrame.refl s

theorem joinWait_frame (p : PairId) (s : State) : PoolFrame s (joinWait p s) := by
  unfold joinWait; dsimp only
  have h : PoolFrame s (reportSource .poolFull
      (setPair p .waiting (setWaiting (s.alloc.waiting ++ [p]) s))) :=
    ((setWaiting_frame _ s).trans (setPair_frame p _ _)).trans (reportSource_frame _ _)
  split
  · split
    · exact h.trans (preemptSlot_frame _ _ _)
    · exact h
  · exact h

theorem wantPair_frame (p : PairId) (s : State) : PoolFrame s (wantPair p s) := by
  unfold wantPair; split
  · split
    · exact setSlotState_frame _ _ s
    · exact PoolFrame.refl s
    · exact PoolFrame.refl s
  · exact PoolFrame.refl s
  · split
    · exact assignSlot_frame _ _ s
    · exact joinWait_frame _ s

theorem orderRequests_frame (before : List FillReq) (s : State) :
    PoolFrame s (orderRequests before s) := setFills_frame _ s

theorem changePairs_frame (was : Vector Bool 128) (s : State) : PoolFrame s (changePairs was s) := by
  unfold changePairs; dsimp only
  refine (PoolFrame.foldl _ (fun s p => ?_) _ s).trans (PoolFrame.foldl _ (fun s p => ?_) _ _)
  · split
    · exact unwantPair_frame p s
    · exact PoolFrame.refl s
  · split
    · exact wantPair_frame p s
    · exact PoolFrame.refl s

theorem allocEvent_frame (was : Vector Bool 128) (s : State) : PoolFrame s (allocEvent was s) :=
  (changePairs_frame was s).trans (orderRequests_frame _ _)

theorem stopPool_frame (s : State) : PoolFrame s (stopPool s) :=
  ((PoolFrame.foldl _ (fun s p => setPair_frame p _ s) _ s).trans (setWaiting_frame _ _)).trans
    (PoolFrame.foldl _ (fun s p => unwantPair_frame p s) _ _)

theorem zoneLookup_frame (new : Nat) (sl : SlotId) (p : PairId) (s : State) :
    PoolFrame s (zoneLookup new sl p s) := by
  unfold zoneLookup; split
  · exact pushFill_frame _ _ _ s
  · split
    · exact PoolFrame.refl s
    · exact (setCoreSlot_frame _ _ s).trans (setPhaseKeepRun_frame _ _ _)

theorem zoneSlot_frame (old new : Nat) (sl : SlotId) (p : PairId) (s : State) :
    PoolFrame s (zoneSlot old new sl p s) :=
  ((captureOrDrop_frame sl p old s).trans (raiseTicket_frame sl _)).trans (zoneLookup_frame _ _ _ _)

theorem zoneChange_frame (b : BeamId) (old new : Nat) (s : State) :
    PoolFrame s (zoneChange b old new s) := by
  refine PoolFrame.foldl _ (fun s sl => ?_) _ s
  split
  · split
    · exact zoneSlot_frame _ _ _ _ s
    · exact PoolFrame.refl s
  · exact PoolFrame.refl s
  · exact PoolFrame.refl s

theorem resetSlot_frame (sl : SlotId) (p : PairId) (s : State) : PoolFrame s (resetSlot sl p s) := by
  unfold resetSlot
  split
  · exact PoolFrame.refl s
  · exact ((coldSlot_frame sl s).trans (markReset_frame sl _)).trans (lookup_frame sl p _ _)

theorem resetSlots_frame (which : SlotId → PairId → Bool) (s : State) :
    PoolFrame s (resetSlots which s) := by
  refine PoolFrame.foldl _ (fun s sl => ?_) _ s
  split
  · split
    · exact resetSlot_frame _ _ s
    · exact PoolFrame.refl s
  · exact PoolFrame.refl s
  · exact PoolFrame.refl s

theorem clampBeam_frame (b : BeamId) (s : State) : PoolFrame s (clampBeam b s) :=
  (setCtlBeam_frame b _ s).trans (reportDiverged_frame b _)

theorem divergeBeam_frame (b : BeamId) (s : State) : PoolFrame s (divergeBeam b s) :=
  ((setCtlBeam_frame b _ s).trans (markDiverged_frame b _)).trans (reportDiverged_frame b _)

/-! ### The store -/

theorem invalidateEntry_frame (p : SetId) (w : WayId) (s : State) :
    PoolFrame s (invalidateEntry p w s) := setEntry_frame p w _ s

theorem clearSets_frame (which : SetId → Bool) (s : State) : PoolFrame s (clearSets which s) :=
  setSets_frame _ s

theorem invalidateAll_frame (s : State) : PoolFrame s (invalidateAll s) := setSets_frame _ s

theorem reserveWay_frame (p : SetId) (w : WayId) (tag : Nat) (s : State) :
    PoolFrame s (reserveWay p w tag s) := setEntry_frame p w _ s

theorem writeWay_frame (p : SetId) (w : WayId) (e : Entry) (s : State) :
    PoolFrame s (writeWay p w e s) := (setEntry_frame p w e s).trans (setLru_frame p w _)

theorem installHead_frame (sl : SlotId) (h : Head) (s : State) : PoolFrame s (installHead sl h s) :=
  (setMem_frame _ s).trans ((setCoreSlot_frame sl _ _).trans (setPhaseRun_frame sl .tracking _))

theorem latchError_frame (e : FirstError) (s : State) : PoolFrame s (latchError e s) := by
  unfold latchError; split
  · exact setFirstError_frame _ s
  · exact PoolFrame.refl s

theorem withdrawHost_frame (s : State) : PoolFrame s (withdrawHost s) := by
  unfold withdrawHost; split
  · exact PoolFrame.refl s
  · exact (setHost_frame none s).trans (completeReply_frame _ _)

theorem raiseNamed_frame (failing : SlotId) (s : State) : PoolFrame s (raiseNamed failing s) := by
  refine PoolFrame.foldl _ (fun s sl => ?_) _ s
  split
  · exact raiseTicket_frame sl s
  · exact PoolFrame.refl s

theorem emptyCaptures_frame (s : State) : PoolFrame s (emptyCaptures s) :=
  (setCaptures_frame _ s).trans (roomReports_frame _ _)

theorem disableStore_frame (failing : SlotId) (s : State) : PoolFrame s (disableStore failing s) :=
  ((setEnabled_frame false s).trans ((invalidateAll_frame _).trans (raiseNamed_frame failing _))).trans
    ((setFills_frame [] _).trans ((freeDraining_frame _ _).trans ((emptyCaptures_frame _).trans
      ((withdrawHost_frame _).trans (reportSource_frame _ _)))))

theorem checkFailure_frame (t : Transfer) (r : FillReq) (e : Entry) (s : State) :
    PoolFrame s (checkFailure t r e s) := by
  have h := ((invalidateEntry_frame t.set t.way s).trans (setErrors_frame (s.store.errors + 1) _)).trans
    ((latchError_frame ⟨t.set, t.way, e.tag, .fill⟩ _).trans (reportSource_frame .storeFault _))
  unfold checkFailure; dsimp only; split
  · exact h.trans (disableStore_frame _ _)
  · exact h

theorem finishFill_frame (t : Transfer) (r : FillReq) (e : Entry) (s : State) :
    PoolFrame s (finishFill t r e s) := by
  unfold finishFill; split
  · exact PoolFrame.refl s
  · split
    · split
      · exact installHead_frame _ _ s
      · exact PoolFrame.refl s
    · exact checkFailure_frame _ _ _ s

theorem finishCapture_frame (t : Transfer) (c : CaptureRec) (s : State) :
    PoolFrame s (finishCapture t c s) := by
  unfold finishCapture; split
  · exact PoolFrame.refl s
  · exact writeWay_frame _ _ _ s

theorem finishCommit_frame (t : Transfer) (tag q : Nat) (check : BitVec 16) (s : State) :
    PoolFrame s (finishCommit t tag q check s) := by
  unfold finishCommit; split
  · exact PoolFrame.refl s
  · exact (writeWay_frame t.set t.way _ s).trans ((setWritten_frame 0 _).trans
      (completeReply_frame _ _))

theorem finishRead_frame (t : Transfer) (chunk : Nat) (s : State) :
    PoolFrame s (finishRead t chunk s) := by
  unfold finishRead; split
  · exact PoolFrame.refl s
  · dsimp only; split
    · exact (latchError_frame _ s).trans (completeReply_frame _ _)
    · exact completeReply_frame _ s

theorem finishTransfer_frame (t : Transfer) (s : State) : PoolFrame s (finishTransfer t s) := by
  unfold finishTransfer; dsimp only
  refine (setPort_frame none s).trans ?_
  split
  · exact finishFill_frame _ _ _ _
  · exact finishCapture_frame _ _ _
  · exact finishCommit_frame _ _ _ _ _
  · exact finishRead_frame _ _ _

theorem completeDue_frame (s : State) : PoolFrame s (completeDue s) := by
  unfold completeDue; split
  · exact finishTransfer_frame _ s
  · exact PoolFrame.refl s

theorem grantCapture_frame (s : State) : PoolFrame s (grantCapture s) := by
  unfold grantCapture; split
  · exact PoolFrame.refl s
  · dsimp only
    exact ((reserveWay_frame _ _ _ s).trans (setPort_frame _ _)).trans
      ((setCaptures_frame _ _).trans (roomReport_frame _))

theorem grantHost_frame (s : State) : PoolFrame s (grantHost s) := by
  unfold grantHost; split
  · exact PoolFrame.refl s
  · split
    · exact PoolFrame.refl s
    · dsimp only; split
      · exact (setHost_frame none s).trans ((reserveWay_frame _ _ _ _).trans (setPort_frame _ _))
      · exact (setHost_frame none s).trans (setPort_frame _ _)

theorem grantFill_frame (r : FillReq) (w : WayId) (s : State) : PoolFrame s (grantFill r w s) :=
  (setLru_frame _ _ s).trans (setPort_frame _ _)

theorem grantIdle_frame (s : State) : PoolFrame s (grantIdle s) := by
  unfold grantIdle; split
  · exact grantCapture_frame s
  · split
    · exact (setFills_frame _ s).trans (grantFill_frame _ _ _)
    · split
      · exact (setFills_frame _ s).trans (grantCapture_frame _)
      · exact (setFills_frame _ s).trans (grantHost_frame _)

theorem grantDue_frame (s : State) : PoolFrame s (grantDue s) := by
  unfold grantDue; dsimp only; split
  · exact (completeDue_frame s).trans (grantIdle_frame _)
  · exact completeDue_frame s

theorem abandonTransfer_frame (which : SetId → Bool) (s : State) :
    PoolFrame s (abandonTransfer which s) := by
  unfold abandonTransfer; split
  · split
    · exact setPort_frame _ s
    · exact PoolFrame.refl s
  · exact PoolFrame.refl s

theorem invalidateSets_frame (which : SetId → Bool) (s : State) :
    PoolFrame s (invalidateSets which s) := by
  unfold invalidateSets; dsimp only
  refine PoolFrame.trans ?_ (abandonTransfer_frame _ _)
  refine PoolFrame.trans ?_ (roomReports_frame _ _)
  refine PoolFrame.trans ?_ (setFills_frame _ _)
  refine PoolFrame.trans ?_ (setCaptures_frame _ _)
  exact (freeDraining_frame which s).trans (clearSets_frame which _)

theorem resetReference_frame (r : RefId) (s : State) : PoolFrame s (resetReference r s) := by
  refine PoolFrame.foldl _ (fun s sl => ?_) _ s
  split
  · split
    · exact coldSlot_frame _ s
    · exact PoolFrame.refl s
  · exact PoolFrame.refl s
  · exact PoolFrame.refl s

theorem delayChange_frame (r : RefId) (s : State) : PoolFrame s (delayChange r s) :=
  (resetReference_frame r s).trans (invalidateSets_frame _ _)

theorem disturbEntry_frame (p : SetId) (w : WayId) (cells : List (Fin 1536 × Tap)) (q : Byte)
    (check : BitVec 16) (s : State) : PoolFrame s (disturbEntry p w cells q check s) := by
  unfold disturbEntry; dsimp only; split
  · exact PoolFrame.refl s
  · exact setEntry_frame _ _ _ s

end Sys2Proof.Machine
end

