-- ==== Sys2Proof/Laws/Memory.lean ====
section
/-! SUPPORT. The laws of the tap memories: every operation keeps the canonical form, a read after a write
gives the value written and a write leaves every other address alone, and memories in canonical form that
read the same are the same. -/

namespace Sys2Proof.Machine

/-! ### The canonical form -/

theorem memAbove_mono {lo lo' : Nat} {m : TapMem} (h : memAbove lo m = true) (hl : lo' ≤ lo) :
    memAbove lo' m = true := by
  cases m with
  | nil => rfl
  | cons c m =>
    simp only [memAbove, Bool.and_eq_true, decide_eq_true_eq] at h ⊢
    exact ⟨⟨by omega, h.1.2⟩, h.2⟩

theorem memGet_below {lo k : Nat} {m : TapMem} (h : memAbove lo m = true) (hk : k < lo) :
    memGet m k = tapZero := by
  induction m generalizing lo with
  | nil => rfl
  | cons c m ih =>
    simp only [memAbove, Bool.and_eq_true, decide_eq_true_eq] at h
    rw [memGet, if_neg (by omega)]
    exact ih h.2 (by omega)

theorem memPut_above {lo k : Nat} {t : Tap} {m : TapMem} (h : memAbove lo m = true) (hk : lo ≤ k) :
    memAbove lo (memPut m k t) = true := by
  induction m generalizing lo with
  | nil =>
    unfold memPut; split
    · rfl
    · simp [memAbove, *]
  | cons c m ih =>
    have h' := h
    simp only [memAbove, Bool.and_eq_true, decide_eq_true_eq] at h
    unfold memPut; split
    · split
      · exact h'
      · simp only [memAbove, Bool.and_eq_true, decide_eq_true_eq]
        exact ⟨⟨hk, ‹_›⟩, ⟨by omega, h.1.2⟩, h.2⟩
    · split
      · split
        · exact memAbove_mono h.2 (by omega)
        · subst_vars
          simp only [memAbove, Bool.and_eq_true, decide_eq_true_eq]
          exact ⟨⟨hk, ‹_›⟩, h.2⟩
      · simp only [memAbove, Bool.and_eq_true, decide_eq_true_eq]
        exact ⟨h.1, ih h.2 (by omega)⟩

/-- A write keeps the canonical form. -/
theorem memPut_wf {m : TapMem} (h : memWf m = true) (k : Nat) (t : Tap) : memWf (memPut m k t) = true :=
  memPut_above h (Nat.zero_le k)

theorem memClear_above {lo : Nat} {m : TapMem} (h : memAbove lo m = true) (base n : Nat) :
    memAbove lo (memClear m base n) = true := by
  induction m generalizing lo with
  | nil => rfl
  | cons c m ih =>
    simp only [memAbove, Bool.and_eq_true, decide_eq_true_eq] at h
    unfold memClear
    rw [List.filter_cons]
    split
    · simp only [memAbove, Bool.and_eq_true, decide_eq_true_eq]
      exact ⟨h.1, ih h.2⟩
    · exact memAbove_mono (ih h.2) (by omega)

/-- Clearing a range keeps the canonical form. -/
theorem memClear_wf {m : TapMem} (h : memWf m = true) (base n : Nat) : memWf (memClear m base n) = true :=
  memClear_above h base n

/-! ### Reads after writes -/

/-- A read after a write gives the tap written at its address, and what stood before at any other. -/
theorem memGet_memPut {m : TapMem} (h : memWf m = true) (k i : Nat) (t : Tap) :
    memGet (memPut m k t) i = if i = k then t else memGet m i := by
  have key : ∀ lo, memAbove lo m = true →
      memGet (memPut m k t) i = if i = k then t else memGet m i := by
    clear h
    intro lo h
    induction m generalizing lo with
    | nil =>
      unfold memPut
      by_cases ht : t = tapZero
      · simp [ht, memGet]
      · rw [if_neg ht, memGet, memGet]
        by_cases hi : i = k
        · simp [hi]
        · rw [if_neg (fun e => hi e.symm), if_neg hi]; rfl
    | cons c m ih =>
      obtain ⟨a, u⟩ := c
      simp only [memAbove, Bool.and_eq_true, decide_eq_true_eq] at h
      unfold memPut
      by_cases h1 : k < a
      · rw [if_pos h1]
        have hk : memGet ((a, u) :: m) k = tapZero := by
          rw [memGet, if_neg (by omega)]; exact memGet_below h.2 (by omega)
        by_cases ht : t = tapZero
        · rw [if_pos ht]
          by_cases hi : i = k
          · rw [if_pos hi, hi, hk, ht]
          · rw [if_neg hi]
        · rw [if_neg ht]
          by_cases hi : i = k
          · rw [if_pos hi, memGet, if_pos hi.symm]
          · rw [if_neg hi, memGet, if_neg (fun e => hi e.symm)]
      · rw [if_neg h1]
        by_cases h2 : k = a
        · rw [if_pos h2]
          by_cases ht : t = tapZero
          · rw [if_pos ht]
            by_cases hi : i = k
            · rw [if_pos hi, hi, h2, ht]; exact memGet_below h.2 (by omega)
            · rw [if_neg hi, memGet, if_neg (by omega)]
          · rw [if_neg ht]
            by_cases hi : i = k
            · rw [if_pos hi, memGet, if_pos hi.symm]
            · rw [if_neg hi, memGet, if_neg (fun e => hi e.symm), memGet, if_neg (by omega)]
        · rw [if_neg h2]
          by_cases hi : a = i
          · rw [memGet, if_pos hi, if_neg (by omega), memGet, if_pos hi]
          · rw [memGet, if_neg hi, ih _ h.2, memGet, if_neg hi]
  exact key 0 h

/-- A cleared address reads as zero, and any other as before. -/
theorem memGet_memClear (m : TapMem) (base n i : Nat) :
    memGet (memClear m base n) i = if base ≤ i ∧ i < base + n then tapZero else memGet m i := by
  induction m with
  | nil => simp [memClear, memGet]
  | cons c m ih =>
    unfold memClear at *
    rw [List.filter_cons]
    split
    · rename_i hc
      simp only [decide_eq_true_eq, Bool.or_eq_true] at hc
      rw [memGet, memGet, ih]
      by_cases hi : c.1 = i
      · rw [if_pos hi, if_pos hi, if_neg (by omega)]
      · rw [if_neg hi, if_neg hi]
    · rename_i hc
      simp only [decide_eq_true_eq, Bool.or_eq_true] at hc
      rw [ih, memGet]
      by_cases hi : c.1 = i
      · rw [if_pos (by omega), if_pos (by omega)]
      · rw [if_neg hi]

theorem memFill_succ (m : TapMem) (base n : Nat) (f : Nat → Tap) :
    memFill m base (n + 1) f = memPut (memFill m base n f) (base + n) (f n) := by
  simp [memFill, List.range_succ]

/-- Filling a range keeps the canonical form. -/
theorem memFill_wf {m : TapMem} (h : memWf m = true) (base n : Nat) (f : Nat → Tap) :
    memWf (memFill m base n f) = true := by
  induction n with
  | zero => simpa [memFill] using h
  | succ n ih => rw [memFill_succ]; exact memPut_wf ih _ _

/-- A filled address reads as the tap given for it, and any other as before. -/
theorem memGet_memFill {m : TapMem} (h : memWf m = true) (base n : Nat) (f : Nat → Tap) (i : Nat) :
    memGet (memFill m base n f) i =
      if base ≤ i ∧ i < base + n then f (i - base) else memGet m i := by
  induction n with
  | zero => rw [if_neg (by omega)]; simp [memFill]
  | succ n ih =>
    rw [memFill_succ, memGet_memPut (memFill_wf h base n f), ih]
    by_cases h1 : i = base + n
    · rw [if_pos h1, if_pos (by omega), h1, Nat.add_sub_cancel_left]
    · rw [if_neg h1]
      by_cases h2 : base ≤ i ∧ i < base + n
      · rw [if_pos h2, if_pos (by omega)]
      · rw [if_neg h2, if_neg (by omega)]

/-- Memories in canonical form that read the same at every address are the same. -/
theorem mem_ext {m m' : TapMem} (h : memWf m = true) (h' : memWf m' = true)
    (e : ∀ i, memGet m i = memGet m' i) : m = m' := by
  have key : ∀ lo lo', memAbove lo m = true → memAbove lo' m' = true → m = m' := by
    clear h h'
    induction m generalizing m' with
    | nil =>
      intro lo lo' _ h'
      cases m' with
      | nil => rfl
      | cons c m' =>
        simp only [memAbove, Bool.and_eq_true, decide_eq_true_eq] at h'
        have := e c.1
        rw [memGet, memGet, if_pos rfl] at this
        exact absurd this.symm h'.1.2
    | cons c m ih =>
      intro lo lo' h h'
      simp only [memAbove, Bool.and_eq_true, decide_eq_true_eq] at h
      cases m' with
      | nil =>
        have := e c.1
        rw [memGet, memGet, if_pos rfl] at this
        exact absurd this h.1.2
      | cons c' m' =>
        simp only [memAbove, Bool.and_eq_true, decide_eq_true_eq] at h'
        have ha : c.1 = c'.1 := by
          rcases Nat.lt_trichotomy c.1 c'.1 with hlt | heq | hgt
          · have := e c.1
            rw [memGet, if_pos rfl, memGet, if_neg (by omega), memGet_below h'.2 (by omega)] at this
            exact absurd this h.1.2
          · exact heq
          · have := e c'.1
            rw [memGet, if_neg (by omega), memGet_below h.2 (by omega), memGet, if_pos rfl] at this
            exact absurd this.symm h'.1.2
        have ht : c.2 = c'.2 := by
          have := e c.1
          rwa [memGet, if_pos rfl, memGet, if_pos ha.symm] at this
        have hm : m = m' := by
          refine ih (fun i => ?_) _ _ h.2 h'.2
          have := e i
          rw [memGet, memGet] at this
          by_cases hi : c.1 = i
          · rw [memGet_below h.2 (by omega), memGet_below h'.2 (by omega)]
          · rwa [if_neg hi, if_neg (by omega)] at this
        rw [hm]
        exact congrArg (· :: m') (Prod.ext ha ht)
  exact key 0 0 h h'

/-! ### The operations over heads and slots -/

/-- A copy of a head is in canonical form. -/
theorem headOf_wf (m : TapMem) (T sl : Nat) : memWf (headOf m T sl) = true :=
  memFill_wf (by rfl) _ _ _

/-- Installing a head keeps the canonical form. -/
theorem memInstall_wf {m : TapMem} (h : memWf m = true) (T sl : Nat) (hd : Head) :
    memWf (memInstall m T sl hd) = true := memFill_wf (memClear_wf h _ _) _ _ _

/-- Writing a chunk keeps the canonical form. -/
theorem chunkWrite_wf {h : Head} (hw : memWf h = true) (c : Nat) (bytes : List Byte) :
    memWf (chunkWrite h c bytes) = true := memFill_wf hw _ _ _

/-- Disturbing cells keeps the canonical form. -/
theorem disturbHead_wf {h : Head} (hw : memWf h = true) (cells : List (Fin 1536 × Tap)) :
    memWf (disturbHead h cells) = true := by
  unfold disturbHead
  induction cells generalizing h with
  | nil => exact hw
  | cons c cells ih => exact ih (memPut_wf hw _ _)

/-- The update of a tap keeps the canonical form. -/
theorem updateOne_wf (u : UpdateInput) (k : Nat) (x : Bands) (acc : TapMem × Bool) (j : Fin 32)
    (h : memWf acc.1 = true) : memWf (updateOne u k x acc j).1 = true := by
  unfold updateOne
  split
  · exact h
  · exact memPut_wf h _ _

/-- The update of a slot keeps the canonical form. -/
theorem updateSlot_wf (u : UpdateInput) {mem : TapMem} (h : memWf mem = true) :
    memWf (updateSlot u mem).1 = true := by
  have inner : ∀ (e : Bands × Nat) (l : List (Fin 32)) (acc : TapMem × Bool), memWf acc.1 = true →
      memWf (l.foldl (updateOne u e.2 e.1) acc).1 = true := by
    intro e l
    induction l with
    | nil => exact fun _ h => h
    | cons j l ih => exact fun acc h => ih _ (updateOne_wf u e.2 e.1 acc j h)
  have outer : ∀ (l : List (Bands × Nat)) (acc : TapMem × Bool), memWf acc.1 = true →
      memWf (l.foldl (fun acc e => (List.finRange 32).foldl (updateOne u e.2 e.1) acc) acc).1 = true := by
    intro l
    induction l with
    | nil => exact fun _ h => h
    | cons e l ih => exact fun acc h => ih _ (inner e _ acc h)
  exact outer _ _ h

/-- The coefficient memory and the heads of the part at power-on are in canonical form. -/
theorem reset_memory_wf : memWf State.reset.core.mem = true ∧ memWf State.reset.cmd.loadTaps = true ∧
    ∀ (p : SetId) (w : WayId), memWf (entryOf State.reset p w).head = true := by
  refine ⟨rfl, rfl, fun p w => ?_⟩
  simp [entryOf, State.reset, Store.powerOn, StoreSet.powerOn, Entry.powerOn, memWf, memAbove]

/-! ### Tap addresses -/

/-- No two taps share an address: the tap's row and band are read back from it (R52). -/
theorem tapAddr_inj {T sl sl' k k' : Nat} {j j' : Fin 32} (hk : k < T) (hk' : k' < T)
    (h : tapAddr T sl j.val k = tapAddr T sl' j'.val k') : sl = sl' ∧ j = j' ∧ k = k' := by
  unfold tapAddr at h
  have hj : j.val = j'.val := by omega
  have hrow : sl * T + k = sl' * T + k' := by omega
  have hsl : sl = sl' := by
    rcases Nat.lt_trichotomy sl sl' with hlt | heq | hgt
    · have := Nat.mul_le_mul_right T hlt
      rw [Nat.succ_mul] at this; omega
    · exact heq
    · have := Nat.mul_le_mul_right T hgt
      rw [Nat.succ_mul] at this; omega
  subst hsl
  exact ⟨rfl, Fin.ext hj, by omega⟩

/-- The addresses of a slot are one range (R52). -/
theorem tapAddr_range (T sl : Nat) (j : Fin 32) {k : Nat} (hk : k < T) :
    tapAddr T sl 0 0 ≤ tapAddr T sl j.val k ∧
      tapAddr T sl j.val k < tapAddr T sl 0 0 + 32 * T := by
  unfold tapAddr; omega

end Sys2Proof.Machine
end

