-- ==== Sys2Proof/Laws/Pool.lean ====
section
/-! SUPPORT. What the shared operations of the pool and the reply queue do, said once for each: a slot made
cold, a ticket raised, a lookup, the order of an event's requests, a report, a reply. The relations MadeCold,
SlotKept and PoolMoves compose. -/

namespace Sys2Proof.Machine

/-! ### The relations -/

theorem SlotKept.refl (s : State) (sl : SlotId) : SlotKept s s sl := ⟨fun _ _ _ => rfl, rfl, rfl⟩

theorem SlotKept.trans {s t u : State} {sl : SlotId} (h : SlotKept s t sl) (k : SlotKept t u sl)
    (e : tailLen t = tailLen s) : SlotKept s u sl where
  taps j i hi := by
    have := k.taps j i (by rw [e]; exact hi)
    rw [e] at this
    rw [this, h.taps j i hi]
  numeric := k.numeric.trans h.numeric
  record := k.record.trans h.record

/-- A slot that is kept, and one that a later operation keeps, stays cold. -/
theorem MadeCold.kept {s t u : State} {sl : SlotId} (h : MadeCold s t sl) (k : SlotKept t u sl)
    (e : tailLen t = tailLen s) : MadeCold s u sl where
  taps j i hi := by
    have := k.taps j i (by rw [e]; exact hi)
    rw [e] at this
    rw [this, h.taps j i hi]
  ticket := by rw [k.numeric, h.ticket]
  origin := by rw [k.numeric, h.origin]
  record := by rw [k.record, h.record]

theorem PoolMoves.refl (s : State) : PoolMoves s s := rfl

theorem PoolMoves.trans {s t u : State} (h : PoolMoves s t) (k : PoolMoves t u) : PoolMoves s u := by
  unfold PoolMoves at *
  rw [k, h]

/-- A fold of moves of the pool is a move of the pool. -/
theorem PoolMoves.foldl {α : Type} (f : State → α → State) (h : ∀ s x, PoolMoves s (f s x)) (l : List α)
    (s : State) : PoolMoves s (l.foldl f s) := by
  induction l generalizing s with
  | nil => exact PoolMoves.refl s
  | cons x l ih => exact (h s x).trans (ih _)

/-! ### Slots apart -/

/-- The address ranges of two slots do not meet (R52). -/
theorem slot_apart {T sl o : Nat} (h : o ≠ sl) (j : Fin 32) {k : Nat} (hk : k < T) :
    ¬ (tapAddr T sl 0 0 ≤ tapAddr T o j.val k ∧
      tapAddr T o j.val k < tapAddr T sl 0 0 + 32 * T) := by
  unfold tapAddr
  rcases Nat.lt_or_gt_of_ne h with hlt | hgt
  · have := Nat.mul_le_mul_right T hlt
    rw [Nat.succ_mul] at this
    omega
  · have := Nat.mul_le_mul_right T hgt
    rw [Nat.succ_mul] at this
    omega

/-- The memory after a slot is made cold (R67, R69). -/
theorem coldSlot_mem (sl : SlotId) (s : State) : (coldSlot sl s).core.mem =
    memClear s.core.mem (tapAddr (tailLen s) sl.val 0 0) (32 * tailLen s) := rfl

/-- A slot made cold is cold (R67, R69, R86). -/
theorem coldSlot_made (sl : SlotId) (s : State) : MadeCold s (coldSlot sl s) sl where
  taps j k hk := by rw [coldSlot_mem, memGet_memClear, if_pos (tapAddr_range _ _ j hk)]
  ticket := by
    simp [coldSlot, raiseTicket, zeroSlot, setMem, setFills, setCoreSlot, setPhaseRun, markCold,
      setCtlSlot]
  origin := by
    simp [coldSlot, raiseTicket, zeroSlot, setMem, setFills, setCoreSlot, setPhaseRun, markCold,
      setCtlSlot]
  record := by
    simp [coldSlot, raiseTicket, zeroSlot, setMem, setFills, setCoreSlot, setPhaseRun, markCold,
      setCtlSlot]

/-- A slot made cold keeps every other slot. -/
theorem coldSlot_kept {sl o : SlotId} (h : o ≠ sl) (s : State) : SlotKept s (coldSlot sl s) o where
  taps j k hk := by
    rw [coldSlot_mem, memGet_memClear, if_neg (slot_apart (fun e => h (Fin.ext e)) j hk)]
  numeric := by
    have h' : sl.val ≠ o.val := fun e => h (Fin.ext e.symm)
    simp [coldSlot, raiseTicket, zeroSlot, setMem, setFills, setCoreSlot, setPhaseRun, markCold,
      setCtlSlot, h']
  record := by
    have h' : sl.val ≠ o.val := fun e => h (Fin.ext e.symm)
    simp [coldSlot, raiseTicket, zeroSlot, setMem, setFills, setCoreSlot, setPhaseRun, markCold,
      setCtlSlot, h']

/-- Making a slot cold moves nothing outside the pool. -/
theorem coldSlot_moves (sl : SlotId) (s : State) : PoolMoves s (coldSlot sl s) := by
  have zero : ∀ s, PoolMoves s (zeroSlot sl s) := fun _ => rfl
  have raise : ∀ s, PoolMoves s (raiseTicket sl s) := fun _ => rfl
  have slot : ∀ x s, PoolMoves s (setCoreSlot sl x s) := fun _ _ => rfl
  have phase : ∀ s, PoolMoves s (setPhaseRun sl .warmup s) := fun _ => rfl
  have mark : ∀ s, PoolMoves s (markCold sl s) := fun _ => rfl
  exact ((((zero s).trans (raise _)).trans (slot _ _)).trans (phase _)).trans (mark _)

/-- Making a slot cold takes its request out of the fill queue (R124). -/
theorem coldSlot_fills (sl : SlotId) (s : State) :
    (coldSlot sl s).store.fills = s.store.fills.filter (·.slot ≠ sl) := rfl

/-! ### Tickets and lookups (R54, R123, R124) -/

/-- A raised ticket: the slot's is one more, every other slot is kept, and its request leaves the queue. -/
theorem raiseTicket_spec (sl : SlotId) (s : State) :
    (raiseTicket sl s).core.slots[sl].ticket = s.core.slots[sl].ticket + 1 ∧
      (∀ o : SlotId, o ≠ sl → SlotKept s (raiseTicket sl s) o) ∧
      (raiseTicket sl s).store.fills = s.store.fills.filter (·.slot ≠ sl) ∧
      PoolMoves s (raiseTicket sl s) := by
  refine ⟨by simp [raiseTicket, setFills, setCoreSlot], fun o h => ⟨fun _ _ _ => rfl, ?_, rfl⟩, rfl, rfl⟩
  have h' : sl.val ≠ o.val := fun e => h (Fin.ext e.symm)
  simp [raiseTicket, setFills, setCoreSlot, h']

/-- A lookup writes nothing but the fill queue, in which the slot has at most the request just formed. -/
theorem lookup_spec (sl : SlotId) (p : SetId) (tag : Nat) (s : State) :
    lookup sl p tag s = setFills (lookup sl p tag s).store.fills s ∧
      (lookup sl p tag s).store.fills = if lookupHit s p tag then
        s.store.fills.filter (·.slot ≠ sl) ++ [⟨sl, s.core.slots[sl].ticket, p, tag, s.blk.count⟩]
        else s.store.fills := by
  unfold lookup
  split
  · exact ⟨rfl, rfl⟩
  · exact ⟨rfl, rfl⟩

/-- A lookup keeps every slot. -/
theorem lookup_kept (sl o : SlotId) (p : SetId) (tag : Nat) (s : State) :
    SlotKept s (lookup sl p tag s) o := by
  unfold lookup
  split
  · exact ⟨fun _ _ _ => rfl, rfl, rfl⟩
  · exact SlotKept.refl s o

/-- A lookup moves nothing outside the pool. -/
theorem lookup_moves (sl : SlotId) (p : SetId) (tag : Nat) (s : State) :
    PoolMoves s (lookup sl p tag s) := by
  unfold lookup
  split
  · rfl
  · exact PoolMoves.refl s

/-! ### Replies, notices and reports (R163, R181, R183) -/

/-- A notice adds at most one message, and none to a full reply queue. -/
theorem appendNotice_replies (s : State) (h : s.cmd.replies.length ≤ 8) :
    (appendNotice s).cmd.replies.length ≤ 8 := by
  unfold appendNotice replyLimit
  split
  · rw [List.length_append]; simp; omega
  · exact h

/-- A report keeps the reply queue within its bound. -/
theorem reportSource_replies (src : Source) (s : State) (h : s.cmd.replies.length ≤ 8) :
    (reportSource src s).cmd.replies.length ≤ 8 := by
  unfold reportSource
  dsimp only
  split
  · exact appendNotice_replies _ h
  · exact h

/-- A report sets its source. -/
theorem reportSource_status (src : Source) (s : State) :
    (reportSource src s).ev.status = setInsert s.ev.status (sourceBit src) := by
  unfold reportSource appendNotice
  dsimp only
  split
  · split <;> rfl
  · rfl

/-- A completed command's reply is appended, or held by the unit where the queue is full. -/
theorem completeReply_spec (r : Msg) (s : State) :
    (s.cmd.replies.length < 8 → completeReply r s =
      { s with cmd := { s.cmd with state := .idle, replies := s.cmd.replies ++ [r] } }) ∧
    (8 ≤ s.cmd.replies.length →
      completeReply r s = { s with cmd := { s.cmd with state := .replyHeld r } }) := by
  unfold completeReply replyLimit
  exact ⟨fun h => if_pos h, fun h => if_neg (by omega)⟩

/-- A completed command keeps the reply queue within its bound. -/
theorem completeReply_replies (r : Msg) (s : State) (h : s.cmd.replies.length ≤ 8) :
    (completeReply r s).cmd.replies.length ≤ 8 := by
  unfold completeReply replyLimit
  split
  · rw [List.length_append]; simp; omega
  · exact h

/-! ### The requests of one event (R124) -/

/-- Requests picked apart by their sets, in ascending pair index, are a rearrangement of them. -/
theorem sortedBySet_perm (q : List FillReq) :
    (allPairs.flatMap fun p => q.filter (·.set = p)).Perm q := by
  have split : ∀ l : List PairId, l.Nodup →
      (l.flatMap fun p => q.filter (·.set = p)).Perm (q.filter (·.set ∈ l)) := by
    intro l hl
    induction l with
    | nil => simp
    | cons p l ih =>
      rw [List.nodup_cons] at hl
      rw [List.flatMap_cons]
      refine ((ih hl.2).append_left _).trans ?_
      have parts := List.filter_append_perm (fun r : FillReq => decide (r.set = p)) (q.filter (·.set ∈ p :: l))
      have h1 : (q.filter (·.set ∈ p :: l)).filter (fun r => decide (r.set = p)) = q.filter (·.set = p) := by
        rw [List.filter_filter]; congr 1; funext r; simp; tauto
      have h2 : (q.filter (·.set ∈ p :: l)).filter (fun r => !decide (r.set = p)) = q.filter (·.set ∈ l) := by
        rw [List.filter_filter]; congr 1; funext r
        by_cases h : r.set = p
        · subst h; simp [hl.1]
        · simp [h]
      rwa [h1, h2] at parts
  have all : ∀ p : PairId, p ∈ allPairs := fun p => List.mem_finRange p
  simpa [all] using split allPairs (List.nodup_finRange 128)

/-- Ordering an event's requests moves nothing but the fill queue, which holds what it held: the requests that
stood before the event, in the order in which they stand, then the others in ascending pair index. -/
theorem orderRequests_spec (before : List FillReq) (s : State) :
    let t := orderRequests before s
    let new := allPairs.flatMap fun p => (s.store.fills.filter (· ∉ before)).filter (·.set = p)
    t = setFills (s.store.fills.filter (· ∈ before) ++ new) s ∧
      new.Perm (s.store.fills.filter (· ∉ before)) ∧ t.store.fills.Perm s.store.fills := by
  have h : ∀ p : PairId, (s.store.fills.filter fun r => r ∉ before ∧ r.set = p) =
      (s.store.fills.filter (· ∉ before)).filter (·.set = p) := by
    intro p; rw [List.filter_filter]; congr 1; funext r; simp [Bool.and_comm]
  have hn := sortedBySet_perm (s.store.fills.filter (· ∉ before))
  refine ⟨by simp only [orderRequests, h], hn, ?_⟩
  have hp := List.filter_append_perm (fun r => decide (r ∈ before)) s.store.fills
  simp only [orderRequests, h, setFills]
  refine ((hn.append_left _)).trans ?_
  simpa using hp

/-- Where an event forms no request, the fill queue keeps its order. -/
theorem orderRequests_none (before : List FillReq) (s : State) (h : ∀ r ∈ s.store.fills, r ∈ before) :
    orderRequests before s = s := by
  have h1 : s.store.fills.filter (· ∈ before) = s.store.fills := List.filter_eq_self.2 (by simpa using h)
  have h2 : (allPairs.flatMap fun p => s.store.fills.filter fun r => r ∉ before ∧ r.set = p) = [] := by
    rw [List.flatMap_eq_nil_iff]
    intro p _
    rw [List.filter_eq_nil_iff]
    intro r hr
    simp [h r hr]
  rw [orderRequests, h1, h2, List.append_nil]; rfl

end Sys2Proof.Machine
end

