-- ==== Sys2Proof/Laws/Rows.lean ====
section
/-! SUPPORT. When a row acts and when it leaves the part as it is, said once for each way in which a row is
gated: by RESETN, by the block boundary, by the frames, by the head of the command queue. -/

namespace Sys2Proof.Machine

/-! ### The gates and the terms of the statements -/

theorem atBoundary_iff (s : State) :
    atBoundary s = true ↔ s.ports.frames.outCodec + 1 = 48 * s.blk.count := by
  simp [atBoundary]

theorem atBoundary_of {s : State} (h : AtBoundary s) : atBoundary s = true :=
  (atBoundary_iff s).2 h.frame

theorem boundaryDue_iff (s : State) (h : s.resetn = true) : boundaryDue s = true ↔ BoundaryDue s := by
  constructor
  · intro k
    have k' : s.ports.frames.inArray = 48 * (s.blk.count + 1) ∧
        s.ports.frames.inCodec = 48 * (s.blk.count + 1) := by simpa [boundaryDue] using k
    exact ⟨h, k'.1, k'.2⟩
  · intro k
    simp [boundaryDue, k.array, k.codec]

theorem frameDue_iff (f : Nat) (s : State) : frameDue f s = true ↔ FrameDue f s := by
  constructor
  · intro k
    simp only [frameDue, Bool.and_eq_true, decide_eq_true_eq] at k
    constructor <;> omega
  · intro k
    have := k.block; have := k.inArray; have := k.inCodec; have := k.outArray; have := k.outCodec
    simp only [frameDue, Bool.and_eq_true, decide_eq_true_eq]
    omega

theorem outboundDue_iff (link : Link) (s : State) : outboundDue link s = true ↔ OutboundDue link s := by
  unfold outboundDue
  rw [Bool.and_eq_true, frameDue_iff]
  constructor
  · rintro ⟨k, k'⟩
    refine ⟨k, fun h => ?_⟩
    subst h
    simpa [and_assoc] using k'
  · intro k
    refine ⟨k.frame, ?_⟩
    cases link
    · rfl
    · simpa [and_assoc] using k.answers rfl

/-- A slot that `adapts` gives is one granted for the boundary's block. -/
theorem adapts_iff (sl : SlotId) (s : State) (x : BlockSlot) (h : s.blk.live = true) :
    adapts sl s = some x ↔ SlotAdapts s sl x := by
  constructor
  · intro k
    unfold adapts at k
    split at k
    · next y hy =>
      by_cases hg : y.granted = true
      · rw [if_pos hg, Option.some.injEq] at k
        exact ⟨h, by rw [hy, k], by rw [← k, hg]⟩
      · rw [if_neg hg] at k
        exact absurd k (by simp)
    · exact absurd k (by simp)
  · intro k
    rw [adapts, k.block]
    simp [k.granted]

/-! ### What a gated row answers -/

theorem up_released (f : State → State) {s : State} (h : s.resetn = true) : up f s = .next (f s) := by
  simp [up, whenUp, h]

theorem up_held (f : State → State) {s : State} (h : s.resetn = false) : up f s = .next s := by
  simp [up, whenUp, h]

theorem upAtBoundary_at (f : State → State) {s : State} (h : AtBoundary s) :
    upAtBoundary f s = .next (f s) := by
  rw [upAtBoundary, up_released _ h.resetn, atBoundary_of h, if_pos rfl]

theorem upAtBoundary_off (f : State → State) {s : State} (hr : s.resetn = true) (h : ¬ AtBoundary s) :
    upAtBoundary f s = .next s := by
  rw [upAtBoundary, up_released _ hr, if_neg]
  intro k
  exact h ⟨hr, (atBoundary_iff s).1 k⟩

/-- A row of the blocks' own work acts while that work is live. -/
theorem upInBlock_live (f : State → State) {s : State} (h : AtBoundary s) (hl : s.blk.live = true) :
    upInBlock f s = .next (f s) := by
  rw [upInBlock, upAtBoundary_at _ h, whileLive, hl, if_pos rfl]

theorem upInBlock_discarded (f : State → State) {s : State} (h : AtBoundary s)
    (hl : s.blk.live = false) : upInBlock f s = .next s := by
  rw [upInBlock, upAtBoundary_at _ h, whileLive, hl, if_neg (by simp)]

/-- Away from a boundary there is none to end. -/
theorem endBoundary_off {s : State} (h : atBoundary s = false) : endBoundary s = s := by
  rw [endBoundary, if_neg (by simp [h])]

theorem endBoundary_at {s : State} (h : AtBoundary s) : endBoundary s = settleBoundary s := by
  rw [endBoundary, atBoundary_of h, if_pos rfl]

theorem execBlockBoundary_due (order : List BoundaryEvent) {s : State} (h : BoundaryDue s) :
    execBlockBoundary order s = .next (boundary order s) := by
  rw [execBlockBoundary, up_released _ h.resetn, (boundaryDue_iff s h.resetn).2 h, if_pos rfl]

theorem execBlockBoundary_early (order : List BoundaryEvent) {s : State} (hr : s.resetn = true)
    (h : ¬ BoundaryDue s) : execBlockBoundary order s = .next s := by
  rw [execBlockBoundary, up_released _ hr, if_neg fun k => h ((boundaryDue_iff s hr).1 k)]

/-! ### The taking of a command (R161, R162) -/

/-- A host row at the boundary whose message waits takes it. -/
theorem takeIf_ready (pred : Msg → Bool) (act : Msg → State → State) {s : State} {m : Msg}
    {rest : List Msg} (h : Ready s m rest) (hp : pred m = true) :
    takeIf pred act s = act m { s with cmd := afterTaking s rest } := by
  simp [takeIf, h.idle, h.head, h.turn, h.room, hp, replyLimit, afterTaking, holdLeft, updateHold]

/-- A unit that is not IDLE, has had its turn, has no room for a reply, or finds no message of the row takes
nothing. -/
theorem takeIf_not (pred : Msg → Bool) (act : Msg → State → State) {s : State}
    (h : s.cmd.state ≠ .idle ∨ s.cmd.turn = false ∨ 8 ≤ s.cmd.replies.length ∨ s.cmd.queue = [] ∨
      ∃ m rest, s.cmd.queue = m :: rest ∧ pred m = false) : takeIf pred act s = s := by
  unfold takeIf
  split
  · next m rest hi hq =>
    rw [if_neg]
    rcases h with h | h | h | h | ⟨n, r, h, hn⟩
    · exact absurd hi h
    · simp [h]
    · have : ¬ s.cmd.replies.length < 8 := by omega
      simp [replyLimit, this]
    · simp [h] at hq
    · rw [hq] at h
      simp only [List.cons.injEq] at h
      simp [h.1, hn]
  · rfl

end Sys2Proof.Machine
end

