-- ==== Sys2Proof/Tests/Slice0.lean ====
section
/-! SUPPORT. The model's own tests: the checks of WellFormed, worked cases and tables of the spec, and for each
statement with hypotheses concrete states and operands that meet them. Expected values come from the spec's
text; each test names its source. -/

namespace Sys2Proof.Tests

open Sys2Proof.Machine

/-! ### WellFormed -/

theorem test_long_command_refused :
    (Instr.commandDelivery 0x01 (List.replicate 241 0)).wellFormed = false := by decide +kernel

theorem test_long_steer_refused : (Instr.steer 0x31 (List.replicate 241 0)).wellFormed = false := by
  decide +kernel

theorem test_repeated_event_refused :
    (Instr.blockBoundary [.steer, .grant, .steer]).wellFormed = false := by decide

theorem test_longest_message_accepted :
    (Instr.commandDelivery 0x01 (List.replicate 240 0)).wellFormed = true ∧
      (Instr.steer 0x31 (List.replicate 240 0)).wellFormed = true ∧
      (Instr.blockBoundary [.steer, .grant]).wellFormed = true := by decide +kernel

theorem test_no_word_spells_a_command : decodeTableWord 8 1 = none := by decide

/-! ### Numbers (the level figures, 3.3; the rounding and smoothing figures, R47, R48; R51) -/

theorem test_level_figures :
    [0, 1, 2, 3, 7, 32767, 32768, 5000000, 16777216, 26000000, 2 ^ 47, 2 ^ 52].map lu =
      [0, 0, 8, 12, 22, 119, 120, 177, 192, 196, 376, 416] := by decide

theorem test_rounding_figures :
    roundDiv 3 2 = 2 ∧ roundDiv (-1) 2 = -1 ∧ roundDiv 5 2 = 3 ∧ roundDiv (-5) 2 = -3 ∧
      sat24 (roundDiv 16777215 2) = 8388607 ∧ sat24 (roundDiv (-16777217) 2) = -8388608 := by decide

theorem test_smoothing_figures :
    smooth 40 52 3 = 42 ∧ smooth 40 36 3 = 39 ∧ smooth 40 43 3 = 40 ∧ smooth 40 44 3 = 41 ∧
      smooth (-20) 30 0 = 30 ∧ smooth 0 100 7 = 1 := by decide

/-- The estimate figures (4.3): (32,768, −16,384) times (1000, 2000) is the estimate (1000, 750). -/
theorem test_estimate_figures :
    cround24 (cmul ⟨32768, -16384⟩ ⟨1000, 2000⟩) 65536 = ⟨1000, 750⟩ := by decide

/-- The saturation of a beam total (4.3). -/
theorem test_beam_total :
    csat24 (cadd ⟨6000000, 0⟩ ⟨5000000, 100⟩) = ⟨8388607, 100⟩ ∧
      csat24 ⟨8000000 - 8388607, 0 - 100⟩ = ⟨-388607, -100⟩ := by decide

/-- The generator figures for beam 0 (8.3): outputs of steps 1, 17, 18 and 19. -/
theorem test_generator_figures :
    let d := (drawNoise 19 1).1
    (d.getD 0 true, d.getD 16 true, d.getD 17 false, d.getD 18 true) =
      (false, false, true, false) := by decide

/-- The presence figures (5.3). -/
theorem test_presence_figures :
    let rec0 : CtlBeam := { CtlBeam.powerOn with erle := 44, noise := 138 }
    nearEnd tuningDefaults true rec0 190 171 = true ∧
      nearEnd tuningDefaults true rec0 190 176 = false := by decide

/-- The noise floor after reset (3.4): block 1, and blocks 17 and 34. -/
theorem test_floor_figures :
    floorStep 160 0 140 16 = (140, 0) ∧ floorStep 140 15 150 16 = (141, 0) ∧
      floorStep 142 0 141 16 = (141, 0) := by decide

/-- A reference that falls quiet (2.8): the blocks 1000, 1001, 1063 and 1064, and a loud block in between. -/
theorem test_linger_figures :
    decideActivity .active 0 64 false = (.linger, 64) ∧
      decideActivity .linger 64 64 false = (.linger, 63) ∧
      decideActivity .linger 1 64 false = (.silent, 0) ∧
      decideActivity .linger 34 64 true = (.active, 0) ∧
      effectiveLinger .on 500 64 = 500 ∧ effectiveLinger .on 30 64 = 64 := by decide

/-- The degrade times of R95. -/
theorem test_degrade_times :
    [0, 15, 16, 100, 255].map degradeTime = [none, some 250, some 256, some 1600, some 4080] := by
  decide

/-- Slot counts of the six tails (R103). -/
theorem test_slot_counts :
    [0, 1, 2, 3, 4, 5].map (fun c => slotCountOf (tailBlocks c)) = [128, 128, 96, 64, 48, 32] := by
  decide

/-- Two references on one meter (2.1). -/
theorem test_limiter_figures :
    limitSample 6000000 7000000 = (6000000, true) ∧
      limitSample 6000000 (BitVec.ofInt 24 (-6500000)) = (BitVec.ofInt 24 (-6000000), true) ∧
      limitSample 6000000 5999999 = (5999999, false) := by decide

/-! ### Encodings -/

/-- The check figures (7.2): all zero, one component −1, and the two bounds. -/
theorem test_check_figures :
    balancingCheck [] 5 60 = 65471 ∧ balancingCheck [(0, ⟨-1, 0⟩)] 5 60 = 65472 ∧
      balancingCheck [(0, ⟨131071, BitVec.ofInt 18 (-131072)⟩)] 32 0 = 65505 := by decide

/-- Two taps of a chunk (R195): the first nine bytes. -/
theorem test_chunk_figures :
    (chunkBytes [(0, ⟨1, -1⟩), (1, ⟨131071, BitVec.ofInt 18 (-131072)⟩)] 0).take 9 =
      [0x00, 0x00, 0x7F, 0xFF, 0xF7, 0xFF, 0xFE, 0x00, 0x00] := by decide +kernel

/-- Committing an all-zero head (R195): the bytes of the ENTRY COMMIT message. -/
theorem test_commit_message :
    msgBytes ⟨0x45, [0x14, 0x05, 0x3C, 0xFF, 0xBF]⟩ =
      [0x45, 0x05, 0x14, 0x05, 0x3C, 0xFF, 0xBF, 0xA3] := by decide

/-- A STATUS READ command with gaps (1.8). -/
theorem test_stream_status_read :
    assemble Assembly.empty
      [some 0x01, none, none, none, none, none, some 0x00, some 0xFF] =
      (Assembly.empty, [.delivered ⟨0x01, []⟩]) := by decide

/-- The same command with a damaged check (1.8). -/
theorem test_stream_damaged :
    assemble Assembly.empty [some 0x01, some 0x00, some 0xFE] =
      (Assembly.empty, [.fault .check]) := by decide

/-- A truncated command (1.8): the sixteenth idle frame. -/
theorem test_stream_truncated :
    assemble Assembly.empty ([some 0x10, some 0x07, some 1, some 2, some 3] ++
      List.replicate 16 none) = (Assembly.empty, [.fault .truncated]) := by decide

/-- An over-length message (1.8): RESYNC, and a byte in the gap. -/
theorem test_stream_over_length :
    assemble Assembly.empty ([some 0x10, some 0xF8, some 1] ++ List.replicate 16 none) =
      (Assembly.empty, [.fault .length]) ∧
    (assemble Assembly.empty ([some 0x10, some 0xF8] ++ List.replicate 15 none ++ [some 1])).1.st =
      .resync := by decide

/-- Set 41 of the example of 7.5. -/
def set41 (q1 : Nat) : StoreSet := ⟨#v[⟨true, 7, 60, 0, []⟩, ⟨true, 12, q1, 0, []⟩], 0⟩

/-- Choosing the way (7.5). -/
theorem test_way_figures :
    chooseWay (set41 45) 12 = 1 ∧ chooseWay (set41 45) 7 = 0 ∧ chooseWay (set41 45) 20 = 1 ∧
      chooseWay (set41 60) 20 = 1 := by decide

/-! ### One step of a few rows -/

/-- The state a command leaves; the same state where it stops. -/
def after (c : Instr) (s : State) : State :=
  match exec c s with
  | .next t => t
  | .fault _ => s
  | .refused _ => s

/-- A part that stands at its first block boundary, its work live, with the Command Unit's turn still to come:
the Codec Link's outbound frame 47 is the next. -/
def standing (s : State) : State :=
  { s with
    ports := { s.ports with frames := ⟨48, 48, 48, 48, 47⟩ }
    out := { s.out with current := { s.out.current with index := 1 } }
    cmd := { s.cmd with turn := true }
    blk := { s.blk with count := 1, live := true } }

/-- A part at its first block boundary whose command queue holds one message. -/
def holding (m : Msg) : State :=
  standing { State.reset with cmd := { State.reset.cmd with queue := [m] } }

/-- A part whose receivers are both LOCKED. -/
def locked (s : State) : State :=
  { s with ports := { s.ports with arrayRx := ⟨.locked, 4, 0⟩, codecRx := ⟨.locked, 4, 0⟩ } }

/-- A part that has received every inbound frame of its first block, and whose boundary 0 is due. -/
def due (s : State) : State := { s with ports := { s.ports with frames := ⟨48, 48, 48, 47, 47⟩ } }

/-- A frame with a correct marker, slots of zero and no data byte. -/
def quietFrame : FrameBits := outboundBits (List.replicate 16 0) none false false

/-- The fourth correct marker locks the Array Link (R5). -/
theorem test_fourth_marker :
    (after (.inboundFrame .array quietFrame)
      { State.reset with ports := { State.reset.ports with arrayRx := ⟨.seeking, 3, 0⟩ } }).ports.arrayRx =
        ⟨.locked, 4, 0⟩ := by decide +kernel

/-- The third wrong marker loses lock and sets LINK_LOST (R6). -/
theorem test_third_wrong_marker :
    let t := after (.lossOfLock .array 0)
      { State.reset with ports := { State.reset.ports with arrayRx := ⟨.locked, 4, 2⟩ } }
    (t.ports.arrayRx.lock, t.ev.status) = (.seeking, 1) := by decide +kernel

/-- In reset the bit clocks are driven low (R189). -/
theorem test_clocks_in_reset :
    let t := after .powerOnReset State.reset
    (t.ports.abck, t.ports.cbck) = (.low, .low) := by decide

/-- A notice for beam 3, zone 255, is unsteered (R32). -/
theorem test_steer_unsteered :
    (after (.steer 0x31 [3, 255]) (locked State.reset)).router.queue = [⟨3, 32⟩] := by decide

/-- A zone of 32 counts a steer error (R32). -/
theorem test_steer_refused :
    (after (.steer 0x31 [3, 32]) (locked State.reset)).ports.steerErrors = 1 := by decide

/-- The ninth command overflows (R160). -/
theorem test_ninth_command :
    let t := after (.commandDelivery 0x01 []) (locked { State.reset with
      cmd := { State.reset.cmd with queue := List.replicate 8 ⟨0x01, []⟩ } })
    (t.cmd.queue.length, t.ev.status, t.ev.causes) = (8, 8, 8) := by decide

/-- SET TAIL with code 6 is BAD_VALUE, and with code 0 gives 64 blocks (R172). -/
theorem test_set_tail :
    (after .setTail (holding ⟨0x04, [6]⟩)).cmd.replies = [⟨0x84, [3]⟩] ∧
      tailLen (after .setTail (holding ⟨0x04, [0]⟩)) = 64 := by decide

/-- The second of two waiting commands is not taken at the same boundary (R162). -/
theorem test_one_taking :
    let s := holding ⟨0x21, [0]⟩
    let t := after .eventClear (after .eventClear
      { s with cmd := { s.cmd with queue := [⟨0x21, [0]⟩, ⟨0x21, [1]⟩] } })
    (t.cmd.replies, t.cmd.queue) = ([⟨0xA1, [0]⟩], [⟨0x21, [1]⟩]) := by decide

/-- A command completed in frame 47 is not taken at boundary 0, where the message that has waited is; it joins
the queue when the boundary is past, and one delivered after that joins it at once, behind it (R160, R162). -/
theorem test_late_command :
    let s := locked (holding ⟨0x21, [0]⟩)
    let t := after (.commandDelivery 0x01 []) s
    let u := after (.outboundFrame .codec true) t
    let v := after (.commandDelivery 0x20 []) u
    (t.cmd.queue, u.cmd.queue, u.cmd.replies, v.cmd.queue) =
      ([⟨0x21, [0]⟩], [⟨0x01, []⟩], [⟨0xA1, [0]⟩], [⟨0x01, []⟩, ⟨0x20, []⟩]) := by decide +kernel

/-- A command of frame 47 that comes when boundary 0 is past, with frame 48 received on the other link and not on
its own, joins the queue at once, so that boundary 1 may take it (R160). -/
theorem test_command_past_boundary :
    let s := locked (standing State.reset)
    let t := after (.commandDelivery 0x01 []) { s with
      ports := { s.ports with frames := ⟨49, 49, 48, 48, 48⟩ } }
    (t.cmd.queue, t.ports.lateCommands) = ([⟨0x01, []⟩], []) := by decide

/-- The control field of Codec Link frame 47 follows the events of boundary 0 and the commands of inbound frame
47 (R4, R191): a queue that the boundary leaves at the hold-off trigger shows HO, and a source that it sets shows
EP. -/
theorem test_conditions_after_boundary :
    let s := locked (standing { State.reset with cmd := { State.reset.cmd with
      queue := List.replicate 6 ⟨0x21, [0]⟩ } })
    let t := after (.commandDelivery 0x01 []) (reportSource .poolFull s)
    let u := after (.outboundFrame .codec true) t
    (u.cmd.queue.length, frameField u.ports.cdo 441 1, frameField u.ports.cdo 442 1) = (6, 1, 1) := by
  decide +kernel

/-- An EVENT READ taken at a boundary carries a source that a later event of it sets (R185). -/
theorem test_report_after_every_event :
    let t := after .eventRead (holding ⟨0x20, []⟩)
    let u := after (.outboundFrame .codec true) (reportSource .poolFull t)
    (t.cmd.replies, u.cmd.replies) =
      ([⟨0xA0, [0, 0, 0, 0, 0, 0, 0, 0, 0]⟩], [⟨0xA0, [0, 16, 0, 5, 0, 0, 0, 0, 0]⟩]) := by
  decide +kernel

/-- Outbound Codec Link frame f waits for inbound frame f of both links (R4, R157, R191). -/
theorem test_codec_waits :
    let s := after (.inboundFrame .array 0) State.reset
    let t := after (.inboundFrame .codec 0) s
    ((after (.outboundFrame .codec true) s).ports.frames.outCodec,
      (after (.outboundFrame .codec true) t).ports.frames.outCodec) = (0, 1) := by decide +kernel

/-- The last Codec Link frame of a block waits for the block's boundary (R4, R191). -/
theorem test_codec_waits_for_boundary :
    (after (.outboundFrame .codec true) (due State.reset)).ports.frames.outCodec = 47 ∧
      (after (.outboundFrame .codec true) (standing State.reset)).ports.frames.outCodec = 48 := by
  decide +kernel

/-- A SOFT RESET leaves the last frame of its block the output it would have carried (R156, R173). -/
theorem test_reset_keeps_block :
    let s := locked (holding ⟨0x05, [0]⟩)
    let t := after .softReset { s with out := { s.out with earlier := { OutBlock.silent 0 with
      sources := (Vector.replicate 16 .zero).set 3 .synthesis
      samples := (Vector.replicate 16 []).set 3 (List.replicate 48 7) } } }
    (cleanedSlot t 47 3, cleanedSlot t 48 3) = (7, 0) := by decide +kernel

/-- A write of act_threshold above 423 is clamped (R168, R175, R178). -/
theorem test_tuning_clamped :
    let t := after .tuningTableWrite (holding ⟨0x10, [5, 1, 1, 2, 0x01, 0xA8]⟩)
    (actThreshold t.cmd.tuning, t.cmd.replies) = (423, [⟨0x90, [1, 0]⟩]) := by decide

/-- A write of three entries at index 15 of the BEAM table stops at the second (R174 to R176). -/
theorem test_write_stops :
    (after .beamTableWrite (holding ⟨0x10, [1, 15, 3, 3, 2, 0, 0, 0, 0, 0, 0, 0, 0]⟩)).cmd.replies =
      [⟨0x90, [3, 2]⟩] := by decide +kernel

/-- The default METER entry reads as its ceiling and its count (R194). -/
theorem test_meter_read :
    (after .tableRead (holding ⟨0x11, [7, 3, 0]⟩)).cmd.replies =
      [⟨0x91, [0, 7, 3, 1, 0x7F, 0xFF, 0xFF, 0, 0]⟩] := by decide

/-- A kind of 0x70 is answered with kind 0xF0 and one byte (R166). -/
theorem test_unknown_kind :
    (after .unknownCommand (holding ⟨0x70, [1, 2]⟩)).cmd.replies = [⟨0xF0, [6]⟩] := by decide

/-- A HEALTH READ of no beam is BAD_VALUE (R187). -/
theorem test_health_of_none :
    (after .healthRead (holding ⟨0x28, [0, 0]⟩)).cmd.replies = [⟨0xA8, [3]⟩] := by decide

/-- The generators take 64 steps at a boundary (R154): beam 0's bands 0 and 8 draw as 8.3 says. -/
theorem test_boundary_draws :
    (drawNoise noiseDraws 1).1.take 2 = [false, false] ∧
      ((drawNoise noiseDraws 1).1.drop 16).take 2 = [false, true] := by decide

/-! ### Witnesses: states and operands that meet the statements' hypotheses

Each theorem is named for its statement; where a statement has several clauses, the theorem gives a case for
each, at a boundary value of the clause's range. -/

/-- A part at power-on that takes RUN at its next step. -/
def runs : State := { holding ⟨0x02, []⟩ with pending := [.run] }

/-- A part at its first boundary with the unit IDLE, its turn to come, an empty reply queue and a message at
the head of the command queue stands ready to take it. -/
theorem ready_of (s : State) (m : Msg) (h0 : s.resetn = true) (h1 : s.ports.frames.outCodec = 47)
    (h2 : s.blk.count = 1) (h3 : s.cmd.turn = true) (h4 : s.cmd.state = .idle)
    (h5 : s.cmd.replies = []) (h6 : s.cmd.queue = [m]) : Ready s m [] :=
  ⟨⟨h0, by omega⟩, h3, h4, by simp [h5], h6⟩

theorem witness_StepTakesFront : State.reset.pending = [] := rfl

theorem witness_step : step runs = .next (after .run { runs with pending := [] }) := rfl

theorem witness_ExecLeavesPending :
    exec .run (holding ⟨0x02, []⟩) = .next (after .run (holding ⟨0x02, []⟩)) := rfl

theorem witness_CompletionAndReset :
    (Instr.steer 0x31 (List.replicate 240 0)).wellFormed = true ∧
      240 < (List.replicate 241 (0 : Byte)).length ∧
      ({ State.reset with resetn := false }).resetn = false ∧ Instr.run.wellFormed = true ∧
      Instr.run ≠ .powerOnReset ∧ Instr.run ≠ .resetnRelease := by decide +kernel

theorem witness_QueuesStayBounded : QueuesBounded runs := by
  constructor <;> decide

theorem witness_MemoryStaysCanonical : MemoryCanonical runs := by
  refine ⟨by decide, by decide, fun p w => ?_, ?_, ?_⟩
  · simp [runs, holding, standing, entryOf, State.reset, Store.powerOn, StoreSet.powerOn, Entry.powerOn, memWf,
      memAbove]
  · intro c hc
    exact absurd hc (by simp [runs, holding, standing, State.reset, Store.powerOn])
  · intro t h ht
    exact absurd ht (by simp [runs, holding, standing, State.reset, Store.powerOn])

theorem witness_StoreStaysSound : StoreSound runs := by
  constructor
  · constructor
    · intro p v w _ h
      exact absurd h (by simp [runs, holding, standing, entryOf, State.reset, Store.powerOn, StoreSet.powerOn,
        Entry.powerOn])
    · intro t tag w h
      exact absurd h (by simp [runs, holding, standing, State.reset, Store.powerOn])
  · constructor <;> simp [runs, holding, standing, State.reset, Store.powerOn]

theorem witness_UnitStaysSound : UnitSound runs := by
  constructor <;> simp [runs, holding, standing, State.reset, Store.powerOn, Command.powerOn, hostInFlight]

theorem witness_LinksStaySound : LinksSound runs := by
  constructor
  case frames => constructor <;> simp [runs, holding, standing]
  all_goals simp [runs, holding, standing, State.reset, Ports.powerOn, Receiver.powerOn,
    Command.powerOn, rxSound, asmSound, Assembly.empty]

theorem witness_RangesStaySound : RangesSound runs := by
  constructor
  case tuning => unfold tuningInRange; decide +kernel
  case blockTuning => unfold tuningInRange; decide +kernel
  all_goals decide +kernel

theorem witness_GeneratorsNeverStop : GeneratorsRun runs := by
  unfold GeneratorsRun; decide +kernel

/-- A part in RUNNING whose pair mask allows pair 0 alone, with reference 0 in LINGER at its last step, in a
quiet block, and slot 0 RUNNING for pair 0, TRACKING at an estimate of 56. -/
def lingering : State := standing
  { State.reset with
    tracker := { State.reset.tracker with
      refs := State.reset.tracker.refs.set 0 ⟨.on, none, 0, .linger, 1, 0⟩ }
    ctl := { State.reset.ctl with
      beams := State.reset.ctl.beams.set 0 { CtlBeam.powerOn with erle := 56 }
      slots := State.reset.ctl.slots.set 0 ⟨.tracking, 0, 0⟩ }
    alloc :=
      { slots := (Vector.replicate 128 .free).set 0 (.running 0)
        pairs := (Vector.replicate 128 .none).set 0 (.held 0)
        waiting := []
        mask := (Vector.replicate 128 false).set 0 true }
    cmd := { State.reset.cmd with op := .running, queue := [⟨0x03, []⟩] } }

/-- Pairs 20 and 5 wait in that order when the expiry frees slots 0 and 1; their fill requests stand in ascending
pair index behind the one that stood there (R105, R124). -/
theorem test_event_requests_ascend :
    let held : Entry := ⟨true, 32, 60, 65444, []⟩
    let s := { lingering with alloc := { lingering.alloc with
      slots := lingering.alloc.slots.set 1 (.running 8)
      pairs := ((lingering.alloc.pairs.set 8 (.held 1)).set 20 .waiting).set 5 .waiting
      waiting := [20, 5]
      mask := lingering.alloc.mask.set 8 true } }
    let stored := setFills [⟨9, 0, 70, 32, 0⟩] (setEntry 5 0 held (setEntry 20 0 held s))
    let t := after (.lingerExpiry 0) stored
    (t.alloc.pairs[20], t.alloc.pairs[5], t.store.fills.map (·.set)) = (.held 0, .held 1, [70, 5, 20]) := by
  decide +kernel

theorem lingering_pool : PoolSound lingering := by
  have hs : ∀ sl : SlotId, lingering.alloc.slots[sl] = if sl = 0 then .running 0 else .free := by
    intro sl
    simp only [lingering, standing, Fin.getElem_fin, Vector.getElem_set, Vector.getElem_replicate]
    by_cases h : sl = 0
    · subst h; rfl
    · rw [if_neg h, if_neg]
      exact fun e => h (Fin.ext e.symm)
  have hp : ∀ p : PairId, lingering.alloc.pairs[p] = if p = 0 then .held 0 else .none := by
    intro p
    simp only [lingering, standing, Fin.getElem_fin, Vector.getElem_set, Vector.getElem_replicate]
    by_cases h : p = 0
    · subst h; rfl
    · rw [if_neg h, if_neg]
      exact fun e => h (Fin.ext e.symm)
  have hw : lingering.alloc.waiting = [] := rfl
  refine ⟨⟨?_, ?_, ?_, ?_⟩, ⟨?_, ?_⟩, ?_, ⟨fun _ _ _ => hw, by rw [hw]; exact Nat.zero_le _⟩⟩
  · intro sl p
    rw [hs, hp]
    by_cases h1 : sl = 0 <;> by_cases h2 : p = 0 <;> simp [h1, h2, holds, eq_comm]
  · intro p
    rw [hp, hw]
    by_cases h : p = 0 <;> simp [h]
  · rw [hw]; exact List.nodup_nil
  · intro sl h
    rw [hs]
    have : sl ≠ 0 := by
      rintro rfl
      exact absurd h (by decide)
    rw [if_neg this]
  · intro h
    exact absurd h (by decide)
  · intro h
    exact absurd h (by decide)
  · intro p
    rw [hw]
    by_cases h : p = 0
    · subst h
      exact ⟨fun _ => Or.inr ⟨0, by rw [hs]; simp⟩, fun _ => by decide⟩
    · have hm : wanted lingering p = false := by
        have : lingering.alloc.mask[p] = false := by
          simp only [lingering, standing, Fin.getElem_fin, Vector.getElem_set, Vector.getElem_replicate]
          rw [if_neg]
          exact fun e => h (Fin.ext e.symm)
        simp [wanted, this]
      rw [hm]
      constructor
      · intro h; exact absurd h (by decide)
      · rintro (h1 | ⟨sl, h1⟩)
        · exact absurd h1 (by simp)
        · rw [hs] at h1
          by_cases h0 : sl = 0 <;> simp [h0] at h1
          exact absurd h1.symm h

theorem witness_PoolStaysSound :
    PoolSound lingering ∧ step lingering = .next lingering := ⟨lingering_pool, rfl⟩

theorem witness_MessageStreamRoundTrip :
    let m : Msg := ⟨0x45, List.replicate 240 7⟩
    let gaps := List.replicate 242 15
    m.payload.length ≤ 240 ∧ gaps.length = m.payload.length + 2 ∧ ∀ g ∈ gaps, g ≤ 15 := by
  decide +kernel

theorem witness_ChunkRoundTrip :
    memWf [(0, ⟨1, -1⟩), (1535, ⟨2, 0⟩)] = true ∧ 23 < 24 ∧
      ∀ t, t < 24 → 1535 ≠ chunkIndex 0 t := by decide

theorem witness_FrameFields : (List.replicate 20 (1 : Sample)).length ≤ 20 := by decide

theorem witness_LevelRule : 2 ≤ 2 ∧ 1 ≤ 1 ∧ 8 ≤ lu 2 ∧ 2 ^ 53 - 1 < 2 ^ 53 := by decide

theorem witness_RoundingRule :
    0 < 2 ∧ 2 * |(5 : Int) - (2 : Nat) * roundDiv 5 2| = (2 : Nat) ∧ (-8388608 : Int) ≤ 8388607 ∧
      (8388607 : Int) < 8388608 ∧ (-8388609 : Int) < -8388608 := by decide

theorem witness_SmoothingRule :
    (40 : Int) ≤ 52 ∧ 2 * |(43 : Int) - 40| < 2 ^ 3 ∧ 2 * ((44 : Int) - 40) = 2 ^ 3 ∧
      2 * ((40 : Int) - 36) = 2 ^ 3 := by decide

/-- A part with an entry of set 0, way 0, that balances: all zero under tag 5 with quality 60 (R120). -/
def stocked : State :=
  setEntry 0 0 ⟨true, 5, 60, 65471, []⟩ State.reset

theorem witness_EntryCheckAndDisturbance :
    memWf [(1535, ⟨1, 1⟩)] = true ∧ (∀ c ∈ [((1535 : Nat), (⟨1, 1⟩ : Tap))], c.1 < 1536) ∧
      State.reset.resetn = true ∧
      entryBalances ⟨true, 5, 61, 65471, []⟩ = false ∧ entryBalances (entryOf stocked 0 0) = true := by
  decide +kernel

/-- The update of slot 1 at a tail of 64, with one block of history in which band 5 alone sounds. -/
def oneBlock : UpdateInput :=
  { tailLen := 64, slot := 1, step := stepDefaults, phase := .converging, delta := regDelta 1
    err := zeroBands.set 5 ⟨2000, -1000⟩
    hist := [zeroBands.set 5 ⟨4096, 0⟩]
    power := (Vector.replicate 32 0).set 5 16777216 }

theorem witness_CoefficientUpdate :
    memWf [] = true ∧ 0 < oneBlock.tailLen ∧ (oneBlock.hist[0]?).isSome = true ∧
      63 < oneBlock.tailLen ∧ oneBlock.hist[63]? = none ∧
      (∀ k, k < 64 → (0 : Nat) ≠ tapAddr 64 1 5 k) ∧
      (updateSlot oneBlock []).1 = [(tapAddr 64 1 5 0, ⟨15059, BitVec.ofInt 18 (-7529)⟩)] := by
  decide +kernel

theorem witness_HeadInstallation :
    memWf [(tapAddr 64 0 0 0, ⟨1, 1⟩)] = true ∧ 48 ≤ 64 ∧ 47 < 64 ∧ 63 < 64 ∧
      (0 : Nat) ≠ tapAddr 64 1 0 0 ∧ memWf [(1535, ⟨1, 1⟩)] = true := by decide

/-- A part with assemblies in a state, with a sum of 1 and `n` idle frames behind it. -/
def idling (st : AsmState) (n : Nat) : State :=
  { State.reset with ports := { State.reset.ports with
    codecAsm := ⟨st, [], 1, 1, n⟩, arrayAsm := ⟨st, [], 1, 1, n⟩ } }

theorem witness_SeekingFrame :
    FrameDue (inFrame .array State.reset) State.reset ∧
      ¬ FrameDue (inFrame .codec (standing State.reset)) (standing State.reset) ∧
      ¬ FrameDue (inFrame .array { State.reset with
        ports := { State.reset.ports with frames := ⟨48, 48, 48, 47, 47⟩ } }) { State.reset with
        ports := { State.reset.ports with frames := ⟨48, 48, 48, 47, 47⟩ } } ∧
      State.reset.resetn = true ∧ (rxOf .array State.reset).lock = .seeking ∧
      markerGood 0 = false ∧ markerGood quietFrame = true ∧ (rxOf .array State.reset).good + 1 < 4 ∧
      4 ≤ (rxOf .codec { State.reset with
        ports := { State.reset.ports with codecRx := ⟨.seeking, 3, 0⟩ } }).good + 1 := by
  refine ⟨?_, fun h => ?_, fun h => ?_, by decide +kernel⟩
  · constructor <;> decide
  · exact absurd h.outCodec (by decide)
  · exact absurd h.block (by decide)

theorem witness_LockedFrame :
    (idling .awaitCheck 15).ports.codecAsm.sum + 0xFF = 0 ∧
      (idling .awaitCheck 15).ports.codecAsm.sum + 0xFE ≠ 0 ∧ (240 : Byte).toNat ≤ 240 ∧
      240 < (241 : Byte).toNat ∧ (idling .awaitLength 14).ports.arrayAsm.idle < 15 ∧
      15 ≤ (idling .resync 15).ports.codecAsm.idle ∧
    FrameDue (inFrame .array (locked State.reset)) (locked State.reset) ∧
      (rxOf .array (locked State.reset)).lock = .locked ∧ markerGood quietFrame = true ∧
      markerGood 0 = false ∧ (rxOf .array (locked State.reset)).miss + 1 < 3 ∧
      3 ≤ (rxOf .codec { State.reset with
        ports := { State.reset.ports with codecRx := ⟨.locked, 4, 2⟩ } }).miss + 1 :=
  ⟨by decide, by decide, by decide, by decide, by decide, by decide, by constructor <;> decide,
    by decide +kernel⟩

theorem witness_FrameSamples : ∀ m : Fin 4, State.reset.play.meters[m].ceiling ≤ 8388607 := by decide

theorem due_is (s : State) (h : s.resetn = true) (h0 : s.blk.count = 0) : BoundaryDue (due s) :=
  ⟨h, by show 48 = 48 * (s.blk.count + 1); omega, by show 48 = 48 * (s.blk.count + 1); omega⟩

/-- A part with a reply waiting, and with a reply held. -/
def replying (n : Nat) (st : UnitState) : State :=
  { State.reset with cmd := { State.reset.cmd with
    state := st, replies := List.replicate n ⟨0x81, [0]⟩ } }

theorem witness_ReplyMoves :
    State.reset.ports.frames.started ≤ 0 ∧
      (queueLimit = 8 ∧ (replying 8 (.replyHeld ⟨0x82, [0]⟩)).cmd.replies ≠ []) ∧
      BoundaryDue (due (replying 1 (.replyHeld ⟨0x82, [0]⟩))) ∧
      0 < ({ State.reset.ports.frames with started := 1 }).started ∧
      (replying 1 (.replyHeld ⟨0x82, [0]⟩)).ports.transmit = none ∧
      (replying 1 (.replyHeld ⟨0x82, [0]⟩)).cmd.replies = [⟨0x81, [0]⟩] ∧
      (replying 7 (.replyHeld ⟨0x82, [0]⟩)).cmd.state = .replyHeld ⟨0x82, [0]⟩ ∧
      (replying 7 (.replyHeld ⟨0x82, [0]⟩)).cmd.replies.length < 8 ∧
      8 ≤ (replying 8 (.replyHeld ⟨0x82, [0]⟩)).cmd.replies.length :=
  ⟨by decide, by decide, due_is _ rfl rfl, by decide⟩

theorem witness_IdleLimit :
    inMessage (asmOf .codec (idling .inPayload 15)).st = true ∧
      15 ≤ (asmOf .array (idling .awaitCheck 15)).idle ∧
      inMessage (asmOf .array (idling .awaitKind 0)).st = false ∧
      (asmOf .codec (idling .inPayload 14)).idle < 15 ∧
      (asmOf .codec (idling .resync 15)).st = .resync ∧
      (asmOf .codec (idling .awaitLength 15)).st ≠ .resync := by decide

theorem witness_CommandDelivered :
    let ahead := fun (f : Nat) (s : State) => f % 48 = 47 ∧ s.ports.frames.outCodec ≤ f
    let s := locked (standing State.reset)
    let past := { s with ports := { s.ports with frames := ⟨48, 48, 48, 48, 48⟩ } }
    ([] : List Byte).length ≤ 240 ∧ s.ports.codecRx.lock = .locked ∧
      s.ports.arrayRx.lock = .locked ∧ ahead (s.ports.frames.inCodec - 1) s ∧
      ahead (s.ports.frames.inArray - 1) s ∧ ¬ ahead (past.ports.frames.inCodec - 1) past ∧
      ¬ ahead (past.ports.frames.inArray - 1) past ∧
      ¬ ahead (State.reset.ports.frames.inCodec - 1) State.reset ∧
      State.reset.ports.codecRx.lock = .seeking ∧ State.reset.ports.arrayRx.lock = .seeking ∧
      State.reset.cmd.queue.length < 8 ∧
      8 ≤ ({ State.reset.cmd with queue := List.replicate 8 ⟨0x01, []⟩ }).queue.length := by decide

theorem witness_SteerNotice :
    ((15 : Byte).toNat < 16) ∧ (31 : Byte).toNat ≤ 31 ∧ (255 : Byte).toNat = 255 ∧
      (∀ x ∈ State.reset.router.queue, x.beam ≠ 15) ∧
      (∃ x ∈ (after (.steer 0x31 [15, 31]) (locked State.reset)).router.queue, x.beam = 15) ∧
      (0x30 : Byte) ≠ 0x31 ∧ ([1] : List Byte).length ≠ 2 ∧ 16 ≤ (16 : Byte).toNat ∧
      32 ≤ (32 : Byte).toNat ∧ (254 : Byte).toNat ≤ 254 := by decide

theorem witness_boundaries :
    BoundaryDue (due State.reset) ∧ BoundaryDue (due (locked State.reset)) ∧
      ¬ BoundaryDue State.reset ∧
      memWf (due lingering).core.mem = true ∧ lingering.alloc.slots[(0 : SlotId)] = .running 0 ∧
      noCommandTaken [.steer, .grant] (due State.reset) ∧ noCommandTaken [.command] (due State.reset) ∧
      (due (locked State.reset)).ports.arrayRx.lock = .locked ∧
      (due State.reset).ports.arrayRx.lock = .seeking ∧ lingering.cmd.op = .running ∧
      lingering.tracker.refs[(0 : RefId)].mode ≠ .off := by
  refine ⟨due_is _ rfl rfl, due_is _ rfl rfl, fun h => absurd h.array (by decide), rfl, by decide,
    Or.inl (by decide), Or.inr (Or.inl rfl), by decide, by decide, by decide, by decide⟩

/-- Values that meet the premises of BoundaryLocked's clauses about a FAR beam and about a clamp run. -/
theorem witness_BoundaryLocked :
    (nextTalk .far 0 true false 60).1 = .far ∧ degradeCode tuningDefaults = 0 ∧
      degradeCode (tuningDefaults.set 23 16) ≠ 0 ∧ divLimit tuningDefaults ≤ 49 + 1 ∧
      256 ≤ 255 + 1 ∧ List.take 2 [true, true, false] = [true, true] ∧
      runCompletes (clampLimit tuningDefaults) ⟨0, 0, true, .warmup, 0, 19, true⟩ = true ∧
      runCompletes (clampLimit tuningDefaults) ⟨0, 0, true, .warmup, 0, 18, true⟩ = false := by decide

/-- A part whose boundary 0 is due with the Array Link LOCKED and the divergence count of beam 0 at `n`. -/
def counted (n : Nat) : State :=
  due (locked (setCtlBeam 0 { CtlBeam.powerOn with divCount := n } State.reset))

/-- BoundaryLocked holds for any divergence count; states of the range's end and of the value before it. -/
theorem witness_BoundaryLocked_counts : ∀ n : Fin 256, 254 ≤ n.val →
    BoundaryDue (counted n.val) ∧ noCommandTaken [] (counted n.val) ∧
      (counted n.val).ports.arrayRx.lock = .locked ∧ (counted n.val).ctl.beams[(0 : BeamId)].divCount = n.val ∧
      (counted n.val).ctl.beams[(0 : BeamId)].divCount ≤ 255 ∧ countUp255 n.val = min 255 (n.val + 1) :=
  fun n _ => ⟨due_is _ rfl rfl, Or.inl (by simp), rfl, by simp [counted, due, locked, setCtlBeam],
    by simp [counted, due, locked, setCtlBeam]; omega, rfl⟩

theorem witness_OutboundFrame :
    OutboundDue .array State.reset ∧
      OutboundDue .codec (standing State.reset) ∧
      OutboundDue .codec { standing State.reset with
        ports := { State.reset.ports with frames := ⟨49, 49, 49, 48, 48⟩ } } ∧
      ¬ OutboundDue .codec (due State.reset) ∧
      ¬ OutboundDue .codec State.reset ∧
      (standing State.reset).out.current.index = 48 / 48 ∧
      (standing State.reset).out.current.index ≠ 47 / 48 ∧
      (standing State.reset).out.earlier.index = 47 / 48 ∧
      (standing State.reset).out.current.index ≠ 96 / 48 ∧
      (standing State.reset).out.earlier.index ≠ 96 / 48 := by
  refine ⟨⟨by constructor <;> decide, fun h => absurd h (by decide)⟩,
    ⟨by constructor <;> decide, fun _ => by decide⟩, ⟨by constructor <;> decide, fun _ => by decide⟩,
    fun h => absurd (h.answers rfl) (by decide), fun h => absurd (h.answers rfl) (by decide), by decide⟩

theorem witness_BoundaryTakesCommand :
    BoundaryDue (due { runs with blk := State.reset.blk }) ∧
      Waiting (due { runs with blk := State.reset.blk }) ⟨0x02, []⟩ [] ∧
      BoundaryEvent.command ∈ [BoundaryEvent.grant, .command, .reply] ∧
      UnitSound (due { runs with blk := State.reset.blk }) ∧
      (0x02 : Byte) ≠ 0x05 ∧ AtBoundary (standing State.reset) ∧
      (∀ m rest, ¬ Ready (standing State.reset) m rest) ∧ Ready runs ⟨0x02, []⟩ [] ∧
      taken .run = some (kindIs 0x02) ∧
      (let c := after .eventRead (holding ⟨0x20, []⟩)
       let w := { c with cmd := { c.cmd with
        state := .idle, queue := ⟨0x20, []⟩ :: c.cmd.queue, replies := [], turn := true } }
       c.blk.report = some ⟨0x20, []⟩ ∧
        (after .eventRead w).cmd.replies = [⟨0xA0, List.replicate 9 0⟩] ∧
        c.cmd.replies = [] ++ ⟨0xA0, List.replicate 9 0⟩ :: []) :=
  ⟨due_is _ rfl rfl, ⟨rfl, by decide, rfl⟩, by decide,
    ⟨witness_UnitStaysSound.wait, witness_UnitStaysSound.one, witness_UnitStaysSound.kept⟩,
    by decide, ⟨rfl, rfl⟩, fun m rest h => absurd h.head (by simp [standing, State.reset,
      Command.powerOn]), ready_of _ _ rfl rfl rfl rfl rfl rfl rfl, rfl, by decide⟩

/-- A reply kept for its own place stands after a notice that another block raises in between, and is held
where that notice takes the last place (R163). -/
theorem test_reply_after_notice :
    let s := { due State.reset with
      play := { State.reset.play with clamped := true }
      cmd := { State.reset.cmd with
        queue := [⟨0x21, [0]⟩], replies := List.replicate 7 ⟨0x81, [0]⟩ }
      ev := { State.reset.ev with mode := .all } }
    let kept := commandEvent true (endTurn { s with
      cmd := { s.cmd with turn := true }, blk := { s.blk with live := true } })
    let taken := commandEvent true { s with
      cmd := { s.cmd with turn := true }, blk := { s.blk with live := true } }
    kept.cmd.queue = [⟨0x21, [0]⟩] ∧
      (appendKept (clippingEvent taken)).cmd.state = .replyHeld ⟨0xA1, [0]⟩ ∧
      (clippingEvent (appendKept taken)).cmd.replies.getLast? = some ⟨0xA1, [0]⟩ := by decide

theorem witness_LingerExpiry :
    let ref := lingering.tracker.refs[(0 : RefId)]
    AtBoundary lingering ∧ lingering.blk.live = true ∧ lingering.cmd.op = .running ∧ ref.mode ≠ .off ∧
      ref.activity = .linger ∧ ref.linger ≤ 1 ∧ ref.level < actThreshold lingering.blk.tuning ∧
      PoolSound lingering :=
  ⟨⟨rfl, rfl⟩, rfl, rfl, by decide, rfl, by decide, by decide, lingering_pool⟩

/-- A part in RUNNING with slot 0 RUNNING for pair 0 and beam 0's record and slot 0's record as given. -/
def running (beam : CtlBeam) (slot : CtlSlot) : State :=
  setCtlSlot 0 slot (setCtlBeam 0 beam (setSlotState 0 (.running 0) (setPair 0 (.held 0)
    (standing (locked { State.reset with cmd := { State.reset.cmd with op := .running } })))))

/-- Slot 0 as it stood for a block in which it was granted adaptation. -/
def adapted (slot : CtlSlot) (clamped : Bool) : BlockSlot :=
  ⟨0, 0, true, slot.phase, slot.counter, slot.run, clamped⟩

/-- The same part, with slot 0 adapting in the block: beam 0 is FAR in it, with its record's estimate. -/
def adaptingIn (beam : CtlBeam) (slot : CtlSlot) (clamped : Bool) : State :=
  let s := running { beam with talk := .far } slot
  { s with blk := { s.blk with
    slots := [adapted slot clamped]
    work := s.blk.work.set 0 { BlockBeam.powerOn with talk := .far, erle := beam.erle } } }

/-- The same, with no clamp. -/
def adapting (beam : CtlBeam) (slot : CtlSlot) : State := adaptingIn beam slot false

theorem adapting_adapts (beam : CtlBeam) (slot : CtlSlot) (clamped : Bool) :
    SlotAdapts (adaptingIn beam slot clamped) 0 (adapted slot clamped) := ⟨rfl, rfl, rfl⟩

theorem running_stands (beam : CtlBeam) (slot : CtlSlot) : AtBoundary (running beam slot) :=
  ⟨rfl, rfl⟩

theorem witness_CounterRows :
    AtBoundary (running CtlBeam.powerOn CtlSlot.powerOn) ∧
    SlotCounts (adapting CtlBeam.powerOn ⟨.warmup, 99, 0⟩) 0 (adapted ⟨.warmup, 99, 0⟩ false) .warmup ∧
    SlotCounts (adapting { CtlBeam.powerOn with erle := 48 } ⟨.converging, 199, 0⟩) 0
      (adapted ⟨.converging, 199, 0⟩ false) .converging ∧
    (let s := running { CtlBeam.powerOn with noise := 0, rise := 15 } CtlSlot.powerOn
     let c := s.ctl.beams[(0 : BeamId)]
     s.blk.live = true ∧ s.ports.arrayRx.lock = .locked ∧ (0 : BeamId) ∉ s.blk.rose ∧
      c.noise ≤ s.core.micLu[(0 : BeamId)] ∧ noiseRise s.blk.tuning ≤ c.rise + 1) ∧
    (let s := running { CtlBeam.powerOn with talk := .hangover, hangCtr := 1 } CtlSlot.powerOn
     let c := s.ctl.beams[(0 : BeamId)]
     let w := s.blk.work[(0 : BeamId)]
     c.talk = .hangover ∧ c.hangCtr ≤ 1 ∧ ¬ (w.far = true ∧ w.near = true)) ∧
    (let s := adapting CtlBeam.powerOn ⟨.warmup, 99, 0⟩
     warmBlocks s.blk.tuning ≤ s.ctl.slots[(0 : SlotId)].counter + 1) ∧
    (let s := adapting { CtlBeam.powerOn with erle := 48 } ⟨.converging, 199, 0⟩
     (trackErle s.blk.tuning : Int) ≤ s.blk.work[pairBeam 0].erle ∧
      trackCount s.blk.tuning ≤ s.ctl.slots[(0 : SlotId)].counter + 1) :=
  ⟨running_stands _ _, ⟨adapting_adapts _ _ _, rfl, rfl, by decide⟩,
    ⟨adapting_adapts _ _ _, rfl, rfl, by decide⟩, by decide, by decide, by decide, by decide⟩

/-- A write of noise_rise, and a grant that the block did not hold, do not act at their own boundary (R50, R83,
R99), and a floor that has risen does not rise again at it. -/
theorem test_rows_read_the_block :
    let s := running { CtlBeam.powerOn with noise := 0, rise := 0 } ⟨.warmup, 99, 0⟩
    let lowered := { s with cmd := { s.cmd with tuning := s.cmd.tuning.set 22 1 } }
    let short := { s with blk := { s.blk with tuning := s.blk.tuning.set 22 1 } }
    after (.noiseFloorRise 0) lowered = lowered ∧ after (.warmupEnd 0) s = s ∧
      (after (.noiseFloorRise 0) (after (.noiseFloorRise 0) short)).ctl.beams[(0 : BeamId)].noise = 1 := by
  decide +kernel

/-- The same, with slot 0 clamped in the block. -/
def clamping (run : Nat) : State := adaptingIn CtlBeam.powerOn ⟨.converging, 0, run⟩ true

theorem witness_ClampRunReset :
    AtBoundary (clamping 18) ∧ SlotAdapts (clamping 18) 0 (adapted ⟨.converging, 0, 18⟩ true) ∧
      (0 : SlotId) ∉ (clamping 18).blk.runDone ∧ (0 : SlotId) ∉ (clamping 18).blk.resets ∧
      clampLimit (clamping 18).blk.tuning ≤ min 1000 (18 + 1) + 1 ∧
      (0 : SlotId) ∈ (markReset 0 (clamping 18)).blk.resets ∧
      (clamping 18).alloc.slots[(0 : SlotId)] = .running 0 ∧
      (setSlotState 0 .free (clamping 18)).alloc.slots[(0 : SlotId)] ≠ .running 0 ∧
      ¬ clampLimit (clamping 17).blk.tuning ≤ min 1000 (17 + 1) + 1 ∧
      ∀ x, ¬ SlotAdapts State.reset 0 x := by
  refine ⟨⟨rfl, rfl⟩, adapting_adapts _ _ _, by decide, by decide, by decide, by decide, by decide,
    by decide, by decide, fun x h => ?_⟩
  exact absurd h.live (by decide)

/-- A slot whose clamp run and whose beam's divergence complete at one boundary is reset once, and each counts
(R94), in either order of the rows. -/
theorem test_clamp_and_divergence :
    let s := clamping 18
    let both := { s with
      ctl := { s.ctl with beams := s.ctl.beams.set 0 { s.ctl.beams[0] with divCtr := 49 } }
      blk := { s.blk with work := s.blk.work.set 0 { s.blk.work[0] with mic := 0, res := 100 } } }
    let seen := fun (t : State) => (t.core.slots[(0 : SlotId)].ticket, t.ctl.beams[(0 : BeamId)].divCount)
    seen (after (.divergenceReset 0) (after (.clampRunReset 0) both)) = (1, 2) ∧
      seen (after (.clampRunReset 0) (after (.divergenceReset 0) both)) = (1, 2) := by decide +kernel

/-- A clamp run stops at 1000 (R77). -/
theorem test_run_limit : countRun 999 true = 1000 ∧ countRun 1000 true = 1000 ∧ countRun 7 false = 0 := by
  decide

/-- A part whose beam 0 is FAR, with an error of 100 lu above an input of `mic`. -/
def diverging (mic : Nat) : State :=
  let s := adapting { CtlBeam.powerOn with divCtr := 49 } CtlSlot.powerOn
  { s with blk := { s.blk with
    work := s.blk.work.set 0 { BlockBeam.powerOn with talk := .far, mic := mic, res := 100 } } }

theorem witness_DivergenceReset :
    let s := diverging 91
    AtBoundary s ∧ s.blk.live = true ∧ s.blk.work[(0 : BeamId)].talk = .far ∧
      s.blk.work[(0 : BeamId)].frozen = false ∧ (0 : BeamId) ∉ s.blk.diverged ∧
      s.blk.work[(0 : BeamId)].mic + divMargin s.blk.tuning < s.blk.work[(0 : BeamId)].res ∧
      ¬ ((diverging 92).blk.work[(0 : BeamId)].mic + divMargin s.blk.tuning <
        s.blk.work[(0 : BeamId)].res) ∧
      divLimit s.blk.tuning ≤ s.ctl.beams[(0 : BeamId)].divCtr + 1 ∧ pairBeam 0 = 0 :=
  ⟨⟨rfl, rfl⟩, by decide⟩

/-- A part with degrade code 16 and beam 0 FAR, below a threshold of 30, with its counter at 255. -/
def degrading : State :=
  let s := adapting { CtlBeam.powerOn with erle := 24, degCtr := 255 } CtlSlot.powerOn
  { s with
    cmd := { s.cmd with tuning := s.cmd.tuning.set 23 16 }
    blk := { s.blk with
      tuning := s.blk.tuning.set 23 16, thresholds := s.blk.thresholds.set 0 30 } }

theorem witness_DegradeTimeExpiry :
    let c := degrading.ctl.beams[(0 : BeamId)]
    let w := degrading.blk.work[(0 : BeamId)]
    AtBoundary degrading ∧ degrading.blk.live = true ∧ degradeCode degrading.blk.tuning = 16 ∧
      w.talk = .far ∧ c.degraded = false ∧ w.erle < (degrading.blk.thresholds[0].toNat : Int) ∧
      256 ≤ c.degCtr + 1 :=
  ⟨⟨rfl, rfl⟩, by decide⟩

/-- DEGRADED is set at block 316 of the example of 5.8. -/
theorem test_degrade_example :
    let t := after (.degradeTimeExpiry 0) degrading
    (t.ev.status, t.ctl.beams[(0 : BeamId)].degCtr, t.ctl.beams[(0 : BeamId)].degraded) =
      (32, 256, true) := by decide

/-- A part at the default tail with pair 9 waiting and slot 47, the highest of the pool, FREE. -/
def waiting : State := setWaiting [9] (setPair 9 .waiting (standing State.reset))

theorem witness_WaitListAssignment :
    AtBoundary waiting ∧ waiting.alloc.slots[(47 : SlotId)] = .free ∧ (47 : SlotId).val < slotCount waiting ∧
      waiting.alloc.waiting = [9] ∧ slotCount waiting ≤ (48 : SlotId).val ∧
      (running CtlBeam.powerOn CtlSlot.powerOn).alloc.slots[(0 : SlotId)] ≠ .free ∧
      State.reset.alloc.waiting = [] := ⟨⟨rfl, rfl⟩, by decide⟩

/-- A part with slot 5 DRAINING for pair 9 under tag 32 with quality 60, and `n` capture records. -/
def draining (n : Nat) : State :=
  setCaptures (List.replicate n ⟨1, 0, 0, [], 0⟩)
    (setSlotState 5 (.draining 9 32 60) (setPair 9 (.held 5) (standing State.reset)))

theorem witness_DrainingSlotCapture :
    AtBoundary (draining 7) ∧ (draining 7).alloc.slots[(5 : SlotId)] = .draining 9 32 60 ∧
      (∀ lower : SlotId, lower < 5 → (draining 7).alloc.slots[lower] = .free) ∧
      (draining 7).store.captures.length < 8 ∧ (draining 7).alloc.waiting = [] ∧
      (setWaiting [9] (draining 7)).alloc.waiting = [9] ∧
      8 ≤ (draining 8).store.captures.length := ⟨⟨rfl, rfl⟩, by decide⟩

/-- A part in RUNNING with slot 0 RUNNING for pair 0 and a notice for beam 0 in the steer queue. -/
def steered : State :=
  let s := running CtlBeam.powerOn CtlSlot.powerOn
  { s with router := { s.router with queue := [⟨0, 3⟩] } }

theorem witness_SteerApplication :
    AtBoundary steered ∧ AtBoundary (standing State.reset) ∧
      State.reset.ports.arrayRx.lock = .seeking ∧ steered.ports.arrayRx.lock = .locked ∧
      (steered.router.queue.map (·.beam)).Nodup ∧ steered.cmd.op = .running ∧
      (locked State.reset).cmd.op = .config ∧ steered.alloc.slots[(0 : SlotId)] = .running 0 ∧
      (⟨0, 3⟩ : SteerRec).tag ≠ steered.router.beams[(0 : BeamId)].tag ∧
      lookupHit steered 0 3 = false ∧ lookupHit { steered with store := stocked.store } 0 5 = true ∧
      (0 : SlotId) ∉ steered.blk.cold :=
  ⟨⟨rfl, rfl⟩, ⟨rfl, rfl⟩, by decide⟩

/-- A part at its first boundary, with the store as given. -/
def storing (st : Store) : State := { running CtlBeam.powerOn CtlSlot.powerOn with store := st }

theorem storing_stands (st : Store) : AtBoundary (storing st) := ⟨rfl, rfl⟩

/-- A store that holds the entry of `stocked`. -/
def stock : Store := stocked.store

theorem witness_PortGrant :
    (let a := (set41 45).ways[(0 : WayId)]
     let b := (set41 60).ways[(1 : WayId)]
     a.valid = true ∧ a.tag = 7 ∧ b.tag = 12 ∧ a.quality = b.quality ∧
      Entry.powerOn.valid = false) ∧
    (let s := storing { stock with fills := [⟨0, 0, 0, 5, 0⟩] }
     s.store.port = none ∧ candidateCaptures s < 8 ∧ (0 : Nat) < s.blk.count ∧
      s.alloc.slots[(0 : SlotId)] = .running 0 ∧ s.core.slots[(0 : SlotId)].ticket = 0 ∧
      findWay s.store.sets[(0 : SetId)] 5 = some 0 ∧ findWay s.store.sets[(0 : SetId)] 6 = none) ∧
    (let s := storing { stock with captures := List.replicate 8 ⟨1, 0, 0, [], 0⟩ }
     8 ≤ candidateCaptures s) ∧
    (let s := storing { stock with captures := [⟨1, 0, 0, [], 0⟩] }
     0 < candidateCaptures s ∧ s.store.fills = []) ∧
    (let s := storing { stock with fills := [⟨0, 0, 0, 5, 1⟩], captures := [⟨1, 0, 0, [], 0⟩] }
     0 < candidateCaptures s ∧ s.store.fills = [⟨0, 0, 0, 5, 1⟩] ∧ s.blk.count ≤ 1) ∧
    (let s := storing { stock with host := some ⟨.read 0 1 63, 0⟩ }
     candidateCaptures s = 0 ∧ s.store.fills = [] ∧ s.store.host = some ⟨.read 0 1 63, 0⟩) ∧
    (storing { stock with host := some ⟨.commit 127 32 0 0, 1⟩ }).store.host =
      some ⟨.commit 127 32 0 0, 1⟩ ∧ (storing stock).store.host = none ∧
    (∀ g : Fin 2, (storing { stock with port := some ⟨.read 0, 0, 0, false, g⟩ }).store.port =
      some ⟨.read 0, 0, 0, false, g⟩) ∧
    (storing stock).blk.count ≤ 1 ∧ (0 : Nat) < (storing stock).blk.count := by decide

theorem witness_FillCompletion :
    (∀ st : Store, AtBoundary (storing st)) ∧
    (let s := storing { stock with port := some ⟨.fill ⟨0, 0, 0, 5, 0⟩ (entryOf stocked 0 0), 0, 0,
      false, 0⟩ }
     s.resetn = true ∧ 0 < s.blk.count ∧ entryBalances (entryOf stocked 0 0) = true ∧
      s.alloc.slots[(0 : SlotId)] = .running 0 ∧ s.core.slots[(0 : SlotId)].ticket = 0 ∧
      s.core.slots[(0 : SlotId)].ticket ≠ 255 ∧ s.store.errors + 1 < 4) ∧
    entryBalances ⟨true, 5, 61, 65471, []⟩ = false := ⟨storing_stands, by decide⟩

theorem witness_StoreDisable :
    let e : Entry := ⟨true, 5, 61, 65471, []⟩
    let s := storing { stock with
      errors := 3, port := some ⟨.fill ⟨0, 0, 0, 5, 0⟩ e, 0, 0, false, 0⟩ }
    (storing { stock with host := some ⟨.read 0 0 0, 0⟩ }).store.host = some ⟨.read 0 0 0, 0⟩ ∧
      s.store.host = none ∧ s.cmd.replies.length < 7 ∧ 8 ≤ (replying 8 .portWait).cmd.replies.length ∧
      s.resetn = true ∧ s.store.port = some ⟨.fill ⟨0, 0, 0, 5, 0⟩ e, 0, 0, false, 0⟩ ∧
      0 < s.blk.count ∧ entryBalances e = false ∧ 4 ≤ s.store.errors + 1 := by decide

/-- The fourth failure disables the store and sets STORE_FAULT (R138). -/
theorem test_store_disable :
    let e : Entry := ⟨true, 5, 61, 65471, []⟩
    let t := after .storeDisable (storing { stock with
      errors := 3, port := some ⟨.fill ⟨0, 0, 0, 5, 0⟩ e, 0, 0, false, 0⟩ })
    (t.store.enabled, t.store.errors, t.ev.status, t.core.slots[(0 : SlotId)].ticket,
      (entryOf t 0 0).valid) = (false, 4, 2, 1, false) := by decide +kernel

/-- A part at boundary 1 with a capture record waiting and a capture transfer granted at boundary `g`. -/
def busy (g : Nat) : State := storing { stock with
  captures := [⟨1, 5, 60, [], 0⟩], port := some ⟨.capture ⟨0, 5, 60, [], 0⟩, 0, 1, false, g⟩ }

/-- The set and the boundary of the transfer that the port holds, and whether way 1 of set 0 is valid. -/
def portSeen (s : State) : Option (Nat × Nat) × Bool :=
  (s.store.port.map fun x => (x.set.val, x.granted), (entryOf s 0 1).valid)

/-- A transfer granted at a boundary does not complete at it, and the port grants nothing beside it; at the next
boundary it completes, and the port grants again (R127). -/
theorem test_port_busy :
    [portSeen (after .portGrant (busy 1)), portSeen (after .captureCompletion (busy 1)),
      portSeen (after .portGrant (busy 0)), portSeen (after .captureCompletion (busy 0))] =
    [(some (0, 1), false), (some (0, 1), false), (some (1, 1), true), (none, true)] := by
  decide +kernel

theorem witness_OtherCompletions :
    (storing { stock with port := some ⟨.capture ⟨0, 5, 60, [], 0⟩, 0, 1, true, 0⟩ }).store.port =
      some ⟨.capture ⟨0, 5, 60, [], 0⟩, 0, 1, true, 0⟩ ∧
    isCapture ⟨.capture ⟨0, 5, 60, [], 0⟩, 0, 1, true, 0⟩ = true ∧
    isCommit ⟨.commit 5 60 0, 0, 1, true, 0⟩ = true ∧ isRead ⟨.read 0, 0, 1, true, 0⟩ = true ∧
    isFill ⟨.read 0, 0, 1, true, 0⟩ = false ∧ isCapture ⟨.read 0, 0, 1, true, 0⟩ = false ∧
    isCommit ⟨.read 0, 0, 1, true, 0⟩ = false ∧ isRead ⟨.commit 5 60 0, 0, 1, true, 0⟩ = false ∧
    (storing stock).store.port = none ∧
    (storing { stock with port := some ⟨.commit 5 60 0, 0, 1, false, 0⟩ }).store.port =
      some ⟨.commit 5 60 0, 0, 1, false, 0⟩ ∧
    (entryOf (storing { stock with port := some ⟨.read 0, 0, 0, false, 0⟩ }) 0 0).valid = true ∧
    (entryOf stocked 0 1).valid = false ∧ entryBalances (entryOf stocked 0 0) = true ∧
    (let s := setEntry 0 0 ⟨true, 5, 61, 65471, []⟩ stocked
     (entryOf s 0 0).valid = true ∧ entryBalances (entryOf s 0 0) = false) := by decide

theorem witness_CommandNotTaken :
    ¬ AtBoundary State.reset ∧ boundaryRow .run = true ∧ boundaryRow (.warmupEnd 0) = true ∧
      State.reset.cmd.turn = false ∧
      taken .run = some (kindIs 0x02) ∧ (replying 0 .portWait).cmd.state ≠ .idle ∧
      8 ≤ (replying 8 .idle).cmd.replies.length ∧ State.reset.cmd.queue = [] ∧
      (holding ⟨0x03, []⟩).cmd.queue = [⟨0x03, []⟩] ∧ kindIs 0x02 ⟨0x03, []⟩ = false := by
  refine ⟨fun h => absurd h.frame (by decide), rfl, rfl, rfl, rfl, by decide, by decide, rfl, rfl,
    by decide⟩

/-- Any message at the head of the queue of a part at its first boundary stands ready to be taken. -/
theorem holding_ready (m : Msg) : Ready (holding m) m [] :=
  ready_of _ _ rfl rfl rfl rfl rfl rfl rfl

/-- A part in RUNNING with a message at the head of its queue. -/
def runningWith (m : Msg) : State :=
  { lingering with cmd := { lingering.cmd with queue := [m] } }

theorem runningWith_ready (m : Msg) : Ready (runningWith m) m [] :=
  ready_of _ _ rfl rfl rfl rfl rfl rfl rfl

theorem witness_CommandRefused :
    catalogue 0x46 = none ∧ (5 : Nat) < (6 : Byte).toNat ∧ (5 : Byte).toNat ≤ 5 ∧
      (runningWith ⟨0x04, [5]⟩).cmd.op = .running ∧ (holding ⟨0x04, [5]⟩).cmd.op = .config ∧
      (draining 0).alloc.slots[(5 : SlotId)] = .draining 9 32 60 ∧ 1 < (2 : Byte).toNat ∧
      2 < (3 : Byte).toNat ∧ 127 < (128 : Byte).toNat ∧ 63 < (64 : Byte).toNat ∧
      32 < (33 : Byte).toNat ∧ (setEnabled false State.reset).store.enabled = false ∧
      State.reset.cmd.loadWritten ≠ BitVec.allOnes 64 ∧
      balances [] 5 60 (BitVec.ofNat 16 (256 * 0xFF + 0xBE)) = false := by
  refine ⟨rfl, ?_⟩
  decide

theorem witness_RunAndTailTaken :
    Ready (holding ⟨0x02, []⟩) ⟨0x02, []⟩ [] ∧ (holding ⟨0x02, []⟩).cmd.op = .config ∧
      Ready (runningWith ⟨0x02, []⟩) ⟨0x02, []⟩ [] ∧ (runningWith ⟨0x02, []⟩).cmd.op = .running ∧
      Ready (holding ⟨0x04, [5]⟩) ⟨0x04, [5]⟩ [] ∧ (5 : Byte).toNat < 6 ∧
      ∀ sl : SlotId, (holding ⟨0x04, [5]⟩).alloc.slots[sl] = .free :=
  ⟨holding_ready _, rfl, runningWith_ready _, rfl, holding_ready _, by decide, by
    intro sl; simp [holding, standing, State.reset, Allocator.powerOn]⟩

theorem witness_StopTaken :
    Ready lingering ⟨0x03, []⟩ [] ∧ lingering.cmd.op = .running ∧ PoolSound lingering ∧
      lingering.alloc.slots[(0 : SlotId)] = .running 0 ∧ Eligible lingering 0 0 ∧
      lingering.store.captures.length < 8 ∧ ¬ Eligible (setEnabled false lingering) 0 0 ∧
      Ready (holding ⟨0x03, []⟩) ⟨0x03, []⟩ [] ∧ (holding ⟨0x03, []⟩).cmd.op = .config :=
  ⟨ready_of _ _ rfl rfl rfl rfl rfl rfl rfl, rfl, lingering_pool, by decide,
    ⟨rfl, by decide, rfl⟩, by decide, fun h => absurd h.store (by decide), holding_ready _, rfl⟩

theorem witness_SoftResetTaken :
    Ready (runningWith ⟨0x05, [1]⟩) ⟨0x05, [1]⟩ [] ∧ (1 : Byte).toNat ≤ 1 ∧
      (runningWith ⟨0x05, [1]⟩).out.current.index = (runningWith ⟨0x05, [1]⟩).blk.count ∧
      47 / 48 + 1 = (runningWith ⟨0x05, [1]⟩).blk.count ∧
      Ready (holding ⟨0x05, [0]⟩) ⟨0x05, [0]⟩ [] ∧ (0 : Byte).toNat ≤ 1 :=
  ⟨runningWith_ready _, by decide, rfl, rfl, holding_ready _, by decide⟩

/-- A message of each header test of a TABLE WRITE (R174), in order, and one that passes. -/
theorem witness_TableWritten :
    (∀ m : Msg, Ready (holding m) m []) ∧ ([1, 0, 1] : List Byte).length < 4 ∧
      (8 : Nat) < (9 : Byte).toNat ∧ ([7, 0, 1, 3] : List Byte).getD 0 0 = tableId .meter ∧
      (5 : Byte).toNat ≠ writeSize .meter ∧ tableEntries .meter ≤ (4 : Byte).toNat ∧
      ([7, 3, 2, 3, 0, 0, 0] : List Byte).length ≠ 4 + 2 * writeSize .meter ∧
      ([7, 3, 0, 3, 0, 0, 0] : List Byte).length =
        4 + (tableEntries .meter - 3) * writeSize .meter :=
  ⟨holding_ready, by decide, by decide, by decide, by decide, by decide, by decide, by decide⟩

theorem witness_TableEntryWritten :
    15 < 16 ∧ 7 < 8 ∧ 127 < 128 ∧ 11 < 12 ∧ 25 < 26 ∧ 16 < 17 ∧ 3 < 4 ∧ 1 < 2 ∧ (25 ≠ 24) ∧
      tableEntries .monitor ≤ 2 := by decide

/-- One entry of each size, the last of its payload (R38, R66, R95, R168). -/
theorem test_last_entry :
    ((writeEntry .pairmask 127 [1] State.reset).map fun x => x.1.alloc.mask[(127 : PairId)],
      (writeEntry .step 11 [0xFF] State.reset).map fun x => x.1.core.step[11],
      (writeEntry .threshold 16 [30] State.reset).map fun x => x.1.ctl.thresholds[16],
      (writeEntry .tuning 25 [0, 9] State.reset).map fun x => (x.1.cmd.tuning[25], x.2)) =
    (some true, some 0xFF, some 30, some (8, true)) := by decide

/-- A part in RUNNING whose slots of the pool all are RUNNING for pair 0, with a PREEMPT policy and a message
that makes pair 8, the first of beam 1, wanted. -/
def crowded : State :=
  let s := runningWith ⟨0x10, [3, 8, 1, 1, 1]⟩
  { s with
    alloc := { s.alloc with slots := Vector.replicate 128 (.running 0) }
    blk := { s.blk with tuning := s.blk.tuning.set 24 1 } }

theorem witness_DelayChanged :
    pairRef 8 = 0 ∧ pairRef 9 ≠ 0 ∧ (draining 0).alloc.slots[(5 : SlotId)] = .draining 9 32 60 ∧
    Ready (runningWith ⟨0x10, [2, 0, 1, 3, 1, 7, 63]⟩) ⟨0x10, [2, 0, 1, 3, 1, 7, 63]⟩ [] ∧
    refModeCode .on = 1 ∧ meterCode none = 7 ∧ (63 : Byte).toNat ≠ 0 ∧
    (∀ q : RefId, lingering.tracker.refs[q].mode ≠ .off) ∧
    PoolSound (runningWith ⟨0x10, [1, 0, 1, 3, 0, 0, 0]⟩) ∧ tableId .beam = 1 ∧
    Ready (runningWith ⟨0x10, [3, 8, 1, 1, 1]⟩) ⟨0x10, [3, 8, 1, 1, 1]⟩ [] ∧
    lingering.alloc.mask[(8 : PairId)] = false ∧ lingering.router.beams[pairBeam 8].mode = .cancel ∧
    lingering.tracker.refs[pairRef 8].mode ≠ .off ∧
    lingering.tracker.refs[pairRef 8].activity ≠ .silent ∧
    lingering.alloc.pairs[(8 : PairId)] = .none ∧ lingering.alloc.slots[(1 : SlotId)] = .free ∧
    (∀ lower : SlotId, lower < 1 → lingering.alloc.slots[lower] ≠ .free) ∧
    Ready crowded ⟨0x10, [3, 8, 1, 1, 1]⟩ [] ∧
    (∀ sl : SlotId, sl.val < slotCount crowded → crowded.alloc.slots[sl] ≠ .free) ∧
    poolPolicy crowded.blk.tuning = 1 ∧ poolPolicy lingering.blk.tuning = 0 ∧
    (handed crowded (pairRef 0)).1 = .linger ∧
    crowded.alloc.waiting ++ [8] ++ [0] = 8 :: [0] ∧ Eligible crowded 0 0 := by
  have p := lingering_pool
  refine ⟨by decide, by decide, by decide, runningWith_ready _, rfl, rfl, by decide, by decide,
    ⟨⟨p.agrees.held, p.agrees.waiting, p.agrees.once, p.agrees.inPool⟩,
      ⟨p.config.slots, p.config.waiting⟩, p.served, ⟨p.none.free, p.none.bound⟩⟩,
    rfl, runningWith_ready _, by decide, by decide, by decide, by decide, by decide, by decide,
    by decide, ready_of _ _ rfl rfl rfl rfl rfl rfl rfl, by decide +kernel, by decide, by decide,
    by decide, rfl, ⟨rfl, by decide, rfl⟩⟩

theorem witness_ReportsTaken :
    (∀ m : Msg, Ready (holding m) m []) ∧ (15 : Byte).toNat + (1 : Byte).toNat ≤ 16 ∧
      (47 : Byte).toNat + (1 : Byte).toNat ≤ slotCount (holding ⟨0x29, [47, 1]⟩) ∧
      (127 : Byte).toNat < tableEntries .pairmask ∧
      (127 : Byte).toNat + 1 ≤ tableEntries .pairmask ∧ ([0] : List Byte) ≠ [] ∧
      15 < (16 : Byte).toNat ∧ 16 < (15 : Byte).toNat + (2 : Byte).toNat ∧ 16 < (17 : Byte).toNat ∧
      slotCount (holding ⟨0x29, [47, 2]⟩) < (47 : Byte).toNat + (2 : Byte).toNat ∧
      8 < (9 : Byte).toNat ∧ tableEntries .monitor < (1 : Byte).toNat + (2 : Byte).toNat :=
  ⟨holding_ready, by decide⟩

theorem witness_EventAndFreezeTaken :
    (∀ m : Msg, Ready (holding m) m []) ∧ ([0] : List Byte) ≠ [] ∧ (2 : Byte).toNat ≤ 2 ∧
      (1 : Byte).toNat ≤ 1 ∧
      (256 * (0x80 : Byte).toNat + (0 : Byte).toNat).testBit 15 = true ∧
      (256 * (0x80 : Byte).toNat + (0 : Byte).toNat).testBit 0 = false :=
  ⟨holding_ready, by decide⟩

theorem witness_StoreCommandsTaken :
    Ready (holding ⟨0x41, []⟩) ⟨0x41, []⟩ [] ∧ Ready (holding ⟨0x40, []⟩) ⟨0x40, []⟩ [] ∧
      Ready (holding ⟨0x42, [0x80, 0, 0x80]⟩) ⟨0x42, [0x80, 0, 0x80]⟩ [] :=
  ⟨holding_ready _, holding_ready _, holding_ready _⟩

/-- A part with an all-zero head loaded and a message at the head of its queue. -/
def loaded (m : Msg) : State := setWritten (BitVec.allOnes 64) (holding m)

theorem witness_EntryCommandsTaken :
    (List.replicate 108 (0 : Byte)).length = 108 ∧ (63 : Byte).toNat ≤ 63 ∧
      Ready (holding ⟨0x44, 63 :: List.replicate 108 0⟩) ⟨0x44, 63 :: List.replicate 108 0⟩ [] ∧
      (127 : Byte).toNat < 128 ∧ (1 : Byte).toNat < 2 ∧
      Ready (holding ⟨0x43, [127, 1, 63]⟩) ⟨0x43, [127, 1, 63]⟩ [] ∧
      (holding ⟨0x43, [127, 1, 63]⟩).store.enabled = true ∧
      Ready (loaded ⟨0x45, [0x14, 5, 0x3C, 0xFF, 0xBF]⟩) ⟨0x45, [0x14, 5, 0x3C, 0xFF, 0xBF]⟩ [] ∧
      (loaded ⟨0x45, [0x14, 5, 0x3C, 0xFF, 0xBF]⟩).cmd.loadWritten = BitVec.allOnes 64 ∧
      balances [] 5 60 (BitVec.ofNat 16 (256 * 0xFF + 0xBF)) = true :=
  ⟨by decide, by decide, holding_ready _, by decide, by decide, holding_ready _, rfl,
    ready_of _ _ rfl rfl rfl rfl rfl rfl rfl, rfl, by decide⟩

end Sys2Proof.Tests
end

