-- ==== Sys2Proof/Proofs/Quiet.lean ====
section
/-! PROOF. What the operations of the pool leave to the host: `Quiet s t` says that the Controller's beam records,
the unit's state and the host's access to the store port stand as before, that no slot's counter has grown, and
that the reply queue has at most gained notices of POOL_FULL and CAPTURE_DROPPED. With `PoolFrame` (Laws/Frames)
it says all that the invariants of settings and counters, and the statements on the taking of a command, need of
an operation of the Pair Allocator. -/

namespace Sys2Proof.Machine

/-- How many of the two sources that the pool reports are clear: each can still raise one notice (R183). -/
def poolSourcesClear (s : State) : Nat :=
  (!inSet s.ev.status (sourceBit .poolFull)).toNat + (!inSet s.ev.status (sourceBit .captureDropped)).toNat

/-- What an operation of the Pair Allocator leaves unchanged of the Controller's counters, of the Command Unit and
of the host's access to the store port. -/
structure Quiet (s t : State) : Prop where
  beams : t.ctl.beams = s.ctl.beams
  counters : ∀ sl : SlotId, t.ctl.slots[sl].run ≤ s.ctl.slots[sl].run ∧
    t.ctl.slots[sl].counter ≤ s.ctl.slots[sl].counter
  state : t.cmd.state = s.cmd.state
  mode : t.ev.mode = s.ev.mode
  replies : s.cmd.replies <+: t.cmd.replies
  silent : s.ev.mode = .none → t.cmd.replies = s.cmd.replies
  notices : t.cmd.replies.length + poolSourcesClear t ≤ s.cmd.replies.length + poolSourcesClear s
  host : t.store.host = s.store.host
  cargo : t.store.port.map (·.cargo) = s.store.port.map (·.cargo)

theorem Quiet.refl (s : State) : Quiet s s :=
  ⟨rfl, fun _ => ⟨le_rfl, le_rfl⟩, rfl, rfl, List.prefix_rfl, fun _ => rfl, le_rfl, rfl, rfl⟩

theorem Quiet.trans {s t u : State} (h : Quiet s t) (k : Quiet t u) : Quiet s u where
  beams := k.beams.trans h.beams
  counters sl := ⟨(k.counters sl).1.trans (h.counters sl).1, (k.counters sl).2.trans (h.counters sl).2⟩
  state := k.state.trans h.state
  mode := k.mode.trans h.mode
  replies := h.replies.trans k.replies
  silent e := (k.silent (h.mode.trans e)).trans (h.silent e)
  notices := k.notices.trans h.notices
  host := k.host.trans h.host
  cargo := k.cargo.trans h.cargo

/-- A fold of quiet operations is quiet. -/
theorem Quiet.foldl {α : Type} (f : State → α → State) (h : ∀ s x, Quiet s (f s x)) (l : List α)
    (s : State) : Quiet s (l.foldl f s) := by
  induction l generalizing s with
  | nil => exact Quiet.refl s
  | cons x l ih => exact (h s x).trans (ih _)

/-- An operation that leaves the Controller, the Command Unit, the event records, the host's access and the
transfer in flight as they are is quiet. -/
theorem Quiet.of_same {s t : State} (ctl : t.ctl = s.ctl) (cmd : t.cmd = s.cmd) (ev : t.ev = s.ev)
    (host : t.store.host = s.store.host)
    (cargo : t.store.port.map (·.cargo) = s.store.port.map (·.cargo)) : Quiet s t where
  beams := by rw [ctl]
  counters sl := by rw [ctl]; exact ⟨le_rfl, le_rfl⟩
  state := by rw [cmd]
  mode := by rw [ev]
  replies := by rw [cmd]
  silent _ := by rw [cmd]
  notices := by rw [poolSourcesClear, poolSourcesClear, cmd, ev]
  host := host
  cargo := cargo

/-! ### Setters -/

theorem setSlotState_quiet (sl : SlotId) (st : SlotState) (s : State) : Quiet s (setSlotState sl st s) :=
  .of_same rfl rfl rfl rfl rfl

theorem setPair_quiet (p : PairId) (e : PairEntry) (s : State) : Quiet s (setPair p e s) :=
  .of_same rfl rfl rfl rfl rfl

theorem setWaiting_quiet (w : List PairId) (s : State) : Quiet s (setWaiting w s) :=
  .of_same rfl rfl rfl rfl rfl

theorem setCoreSlot_quiet (sl : SlotId) (x : CoreSlot) (s : State) : Quiet s (setCoreSlot sl x s) :=
  .of_same rfl rfl rfl rfl rfl

theorem setMem_quiet (m : TapMem) (s : State) : Quiet s (setMem m s) := .of_same rfl rfl rfl rfl rfl

theorem setFills_quiet (q : List FillReq) (s : State) : Quiet s (setFills q s) :=
  .of_same rfl rfl rfl rfl rfl

theorem setCaptures_quiet (q : List CaptureRec) (s : State) : Quiet s (setCaptures q s) :=
  .of_same rfl rfl rfl rfl rfl

theorem setSets_quiet (x : Vector StoreSet 128) (s : State) : Quiet s (setSets x s) :=
  .of_same rfl rfl rfl rfl rfl

theorem setEntry_quiet (p : SetId) (w : WayId) (e : Entry) (s : State) : Quiet s (setEntry p w e s) :=
  .of_same rfl rfl rfl rfl rfl

theorem setLru_quiet (p : SetId) (w : WayId) (s : State) : Quiet s (setLru p w s) :=
  .of_same rfl rfl rfl rfl rfl

theorem setErrors_quiet (n : Nat) (s : State) : Quiet s (setErrors n s) := .of_same rfl rfl rfl rfl rfl

theorem setEnabled_quiet (on : Bool) (s : State) : Quiet s (setEnabled on s) :=
  .of_same rfl rfl rfl rfl rfl

theorem setFirstError_quiet (e : Option FirstError) (s : State) : Quiet s (setFirstError e s) :=
  .of_same rfl rfl rfl rfl rfl

theorem markCold_quiet (sl : SlotId) (s : State) : Quiet s (markCold sl s) := .of_same rfl rfl rfl rfl rfl

theorem markReset_quiet (sl : SlotId) (s : State) : Quiet s (markReset sl s) :=
  .of_same rfl rfl rfl rfl rfl

theorem unmarkReset_quiet (sl : SlotId) (s : State) : Quiet s (unmarkReset sl s) :=
  .of_same rfl rfl rfl rfl rfl

theorem zeroSlot_quiet (sl : SlotId) (s : State) : Quiet s (zeroSlot sl s) := .of_same rfl rfl rfl rfl rfl

theorem raiseTicket_quiet (sl : SlotId) (s : State) : Quiet s (raiseTicket sl s) :=
  .of_same rfl rfl rfl rfl rfl

/-- A slot record whose counters are no larger than those it replaces is written quietly. -/
theorem setCtlSlot_quiet (sl : SlotId) (x : CtlSlot) (s : State) (run : x.run ≤ s.ctl.slots[sl].run)
    (counter : x.counter ≤ s.ctl.slots[sl].counter) : Quiet s (setCtlSlot sl x s) where
  beams := rfl
  counters o := by
    by_cases h : sl.val = o.val
    · obtain rfl : sl = o := Fin.ext h
      simpa [setCtlSlot] using ⟨run, counter⟩
    · simp [setCtlSlot, h]
  state := rfl
  mode := rfl
  replies := List.prefix_rfl
  silent _ := rfl
  notices := le_rfl
  host := rfl
  cargo := rfl

theorem setPhaseRun_quiet (sl : SlotId) (ph : Phase) (s : State) : Quiet s (setPhaseRun sl ph s) :=
  (setCtlSlot_quiet sl ⟨ph, 0, 0⟩ s (Nat.zero_le _) (Nat.zero_le _)).trans (.of_same rfl rfl rfl rfl rfl)

theorem setPhaseKeepRun_quiet (sl : SlotId) (ph : Phase) (s : State) :
    Quiet s (setPhaseKeepRun sl ph s) :=
  (setCtlSlot_quiet sl { s.ctl.slots[sl] with phase := ph, counter := 0 } s le_rfl (Nat.zero_le _)).trans
    (.of_same rfl rfl rfl rfl rfl)

/-! ### Notices (R183) -/

/-- A report adds its source to the status set, and to the reply queue at most one notice: none in mode NONE, none
where the source was set. -/
theorem reportSource_cases (src : Source) (s : State) :
    ∃ n : List Msg, n.length ≤ 1 ∧
      (inSet s.ev.status (sourceBit src) = true ∨ s.ev.mode = .none → n = []) ∧
      reportSource src s = { s with
        cmd := { s.cmd with replies := s.cmd.replies ++ n }
        ev := { s.ev with status := setInsert s.ev.status (sourceBit src) } } := by
  unfold reportSource appendNotice
  dsimp only
  split
  · next raised =>
    split
    · refine ⟨[_], le_rfl, fun h => ?_, rfl⟩
      rcases h with h | h
      · simp [h] at raised
      · simp [h, noticeAllowed] at raised
    · exact ⟨[], by simp, fun _ => rfl, by simp⟩
  · exact ⟨[], by simp, fun _ => rfl, by simp⟩

/-- A source joins the status set, and the others stand as before. -/
theorem inSet_setInsert {w : Nat} (set : BitVec w) (i j : Nat) (h : j < w) :
    inSet (setInsert set i) j = (inSet set j || decide (i = j)) := by
  unfold inSet setInsert
  rw [BitVec.getLsbD_or, BitVec.getLsbD_ofNat, Nat.testBit_two_pow]
  simp [h]

theorem reportSource_quiet (src : Source) (s : State) (h : src = .poolFull ∨ src = .captureDropped) :
    Quiet s (reportSource src s) := by
  obtain ⟨n, short, none, e⟩ := reportSource_cases src s
  rw [e]
  refine ⟨rfl, fun _ => ⟨le_rfl, le_rfl⟩, rfl, rfl, List.prefix_append _ _, fun hm => ?_, ?_, rfl, rfl⟩
  · simp [none (.inr hm)]
  · have grown : n.length + poolSourcesClear { s with
        ev := { s.ev with status := setInsert s.ev.status (sourceBit src) } } ≤ poolSourcesClear s := by
      cases was : inSet s.ev.status (sourceBit src)
      · rcases h with rfl | rfl <;>
          simp [poolSourcesClear, inSet_setInsert, sourceBit, sourceCode] at was ⊢ <;> simp [was, short]; omega
      · rw [none (.inl was)]
        rcases h with rfl | rfl <;>
          simp [poolSourcesClear, inSet_setInsert, sourceBit, sourceCode] at was ⊢
    simp only [List.length_append, Nat.add_assoc]
    exact Nat.add_le_add_left grown _

/-! ### Lookups, assignment, release -/

theorem lookup_quiet (sl : SlotId) (p : SetId) (tag : Nat) (s : State) : Quiet s (lookup sl p tag s) := by
  unfold lookup; split
  · exact setFills_quiet _ s
  · exact .refl s

theorem coldSlot_quiet (sl : SlotId) (s : State) : Quiet s (coldSlot sl s) :=
  ((zeroSlot_quiet sl s).trans (raiseTicket_quiet sl _)).trans
    ((setCoreSlot_quiet sl _ _).trans ((setPhaseRun_quiet sl .warmup _).trans (markCold_quiet sl _)))

theorem assignSlot_quiet (sl : SlotId) (p : PairId) (s : State) : Quiet s (assignSlot sl p s) :=
  ((setSlotState_quiet sl _ s).trans (setPair_quiet p _ _)).trans
    ((coldSlot_quiet sl _).trans ((setCoreSlot_quiet sl _ _).trans
      ((unmarkReset_quiet sl _).trans (lookup_quiet sl p _ _))))

theorem giveToWaiter_quiet (sl : SlotId) (s : State) : Quiet s (giveToWaiter sl s) := by
  unfold giveToWaiter; split
  · exact .refl s
  · exact (setWaiting_quiet _ s).trans (assignSlot_quiet sl _ _)

theorem freeSlot_quiet (sl : SlotId) (p : PairId) (s : State) : Quiet s (freeSlot sl p s) :=
  ((setPair_quiet p _ s).trans (setSlotState_quiet sl _ _)).trans (giveToWaiter_quiet sl _)

theorem pushCapture_quiet (sl : SlotId) (p : SetId) (tag q : Nat) (s : State) :
    Quiet s (pushCapture sl p tag q s) := setCaptures_quiet _ s

theorem releaseSlot_quiet (sl : SlotId) (p : PairId) (s : State) : Quiet s (releaseSlot sl p s) := by
  unfold releaseSlot; dsimp only; split
  · split
    · exact ((raiseTicket_quiet sl s).trans (pushCapture_quiet _ _ _ _ _)).trans (freeSlot_quiet _ _ _)
    · exact (raiseTicket_quiet sl s).trans (setSlotState_quiet _ _ _)
  · exact (raiseTicket_quiet sl s).trans (freeSlot_quiet _ _ _)

theorem roomReport_quiet (s : State) : Quiet s (roomReport s) := by
  unfold roomReport; split
  · split
    · exact (pushCapture_quiet _ _ _ _ s).trans (freeSlot_quiet _ _ _)
    · exact .refl s
  · exact .refl s

theorem roomReports_quiet (n : Nat) (s : State) : Quiet s (roomReports n s) :=
  .foldl _ (fun s _ => roomReport_quiet s) _ s

theorem freeDraining_quiet (which : SetId → Bool) (s : State) : Quiet s (freeDraining which s) := by
  refine .foldl _ (fun s sl => ?_) _ s
  split
  · split
    · exact freeSlot_quiet _ _ _
    · exact .refl s
  · exact .refl s
  · exact .refl s

theorem captureOrDrop_quiet (sl : SlotId) (p : PairId) (tag : Nat) (s : State) :
    Quiet s (captureOrDrop sl p tag s) := by
  unfold captureOrDrop; split
  · split
    · exact pushCapture_quiet _ _ _ _ s
    · exact reportSource_quiet _ s (.inr rfl)
  · exact .refl s

theorem preemptSlot_quiet (sl : SlotId) (q : PairId) (s : State) : Quiet s (preemptSlot sl q s) :=
  ((captureOrDrop_quiet sl q _ s).trans (raiseTicket_quiet sl _)).trans
    (((setPair_quiet q _ _).trans (setSlotState_quiet sl _ _)).trans
      ((setWaiting_quiet _ _).trans (giveToWaiter_quiet sl _)))

/-! ### Changes of wanted-ness -/

theorem unwantPair_quiet (p : PairId) (s : State) : Quiet s (unwantPair p s) := by
  unfold unwantPair; split
  · exact .refl s
  · exact (setWaiting_quiet _ s).trans (setPair_quiet p _ _)
  · split
    · exact releaseSlot_quiet _ _ s
    · exact .refl s
    · exact .refl s

theorem joinWait_quiet (p : PairId) (s : State) : Quiet s (joinWait p s) := by
  unfold joinWait; dsimp only
  have h : Quiet s (reportSource .poolFull
      (setPair p .waiting (setWaiting (s.alloc.waiting ++ [p]) s))) :=
    ((setWaiting_quiet _ s).trans (setPair_quiet p _ _)).trans (reportSource_quiet _ _ (.inl rfl))
  split
  · split
    · exact h.trans (preemptSlot_quiet _ _ _)
    · exact h
  · exact h

theorem wantPair_quiet (p : PairId) (s : State) : Quiet s (wantPair p s) := by
  unfold wantPair; split
  · split
    · exact setSlotState_quiet _ _ s
    · exact .refl s
    · exact .refl s
  · exact .refl s
  · split
    · exact assignSlot_quiet _ _ s
    · exact joinWait_quiet _ s

theorem changePairs_quiet (was : Vector Bool 128) (s : State) : Quiet s (changePairs was s) := by
  unfold changePairs; dsimp only
  refine (Quiet.foldl _ (fun s p => ?_) _ s).trans (.foldl _ (fun s p => ?_) _ _)
  · split
    · exact unwantPair_quiet p s
    · exact .refl s
  · split
    · exact wantPair_quiet p s
    · exact .refl s

theorem allocEvent_quiet (was : Vector Bool 128) (s : State) : Quiet s (allocEvent was s) :=
  (changePairs_quiet was s).trans (setFills_quiet _ _)

theorem stopPool_quiet (s : State) : Quiet s (stopPool s) :=
  ((Quiet.foldl _ (fun s p => setPair_quiet p _ s) _ s).trans (setWaiting_quiet _ _)).trans
    (.foldl _ (fun s p => unwantPair_quiet p s) _ _)

/-! ### Zone changes and cold resets -/

theorem zoneSlot_quiet (old new : Nat) (sl : SlotId) (p : PairId) (s : State) :
    Quiet s (zoneSlot old new sl p s) := by
  refine ((captureOrDrop_quiet sl p old s).trans (raiseTicket_quiet sl _)).trans ?_
  unfold zoneSlot zoneLookup; split
  · exact setFills_quiet _ _
  · split
    · exact .refl _
    · exact (setCoreSlot_quiet _ _ _).trans (setPhaseKeepRun_quiet _ _ _)

theorem zoneChange_quiet (b : BeamId) (old new : Nat) (s : State) : Quiet s (zoneChange b old new s) := by
  refine .foldl _ (fun s sl => ?_) _ s
  split
  · split
    · exact zoneSlot_quiet _ _ _ _ s
    · exact .refl s
  · exact .refl s
  · exact .refl s

theorem resetSlot_quiet (sl : SlotId) (p : PairId) (s : State) : Quiet s (resetSlot sl p s) := by
  unfold resetSlot; split
  · exact .refl s
  · exact ((coldSlot_quiet sl s).trans (markReset_quiet sl _)).trans (lookup_quiet sl p _ _)

theorem resetSlots_quiet (which : SlotId → PairId → Bool) (s : State) : Quiet s (resetSlots which s) := by
  refine .foldl _ (fun s sl => ?_) _ s
  split
  · split
    · exact resetSlot_quiet _ _ s
    · exact .refl s
  · exact .refl s
  · exact .refl s

theorem resetReference_quiet (r : RefId) (s : State) : Quiet s (resetReference r s) := by
  refine .foldl _ (fun s sl => ?_) _ s
  split
  · split
    · exact coldSlot_quiet _ s
    · exact .refl s
  · exact .refl s
  · exact .refl s

/-! ### Invalidation, and the port's operations on what is not the host's -/

theorem abandonTransfer_quiet (which : SetId → Bool) (s : State) : Quiet s (abandonTransfer which s) := by
  unfold abandonTransfer; split
  · next t h =>
    split
    · exact .of_same rfl rfl rfl rfl (by simp [setPort, h])
    · exact .refl s
  · exact .refl s

theorem invalidateSets_quiet (which : SetId → Bool) (s : State) : Quiet s (invalidateSets which s) := by
  unfold invalidateSets; dsimp only
  refine Quiet.trans ?_ (abandonTransfer_quiet _ _)
  refine Quiet.trans ?_ (roomReports_quiet _ _)
  refine Quiet.trans ?_ (setFills_quiet _ _)
  refine Quiet.trans ?_ (setCaptures_quiet _ _)
  exact (freeDraining_quiet which s).trans (setSets_quiet _ _)

theorem delayChange_quiet (r : RefId) (s : State) : Quiet s (delayChange r s) :=
  (resetReference_quiet r s).trans (invalidateSets_quiet _ _)

theorem installHead_quiet (sl : SlotId) (h : Head) (s : State) : Quiet s (installHead sl h s) :=
  (setMem_quiet _ s).trans ((setCoreSlot_quiet sl _ _).trans (setPhaseRun_quiet sl .tracking _))

theorem latchError_quiet (e : FirstError) (s : State) : Quiet s (latchError e s) := by
  unfold latchError; split
  · exact setFirstError_quiet _ s
  · exact .refl s

theorem raiseNamed_quiet (failing : SlotId) (s : State) : Quiet s (raiseNamed failing s) := by
  refine .foldl _ (fun s sl => ?_) _ s
  split
  · exact raiseTicket_quiet sl s
  · exact .refl s

theorem emptyCaptures_quiet (s : State) : Quiet s (emptyCaptures s) :=
  (setCaptures_quiet _ s).trans (roomReports_quiet _ _)

theorem invalidateAll_quiet (s : State) : Quiet s (invalidateAll s) := setSets_quiet _ s

theorem invalidateEntry_quiet (p : SetId) (w : WayId) (s : State) : Quiet s (invalidateEntry p w s) :=
  setEntry_quiet p w _ s

theorem reserveWay_quiet (p : SetId) (w : WayId) (tag : Nat) (s : State) : Quiet s (reserveWay p w tag s) :=
  setEntry_quiet p w _ s

theorem writeWay_quiet (p : SetId) (w : WayId) (e : Entry) (s : State) : Quiet s (writeWay p w e s) :=
  (setEntry_quiet p w e s).trans (setLru_quiet p w _)

theorem disturbEntry_quiet (p : SetId) (w : WayId) (cells : List (Fin 1536 × Tap)) (q : Byte)
    (check : BitVec 16) (s : State) : Quiet s (disturbEntry p w cells q check s) := by
  unfold disturbEntry; dsimp only; split
  · exact .refl s
  · exact setEntry_quiet _ _ _ s

end Sys2Proof.Machine
end

