-- ==== Sys2Proof/Proofs/Frames.lean ====
section
/-! PROOF. What a host command leaves unchanged of the links, of the queues and of the boundary's notes
(`CommandFrame`), and what every other event of a boundary leaves unchanged of them (`EventFrame`). -/

namespace Sys2Proof.Machine

/-- What a host command other than SOFT RESET leaves unchanged (R162 to R167). -/
structure CommandFrame (s t : State) : Prop where
  pending : t.pending = s.pending
  resetn : t.resetn = s.resetn
  ports : t.ports = s.ports
  queue : t.cmd.queue = s.cmd.queue
  turn : t.cmd.turn = s.cmd.turn
  blk : t.blk = { s.blk with
    phaseSet := t.blk.phaseSet, runSet := t.blk.runSet, resets := t.blk.resets
    diverged := t.blk.diverged, cold := t.blk.cold, report := t.blk.report }

theorem CommandFrame.refl (s : State) : CommandFrame s s := by constructor <;> rfl

theorem CommandFrame.trans {s t u : State} (h : CommandFrame s t) (k : CommandFrame t u) :
    CommandFrame s u where
  pending := k.pending.trans h.pending
  resetn := k.resetn.trans h.resetn
  ports := k.ports.trans h.ports
  queue := k.queue.trans h.queue
  turn := k.turn.trans h.turn
  blk := by rw [k.blk, h.blk]

theorem CommandFrame.foldl {α : Type} (f : State → α → State) (h : ∀ s x, CommandFrame s (f s x))
    (l : List α) (s : State) : CommandFrame s (l.foldl f s) := by
  induction l generalizing s with
  | nil => exact CommandFrame.refl s
  | cons x l ih => exact (h s x).trans (ih _)

theorem PoolFrame.command {s t : State} (h : PoolFrame s t) : CommandFrame s t where
  pending := h.pending
  resetn := h.resetn
  ports := h.ports
  queue := by rw [h.cmd]
  turn := by rw [h.cmd]
  blk := by rw [h.blk]

/-! ### The commands (R169) -/

theorem completeReply_command (r : Msg) (s : State) : CommandFrame s (completeReply r s) :=
  (completeReply_frame r s).command

theorem report_command (reply : Msg → State → Msg) (m : Msg) (s : State) :
    CommandFrame s (report reply m s) :=
  CommandFrame.trans (by constructor <;> rfl) (completeReply_command _ _)

theorem done_command {f : State → State} {s : State} (h : CommandFrame s (f s)) (m : Msg) :
    CommandFrame s (done f m s) := h.trans (completeReply_command _ _)

theorem withLength_command {act : Msg → State → State} {m : Msg} {s : State}
    (h : CommandFrame s (act m s)) (n : Nat) : CommandFrame s (withLength n act m s) := by
  unfold withLength; split
  · exact h
  · exact completeReply_command _ _

theorem silenceRef_command (r : RefId) (s : State) : CommandFrame s (silenceRef r s) :=
  (by constructor <;> rfl)

theorem silenceAll_command (s : State) : CommandFrame s (silenceAll s) :=
  .foldl _ (fun s r => silenceRef_command r s) _ s

theorem startRunning_command (s : State) : CommandFrame s (startRunning s) := by
  unfold startRunning; split
  · exact .refl s
  · refine CommandFrame.trans (t := silenceAll (setOp .running s)) ?_ (by constructor <;> rfl)
    exact CommandFrame.trans (by constructor <;> rfl) (silenceAll_command _)

theorem stopRunning_command (s : State) : CommandFrame s (stopRunning s) := by
  unfold stopRunning; split
  · exact .refl s
  · refine CommandFrame.trans (t := setOp .config s) (by constructor <;> rfl) ?_
    exact (silenceAll_command _).trans (stopPool_frame _).command

theorem changeTail_command (code : Fin 6) (s : State) : CommandFrame s (changeTail code s) := by
  constructor <;> rfl

theorem judgeSetTail_command (m : Msg) (s : State) : CommandFrame s (judgeSetTail m s) := by
  unfold judgeSetTail; split
  · split
    · exact completeReply_command _ s
    · split
      · exact completeReply_command _ s
      · exact done_command (changeTail_command _ s) m
  · exact completeReply_command _ s

theorem clearEvents_command (set : Byte) (s : State) : CommandFrame s (clearEvents set s) := by
  constructor <;> rfl

theorem flushStore_command (s : State) : CommandFrame s (flushStore s) := (invalidateSets_frame _ s).command

theorem enableStore_command (s : State) : CommandFrame s (enableStore s) := by constructor <;> rfl

theorem judgeEventSetup_command (m : Msg) (s : State) : CommandFrame s (judgeEventSetup m s) := by
  unfold judgeEventSetup; split
  · exact completeReply_command _ s
  · exact done_command (by constructor <;> rfl) m

theorem freezeBeam_command (on : Bool) (b : BeamId) (s : State) : CommandFrame s (freezeBeam on b s) := by
  unfold freezeBeam; dsimp only; split
  · constructor <;> rfl
  · constructor <;> rfl

theorem judgeFreeze_command (m : Msg) (s : State) : CommandFrame s (judgeFreeze m s) := by
  unfold judgeFreeze; split
  · exact completeReply_command _ s
  · refine done_command (.foldl _ (fun s b => ?_) _ s) m
    split
    · exact freezeBeam_command _ _ s
    · exact .refl s

theorem waitPort_command (a : HostAccess) (s : State) : CommandFrame s (waitPort a s) :=
  (by constructor <;> rfl)

theorem judgeEntryRead_command (m : Msg) (s : State) : CommandFrame s (judgeEntryRead m s) := by
  have refuse : ∀ st, CommandFrame s (answer m st s) := fun _ => completeReply_command _ s
  unfold judgeEntryRead; dsimp only; split
  · split
    · split
      · exact refuse _
      · split
        · exact waitPort_command _ s
        · exact refuse _
    · exact refuse _
  · exact refuse _

theorem loadChunk_command (c : Nat) (taps : List Byte) (s : State) : CommandFrame s (loadChunk c taps s) := by
  unfold loadChunk; constructor <;> dsimp only

theorem judgeEntryLoad_command (m : Msg) (s : State) : CommandFrame s (judgeEntryLoad m s) := by
  unfold judgeEntryLoad; dsimp only; split
  · exact completeReply_command _ s
  · exact done_command (loadChunk_command _ _ s) m

theorem judgeEntryCommit_command (m : Msg) (s : State) : CommandFrame s (judgeEntryCommit m s) := by
  have refuse : ∀ st, CommandFrame s (answer m st s) := fun _ => completeReply_command _ s
  unfold judgeEntryCommit; dsimp only; split
  · split
    · exact refuse _
    · split
      · exact refuse _
      · split
        · exact refuse _
        · split
          · exact refuse _
          · exact waitPort_command _ s
  · exact refuse _

/-! ### TABLE WRITE (R174 to R176) -/

theorem writeEntry_command (t : Table) (i : Nat) (p : List Byte) (s : State) {r : State × Bool}
    (h : writeEntry t i p s = some r) : CommandFrame s r.1 := by
  cases t with
  | beam =>
    simp only [writeEntry, writeBeam] at h
    split at h
    · split at h
      · cases h; constructor <;> rfl
      · cases h
    · cases h
  | reference =>
    simp only [writeEntry, writeReference] at h
    split at h
    · split at h
      · cases h; constructor <;> rfl
      · cases h
    · cases h
  | pairmask =>
    simp only [writeEntry, writePairmask] at h
    split at h
    · split at h
      · cases h; constructor <;> rfl
      · cases h
    · cases h
  | step =>
    simp only [writeEntry, writeStep] at h
    split at h
    · cases h; constructor <;> rfl
    · cases h
  | tuning =>
    have key : ∀ (h : i < 26) (x : Nat), CommandFrame s (setTuning i h x s) := fun _ _ => by
      constructor <;> rfl
    unfold writeEntry writeTuning at h
    dsimp only at h
    split at h
    · split at h
      · obtain ⟨_, e⟩ := Option.ite_none_right_eq_some.1 h
        cases e; exact key _ _
      · cases h; exact key _ _
    · cases h
  | threshold =>
    simp only [writeEntry, writeThreshold] at h
    split at h
    · cases h; constructor <;> rfl
    · cases h
  | meter =>
    simp only [writeEntry, writeMeter] at h
    split at h
    · cases h; constructor <;> rfl
    · cases h
  | monitor =>
    simp only [writeEntry, writeMonitor] at h
    split at h
    · split at h
      · split at h
        · cases h; constructor <;> rfl
        · cases h
      · cases h
    · cases h

/-- What every write of one entry keeps, the entries of a TABLE WRITE keep (R176). -/
theorem writeEntries_induction (t : Table) (P : State → Prop)
    (h : ∀ i p s r, P s → writeEntry t i p s = some r → P r.1) (n i : Nat) (p : List Byte) (s : State)
    (hs : P s) : P (writeEntries t n i p s).1 := by
  induction n generalizing i p s with
  | zero => exact hs
  | succ n ih =>
    unfold writeEntries
    split
    · exact hs
    · next s1 c e => exact ih _ _ _ (h i p s _ hs e)

theorem writeEntries_command (t : Table) (n i : Nat) (p : List Byte) (s : State) :
    CommandFrame s (writeEntries t n i p s).1 :=
  writeEntries_induction t (CommandFrame s ·) (fun _ _ _ _ hs e => hs.trans (writeEntry_command t _ _ _ e))
    n i p s (.refl s)

theorem referenceEvent_command (before s : State) : CommandFrame s (referenceEvent before s) := by
  refine ((CommandFrame.foldl _ (fun x r => ?_) _ s).trans (.foldl _ (fun x r => ?_) _ _)).trans
    (allocEvent_frame _ _).command
  · split
    · exact .refl x
    · exact (delayChange_frame r x).command
  · split
    · exact silenceRef_command r x
    · exact .refl x
    · exact .refl x

theorem lowerAtt_command (limit : Nat) (s : State) : CommandFrame s (lowerAtt limit s) := by
  constructor <;> rfl

theorem updateHold_command (s : State) : CommandFrame s (updateHold s) := by constructor <;> rfl

theorem clearDegrade_command (s : State) : CommandFrame s (clearDegrade s) := by constructor <;> rfl

theorem tuningEvent_command (s : State) : CommandFrame s (tuningEvent s) := by
  have limited : CommandFrame s (updateHold (lowerAtt (attMax s.cmd.tuning) s)) :=
    (lowerAtt_command _ s).trans (updateHold_command _)
  unfold tuningEvent; dsimp only; split
  · exact limited.trans (clearDegrade_command _)
  · exact limited

theorem rehandMonitors_command (s : State) : CommandFrame s (rehandMonitors s) := by
  unfold rehandMonitors; split
  · constructor <;> rfl
  · exact .refl s

theorem tableEvent_command (t : Table) (before s : State) : CommandFrame s (tableEvent t before s) := by
  cases t with
  | beam => exact (allocEvent_frame _ s).command
  | reference => exact referenceEvent_command before s
  | pairmask => exact (allocEvent_frame _ s).command
  | step => exact .refl s
  | tuning => exact tuningEvent_command s
  | threshold => exact .refl s
  | meter => exact .refl s
  | monitor => exact rehandMonitors_command s

theorem runTableWrite_command (m : Msg) (s : State) : CommandFrame s (runTableWrite m s) := by
  have refuse : ∀ r, CommandFrame s (completeReply r s) := fun _ => completeReply_command _ s
  unfold runTableWrite; split
  · exact refuse _
  · split
    · exact refuse _
    · unfold writeTable; dsimp only; split
      · exact refuse _
      · split
        · exact refuse _
        · split
          · exact refuse _
          · exact ((writeEntries_command _ _ _ _ s).trans (tableEvent_command _ _ _)).trans
              (completeReply_command _ _)

/-- Every command but SOFT RESET keeps the links, the queue and the boundary (R169). -/
theorem runCommand_command (m : Msg) (s : State) (h : m.kind ≠ 0x05) :
    CommandFrame s (runCommand m s) := by
  unfold runCommand
  split
  · next f e =>
    unfold catalogue at e
    split at e <;> cases e
    · exact report_command _ _ s
    · exact withLength_command (done_command (startRunning_command s) m) 0
    · exact withLength_command (done_command (stopRunning_command s) m) 0
    · exact withLength_command (judgeSetTail_command m s) 1
    · next k => exact absurd (BitVec.eq_of_toNat_eq k) h
    · exact runTableWrite_command m s
    · exact report_command _ _ s
    · exact report_command _ _ s
    · exact withLength_command (done_command (clearEvents_command _ s) m) 1
    · exact withLength_command (judgeEventSetup_command m s) 2
    · exact report_command _ _ s
    · exact report_command _ _ s
    · exact withLength_command (judgeFreeze_command m s) 3
    · exact withLength_command (done_command (flushStore_command s) m) 0
    · exact withLength_command (done_command (enableStore_command s) m) 0
    · exact withLength_command (done_command (invalidateSets_frame _ s).command m) 3
    · exact withLength_command (judgeEntryRead_command m s) 3
    · exact withLength_command (judgeEntryLoad_command m s) 109
    · exact withLength_command (judgeEntryCommit_command m s) 5
  · exact completeReply_command _ s

/-! ### The other events of a boundary -/

/-- What an event of a boundary other than the command and the reply leaves unchanged. -/
structure EventFrame (s t : State) : Prop where
  pending : t.pending = s.pending
  resetn : t.resetn = s.resetn
  ports : t.ports = s.ports
  cmd : t.cmd = { s.cmd with
    state := t.cmd.state, replies := t.cmd.replies, loadWritten := t.cmd.loadWritten }
  count : t.blk.count = s.blk.count
  live : t.blk.live = s.blk.live
  tuning : t.blk.tuning = s.blk.tuning
  report : t.blk.report = s.blk.report
  reply : t.blk.reply = s.blk.reply
  mode : t.ev.mode = s.ev.mode

theorem EventFrame.refl (s : State) : EventFrame s s := by constructor <;> rfl

theorem EventFrame.trans {s t u : State} (h : EventFrame s t) (k : EventFrame t u) : EventFrame s u where
  pending := k.pending.trans h.pending
  resetn := k.resetn.trans h.resetn
  ports := k.ports.trans h.ports
  cmd := by rw [k.cmd, h.cmd]
  count := k.count.trans h.count
  live := k.live.trans h.live
  tuning := k.tuning.trans h.tuning
  report := k.report.trans h.report
  reply := k.reply.trans h.reply
  mode := k.mode.trans h.mode

theorem EventFrame.foldl {α : Type} (f : State → α → State) (h : ∀ s x, EventFrame s (f s x))
    (l : List α) (s : State) : EventFrame s (l.foldl f s) := by
  induction l generalizing s with
  | nil => exact EventFrame.refl s
  | cons x l ih => exact (h s x).trans (ih _)

theorem PoolFrame.event {s t : State} (h : PoolFrame s t) : EventFrame s t where
  pending := h.pending
  resetn := h.resetn
  ports := h.ports
  cmd := h.cmd
  count := by rw [h.blk]
  live := by rw [h.blk]
  tuning := by rw [h.blk]
  report := by rw [h.blk]
  reply := by rw [h.blk]
  mode := h.evMode

theorem whileLive_event {f : State → State} {s : State} (h : EventFrame s (f s)) :
    EventFrame s (whileLive f s) := by
  unfold whileLive; split
  · exact h
  · exact .refl s

theorem activityEvent_event (s : State) : EventFrame s (activityEvent s) :=
  EventFrame.trans (t := applyDecided s) (by constructor <;> rfl) (allocEvent_frame _ _).event

theorem clippingEvent_event (s : State) : EventFrame s (clippingEvent s) := by
  unfold clippingEvent; split
  · exact EventFrame.trans (by constructor <;> rfl) (reportSource_frame _ _).event
  · exact .refl s

theorem countSlot_event (s : State) (x : BlockSlot) : EventFrame s (countSlot s x) := by
  unfold countSlot; split
  · constructor <;> rfl
  · exact .refl s

theorem countBeam_event (s : State) (b : BeamId) : EventFrame s (countBeam s b) := by
  unfold countBeam; split
  · constructor <;> rfl
  · exact .refl s

/-- The end of the counting notes what it calls for. -/
theorem countBlock_notes (c : List (SlotId × PairId)) (d : List BeamId) (s : State) : EventFrame s
    { s with blk := { s.blk with counted := true, clampDone := c, divDone := d } } := by
  constructor <;> rfl

theorem countBlock_event (s : State) : EventFrame s (countBlock s) := by
  unfold countBlock; split
  · exact .refl s
  · exact ((EventFrame.foldl _ countSlot_event _ s).trans (.foldl _ countBeam_event _ _)).trans
      (countBlock_notes _ _ _)

/-- The end of the resets leaves the boundary's notes on what they were called for empty. -/
theorem resetEvent_notes (d : List SlotId) (s : State) : EventFrame s
    { s with blk := { s.blk with runDone := d, clampDone := [], divDone := [] } } := by
  constructor <;> rfl

theorem resetEvent_event (s : State) : EventFrame s (resetEvent s) :=
  (((countBlock_event s).trans (resetSlots_frame _ _).event).trans
    ((EventFrame.foldl _ (fun s _ => (clampBeam_frame _ s).event) _ _).trans
      (.foldl _ (fun s b => (divergeBeam_frame b s).event) _ _))).trans (resetEvent_notes _ _)

theorem setCtlBeam_event (b : BeamId) (x : CtlBeam) (s : State) : EventFrame s (setCtlBeam b x s) := by
  constructor <;> rfl

theorem degradeBeam_event (limit : Nat) (s : State) (b : BeamId) : EventFrame s (degradeBeam limit s b) := by
  unfold degradeBeam; dsimp only; split
  · split
    · split
      · exact (reportDegraded_frame b s).event
      · exact (setCtlBeam_event b _ s).trans (reportDegraded_frame b _).event
    · split
      · exact .refl s
      · exact setCtlBeam_event b _ s
  · exact .refl s

theorem degradeEvent_event (s : State) : EventFrame s (degradeEvent s) := by
  unfold degradeEvent; split
  · exact .refl s
  · exact .foldl _ (degradeBeam_event _) _ s

theorem applyRecord_event (r : SteerRec) (s : State) : EventFrame s (applyRecord r s) := by
  unfold applyRecord; dsimp only; split
  · exact .refl s
  · split
    · exact EventFrame.trans (by constructor <;> rfl) (zoneChange_frame _ _ _ _).event
    · constructor <;> rfl

theorem applySteer_event (s : State) : EventFrame s (applySteer s) := by
  unfold applySteer; split
  · exact .refl s
  · exact EventFrame.trans (by constructor <;> rfl) (.foldl _ (fun s r => applyRecord_event r s) _ _)

theorem suppressBlock_event (s : State) : EventFrame s (suppressBlock s) := by
  unfold suppressBlock; constructor <;> dsimp only

/-- The command and the reply apart, the events of a boundary keep the links, the queue, the boundary's number and
its notes on the command. -/
theorem boundaryEvent_event (keep : Bool) (e : BoundaryEvent) (s : State) (hc : e ≠ .command)
    (hr : e ≠ .reply) : EventFrame s (boundaryEvent keep e s) := by
  cases e with
  | activity => exact whileLive_event (activityEvent_event s)
  | clipping => exact whileLive_event (clippingEvent_event s)
  | counting => exact whileLive_event (countBlock_event s)
  | resets => exact whileLive_event (resetEvent_event s)
  | degrade => exact whileLive_event (degradeEvent_event s)
  | suppress => exact whileLive_event (suppressBlock_event s)
  | view => exact .refl s
  | steer => exact applySteer_event s
  | complete => exact (completeDue_frame s).event
  | grant => exact (grantDue_frame s).event
  | command => exact absurd rfl hc
  | reply => exact absurd rfl hr

/-! ### The opening of a boundary -/

/-- What the work up to the Core's update leaves unchanged, once the settings of the block have been taken: the
links, the unit and its queues, the store, the events, and the boundary's number and notes on the command. -/
structure OpenFrame (s t : State) : Prop where
  pending : t.pending = s.pending
  resetn : t.resetn = s.resetn
  ports : t.ports = s.ports
  play : t.play = s.play
  router : t.router = s.router
  cmd : t.cmd = s.cmd
  store : t.store = s.store
  supp : t.supp = s.supp
  monitors : t.out.monitors = s.out.monitors
  ev : t.ev = s.ev
  slots : t.ctl.slots = s.ctl.slots
  count : t.blk.count = s.blk.count
  live : t.blk.live = s.blk.live
  tuning : t.blk.tuning = s.blk.tuning
  divDone : t.blk.divDone = s.blk.divDone
  report : t.blk.report = s.blk.report
  reply : t.blk.reply = s.blk.reply

theorem OpenFrame.trans {s t u : State} (h : OpenFrame s t) (k : OpenFrame t u) : OpenFrame s u where
  pending := k.pending.trans h.pending
  resetn := k.resetn.trans h.resetn
  ports := k.ports.trans h.ports
  play := k.play.trans h.play
  router := k.router.trans h.router
  cmd := k.cmd.trans h.cmd
  store := k.store.trans h.store
  supp := k.supp.trans h.supp
  monitors := k.monitors.trans h.monitors
  ev := k.ev.trans h.ev
  slots := k.slots.trans h.slots
  count := k.count.trans h.count
  live := k.live.trans h.live
  tuning := k.tuning.trans h.tuning
  divDone := k.divDone.trans h.divDone
  report := k.report.trans h.report
  reply := k.reply.trans h.reply

theorem pushLock_open (s : State) : OpenFrame s (pushLock s) := by
  unfold pushLock; constructor <;> dsimp only

theorem analyseBlock_open (s : State) : OpenFrame s (analyseBlock s) := by
  unfold analyseBlock; constructor <;> dsimp only

theorem decideBlock_open (s : State) : OpenFrame s (decideBlock s) := by
  unfold decideBlock; constructor <;> dsimp only

theorem pushHistories_open (s : State) : OpenFrame s (pushHistories s) := by
  unfold pushHistories; constructor <;> dsimp only

theorem estimateBlock_open (s : State) : OpenFrame s (estimateBlock s) := by
  unfold estimateBlock; constructor <;> dsimp only

theorem controlBlock_open (active : RefId → Bool) (s : State) : OpenFrame s (controlBlock active s) := by
  unfold controlBlock; constructor <;> dsimp only

theorem grantBlock_open (s : State) : OpenFrame s (grantBlock s) := by
  unfold grantBlock; constructor <;> dsimp only

theorem updateBlock_open (s : State) : OpenFrame s (updateBlock s) := by
  unfold updateBlock; constructor <;> dsimp only

/-- The opening of a boundary after the settings of the block have been taken. -/
theorem openBlock_open (sees : RefId → Bool) (s : State) :
    OpenFrame (snapshotBlock s) (openBlock sees s) := by
  unfold openBlock
  exact ((((pushLock_open _).trans (analyseBlock_open _)).trans (decideBlock_open _)).trans
    ((pushHistories_open _).trans (estimateBlock_open _))).trans
    ((controlBlock_open _ _).trans ((grantBlock_open _).trans (updateBlock_open _)))

/-! ### The close of a boundary -/

theorem handMonitors_event (s : State) : EventFrame s (handMonitors s) := by
  unfold handMonitors; constructor <;> dsimp only

theorem assembleOutput_event (s : State) : EventFrame s (assembleOutput s) := by
  unfold assembleOutput
  refine EventFrame.trans ?_ (handMonitors_event _)
  constructor <;> dsimp only

theorem refreshReport_event (s : State) : EventFrame s (refreshReport s) := by
  unfold refreshReport; split
  · exact .refl s
  · split
    · exact .refl s
    · split <;> constructor <;> rfl

theorem closeBlock_event (s : State) : EventFrame s (closeBlock s) :=
  (whileLive_event (assembleOutput_event s)).trans (refreshReport_event _)

/-! ### The taking of a command, and the rows -/

/-- A taking finds an IDLE unit with its turn and room for a reply, and a message that the row picks, or leaves the
part as it is (R162). -/
theorem takeIf_cases (pred : Msg → Bool) (act : Msg → State → State) (s : State) :
    takeIf pred act s = s ∨ ∃ m rest, Waiting s m rest ∧ s.cmd.turn = true ∧ pred m = true ∧
      takeIf pred act s = act m { s with cmd := afterTaking s rest } := by
  unfold takeIf
  split
  · next m rest idle head =>
    split
    · next c =>
      simp only [Bool.and_eq_true, decide_eq_true_eq] at c
      obtain ⟨⟨turn, room⟩, picks⟩ := c
      exact .inr ⟨m, rest, ⟨idle, room, head⟩, turn, picks, rfl⟩
    · exact .inl rfl
  · exact .inl rfl

/-- A gated row does its work or leaves the part as it is. -/
theorem up_next {f : State → State} {s t : State} (h : up f s = .next t) :
    t = s ∨ (s.resetn = true ∧ t = f s) := by
  cases hr : s.resetn
  · rw [up_held f hr] at h
    exact .inl (Host.Outcome.next.inj h).symm
  · rw [up_released f hr] at h
    exact .inr ⟨rfl, (Host.Outcome.next.inj h).symm⟩

theorem upAtBoundary_next {f : State → State} {s t : State} (h : upAtBoundary f s = .next t) :
    t = s ∨ (AtBoundary s ∧ t = f s) := by
  rcases up_next h with h | ⟨hr, h⟩
  · exact .inl h
  · by_cases k : atBoundary s = true
    · rw [if_pos k] at h
      exact .inr ⟨⟨hr, (atBoundary_iff s).1 k⟩, h⟩
    · rw [if_neg k] at h
      exact .inl h

theorem upInBlock_next {f : State → State} {s t : State} (h : upInBlock f s = .next t) :
    t = s ∨ (AtBoundary s ∧ s.blk.live = true ∧ t = f s) := by
  rcases upAtBoundary_next h with h | ⟨hb, h⟩
  · exact .inl h
  · unfold whileLive at h
    split at h
    · next live => exact .inr ⟨hb, live, h⟩
    · exact .inl h

/-! ### The rows of the blocks' own work -/

theorem EventFrame.ite {s t : State} {c : Bool} (h : EventFrame s t) :
    EventFrame s (if c = true then t else s) := by
  split
  · exact h
  · exact .refl s

theorem PoolFrame.ite {s t : State} {c : Bool} (h : PoolFrame s t) :
    PoolFrame s (if c = true then t else s) := by
  split
  · exact h
  · exact .refl s

theorem endLinger_event (r : RefId) (s : State) : EventFrame s (endLinger r s) := by
  unfold endLinger
  refine EventFrame.trans ?_ (allocEvent_frame _ _).event
  unfold silenceRef setRef
  constructor <;> dsimp only

theorem raiseFloor_event (b : BeamId) (s : State) : EventFrame s (raiseFloor b s) := by
  unfold raiseFloor; constructor <;> rfl

theorem endHangover_event (b : BeamId) (s : State) : EventFrame s (endHangover b s) :=
  (setCtlBeam_frame b _ s).event

theorem enterPhase_event (ph : Phase) (sl : SlotId) (s : State) : EventFrame s (enterPhase ph sl s) :=
  (setCtlSlot_frame sl _ s).event

theorem markRun_event (sl : SlotId) (s : State) : EventFrame s (markRun sl s) := by
  constructor <;> rfl

theorem completeRun_event (x : BlockSlot) (sl : SlotId) (s : State) : EventFrame s (completeRun x sl s) := by
  have reset : EventFrame s (if s.alloc.slots[sl] = .running x.pair then resetSlot sl x.pair s else s) := by
    split
    · exact (resetSlot_frame _ _ s).event
    · exact .refl s
  exact (reset.trans (markRun_event sl _)).trans (clampBeam_frame _ _).event

theorem advanceRun_event (sl : SlotId) (s : State) : EventFrame s (advanceRun sl s) := by
  unfold advanceRun; split
  · exact (completeRun_event _ sl s).ite
  · exact .refl s

theorem divergenceBeam_frame (b : BeamId) (s : State) : PoolFrame s (divergenceBeam b s) :=
  (resetSlots_frame _ s).trans (divergeBeam_frame b _)

theorem advanceDegrade_event (b : BeamId) (s : State) : EventFrame s (advanceDegrade b s) := by
  unfold advanceDegrade; split
  · refine EventFrame.ite ?_
    unfold endDegrade
    dsimp only
    split
    · exact (reportDegraded_frame b s).event
    · exact (setCtlBeam_event b _ s).trans (reportDegraded_frame b _).event
  · exact .refl s

theorem completeWhich_frame (which : Transfer → Bool) (s : State) : PoolFrame s (completeWhich which s) := by
  unfold completeWhich; split
  · exact (finishTransfer_frame _ s).ite
  · exact .refl s

/-- A boundary row that is no host command keeps the links, the queue and the boundary. -/
theorem boundaryRow_event {c : Instr} {s t : State} (row : boundaryRow c = true) (host : taken c = none)
    (h : exec c s = .next t) : EventFrame s t := by
  have block : ∀ {f : State → State}, upInBlock f s = .next t → EventFrame s (f s) → EventFrame s t :=
    fun e k => by
      rcases upInBlock_next e with rfl | ⟨-, -, rfl⟩
      · exact .refl _
      · exact k
  have gated : ∀ {f : State → State}, upAtBoundary f s = .next t → EventFrame s (f s) → EventFrame s t :=
    fun e k => by
      rcases upAtBoundary_next e with rfl | ⟨-, rfl⟩
      · exact .refl _
      · exact k
  cases c <;> simp only [boundaryRow, taken, Bool.false_eq_true, reduceCtorEq] at row host
  case lingerExpiry r => exact block h ((endLinger_event r s).ite)
  case noiseFloorRise b => exact block h ((raiseFloor_event b s).ite)
  case hangoverEnd b => exact block h ((endHangover_event b s).ite)
  case warmupEnd sl => exact block h ((enterPhase_event _ sl s).ite)
  case trackingEntry sl => exact block h ((enterPhase_event _ sl s).ite)
  case clampRunReset sl => exact block h ((advanceRun_event sl s))
  case divergenceReset b => exact block h ((divergenceBeam_frame b s).event.ite)
  case degradeTimeExpiry b => exact block h ((advanceDegrade_event b s))
  case waitListAssignment sl => exact gated h ((giveToWaiter_frame sl s).event.ite)
  case drainingSlotCapture => exact gated h ((roomReport_frame s).event)
  case steerApplication => exact gated h ((applySteer_event s))
  case portGrant => exact gated h ((grantDue_frame s).event)
  case fillCompletion => exact gated h ((completeWhich_frame _ s).event)
  case storeDisable => exact gated h ((completeWhich_frame _ s).event)
  case captureCompletion => exact gated h ((completeWhich_frame _ s).event)
  case entryCommitCompletion => exact gated h ((completeWhich_frame _ s).event)
  case entryReadCompletion => exact gated h ((completeWhich_frame _ s).event)

/-! ### The host rows (R162, R169) -/

/-- Two acts that agree on the messages that a row picks are one taking. -/
theorem takeIf_congr {pred : Msg → Bool} {act act' : Msg → State → State}
    (h : ∀ m s, pred m = true → act m s = act' m s) (s : State) : takeIf pred act s = takeIf pred act' s := by
  unfold takeIf
  split
  · split
    · next c => exact h _ _ (by simp only [Bool.and_eq_true] at c; exact c.2)
    · rfl
  · rfl

/-- A row of one kind of the catalogue carries out what the kind says. -/
theorem takeIf_kind {k : Byte} {f : Msg → State → State} (h : catalogue k = some f) (s : State) :
    takeIf (kindIs k) f s = takeIf (kindIs k) runCommand s :=
  takeIf_congr (fun m s p => by rw [runCommand, beq_iff_eq.1 p, h]) s

theorem takeIf_table (t : Table) (s : State) :
    takeIf (writesTable t) runTableWrite s = takeIf (writesTable t) runCommand s := by
  refine takeIf_congr (fun m s p => ?_) s
  have k : m.kind = 0x10 := by
    unfold writesTable at p
    rw [Bool.and_eq_true] at p
    exact beq_iff_eq.1 p.1
  rw [runCommand, k]
  rfl

theorem takeIf_outside (s : State) : takeIf outside runUnknown s = takeIf outside runCommand s :=
  takeIf_congr (fun m s p => by rw [runCommand, Option.isNone_iff_eq_none.1 p]) s

/-- A host row is the taking of the messages it picks, carried out as the catalogue says. -/
theorem exec_hostRow {c : Instr} {pred : Msg → Bool} (h : taken c = some pred) (s : State) :
    exec c s = upAtBoundary (takeIf pred runCommand) s := by
  have kind : ∀ {k : Byte} {f : Msg → State → State}, catalogue k = some f →
      upAtBoundary (takeIf (kindIs k) f) s = upAtBoundary (takeIf (kindIs k) runCommand) s :=
    fun h => congrArg (upAtBoundary · s) (funext (takeIf_kind h))
  have table : ∀ t, upAtBoundary (takeIf (writesTable t) runTableWrite) s =
      upAtBoundary (takeIf (writesTable t) runCommand) s :=
    fun t => congrArg (upAtBoundary · s) (funext (takeIf_table t))
  cases c <;> cases h
  case statusRead => exact kind rfl
  case run => exact kind rfl
  case stop => exact kind rfl
  case setTail => exact kind rfl
  case softReset => exact kind rfl
  case beamTableWrite => exact table .beam
  case referenceTableWrite => exact table .reference
  case pairmaskTableWrite => exact table .pairmask
  case stepTableWrite => exact table .step
  case tuningTableWrite => exact table .tuning
  case thresholdTableWrite => exact table .threshold
  case meterTableWrite => exact table .meter
  case monitorTableWrite => exact table .monitor
  case tableRead => exact kind rfl
  case eventRead => exact kind rfl
  case eventClear => exact kind rfl
  case eventSetup => exact kind rfl
  case healthRead => exact kind rfl
  case slotRead => exact kind rfl
  case freeze => exact kind rfl
  case storeFlush => exact kind rfl
  case storeEnable => exact kind rfl
  case storeInvalidate => exact kind rfl
  case entryRead => exact kind rfl
  case entryLoad => exact kind rfl
  case entryCommit => exact kind rfl
  case unknownCommand => exact congrArg (upAtBoundary · s) (funext takeIf_outside)

/-- A property that a taking and every command keep, every host row keeps. -/
theorem hostRow_keeps {P : State → Prop} {c : Instr} {pred : Msg → Bool} {s t : State}
    (row : taken c = some pred) (hs : P s)
    (taking : ∀ m rest, Waiting s m rest → P { s with cmd := afterTaking s rest })
    (keeps : ∀ m s, P s → P (runCommand m s)) (h : exec c s = .next t) : P t := by
  rw [exec_hostRow row] at h
  rcases upAtBoundary_next h with rfl | ⟨-, rfl⟩
  · exact hs
  · rcases takeIf_cases pred runCommand s with e | ⟨m, rest, w, -, -, e⟩
    · rw [e]; exact hs
    · rw [e]; exact keeps m _ (taking m rest w)

end Sys2Proof.Machine
end

