-- ==== Sys2Proof/Proofs/Links.lean ====
section
/-! PROOF. The links stay sound (O11): what a byte and an idle frame do to a sound assembly, what a marker does to
a sound receiver, what a frame does to the counts of the four directions; then every row. -/

namespace Sys2Proof.Machine

/-! ### The parts of the invariant -/

/-- The part of `LinksSound` that speaks of the Link Ports alone. -/
structure PortsSound (p : Ports) : Prop where
  arrayRx : rxSound p.arrayRx
  codecRx : rxSound p.codecRx
  arrayAsm : asmSound p.arrayAsm
  codecAsm : asmSound p.codecAsm
  arraySeek : p.arrayRx.lock = .seeking → p.arrayAsm = Assembly.empty ∧ p.lateControl = []
  codecSeek : p.codecRx.lock = .seeking → p.codecAsm = Assembly.empty
  late : ∀ m ∈ p.lateCommands ++ p.lateSteers, m.payload.length ≤ 240

/-- Every command in a queue is one that a link can bring (R14). -/
def QueueShort (q : List Msg) : Prop := ∀ m ∈ q, m.payload.length ≤ 240

theorem linksSound_iff (s : State) :
    LinksSound s ↔ FramesInStep s ∧ PortsSound s.ports ∧ QueueShort s.cmd.queue :=
  ⟨fun h => ⟨h.frames, ⟨h.arrayRx, h.codecRx, h.arrayAsm, h.codecAsm, h.arraySeek, h.codecSeek, h.late⟩,
      h.queue⟩,
    fun ⟨f, p, q⟩ => ⟨f, p.arrayRx, p.codecRx, p.arrayAsm, p.codecAsm, p.arraySeek, p.codecSeek, p.late, q⟩⟩

/-- The frames' being in step rests on the counts of frames and of boundaries alone. -/
theorem FramesInStep.of_counts {s t : State} (h : FramesInStep s) (frames : t.ports.frames = s.ports.frames)
    (count : t.blk.count = s.blk.count) : FramesInStep t := by
  constructor <;> rw [frames]
  · exact h.inArray
  · exact h.inCodec
  · exact h.outArray
  · exact h.outCodec
  · rw [count]; exact h.answers
  · rw [count]; exact h.block
  · rw [count]; exact h.received

/-- What leaves the ports, the command queue and the boundary's number as they are keeps the links sound. -/
theorem LinksSound.of_same {s t : State} (h : LinksSound s) (ports : t.ports = s.ports)
    (queue : t.cmd.queue = s.cmd.queue) (count : t.blk.count = s.blk.count) : LinksSound t := by
  obtain ⟨f, p, q⟩ := (linksSound_iff s).1 h
  exact (linksSound_iff t).2 ⟨f.of_counts (by rw [ports]) count, by rwa [ports], by rwa [queue]⟩

theorem LinksSound.of_event {s t : State} (h : LinksSound s) (f : EventFrame s t) : LinksSound t :=
  h.of_same f.ports (by rw [f.cmd]) f.count

theorem LinksSound.of_command {s t : State} (h : LinksSound s) (f : CommandFrame s t) : LinksSound t :=
  h.of_same f.ports f.queue (by rw [f.blk])

theorem LinksSound.of_pool {s t : State} (h : LinksSound s) (f : PoolFrame s t) : LinksSound t :=
  h.of_event f.event

/-! ### Assemblies (R10 to R15) -/

theorem asmSound_empty : asmSound Assembly.empty := rfl

theorem sum8_append (bytes : List Byte) (b : Byte) : sum8 (bytes ++ [b]) = sum8 bytes + b := by
  rw [sum8, List.foldl_append]; rfl

/-- A byte keeps an assembly sound, and the message it may complete has at most 240 payload bytes. -/
theorem asmByte_sound {a : Assembly} (h : asmSound a) (b : Byte) :
    asmSound (asmByte a b).1 ∧ ∀ m, (asmByte a b).2 = .delivered m → m.payload.length ≤ 240 := by
  obtain ⟨st, bytes, sum, expected, idle⟩ := a
  cases st with
  | awaitKind => exact ⟨⟨b, rfl, rfl, Nat.zero_le _⟩, fun m hm => by simp [asmByte] at hm⟩
  | awaitLength =>
    dsimp only [asmSound] at h
    obtain ⟨k, rfl, rfl, -⟩ := h
    unfold asmByte
    dsimp only
    split
    · next len =>
      refine ⟨?_, fun m hm => by simp at hm⟩
      by_cases zero : b.toNat = 0
      · rw [if_pos zero]
        exact ⟨sum, b, [], rfl, by simp [sum8], zero.symm, len, Nat.zero_le _⟩
      · rw [if_neg zero]
        exact ⟨sum, b, [], rfl, by simp [sum8], by show 1 ≤ b.toNat; omega, by simp, len, Nat.zero_le _⟩
    · exact ⟨⟨rfl, Nat.zero_le _⟩, fun m hm => by simp at hm⟩
  | inPayload =>
    dsimp only [asmSound] at h
    obtain ⟨k, n, p, rfl, rfl, more, total, len, -⟩ := h
    refine ⟨?_, fun m hm => by simp [asmByte] at hm⟩
    unfold asmByte
    dsimp only
    by_cases last : expected ≤ 1
    · rw [if_pos last]
      exact ⟨k, n, p ++ [b], rfl, (sum8_append _ _).symm, by simp; omega, len, Nat.zero_le _⟩
    · rw [if_neg last]
      exact ⟨k, n, p ++ [b], rfl, (sum8_append _ _).symm, by show 1 ≤ expected - 1; omega,
        by simp; omega, len, Nat.zero_le _⟩
  | awaitCheck =>
    dsimp only [asmSound] at h
    obtain ⟨k, n, p, rfl, rfl, total, len, -⟩ := h
    unfold asmByte
    dsimp only
    split
    · refine ⟨asmSound_empty, fun m hm => ?_⟩
      cases hm
      simpa using total.trans_le len
    · exact ⟨asmSound_empty, fun m hm => by simp at hm⟩
  | resync =>
    dsimp only [asmSound] at h
    obtain ⟨rfl, -⟩ := h
    exact ⟨⟨rfl, Nat.zero_le _⟩, fun m hm => by simp [asmByte] at hm⟩

/-- An idle frame keeps an assembly sound, and completes no message. -/
theorem asmIdle_sound {a : Assembly} (h : asmSound a) :
    asmSound (asmIdle a).1 ∧ ∀ m, (asmIdle a).2 ≠ .delivered m := by
  obtain ⟨st, bytes, sum, expected, idle⟩ := a
  cases st with
  | awaitKind => exact ⟨h, fun m hm => by simp [asmIdle] at hm⟩
  | awaitLength =>
    obtain ⟨k, hb, hs, -⟩ := h
    unfold asmIdle idleLimit
    dsimp only
    split
    · exact ⟨asmSound_empty, fun m hm => by simp at hm⟩
    · exact ⟨⟨k, hb, hs, by show idle + 1 ≤ 15; omega⟩, fun m hm => by simp at hm⟩
  | inPayload =>
    obtain ⟨k, n, p, hb, hs, more, total, len, -⟩ := h
    unfold asmIdle idleLimit
    dsimp only
    split
    · exact ⟨asmSound_empty, fun m hm => by simp at hm⟩
    · exact ⟨⟨k, n, p, hb, hs, more, total, len, by show idle + 1 ≤ 15; omega⟩, fun m hm => by simp at hm⟩
  | awaitCheck =>
    obtain ⟨k, n, p, hb, hs, total, len, -⟩ := h
    unfold asmIdle idleLimit
    dsimp only
    split
    · exact ⟨asmSound_empty, fun m hm => by simp at hm⟩
    · exact ⟨⟨k, n, p, hb, hs, total, len, by show idle + 1 ≤ 15; omega⟩, fun m hm => by simp at hm⟩
  | resync =>
    obtain ⟨hb, -⟩ := h
    unfold asmIdle idleLimit
    dsimp only
    split
    · exact ⟨asmSound_empty, fun m hm => by simp at hm⟩
    · exact ⟨⟨hb, by show idle + 1 ≤ 15; omega⟩, fun m hm => by simp at hm⟩

/-! ### What a delivered message meets -/

/-- A command delivered joins the queue or is discarded; it leaves the links as they are (R160). -/
theorem deliverCommand_frame (m : Msg) (s : State) :
    (deliverCommand m s).ports = s.ports ∧ (deliverCommand m s).blk = s.blk ∧
      ∀ x ∈ (deliverCommand m s).cmd.queue, x ∈ s.cmd.queue ∨ x = m := by
  unfold deliverCommand
  split
  · exact ⟨rfl, rfl, fun x hx => by simpa using hx⟩
  · have f := reportMsgError_frame .overflow s
    obtain ⟨n, -, -, e⟩ := reportSource_cases .msgError
      { s with ev := { s.ev with causes := setInsert s.ev.causes (causeBit .overflow) } }
    refine ⟨f.ports, by rw [reportMsgError, e], fun x hx => .inl ?_⟩
    rw [f.cmd] at hx
    exact hx

/-- A steering notice, valid or not, writes the steer queue and the steer error count alone (R32). -/
theorem deliverSteer_frame (m : Msg) (s : State) : deliverSteer m s = { s with
    ports := { s.ports with steerErrors := (deliverSteer m s).ports.steerErrors }
    router := { s.router with queue := (deliverSteer m s).router.queue } } := by
  unfold deliverSteer steerError; split <;> rfl

theorem deliverCommand_links {s : State} (h : LinksSound s) {m : Msg} (short : m.payload.length ≤ 240) :
    LinksSound (deliverCommand m s) := by
  obtain ⟨ports, blk, queue⟩ := deliverCommand_frame m s
  obtain ⟨f, p, q⟩ := (linksSound_iff s).1 h
  refine (linksSound_iff _).2 ⟨f.of_counts (by rw [ports]) (by rw [blk]), by rwa [ports], fun x hx => ?_⟩
  rcases queue x hx with hx | rfl
  · exact q x hx
  · exact short

theorem deliverSteer_links {s : State} (h : LinksSound s) (m : Msg) : LinksSound (deliverSteer m s) := by
  rw [deliverSteer_frame]
  exact ⟨h.frames.of_counts rfl rfl, h.arrayRx, h.codecRx, h.arrayAsm, h.codecAsm, h.arraySeek, h.codecSeek,
    h.late, h.queue⟩

theorem completeCommand_links {s : State} (h : LinksSound s) (f : Nat) {m : Msg}
    (short : m.payload.length ≤ 240) : LinksSound (completeCommand f m s) := by
  unfold completeCommand
  split
  · refine ⟨h.frames.of_counts rfl rfl, h.arrayRx, h.codecRx, h.arrayAsm, h.codecAsm, h.arraySeek,
      h.codecSeek, fun x hx => ?_, h.queue⟩
    simp only [List.mem_append, List.mem_singleton] at hx
    rcases hx with (hx | rfl) | hx
    · exact h.late x (List.mem_append_left _ hx)
    · exact short
    · exact h.late x (List.mem_append_right _ hx)
  · exact deliverCommand_links h short

theorem completeSteer_links {s : State} (h : LinksSound s) (f : Nat) {m : Msg}
    (short : m.payload.length ≤ 240) : LinksSound (completeSteer f m s) := by
  unfold completeSteer
  split
  · refine ⟨h.frames.of_counts rfl rfl, h.arrayRx, h.codecRx, h.arrayAsm, h.codecAsm, h.arraySeek,
      h.codecSeek, fun x hx => ?_, h.queue⟩
    simp only [List.mem_append, List.mem_singleton] at hx
    rcases hx with hx | hx | rfl
    · exact h.late x (List.mem_append_left _ hx)
    · exact h.late x (List.mem_append_right _ hx)
    · exact short
  · exact deliverSteer_links h m

theorem deliver_links {s : State} (h : LinksSound s) (link : Link) (f : Nat) {m : Msg}
    (short : m.payload.length ≤ 240) : LinksSound (deliver link f m s) := by
  cases link with
  | array => exact deliverSteer_links h m
  | codec => exact completeCommand_links h f short

theorem reportFraming_links {s : State} (h : LinksSound s) (link : Link) (c : MsgCause) :
    LinksSound (reportFraming link c s) := by
  cases link with
  | array =>
    exact ⟨h.frames.of_counts rfl rfl, h.arrayRx, h.codecRx, h.arrayAsm, h.codecAsm, h.arraySeek,
      h.codecSeek, h.late, h.queue⟩
  | codec => exact h.of_pool (reportMsgError_frame c s)

/-! ### The control field -/

/-- A link's assembly takes a sound value: any while its receiver is LOCKED, the empty one while it seeks. -/
theorem setAsm_links {s : State} (h : LinksSound s) (link : Link) {a : Assembly} (sound : asmSound a)
    (seek : (rxOf link s).lock = .seeking → a = Assembly.empty) : LinksSound (setAsm link a s) := by
  cases link with
  | array =>
    exact ⟨h.frames.of_counts rfl rfl, h.arrayRx, h.codecRx, sound, h.codecAsm,
      fun e => ⟨seek e, (h.arraySeek e).2⟩, h.codecSeek, h.late, h.queue⟩
  | codec =>
    exact ⟨h.frames.of_counts rfl rfl, h.arrayRx, h.codecRx, h.arrayAsm, sound, h.arraySeek, seek,
      h.late, h.queue⟩

theorem asmOf_sound {s : State} (h : LinksSound s) (link : Link) : asmSound (asmOf link s) := by
  cases link with
  | array => exact h.arrayAsm
  | codec => exact h.codecAsm

theorem rxOf_sound {s : State} (h : LinksSound s) (link : Link) : rxSound (rxOf link s) := by
  cases link with
  | array => exact h.arrayRx
  | codec => exact h.codecRx

theorem settleAsm_links {s : State} (h : LinksSound s) (link : Link) (f : Nat) {r : Assembly × AsmOutcome}
    (sound : asmSound r.1) (short : ∀ m, r.2 = .delivered m → m.payload.length ≤ 240)
    (seek : (rxOf link s).lock = .seeking → r.1 = Assembly.empty) : LinksSound (settleAsm link f r s) := by
  have taken := setAsm_links h link sound seek
  unfold settleAsm
  split
  · exact taken
  · next m e => exact deliver_links taken link f (short m e)
  · exact reportFraming_links taken link _

theorem feedControl_links {s : State} (h : LinksSound s) (link : Link) (locked : (rxOf link s).lock = .locked)
    (f : Nat) (data : Option Byte) : LinksSound (feedControl link f data s) := by
  have seek : ∀ {p : Prop}, (rxOf link s).lock = .seeking → p := fun e => by rw [locked] at e; cases e
  unfold feedControl
  split
  · next b =>
    have ⟨sound, short⟩ := asmByte_sound (asmOf_sound h link) b
    exact settleAsm_links h link f sound short seek
  · have ⟨sound, nothing⟩ := asmIdle_sound (asmOf_sound h link)
    exact settleAsm_links h link f sound (fun m e => absurd e (nothing m)) seek

theorem takeControl_links {s : State} (h : LinksSound s) (link : Link) (locked : (rxOf link s).lock = .locked)
    (f : Nat) (data : Option Byte) : LinksSound (takeControl link f data s) := by
  unfold takeControl
  split
  · next c =>
    obtain ⟨rfl, -⟩ := c
    refine ⟨h.frames.of_counts rfl rfl, h.arrayRx, h.codecRx, h.arrayAsm, h.codecAsm, fun e => ?_,
      h.codecSeek, h.late, h.queue⟩
    exact absurd (e.symm.trans locked) (by decide)
  · exact feedControl_links h link locked f data

/-! ### The receivers (R5, R6) -/

/-- A marker keeps a receiver sound. A frame is accepted or missed in LOCKED, and leaves the receiver there; it is
ignored in SEEKING, and leaves the receiver there; a loss leaves it in SEEKING. -/
theorem receive_sound {rx : Receiver} (h : rxSound rx) (good : Bool) :
    rxSound (receive rx good).1 ∧
      match (receive rx good).2 with
      | .accepted => (receive rx good).1.lock = .locked
      | .ignored => rx.lock = .seeking ∧ (receive rx good).1.lock = .seeking
      | .missed => (receive rx good).1.lock = .locked
      | .lost => (receive rx good).1.lock = .seeking := by
  obtain ⟨lock, n, miss⟩ := rx
  obtain ⟨seeks, locks⟩ := h
  cases lock <;> cases good <;> unfold receive <;> dsimp only
  · exact ⟨⟨fun _ => Nat.zero_le _, nofun⟩, rfl, rfl⟩
  · rw [if_pos rfl]
    split
    · exact ⟨⟨nofun, fun _ => Nat.zero_le _⟩, rfl⟩
    · exact ⟨⟨fun _ => by show n + 1 ≤ 3; omega, nofun⟩, rfl, rfl⟩
  · rw [if_neg (by decide)]
    split
    · exact ⟨⟨fun _ => Nat.zero_le _, nofun⟩, rfl⟩
    · exact ⟨⟨nofun, fun _ => by show miss + 1 ≤ 2; omega⟩, rfl⟩
  · exact ⟨⟨nofun, fun _ => Nat.zero_le _⟩, rfl⟩

/-! ### The start of a frame (R1, R17) -/

theorem appendHeld_frame (s : State) : PoolFrame s (appendHeld s) := by
  unfold appendHeld; split
  · split
    · exact completeReply_frame _ s
    · exact .refl s
  · exact .refl s
  · exact .refl s

/-- What the transmit record and the queues of replies may change of the part: nothing of the links but the
record itself. -/
structure TransmitFrame (s t : State) : Prop where
  ports : t.ports = { s.ports with transmit := t.ports.transmit }
  cmd : t.cmd = { s.cmd with state := t.cmd.state, replies := t.cmd.replies }
  rest : t = { s with ports := t.ports, cmd := t.cmd }

theorem appendHeld_transmit (s : State) : TransmitFrame s (appendHeld s) := by
  unfold appendHeld completeReply; split
  · split
    · constructor <;> rfl
    · constructor <;> rfl
  · constructor <;> rfl
  · constructor <;> rfl

theorem TransmitFrame.trans {s t u : State} (h : TransmitFrame s t) (k : TransmitFrame t u) :
    TransmitFrame s u := by
  constructor
  · rw [k.ports, h.ports]
  · rw [k.cmd, h.cmd]
  · rw [k.rest, h.rest]

theorem takeTransmit_transmit (heldNow : Bool) (s : State) : TransmitFrame s (takeTransmit heldNow s) := by
  unfold takeTransmit
  split
  · dsimp only
    split
    · exact TransmitFrame.trans (by constructor <;> rfl) (appendHeld_transmit _)
    · constructor <;> rfl
  · constructor <;> rfl
  · constructor <;> rfl

/-- The part as the start of a frame leaves it: the count of frames started covers the frame, and the transmit
record, the reply queue and the unit's state may have moved. -/
theorem startFrame_transmit (f : Nat) (heldNow : Bool) (s : State) :
    TransmitFrame { s with ports := { s.ports with
      frames := { s.ports.frames with started := max s.ports.frames.started (f + 1) } } }
      (startFrame f heldNow s) := by
  unfold startFrame
  split
  · next h =>
    rw [Nat.max_eq_right (by omega)]
    exact (appendHeld_transmit _).trans (takeTransmit_transmit _ _)
  · next h =>
    rw [Nat.max_eq_left (by omega)]
    constructor <;> rfl

/-! ### The samples of a frame -/

theorem takeSlots_ports (link : Link) (accepted : Bool) (bits : FrameBits) (s : State) :
    (takeSlots link accepted bits s).ports = s.ports ∧ (takeSlots link accepted bits s).cmd = s.cmd ∧
      (takeSlots link accepted bits s).blk = s.blk := by
  cases link with
  | array => exact ⟨rfl, rfl, rfl⟩
  | codec => unfold takeSlots playFrame; exact ⟨rfl, rfl, rfl⟩

theorem TransmitFrame.links {s t : State} (h : LinksSound s) (k : TransmitFrame s t) : LinksSound t := by
  have frames : t.ports.frames = s.ports.frames := by rw [k.ports]
  have count : t.blk.count = s.blk.count := by rw [k.rest]
  obtain ⟨f, p, q⟩ := (linksSound_iff s).1 h
  refine (linksSound_iff t).2 ⟨f.of_counts frames count, ?_, by rw [k.cmd]; exact q⟩
  rw [k.ports]
  exact ⟨p.arrayRx, p.codecRx, p.arrayAsm, p.codecAsm, p.arraySeek, p.codecSeek, p.late⟩

/-- The start of a frame that is due keeps the four directions in step. -/
theorem startFrame_links {s : State} (h : LinksSound s) (f : Nat) (heldNow : Bool) (due : FrameDue f s) :
    LinksSound (startFrame f heldNow s) := by
  refine TransmitFrame.links ?_ (startFrame_transmit f heldNow s)
  have frames : FramesInStep { s with ports := { s.ports with
      frames := { s.ports.frames with started := max s.ports.frames.started (f + 1) } } } := by
    have := h.frames.inArray; have := h.frames.inCodec; have := h.frames.outArray
    have := h.frames.outCodec; have := h.frames.block
    have := due.block; have := due.inArray; have := due.inCodec; have := due.outArray; have := due.outCodec
    refine ⟨?_, ?_, ?_, ?_, h.frames.answers, ?_, h.frames.received⟩ <;> dsimp only <;> omega
  exact ⟨frames, h.arrayRx, h.codecRx, h.arrayAsm, h.codecAsm, h.arraySeek, h.codecSeek, h.late, h.queue⟩

/-- The counts of frames after the start of a frame, the boundaries taken, and the frame's being started. -/
theorem startFrame_counts (f : Nat) (heldNow : Bool) (s : State) :
    (startFrame f heldNow s).ports.frames =
        { s.ports.frames with started := max s.ports.frames.started (f + 1) } ∧
      (startFrame f heldNow s).blk = s.blk ∧
      (startFrame f heldNow s).ports = { s.ports with
        frames := { s.ports.frames with started := max s.ports.frames.started (f + 1) }
        transmit := (startFrame f heldNow s).ports.transmit } := by
  have k := startFrame_transmit f heldNow s
  exact ⟨by rw [k.ports], by rw [k.rest], k.ports⟩

/-! ### An inbound frame (R1, R5, R6) -/

/-- A sound receiver joins sound links where the control field is settled for it: where it seeks, an assembly that
is empty and no field held back. -/
theorem setRx_links {s : State} (h : LinksSound s) (link : Link) {rx : Receiver} (sound : rxSound rx)
    (seek : rx.lock = .seeking → (rxOf link s).lock = .seeking) : LinksSound (setRx link rx s) := by
  cases link with
  | array =>
    exact ⟨h.frames.of_counts rfl rfl, sound, h.codecRx, h.arrayAsm, h.codecAsm,
      fun e => h.arraySeek (seek e), h.codecSeek, h.late, h.queue⟩
  | codec =>
    exact ⟨h.frames.of_counts rfl rfl, h.arrayRx, sound, h.arrayAsm, h.codecAsm, h.arraySeek,
      fun e => h.codecSeek (seek e), h.late, h.queue⟩

theorem rxOf_setRx (link : Link) (rx : Receiver) (s : State) : rxOf link (setRx link rx s) = rx := by
  cases link <;> rfl

theorem takeSlots_links {s : State} (h : LinksSound s) (link : Link) (accepted : Bool) (bits : FrameBits) :
    LinksSound (takeSlots link accepted bits s) := by
  obtain ⟨ports, cmd, blk⟩ := takeSlots_ports link accepted bits s
  exact h.of_same ports (by rw [cmd]) (by rw [blk])

theorem rxOf_takeSlots (link : Link) (accepted : Bool) (bits : FrameBits) (s : State) :
    rxOf link (takeSlots link accepted bits s) = rxOf link s := by
  cases link
  · rfl
  · unfold takeSlots playFrame; rfl

/-- A loss of lock: a receiver in SEEKING, its message discarded (R6, R10). -/
theorem dropMessage_links {s : State} (h : LinksSound s) (link : Link) {rx : Receiver} (sound : rxSound rx) :
    LinksSound (dropMessage link (setRx link rx s)) := by
  cases link with
  | array =>
    exact ⟨h.frames.of_counts rfl rfl, sound, h.codecRx, asmSound_empty, h.codecAsm, fun _ => ⟨rfl, rfl⟩,
      h.codecSeek, h.late, h.queue⟩
  | codec =>
    exact ⟨h.frames.of_counts rfl rfl, h.arrayRx, sound, h.arrayAsm, asmSound_empty, h.arraySeek,
      fun _ => rfl, h.late, h.queue⟩

/-- The samples of a frame and the discarding of a message do not meet. -/
theorem dropMessage_takeSlots (link : Link) (accepted : Bool) (bits : FrameBits) (s : State) :
    dropMessage link (takeSlots link accepted bits s) = takeSlots link accepted bits (dropMessage link s) := by
  cases link
  · rfl
  · unfold takeSlots playFrame dropMessage; rfl

theorem deliver_frames (link : Link) (f : Nat) (m : Msg) (s : State) :
    (deliver link f m s).ports.frames = s.ports.frames := by
  cases link with
  | array => unfold deliver; rw [deliverSteer_frame]
  | codec =>
    unfold deliver completeCommand
    dsimp only
    split
    · rfl
    · rw [(deliverCommand_frame m s).1]

theorem reportFraming_frames (link : Link) (c : MsgCause) (s : State) :
    (reportFraming link c s).ports.frames = s.ports.frames := by
  cases link with
  | array => rfl
  | codec => exact congrArg Ports.frames (reportMsgError_frame c s).ports

theorem setAsm_frames (link : Link) (a : Assembly) (s : State) :
    (setAsm link a s).ports.frames = s.ports.frames := by cases link <;> rfl

theorem feedControl_frames (link : Link) (f : Nat) (data : Option Byte) (s : State) :
    (feedControl link f data s).ports.frames = s.ports.frames := by
  have settle : ∀ r, (settleAsm link f r s).ports.frames = s.ports.frames := fun r => by
    unfold settleAsm
    split
    · exact setAsm_frames link _ s
    · rw [deliver_frames, setAsm_frames]
    · rw [reportFraming_frames, setAsm_frames]
  unfold feedControl
  split
  · exact settle _
  · exact settle _

theorem takeControl_frames (link : Link) (f : Nat) (data : Option Byte) (s : State) :
    (takeControl link f data s).ports.frames = s.ports.frames := by
  unfold takeControl
  split
  · rfl
  · exact feedControl_frames link f data s

theorem controlOf_frames (link : Link) (f : Nat) (res : RxResult) (bits : FrameBits) (s : State) :
    (controlOf link f res bits s).ports.frames = s.ports.frames := by
  cases res with
  | accepted => exact takeControl_frames _ _ _ s
  | ignored => rfl
  | missed => exact takeControl_frames _ _ _ s
  | lost =>
    refine (congrArg Ports.frames (reportSource_frame .linkLost _).ports).trans ?_
    cases link <;> rfl

/-- The count of a link's inbound frames follows the frames started. -/
theorem countInbound_links {s : State} (h : LinksSound s) (link : Link)
    (started : inFrame link s < s.ports.frames.started) : LinksSound (countInbound link s) := by
  have frames : FramesInStep (countInbound link s) := by
    have := h.frames.inArray; have := h.frames.inCodec; have := h.frames.outArray
    have := h.frames.outCodec; have := h.frames.answers; have := h.frames.block; have := h.frames.received
    cases link <;> dsimp only [inFrame] at started <;>
      refine ⟨?_, ?_, ?_, ?_, ?_, ?_, ?_⟩ <;> dsimp only [countInbound] <;> omega
  cases link <;>
    exact ⟨frames, h.arrayRx, h.codecRx, h.arrayAsm, h.codecAsm, h.arraySeek, h.codecSeek, h.late, h.queue⟩

theorem inFrame_of_frames (link : Link) {s t : State} (h : t.ports.frames = s.ports.frames) :
    inFrame link t = inFrame link s := by
  cases link <;> simp only [inFrame, h]

theorem setRx_frames (link : Link) (rx : Receiver) (s : State) :
    (setRx link rx s).ports.frames = s.ports.frames := by cases link <;> rfl

/-- What a receiver makes of a frame, its samples and its control field keep the links sound. -/
theorem controlOf_links {u : State} (h : LinksSound u) (link : Link) (f : Nat) (bits : FrameBits) :
    let r := receive (rxOf link u) (markerGood bits)
    LinksSound (controlOf link f r.2 bits
      (takeSlots link (r.2 == .accepted) bits (setRx link r.1 u))) := by
  intro r
  have sound := receive_sound (rxOf_sound h link) (markerGood bits)
  obtain ⟨rx, meets⟩ := sound
  have locked : ∀ data, r.1.lock = .locked → LinksSound (takeControl link f data
      (takeSlots link (r.2 == .accepted) bits (setRx link r.1 u))) := fun data e =>
    takeControl_links (takeSlots_links (setRx_links h link rx fun e' => by rw [e] at e'; cases e') link _ _)
      link (by rw [rxOf_takeSlots, rxOf_setRx, e]) f data
  change (match r.2 with
    | .accepted => r.1.lock = .locked
    | .ignored => (rxOf link u).lock = .seeking ∧ r.1.lock = .seeking
    | .missed => r.1.lock = .locked
    | .lost => r.1.lock = .seeking) at meets
  unfold controlOf
  cases e : r.2 with
  | accepted => rw [e] at meets locked; exact locked _ meets
  | ignored =>
    rw [e] at meets
    exact takeSlots_links (setRx_links h link rx fun _ => meets.1) link _ _
  | missed => rw [e] at meets locked; exact locked _ meets
  | lost =>
    dsimp only
    rw [dropMessage_takeSlots]
    exact (takeSlots_links (dropMessage_links h link rx) link _ _).of_pool (reportSource_frame _ _)

theorem rxOf_startFrame (link : Link) (f : Nat) (heldNow : Bool) (s : State) :
    rxOf link (startFrame f heldNow s) = rxOf link s := by
  cases link <;> (unfold rxOf; rw [(startFrame_counts f heldNow s).2.2])

theorem inFrame_startFrame (link : Link) (f : Nat) (heldNow : Bool) (s : State) :
    inFrame link (startFrame f heldNow s) = inFrame link s := by
  cases link <;> (unfold inFrame; rw [(startFrame_counts f heldNow s).1])

theorem inbound_links {s : State} (h : LinksSound s) (link : Link) (bits : FrameBits)
    (due : FrameDue (inFrame link s) s) : LinksSound (inbound link bits s) := by
  have kept := controlOf_links (startFrame_links h (inFrame link s) true due) link (inFrame link s) bits
  rw [rxOf_startFrame] at kept
  refine countInbound_links kept link ?_
  have frames := (controlOf_frames link (inFrame link s) (receive (rxOf link s) (markerGood bits)).2 bits
    (takeSlots link ((receive (rxOf link s) (markerGood bits)).2 == .accepted) bits
      (setRx link (receive (rxOf link s) (markerGood bits)).1 (startFrame (inFrame link s) true s)))).trans
    ((congrArg Ports.frames (takeSlots_ports _ _ _ _).1).trans (setRx_frames _ _ _))
  rw [inFrame_of_frames link frames, frames, inFrame_startFrame, (startFrame_counts _ true s).1]
  exact Nat.lt_of_lt_of_le (Nat.lt_succ_self _) (Nat.le_max_right _ _)

theorem inboundDue_links {s : State} (h : LinksSound s) (link : Link) (bits : FrameBits) :
    LinksSound (inboundDue link bits s) := by
  unfold inboundDue
  split
  · next due => exact inbound_links h link bits ((frameDue_iff _ s).1 due)
  · exact h

/-! ### The end of a boundary, and an outbound frame (R1, R4, R191) -/

/-- A command taken leaves the links and a shorter queue. -/
theorem afterTaking_links {s : State} (h : LinksSound s) {m : Msg} {rest : List Msg} (w : Waiting s m rest) :
    LinksSound { s with cmd := afterTaking s rest } := by
  obtain ⟨f, p, q⟩ := (linksSound_iff s).1 h
  refine (linksSound_iff _).2 ⟨f.of_counts rfl rfl, p, fun x hx => q x ?_⟩
  rw [w.head]
  exact List.mem_cons_of_mem _ hx

/-- An accepted SOFT RESET empties the assemblies and the command queue (R10, R173). -/
theorem softResetState_links {s : State} (h : LinksSound s) (keep : Bool) :
    LinksSound (softResetState keep s) :=
  ⟨h.frames.of_counts rfl rfl, h.arrayRx, h.codecRx, asmSound_empty, asmSound_empty,
    fun e => ⟨rfl, (h.arraySeek e).2⟩, fun _ => rfl, h.late, fun m hm => by cases hm⟩

theorem runCommand_links (m : Msg) (s : State) (h : LinksSound s) : LinksSound (runCommand m s) := by
  by_cases k : m.kind = 0x05
  · rw [runCommand, k]
    show LinksSound (runSoftReset m s)
    have refuse : ∀ st, LinksSound (answer m st s) := fun _ => h.of_pool (completeReply_frame _ s)
    unfold runSoftReset withLength judgeSoftReset
    split
    · split
      · exact refuse _
      · exact (softResetState_links h _).of_pool (completeReply_frame _ _)
    · exact refuse _
  · exact h.of_command (runCommand_command m s k)

theorem takeCommand_links {s : State} (h : LinksSound s) : LinksSound (takeCommand s) := by
  rcases takeIf_cases (fun _ => true) runCommand s with e | ⟨m, rest, w, -, -, e⟩
  · rw [takeCommand, e]; exact h
  · rw [takeCommand, e]; exact runCommand_links m _ (afterTaking_links h w)

theorem takeKeeping_links {s : State} (h : LinksSound s) : LinksSound (takeKeeping s) := by
  unfold takeKeeping
  split
  · have taken : LinksSound (takeCommand { s with cmd := { s.cmd with replies := [] } }) :=
      takeCommand_links (h.of_same rfl rfl rfl)
    dsimp only
    split
    · exact taken.of_same rfl rfl rfl
    · exact takeCommand_links h
  · exact h

theorem commandEvent_links {s : State} (h : LinksSound s) (keep : Bool) : LinksSound (commandEvent keep s) := by
  have taken : LinksSound (if keep then takeKeeping s else takeCommand s) := by
    split
    · exact takeKeeping_links h
    · exact takeCommand_links h
  exact taken.of_same rfl rfl rfl

theorem appendKept_links {s : State} (h : LinksSound s) : LinksSound (appendKept s) := by
  unfold appendKept
  split
  · have taken : LinksSound { s with blk := { s.blk with reply := none } } := h.of_same rfl rfl rfl
    exact taken.of_pool (completeReply_frame _ _)
  · exact h

theorem boundaryEvent_links {s : State} (h : LinksSound s) (keep : Bool) (e : BoundaryEvent) :
    LinksSound (boundaryEvent keep e s) := by
  by_cases hc : e = .command
  · subst hc; exact commandEvent_links h keep
  · by_cases hr : e = .reply
    · subst hr; exact appendKept_links h
    · exact h.of_event (boundaryEvent_event keep e s hc hr)

theorem runEvents_links {s : State} (h : LinksSound s) (keep : Bool) (es : List BoundaryEvent) :
    LinksSound (runEvents keep es s) := by
  unfold runEvents
  induction es generalizing s with
  | nil => exact h
  | cons e es ih => exact ih (boundaryEvent_links h keep e)

theorem joinCommands_links {s : State} (h : LinksSound s) : LinksSound (joinCommands s) := by
  unfold joinCommands
  have short : ∀ m ∈ s.ports.lateCommands, m.payload.length ≤ 240 :=
    fun m hm => h.late m (List.mem_append_left _ hm)
  have emptied : LinksSound { s with ports := { s.ports with lateCommands := [] } } :=
    ⟨h.frames.of_counts rfl rfl, h.arrayRx, h.codecRx, h.arrayAsm, h.codecAsm, h.arraySeek, h.codecSeek,
      fun m hm => h.late m (List.mem_append_right _ hm), h.queue⟩
  generalize s.ports.lateCommands = late at short
  generalize { s with ports := { s.ports with lateCommands := [] } } = u at emptied
  induction late generalizing u with
  | nil => exact emptied
  | cons m late ih =>
    exact ih (fun x hx => short x (List.mem_cons_of_mem _ hx)) _
      (deliverCommand_links emptied (short m List.mem_cons_self))

theorem feedControl_array_rx (f : Nat) (data : Option Byte) (s : State) :
    (feedControl .array f data s).ports.arrayRx = s.ports.arrayRx := by
  have settle : ∀ r, (settleAsm .array f r s).ports.arrayRx = s.ports.arrayRx := fun r => by
    unfold settleAsm deliver
    split
    · rfl
    · rw [deliverSteer_frame]; rfl
    · rfl
  unfold feedControl
  split
  · exact settle _
  · exact settle _

theorem joinControl_links {s : State} (h : LinksSound s) : LinksSound (joinControl s) := by
  have fed : LinksSound (s.ports.lateControl.foldl (fun s d => feedControl .array 0 d s)
      { s with ports := { s.ports with lateControl := [], lateSteers := [] } }) := by
    have emptied : LinksSound { s with ports := { s.ports with lateControl := [], lateSteers := [] } } :=
      ⟨h.frames.of_counts rfl rfl, h.arrayRx, h.codecRx, h.arrayAsm, h.codecAsm,
        fun e => ⟨(h.arraySeek e).1, rfl⟩, h.codecSeek,
        fun m hm => h.late m (List.mem_append_left _ (by simpa using hm)), h.queue⟩
    cases locked : s.ports.arrayRx.lock with
    | seeking => rw [(h.arraySeek locked).2]; exact emptied
    | locked =>
      have locked' : (rxOf .array { s with ports := { s.ports with lateControl := [], lateSteers := [] } }).lock
          = .locked := locked
      generalize s.ports.lateControl = late
      generalize { s with ports := { s.ports with lateControl := [], lateSteers := [] } } = u
        at emptied locked'
      induction late generalizing u with
      | nil => exact emptied
      | cons d late ih =>
        refine ih _ (feedControl_links emptied .array locked' 0 d) ?_
        show (feedControl .array 0 d u).ports.arrayRx.lock = .locked
        rw [feedControl_array_rx]
        exact locked'
  unfold joinControl
  generalize s.ports.lateControl.foldl _ _ = u at fed
  generalize s.ports.lateSteers = late
  induction late generalizing u with
  | nil => exact fed
  | cons m late ih => exact ih _ (deliverSteer_links fed m)

theorem settleBoundary_links {s : State} (h : LinksSound s) : LinksSound (settleBoundary s) :=
  joinControl_links (joinCommands_links (LinksSound.of_event
    (commandEvent_links ((h.of_event (applySteer_event s)).of_pool (grantDue_frame _)) false)
    (refreshReport_event _)))

theorem endBoundary_links {s : State} (h : LinksSound s) : LinksSound (endBoundary s) := by
  unfold endBoundary
  split
  · exact settleBoundary_links h
  · exact h

/-! What the end of a boundary leaves of the links: the counts of frames, the receivers and the boundary's number. -/

/-- The counts of frames, the receivers, the boundary's number and the pin RESETN. -/
structure EndFrame (s t : State) : Prop where
  frames : t.ports.frames = s.ports.frames
  arrayRx : t.ports.arrayRx = s.ports.arrayRx
  codecRx : t.ports.codecRx = s.ports.codecRx
  count : t.blk.count = s.blk.count
  resetn : t.resetn = s.resetn

theorem EndFrame.refl (s : State) : EndFrame s s := ⟨rfl, rfl, rfl, rfl, rfl⟩

theorem EndFrame.trans {s t u : State} (h : EndFrame s t) (k : EndFrame t u) : EndFrame s u :=
  ⟨k.frames.trans h.frames, k.arrayRx.trans h.arrayRx, k.codecRx.trans h.codecRx, k.count.trans h.count,
    k.resetn.trans h.resetn⟩

theorem EndFrame.foldl {α : Type} (f : State → α → State) (h : ∀ s x, EndFrame s (f s x)) (l : List α)
    (s : State) : EndFrame s (l.foldl f s) := by
  induction l generalizing s with
  | nil => exact EndFrame.refl s
  | cons x l ih => exact (h s x).trans (ih _)

theorem EventFrame.toEnd {s t : State} (h : EventFrame s t) : EndFrame s t :=
  ⟨by rw [h.ports], by rw [h.ports], by rw [h.ports], h.count, h.resetn⟩

theorem CommandFrame.toEnd {s t : State} (h : CommandFrame s t) : EndFrame s t :=
  ⟨by rw [h.ports], by rw [h.ports], by rw [h.ports], by rw [h.blk], h.resetn⟩

theorem runCommand_end (m : Msg) (s : State) : EndFrame s (runCommand m s) := by
  by_cases k : m.kind = 0x05
  · rw [runCommand, k]
    show EndFrame s (runSoftReset m s)
    have refuse : ∀ st, EndFrame s (answer m st s) := fun _ => (completeReply_frame _ s).event.toEnd
    unfold runSoftReset withLength judgeSoftReset
    split
    · split
      · exact refuse _
      · exact EndFrame.trans (t := softResetState _ s) ⟨rfl, rfl, rfl, rfl, rfl⟩
          (completeReply_frame _ _).event.toEnd
    · exact refuse _
  · exact (runCommand_command m s k).toEnd

theorem takeCommand_end (s : State) : EndFrame s (takeCommand s) := by
  rcases takeIf_cases (fun _ => true) runCommand s with e | ⟨m, rest, -, -, -, e⟩
  · rw [takeCommand, e]; exact .refl s
  · rw [takeCommand, e]
    exact EndFrame.trans (t := { s with cmd := afterTaking s rest }) ⟨rfl, rfl, rfl, rfl, rfl⟩
      (runCommand_end m _)

theorem deliverCommand_end (m : Msg) (s : State) : EndFrame s (deliverCommand m s) := by
  obtain ⟨ports, blk, -⟩ := deliverCommand_frame m s
  refine ⟨by rw [ports], by rw [ports], by rw [ports], by rw [blk], ?_⟩
  unfold deliverCommand
  split
  · rfl
  · exact (reportMsgError_frame _ s).resetn

theorem deliverSteer_end (m : Msg) (s : State) : EndFrame s (deliverSteer m s) := by
  rw [deliverSteer_frame]
  exact ⟨rfl, rfl, rfl, rfl, rfl⟩

theorem feedControl_array_end (data : Option Byte) (s : State) : EndFrame s (feedControl .array 0 data s) := by
  have settle : ∀ r, EndFrame s (settleAsm .array 0 r s) := fun r => by
    have set : EndFrame s (setAsm .array r.1 s) := ⟨rfl, rfl, rfl, rfl, rfl⟩
    unfold settleAsm
    split
    · exact set
    · exact set.trans (deliverSteer_end _ _)
    · exact set.trans ⟨rfl, rfl, rfl, rfl, rfl⟩
  unfold feedControl
  split
  · exact settle _
  · exact settle _

theorem joinCommands_end (s : State) : EndFrame s (joinCommands s) :=
  EndFrame.trans (t := { s with ports := { s.ports with lateCommands := [] } }) ⟨rfl, rfl, rfl, rfl, rfl⟩
    (.foldl _ (fun s m => deliverCommand_end m s) _ _)

theorem joinControl_end (s : State) : EndFrame s (joinControl s) :=
  EndFrame.trans (t := { s with ports := { s.ports with lateControl := [], lateSteers := [] } })
    ⟨rfl, rfl, rfl, rfl, rfl⟩
    ((EndFrame.foldl _ (fun s d => feedControl_array_end d s) _ _).trans
      (.foldl _ (fun s m => deliverSteer_end m s) _ _))

theorem endBoundary_end (s : State) : EndFrame s (endBoundary s) := by
  unfold endBoundary settleBoundary
  split
  · have taken : EndFrame s (takeCommand (grantDue (applySteer s))) :=
      ((applySteer_event s).toEnd.trans (grantDue_frame _).event.toEnd).trans (takeCommand_end _)
    have turned : EndFrame s (commandEvent false (grantDue (applySteer s))) :=
      taken.trans ⟨rfl, rfl, rfl, rfl, rfl⟩
    exact ((turned.trans (refreshReport_event _).toEnd).trans (joinCommands_end _)).trans (joinControl_end _)
  · exact .refl s

theorem EndFrame.due {s t : State} (h : EndFrame s t) {f : Nat} (k : FrameDue f s) : FrameDue f t :=
  ⟨by rw [h.count]; exact k.block, by rw [h.frames]; exact k.inArray, by rw [h.frames]; exact k.inCodec,
    by rw [h.frames]; exact k.outArray, by rw [h.frames]; exact k.outCodec⟩

/-- An outbound frame that is due moves the count of its direction. -/
theorem outbound_links {s : State} (h : LinksSound s) (link : Link) (heldNow : Bool)
    (due : OutboundDue link s) : LinksSound (outbound link heldNow s) := by
  have begun := startFrame_links h (outFrame link s) heldNow due.frame
  obtain ⟨frames, blk, -⟩ := startFrame_counts (outFrame link s) heldNow s
  have := h.frames.inArray; have := h.frames.inCodec; have := h.frames.outArray
  have := h.frames.outCodec; have := h.frames.answers; have := h.frames.block; have := h.frames.received
  have := due.frame.block; have := due.frame.inArray; have := due.frame.inCodec
  have := due.frame.outArray; have := due.frame.outCodec
  cases link with
  | array =>
    dsimp only [outFrame] at *
    refine ⟨?_, begun.arrayRx, begun.codecRx, begun.arrayAsm, begun.codecAsm, begun.arraySeek,
      begun.codecSeek, begun.late, begun.queue⟩
    constructor <;> dsimp only [outbound, outboundArray] <;> simp only [frames, blk] <;> omega
  | codec =>
    have answers := due.answers rfl
    dsimp only [outFrame] at *
    refine ⟨?_, begun.arrayRx, begun.codecRx, begun.arrayAsm, begun.codecAsm, begun.arraySeek,
      begun.codecSeek, begun.late, begun.queue⟩
    constructor <;> dsimp only [outbound, outboundCodec] <;> simp only [frames, blk] <;> omega

theorem outboundNext_links {s : State} (h : LinksSound s) (link : Link) (heldNow : Bool) :
    LinksSound (outboundNext link heldNow s) := by
  unfold outboundNext
  split
  · next due =>
    replace due := (outboundDue_iff link s).1 due
    cases link with
    | array => exact outbound_links h .array heldNow due
    | codec =>
      have e := endBoundary_end s
      refine outbound_links (endBoundary_links h) .codec heldNow ⟨?_, fun _ => ?_⟩
      · have := e.due due.frame
        unfold outFrame at *
        rw [e.frames]
        exact this
      · rw [e.frames, e.count]
        exact due.answers rfl
  · exact h

/-! ### A block boundary (R1) -/

/-- A boundary that is due finds the frames of its block received, and is the next to be counted. -/
theorem boundary_links {s : State} (h : LinksSound s) (due : BoundaryDue s) (order : List BoundaryEvent) :
    LinksSound (boundary order s) := by
  have held : LinksSound (appendHeld s) := h.of_pool (appendHeld_frame s)
  have counts := (appendHeld_frame s).event
  unfold boundary
  dsimp only
  refine LinksSound.of_event (runEvents_links ?_ _ _) (closeBlock_event _)
  have o := openBlock_open (controllerSees (eventOrder order) (appendHeld s)) (appendHeld s)
  obtain ⟨f, p, q⟩ := (linksSound_iff _).1 held
  refine (linksSound_iff _).2 ⟨?_, by rw [o.ports]; exact p, by rw [o.cmd]; exact q⟩
  have array := due.array; have codec := due.codec
  have := h.frames.inArray; have := h.frames.answers; have := h.frames.block
  constructor <;> simp only [o.ports, o.count] <;> dsimp only [snapshotBlock, Block.discarded]
  · exact f.inArray
  · exact f.inCodec
  · exact f.outArray
  · exact f.outCodec
  · rw [counts.ports, counts.count]; omega
  · rw [counts.ports, counts.count]; omega
  · rw [counts.ports, counts.count]; omega

/-! ### Every row -/

theorem powerOn_links (pending : List Instr) (resetn : Bool) (c : ClockPin) :
    LinksSound (setClocks c { State.reset with pending := pending, resetn := resetn }) := by
  refine ⟨?_, ?_, ?_, rfl, rfl, fun _ => ⟨rfl, rfl⟩, fun _ => rfl, nofun, nofun⟩
  · constructor <;> simp [setClocks, State.reset, Ports.powerOn, Block.discarded]
  · exact ⟨fun _ => Nat.zero_le _, nofun⟩
  · exact ⟨fun _ => Nat.zero_le _, nofun⟩

theorem idleEnds_links {s : State} (h : LinksSound s) (which : AsmState → Bool)
    (link : Link) :
    LinksSound (if idleEnds which link s then settleAsm link 0 (asmIdle (asmOf link s)) s else s) := by
  split
  · next e =>
    obtain ⟨sound, nothing⟩ := asmIdle_sound (asmOf_sound h link)
    refine settleAsm_links h link 0 sound (fun m d => absurd d (nothing m)) fun seek => ?_
    have empty : asmOf link s = Assembly.empty := by
      cases link
      · exact (h.arraySeek seek).1
      · exact h.codecSeek seek
    rw [empty]; rfl
  · exact h

/-! The two delivery rows answer a message that no link brings with the model's fault (log 18). -/

theorem commandDelivery_short (kind : Byte) {payload : List Byte} (h : payload.length ≤ 240) (s : State) :
    exec (.commandDelivery kind payload) s = up (fun s => if s.ports.codecRx.lock == .locked then
      completeCommand (s.ports.frames.inCodec - 1) ⟨kind, payload⟩ s else s) s := if_pos h

theorem commandDelivery_long (kind : Byte) {payload : List Byte} (h : 240 < payload.length) (s : State) :
    exec (.commandDelivery kind payload) s = .fault .messageTooLong := if_neg (not_le.2 h)

theorem steer_short (kind : Byte) {payload : List Byte} (h : payload.length ≤ 240) (s : State) :
    exec (.steer kind payload) s = up (fun s => if s.ports.arrayRx.lock == .locked then
      completeSteer (s.ports.frames.inArray - 1) ⟨kind, payload⟩ s else s) s := if_pos h

theorem steer_long (kind : Byte) {payload : List Byte} (h : 240 < payload.length) (s : State) :
    exec (.steer kind payload) s = .fault .messageTooLong := if_neg (not_le.2 h)

theorem ite_links {s t : State} {c : Bool} (h : LinksSound s) (k : LinksSound t) :
    LinksSound (if c = true then t else s) := by
  split
  · exact k
  · exact h

/-- Every row keeps the links sound. -/
theorem exec_links {c : Instr} {s t : State} (h : LinksSound s) (e : exec c s = .next t) : LinksSound t := by
  have row : ∀ {f : State → State}, up f s = .next t → LinksSound (f s) → LinksSound t := fun e k => by
    rcases up_next e with rfl | ⟨-, rfl⟩
    · exact h
    · exact k
  by_cases b : boundaryRow c = true
  · cases host : taken c with
    | none => exact h.of_event (boundaryRow_event b host e)
    | some pred => exact hostRow_keeps host h (fun _ _ w => afterTaking_links h w) runCommand_links e
  · cases c <;> simp only [boundaryRow, not_true_eq_false, Bool.false_eq_true, not_false_eq_true] at b
    case powerOnReset => cases e; exact powerOn_links _ _ _
    case resetnRelease =>
      cases e
      exact ⟨h.frames.of_counts rfl rfl, h.arrayRx, h.codecRx, h.arrayAsm, h.codecAsm, h.arraySeek,
        h.codecSeek, h.late, h.queue⟩
    case inboundFrame link bits => exact row e (inboundDue_links h link bits)
    case lockAcquired link bits => exact row e (ite_links h (inboundDue_links h link bits))
    case lossOfLock link bits => exact row e (ite_links h (inboundDue_links h link bits))
    case messageTruncation link => exact row e (idleEnds_links h _ link)
    case resyncEnd link => exact row e (idleEnds_links h _ link)
    case commandDelivery kind payload =>
      by_cases short : payload.length ≤ 240
      · rw [commandDelivery_short kind short] at e
        exact row e (ite_links h (completeCommand_links h _ short))
      · rw [commandDelivery_long kind (not_le.1 short)] at e
        cases e
    case steer kind payload =>
      by_cases short : payload.length ≤ 240
      · rw [steer_short kind short] at e
        exact row e (ite_links h (completeSteer_links h _ short))
      · rw [steer_long kind (not_le.1 short)] at e
        cases e
    case outboundFrame link heldNow => exact row e (outboundNext_links h link heldNow)
    case heldReplyAppend => exact row e (h.of_pool (appendHeld_frame s))
    case blockBoundary order =>
      rcases up_next e with rfl | ⟨hr, rfl⟩
      · exact h
      · split
        · next due => exact boundary_links h ((boundaryDue_iff s hr).1 due) order
        · exact h
    case entryDisturbance p w cells q check => exact row e (h.of_pool (disturbEntry_frame p w cells q check s))

/-- A step runs the command at the front of the queue, with the queue's rest, or idles. -/
theorem step_next {s t : State} (h : step s = .next t) :
    t = s ∨ ∃ c rest, exec c { s with pending := rest } = .next t := by
  unfold step at h
  split at h
  · cases h; exact .inl rfl
  · next c rest _ => exact .inr ⟨c, rest, h⟩

/-- Settles O11: every row keeps the frames in step, the receivers and the assemblies. -/
theorem linksStaySound : Obligations.LinksStaySound := by
  unfold Obligations.LinksStaySound
  intro s t h e
  rcases step_next e with rfl | ⟨c, rest, e⟩
  · exact h
  · exact exec_links (h.of_same (t := { s with pending := rest }) rfl rfl rfl) e

end Sys2Proof.Machine
end

