-- ==== Sys2Proof/Proofs/Ranges.lean ====
section
/-! PROOF. Settings, measures and counters stay in range (O12). Inside a boundary one bound is open: the counting
may take a divergence counter one above its range where the same boundary's resets then clear it (R92, R93).
`RangesWith` is the invariant with that bound open for the beams it names. -/

namespace Sys2Proof.Machine

/-! ### The parts of the invariant -/

/-- A reference's record is in range (R21, R24, R25). -/
structure RefInRange (x : Reference) : Prop where
  delay : x.delay ≤ 63
  level : x.level ≤ 423
  linger : x.linger ≤ 65535

/-- A beam's record is in range, its divergence counter apart (R50, R77, R84, R93). -/
structure BeamInRange (x : CtlBeam) : Prop where
  erle : -128 ≤ x.erle ∧ x.erle ≤ 255
  noise : x.noise ≤ 423
  divCount : x.divCount ≤ 255
  rise : x.rise ≤ 999
  hangCtr : x.hangCtr ≤ 1000
  degCtr : x.degCtr ≤ 4080

/-- A slot's record is in range (R77). -/
structure SlotInRange (x : CtlSlot) : Prop where
  run : x.run ≤ 1000
  counter : x.counter ≤ 10000

/-- The invariant `RangesSound` with the bound of the divergence counter open for the beams of `counting`. -/
structure RangesWith (counting : BeamId → Prop) (s : State) : Prop where
  steerErrors : s.ports.steerErrors ≤ 65535
  meters : ∀ m : Fin 4, s.play.meters[m].ceiling ≤ 8388607 ∧ s.play.meters[m].clamps ≤ 65535
  refs : ∀ r : RefId, RefInRange s.tracker.refs[r]
  tags : ∀ b : BeamId, s.router.beams[b].tag ≤ 32
  steering : ∀ r ∈ s.router.queue, r.tag ≤ 32
  beams : ∀ b : BeamId, BeamInRange s.ctl.beams[b]
  divCtr : ∀ b : BeamId, s.ctl.beams[b].divCtr ≤ 1000 ∨ counting b
  slots : ∀ sl : SlotId, SlotInRange s.ctl.slots[sl]
  micLu : ∀ b : BeamId, s.core.micLu[b] ≤ 423
  tuning : tuningInRange s.cmd.tuning
  blockTuning : tuningInRange s.blk.tuning
  attenuation : ∀ (b : BeamId) (j : Fin 32), s.supp.att[b][j] ≤ attMax s.cmd.tuning
  monitors : ∀ t : Fin 2, monitorAllowed s.out.monitors[t].kind s.out.monitors[t].index
    s.out.monitors[t].point = true

theorem rangesSound_iff (s : State) : RangesSound s ↔ RangesWith (fun _ => False) s := by
  constructor
  · intro h
    refine ⟨h.steerErrors, h.meters, fun r => ⟨h.delays r, h.levels.1 r, h.linger r⟩, h.tags, h.steering,
      fun b => ?_, fun b => .inl (h.beamCounters b).2.2.1, fun sl => ⟨(h.slotCounters sl).1,
      (h.slotCounters sl).2⟩, h.levels.2, h.tuning, h.blockTuning, h.attenuation, h.monitors⟩
    obtain ⟨rise, hang, -, deg⟩ := h.beamCounters b
    exact ⟨h.erle b, h.noise b, h.divCount b, rise, hang, deg⟩
  · intro h
    exact ⟨h.steerErrors, h.meters, fun r => (h.refs r).delay, h.tags, h.steering, fun b => (h.beams b).erle,
      fun b => (h.beams b).noise, fun b => (h.beams b).divCount,
      fun b => ⟨(h.beams b).rise, (h.beams b).hangCtr, (h.divCtr b).resolve_right id, (h.beams b).degCtr⟩,
      fun sl => ⟨(h.slots sl).run, (h.slots sl).counter⟩, ⟨fun r => (h.refs r).level, h.micLu⟩,
      fun r => (h.refs r).linger, h.tuning, h.blockTuning, h.attenuation, h.monitors⟩

/-- The beams whose counters are open may be exchanged for others that hold those out of range. -/
theorem RangesWith.counts {D E : BeamId → Prop} {s : State} (h : RangesWith D s)
    (k : ∀ b, D b → s.ctl.beams[b].divCtr ≤ 1000 ∨ E b) : RangesWith E s :=
  { h with divCtr := fun b => (h.divCtr b).elim .inl (k b) }

/-! ### The operations of the pool and of the store -/

/-- The Controller's beam records stand as before, and no slot's counter has grown. -/
structure CtlCalm (s t : State) : Prop where
  beams : t.ctl.beams = s.ctl.beams
  counters : ∀ sl : SlotId, t.ctl.slots[sl].run ≤ s.ctl.slots[sl].run ∧
    t.ctl.slots[sl].counter ≤ s.ctl.slots[sl].counter

theorem Quiet.calm {s t : State} (h : Quiet s t) : CtlCalm s t := ⟨h.beams, h.counters⟩

theorem CtlCalm.of_ctl {s t : State} (h : t.ctl = s.ctl) : CtlCalm s t :=
  ⟨by rw [h], fun sl => by rw [h]; exact ⟨le_rfl, le_rfl⟩⟩

theorem CtlCalm.refl (s : State) : CtlCalm s s := .of_ctl rfl

theorem CtlCalm.trans {s t u : State} (h : CtlCalm s t) (k : CtlCalm t u) : CtlCalm s u :=
  ⟨k.beams.trans h.beams, fun sl =>
    ⟨(k.counters sl).1.trans (h.counters sl).1, (k.counters sl).2.trans (h.counters sl).2⟩⟩

/-- An operation within the frame of the pool that is calm keeps every range. -/
theorem RangesWith.of_calm {D : BeamId → Prop} {s t : State} (h : RangesWith D s) (f : PoolFrame s t)
    (q : CtlCalm s t) : RangesWith D t where
  steerErrors := by rw [f.ports]; exact h.steerErrors
  meters := by rw [f.play]; exact h.meters
  refs := by rw [f.tracker]; exact h.refs
  tags := by rw [f.router]; exact h.tags
  steering := by rw [f.router]; exact h.steering
  beams := by rw [q.beams]; exact h.beams
  divCtr := by rw [q.beams]; exact h.divCtr
  slots sl := ⟨(q.counters sl).1.trans (h.slots sl).run, (q.counters sl).2.trans (h.slots sl).counter⟩
  micLu := by rw [f.core]; exact h.micLu
  tuning := by rw [f.cmd]; exact h.tuning
  blockTuning := by rw [f.blk]; exact h.blockTuning
  attenuation := by rw [f.supp, f.cmd]; exact h.attenuation
  monitors := by rw [f.out]; exact h.monitors

theorem RangesWith.of_quiet {D : BeamId → Prop} {s t : State} (h : RangesWith D s) (f : PoolFrame s t)
    (q : Quiet s t) : RangesWith D t := h.of_calm f q.calm

theorem reportSource_calm (src : Source) (s : State) : CtlCalm s (reportSource src s) := by
  obtain ⟨n, -, -, e⟩ := reportSource_cases src s
  rw [e]; exact .of_ctl rfl

theorem completeReply_calm (r : Msg) (s : State) : CtlCalm s (completeReply r s) := by
  unfold completeReply; split <;> exact .of_ctl rfl

theorem withdrawHost_calm (s : State) : CtlCalm s (withdrawHost s) := by
  unfold withdrawHost; split
  · exact .refl s
  · exact CtlCalm.trans (t := setHost none s) (.of_ctl rfl) (completeReply_calm _ _)

theorem disableStore_calm (failing : SlotId) (s : State) : CtlCalm s (disableStore failing s) := by
  have cleared := ((setEnabled_quiet false s).trans (invalidateAll_quiet _)).trans (raiseNamed_quiet failing _)
  have emptied := (setFills_quiet [] (raiseNamed failing (invalidateAll (setEnabled false s)))).trans
    ((freeDraining_quiet (fun _ => true) _).trans (emptyCaptures_quiet _))
  exact (cleared.trans emptied).calm.trans ((withdrawHost_calm _).trans (reportSource_calm _ _))

theorem checkFailure_calm (t : Transfer) (r : FillReq) (e : Entry) (s : State) :
    CtlCalm s (checkFailure t r e s) := by
  have h := (((invalidateEntry_quiet t.set t.way s).trans (setErrors_quiet (s.store.errors + 1) _)).trans
    (latchError_quiet ⟨t.set, t.way, e.tag, .fill⟩ _)).calm.trans (reportSource_calm .storeFault _)
  unfold checkFailure; dsimp only; split
  · exact h.trans (disableStore_calm _ _)
  · exact h

theorem finishTransfer_calm (t : Transfer) (s : State) : CtlCalm s (finishTransfer t s) := by
  unfold finishTransfer; dsimp only
  refine CtlCalm.trans (t := setPort none s) (.of_ctl rfl) ?_
  generalize setPort none s = u
  split
  · unfold finishFill; split
    · exact .refl _
    · split
      · split
        · exact (installHead_quiet _ _ _).calm
        · exact .refl _
      · exact checkFailure_calm _ _ _ _
  · unfold finishCapture; split
    · exact .refl _
    · exact (writeWay_quiet _ _ _ _).calm
  · unfold finishCommit; split
    · exact .refl _
    · have written : ∀ w v, CtlCalm v (setWritten w v) := fun _ _ => .of_ctl rfl
      exact ((writeWay_quiet _ _ _ _).calm.trans (written _ _)).trans (completeReply_calm _ _)
  · unfold finishRead; split
    · exact .refl _
    · dsimp only; split
      · exact (latchError_quiet _ _).calm.trans (completeReply_calm _ _)
      · exact completeReply_calm _ _

theorem completeDue_calm (s : State) : CtlCalm s (completeDue s) := by
  unfold completeDue; split
  · exact finishTransfer_calm _ s
  · exact .refl s

theorem grantCapture_calm (s : State) : CtlCalm s (grantCapture s) := by
  unfold grantCapture; split
  · exact .refl s
  · next c rest _ =>
    have reserved : CtlCalm s (setCaptures rest (setPort
        (some ⟨.capture c, c.set, chooseWay s.store.sets[c.set] c.tag, false, s.blk.count⟩)
        (reserveWay c.set (chooseWay s.store.sets[c.set] c.tag) c.tag s))) := .of_ctl rfl
    exact reserved.trans (roomReport_quiet _).calm

theorem grantHost_calm (s : State) : CtlCalm s (grantHost s) := by
  unfold grantHost; split
  · exact .refl s
  · split
    · exact .refl s
    · dsimp only; split <;> exact .of_ctl rfl

theorem grantDue_calm (s : State) : CtlCalm s (grantDue s) := by
  unfold grantDue; dsimp only; split
  · refine (completeDue_calm s).trans ?_
    unfold grantIdle; split
    · exact grantCapture_calm _
    · split
      · exact .of_ctl rfl
      · split
        · exact CtlCalm.trans (setFills_quiet _ _).calm (grantCapture_calm _)
        · exact CtlCalm.trans (setFills_quiet _ _).calm (grantHost_calm _)
  · exact completeDue_calm s

theorem completeWhich_calm (which : Transfer → Bool) (s : State) : CtlCalm s (completeWhich which s) := by
  unfold completeWhich; split
  · split
    · exact finishTransfer_calm _ s
    · exact .refl s
  · exact .refl s

/-! ### The Controller's records -/

/-- A beam's record in range takes the place of another, with its divergence counter in range or open. -/
theorem setCtlBeam_ranges {D : BeamId → Prop} {s : State} (h : RangesWith D s) (b : BeamId) {x : CtlBeam}
    (inRange : BeamInRange x) (div : x.divCtr ≤ 1000 ∨ D b) : RangesWith D (setCtlBeam b x s) := by
  have at_b : ∀ {P : CtlBeam → BeamId → Prop}, P x b → (∀ o, P s.ctl.beams[o] o) →
      ∀ o : BeamId, P (s.ctl.beams.set b x)[o] o := fun hx ho o => by
    by_cases e : b.val = o.val
    · obtain rfl : b = o := Fin.ext e
      simpa using hx
    · simpa [e] using ho o
  exact { h with
    beams := at_b (P := fun y _ => BeamInRange y) inRange h.beams
    divCtr := at_b (P := fun y o => y.divCtr ≤ 1000 ∨ D o) div h.divCtr }

/-- A slot's record in range takes the place of another. -/
theorem setCtlSlot_ranges {D : BeamId → Prop} {s : State} (h : RangesWith D s) (sl : SlotId) {x : CtlSlot}
    (inRange : SlotInRange x) : RangesWith D (setCtlSlot sl x s) := by
  refine { h with slots := fun o => ?_ }
  by_cases e : sl.val = o.val
  · obtain rfl : sl = o := Fin.ext e
    simpa [setCtlSlot] using inRange
  · simpa [setCtlSlot, e] using h.slots o

theorem reportSource_ranges {D : BeamId → Prop} {s : State} (h : RangesWith D s) (src : Source) :
    RangesWith D (reportSource src s) := h.of_calm (reportSource_frame src s) (reportSource_calm src s)

theorem completeReply_ranges {D : BeamId → Prop} {s : State} (h : RangesWith D s) (r : Msg) :
    RangesWith D (completeReply r s) := h.of_calm (completeReply_frame r s) (completeReply_calm r s)

theorem reportDiverged_ranges {D : BeamId → Prop} {s : State} (h : RangesWith D s) (b : BeamId) :
    RangesWith D (reportDiverged b s) := by
  have noted : RangesWith D { s with ev := { s.ev with diverged := setInsert s.ev.diverged b.val } } :=
    { h with }
  exact reportSource_ranges noted _

theorem reportDegraded_ranges {D : BeamId → Prop} {s : State} (h : RangesWith D s) (b : BeamId) :
    RangesWith D (reportDegraded b s) := by
  have noted : RangesWith D { s with ev := { s.ev with degraded := setInsert s.ev.degraded b.val } } :=
    { h with }
  exact reportSource_ranges noted _

theorem reportMsgError_ranges {D : BeamId → Prop} {s : State} (h : RangesWith D s) (c : MsgCause) :
    RangesWith D (reportMsgError c s) := by
  have noted : RangesWith D { s with ev := { s.ev with causes := setInsert s.ev.causes (causeBit c) } } :=
    { h with }
  exact reportSource_ranges noted _

theorem countUp255_le (n : Nat) : countUp255 n ≤ 255 := Nat.min_le_left _ _

theorem clampBeam_ranges {D : BeamId → Prop} {s : State} (h : RangesWith D s) (b : BeamId) :
    RangesWith D (clampBeam b s) :=
  reportDiverged_ranges (setCtlBeam_ranges h b
    (x := { s.ctl.beams[b] with divCount := countUp255 s.ctl.beams[b].divCount })
    { h.beams b with divCount := countUp255_le _ } (h.divCtr b)) b

theorem divergeBeam_ranges {D : BeamId → Prop} {s : State} (h : RangesWith D s) (b : BeamId) :
    RangesWith D (divergeBeam b s) := by
  have cleared := setCtlBeam_ranges h b
    (x := { s.ctl.beams[b] with erle := 0, divCtr := 0, divCount := countUp255 s.ctl.beams[b].divCount })
    { h.beams b with erle := by constructor <;> simp, divCount := countUp255_le _ } (.inl (Nat.zero_le _))
  have marked : RangesWith D (markDiverged b (setCtlBeam b { s.ctl.beams[b] with
      erle := 0, divCtr := 0, divCount := countUp255 s.ctl.beams[b].divCount } s)) := { cleared with }
  exact reportDiverged_ranges marked b

theorem resetSlot_ranges {D : BeamId → Prop} {s : State} (h : RangesWith D s) (sl : SlotId) (p : PairId) :
    RangesWith D (resetSlot sl p s) := h.of_quiet (resetSlot_frame sl p s) (resetSlot_quiet sl p s)

theorem resetSlots_ranges {D : BeamId → Prop} {s : State} (h : RangesWith D s)
    (which : SlotId → PairId → Bool) : RangesWith D (resetSlots which s) :=
  h.of_quiet (resetSlots_frame which s) (resetSlots_quiet which s)

theorem allocEvent_ranges {D : BeamId → Prop} {s : State} (h : RangesWith D s) (was : Vector Bool 128) :
    RangesWith D (allocEvent was s) := h.of_quiet (allocEvent_frame was s) (allocEvent_quiet was s)

/-! ### Levels (R24, R45, R46, R49) -/

/-- The level of an energy of at most 2^52 is at most 423 (R46). -/
theorem lu_le {e : Nat} (h : e ≤ 2 ^ 52) : lu e ≤ 423 := by
  unfold lu
  split
  · exact Nat.zero_le _
  · next big =>
    have nonzero : e ≠ 0 := by omega
    have exponent : Nat.log2 e ≤ 52 := by
      have := (Nat.log2_lt nonzero).2 (Nat.lt_of_le_of_lt h (by norm_num : 2 ^ 52 < 2 ^ 53))
      omega
    have below : e < 2 ^ Nat.log2 e * 2 := by
      have := Nat.lt_log2_self (n := e)
      rwa [Nat.pow_succ] at this
    have eighths : (e - 2 ^ Nat.log2 e) * 8 / 2 ^ Nat.log2 e < 8 := by
      rw [Nat.div_lt_iff_lt_mul (Nat.two_pow_pos _)]
      omega
    omega

/-- A band value within 24 bits has an energy of at most 2^47 (R45). -/
theorem energy_le {v : Cx} (re : -8388608 ≤ v.re ∧ v.re ≤ 8388607) (im : -8388608 ≤ v.im ∧ v.im ≤ 8388607) :
    energy v ≤ 2 ^ 47 := by
  have square : ∀ x : Int, -8388608 ≤ x ∧ x ≤ 8388607 → x * x ≤ 2 ^ 46 := fun x hx => by
    nlinarith [hx.1, hx.2]
  have := square _ re
  have := square _ im
  unfold energy
  omega

theorem foldl_add_le {α : Type} (f : α → Nat) (bound : Nat) (l : List α) (h : ∀ x ∈ l, f x ≤ bound) (a : Nat) :
    l.foldl (fun e x => e + f x) a ≤ a + l.length * bound := by
  induction l generalizing a with
  | nil => simp
  | cons x l ih =>
    have first := h x List.mem_cons_self
    have rest := ih (fun y hy => h y (List.mem_cons_of_mem _ hy)) (a + f x)
    rw [List.foldl_cons, List.length_cons, Nat.succ_mul]
    omega

/-- The level of an analysis bank's band values is at most 423: each component saturates at 24 bits. -/
theorem analyse_level (hist : List Sample) : lu (blockEnergy (analyse hist)) ≤ 423 := by
  have sat : ∀ x, -8388608 ≤ sat24 x ∧ sat24 x ≤ 8388607 := fun x => by unfold sat24 saturate; omega
  have each : ∀ v ∈ (analyse hist).toList, energy v ≤ 2 ^ 47 := fun v hv => by
    obtain ⟨j, hj, rfl⟩ := List.mem_iff_getElem.1 hv
    have j32 : j < 32 := by simpa using hj
    have e : (analyse hist).toList[j] = csat24 (bandRounded Config.bankFilter.weights hist j) := by
      simpa [analyse] using bandsOf_get Config.bankFilter.weights hist ⟨j, j32⟩
    rw [e]
    exact energy_le (sat _) (sat _)
  refine lu_le ?_
  have sum := foldl_add_le energy (2 ^ 47) _ each 0
  have e : blockEnergy (analyse hist) = (analyse hist).toList.foldl (fun e x => e + energy x) 0 := by
    unfold blockEnergy
    rw [Vector.foldl_toList]
  rw [e]
  simpa using sum

/-! ### The commands -/

section Commands

variable {D : BeamId → Prop} {s : State}

theorem setRef_ranges (h : RangesWith D s) (r : RefId) {x : Reference} (inRange : RefInRange x) :
    RangesWith D (setRef r x s) := by
  refine { h with refs := fun o => ?_ }
  by_cases e : r.val = o.val
  · obtain rfl : r = o := Fin.ext e
    simpa [setRef] using inRange
  · simpa [setRef, e] using h.refs o

theorem setBeam_ranges (h : RangesWith D s) (b : BeamId) {x : Beam} (tag : x.tag ≤ 32) :
    RangesWith D (setBeam b x s) := by
  refine { h with tags := fun o => ?_ }
  by_cases e : b.val = o.val
  · obtain rfl : b = o := Fin.ext e
    simpa [setBeam] using tag
  · simpa [setBeam, e] using h.tags o

/-- What every member of a fold keeps, the fold keeps. -/
theorem foldl_keeps {α : Type} {P : State → Prop} (f : State → α → State) (l : List α)
    (h : ∀ s, ∀ x ∈ l, P s → P (f s x)) (hs : P s) : P (l.foldl f s) := by
  induction l generalizing s with
  | nil => exact hs
  | cons x l ih =>
    exact ih (fun s y hy => h s y (List.mem_cons_of_mem _ hy)) (h s x List.mem_cons_self hs)

theorem silenceRef_ranges (h : RangesWith D s) (r : RefId) : RangesWith D (silenceRef r s) :=
  setRef_ranges h r { h.refs r with linger := Nat.zero_le _ }

theorem silenceAll_ranges (h : RangesWith D s) : RangesWith D (silenceAll s) :=
  foldl_keeps _ _ (fun _ r _ k => silenceRef_ranges k r) h

theorem report_ranges (h : RangesWith D s) (reply : Msg → State → Msg) (m : Msg) :
    RangesWith D (report reply m s) := by
  have noted : RangesWith D { s with blk := { s.blk with report := some m } } := { h with }
  exact completeReply_ranges noted _

theorem withLength_ranges (h : RangesWith D s) {act : Msg → State → State} {m : Msg}
    (k : RangesWith D (act m s)) (n : Nat) : RangesWith D (withLength n act m s) := by
  unfold withLength; split
  · exact k
  · exact completeReply_ranges h _

theorem done_ranges {f : State → State} (k : RangesWith D (f s)) (m : Msg) : RangesWith D (done f m s) :=
  completeReply_ranges k _

theorem startRunning_ranges (h : RangesWith D s) : RangesWith D (startRunning s) := by
  unfold startRunning; split
  · exact h
  · have running : RangesWith D (setOp .running s) := { h with }
    have silenced := silenceAll_ranges running
    refine { silenced with beams := fun b => ?_, divCtr := fun b => ?_ }
    · have old := silenced.beams b
      simp only [Fin.getElem_fin, Vector.getElem_ofFn] at old ⊢
      exact { old with erle := by constructor <;> simp [beamRun], hangCtr := Nat.zero_le _,
                       degCtr := Nat.zero_le _ }
    · simp [beamRun]

theorem stopRunning_ranges (h : RangesWith D s) : RangesWith D (stopRunning s) := by
  unfold stopRunning; split
  · exact h
  · have config : RangesWith D (setOp .config s) := { h with }
    exact (silenceAll_ranges config).of_quiet (stopPool_frame _) (stopPool_quiet _)

theorem changeTail_ranges (h : RangesWith D s) (code : Fin 6) : RangesWith D (changeTail code s) :=
  { h with slots := fun sl => by simp [changeTail, CtlSlot.powerOn]; exact ⟨Nat.zero_le _, Nat.zero_le _⟩ }

theorem judgeSetTail_ranges (h : RangesWith D s) (m : Msg) : RangesWith D (judgeSetTail m s) := by
  unfold judgeSetTail; split
  · split
    · exact completeReply_ranges h _
    · split
      · exact completeReply_ranges h _
      · exact completeReply_ranges (changeTail_ranges h _) _
  · exact completeReply_ranges h _

theorem judgeEventSetup_ranges (h : RangesWith D s) (m : Msg) : RangesWith D (judgeEventSetup m s) := by
  unfold judgeEventSetup; split
  · exact completeReply_ranges h _
  · next mode _ =>
    have set : RangesWith D { s with ev := { s.ev with mask := byteAt m.payload 0, mode := mode } } := { h with }
    exact completeReply_ranges set _

theorem clearEvents_ranges (h : RangesWith D s) (set : Byte) : RangesWith D (clearEvents set s) := { h with }

theorem freezeBeam_ranges (h : RangesWith D s) (on : Bool) (b : BeamId) :
    RangesWith D (freezeBeam on b s) := by
  have set := setBeam_ranges h b (x := { s.router.beams[b] with frozen := on }) (h.tags b)
  unfold freezeBeam; dsimp only; split
  · exact setCtlBeam_ranges set b { h.beams b with } (.inl (Nat.zero_le _))
  · exact set

theorem judgeFreeze_ranges (h : RangesWith D s) (m : Msg) : RangesWith D (judgeFreeze m s) := by
  unfold judgeFreeze; split
  · exact completeReply_ranges h _
  · refine completeReply_ranges (foldl_keeps _ _ (fun x b _ k => ?_) h) _
    split
    · exact freezeBeam_ranges k _ b
    · exact k

theorem invalidateSets_ranges (h : RangesWith D s) (which : SetId → Bool) :
    RangesWith D (invalidateSets which s) :=
  h.of_quiet (invalidateSets_frame which s) (invalidateSets_quiet which s)

theorem flushStore_ranges (h : RangesWith D s) : RangesWith D (flushStore s) := invalidateSets_ranges h _

theorem enableStore_ranges (h : RangesWith D s) : RangesWith D (enableStore s) := { h with }

theorem waitPort_ranges (h : RangesWith D s) (a : HostAccess) : RangesWith D (waitPort a s) := { h with }

theorem judgeEntryRead_ranges (h : RangesWith D s) (m : Msg) : RangesWith D (judgeEntryRead m s) := by
  have refuse : ∀ st, RangesWith D (answer m st s) := fun _ => completeReply_ranges h _
  unfold judgeEntryRead; dsimp only; split
  · split
    · split
      · exact refuse _
      · split
        · exact waitPort_ranges h _
        · exact refuse _
    · exact refuse _
  · exact refuse _

theorem judgeEntryLoad_ranges (h : RangesWith D s) (m : Msg) : RangesWith D (judgeEntryLoad m s) := by
  have loaded : ∀ taps w, RangesWith D { s with cmd := { s.cmd with loadTaps := taps, loadWritten := w } } :=
    fun _ _ => { h with }
  unfold judgeEntryLoad; dsimp only; split
  · exact completeReply_ranges h _
  · exact completeReply_ranges (loaded _ _) _

theorem judgeEntryCommit_ranges (h : RangesWith D s) (m : Msg) : RangesWith D (judgeEntryCommit m s) := by
  have refuse : ∀ st, RangesWith D (answer m st s) := fun _ => completeReply_ranges h _
  unfold judgeEntryCommit; dsimp only; split
  · split
    · exact refuse _
    · split
      · exact refuse _
      · split
        · exact refuse _
        · split
          · exact refuse _
          · exact waitPort_ranges h _
  · exact refuse _

/-! ### TABLE WRITE -/

theorem clampNat_le (lo hi x : Nat) (h : lo ≤ hi) : lo ≤ (clampNat lo hi x).1 ∧ (clampNat lo hi x).1 ≤ hi :=
  ⟨Nat.le_max_left _ _, by unfold clampNat; omega⟩

/-- A written entry of a table other than TUNING is in range (R20, R21, R30, R158). -/
theorem writeEntry_ranges {t : Table} (other : t ≠ .tuning) {i : Nat} {p : List Byte} {r : State × Bool}
    (h : RangesWith D s) (e : writeEntry t i p s = some r) : RangesWith D r.1 := by
  cases t with
  | beam =>
    simp only [writeEntry, writeBeam] at e
    split at e
    · next lt =>
      split at e
      · cases e; exact setBeam_ranges h ⟨i, lt⟩ (h.tags ⟨i, lt⟩)
      · cases e
    · cases e
  | reference =>
    simp only [writeEntry, writeReference] at e
    split at e
    · next lt =>
      split at e
      · cases e
        exact setRef_ranges h ⟨i, lt⟩ { h.refs ⟨i, lt⟩ with delay := (clampNat_le 0 63 _ (by decide)).2 }
      · cases e
    · cases e
  | pairmask =>
    simp only [writeEntry, writePairmask] at e
    split at e
    · split at e
      · cases e; exact { h with }
      · cases e
    · cases e
  | step =>
    simp only [writeEntry, writeStep] at e
    split at e
    · cases e; exact { h with }
    · cases e
  | tuning => exact absurd rfl other
  | threshold =>
    simp only [writeEntry, writeThreshold] at e
    split at e
    · cases e; exact { h with }
    · cases e
  | meter =>
    simp only [writeEntry, writeMeter] at e
    split at e
    · next lt =>
      cases e
      refine { h with meters := fun m => ?_ }
      by_cases same : i = m.val
      · subst same
        simpa using (clampNat_le 0 8388607 (beNat [byteAt p 0, byteAt p 1, byteAt p 2]) (by decide)).2
      · simpa [same] using h.meters m
    · cases e
  | monitor =>
    simp only [writeEntry, writeMonitor] at e
    split at e
    · next lt =>
      split at e
      · split at e
        · next allowed =>
          cases e
          refine { h with monitors := fun m => ?_ }
          by_cases same : i = m.val
          · subst same; simpa using allowed
          · simpa [same] using h.monitors m
        · cases e
      · cases e
    · cases e

/-- A written entry of the TUNING table is in its range (R168, R178). -/
theorem writeTuning_inRange {i : Nat} {p : List Byte} {r : State × Bool} (h : tuningInRange s.cmd.tuning)
    (e : writeEntry .tuning i p s = some r) :
    ∃ T, tuningInRange T ∧ r.1 = { s with cmd := { s.cmd with tuning := T } } := by
  have bounds : ∀ j : Fin 26, tuningBounds[j].1 ≤ tuningBounds[j].2 := by decide
  have entry : ∀ (lt : i < 26) (x : Nat), tuningBounds[i].1 ≤ x ∧ x ≤ tuningBounds[i].2 →
      tuningInRange (s.cmd.tuning.set i x lt) := fun lt x hx j => by
    by_cases same : i = j.val
    · subst same; simpa using hx
    · simpa [same] using h j
  unfold writeEntry writeTuning at e
  dsimp only at e
  split at e
  · next lt =>
    split at e
    · next policy =>
      obtain ⟨small, e⟩ := Option.ite_none_right_eq_some.1 e
      cases e
      refine ⟨_, entry lt _ ?_, rfl⟩
      subst policy
      exact ⟨Nat.zero_le _, small⟩
    · cases e
      exact ⟨_, entry lt _ (clampNat_le _ _ _ (bounds ⟨i, lt⟩)), rfl⟩
  · cases e

theorem clearDegrade_ranges (h : RangesWith D s) : RangesWith D (clearDegrade s) := by
  refine { h with beams := fun b => ?_, divCtr := fun b => ?_ }
  · have old := h.beams b
    simp only [clearDegrade, Fin.getElem_fin, Vector.getElem_ofFn] at old ⊢
    exact { old with degCtr := Nat.zero_le _ }
  · simpa [clearDegrade] using h.divCtr b

/-- Settings in range, with attenuations that do not exceed their att_max, take the place of others. -/
theorem tuned_ranges (h : RangesWith D s) {T : Vector Nat 26} (inRange : tuningInRange T) (hold : Bool)
    {A : Vector (Vector Nat 32) 16} (att : ∀ (b : BeamId) (j : Fin 32), A[b][j] ≤ attMax T) :
    RangesWith D { s with
      cmd := { s.cmd with tuning := T, hold := hold }, supp := { s.supp with att := A } } :=
  { h with tuning := inRange, attenuation := att }

theorem tuningEvent_ranges (h : RangesWith D s) {T : Vector Nat 26} (inRange : tuningInRange T) :
    RangesWith D (tuningEvent { s with cmd := { s.cmd with tuning := T } }) := by
  have limited := tuned_ranges h inRange (holdAfter s.cmd.hold s.cmd.queue.length (holdTrigger T))
    (A := Vector.ofFn fun b => Vector.ofFn fun j => min s.supp.att[b][j] (attMax T)) fun b j => by simp
  unfold tuningEvent updateHold lowerAtt; dsimp only; split
  · exact clearDegrade_ranges limited
  · exact limited

theorem handMonitors_ranges (h : RangesWith D s) : RangesWith D (handMonitors s) := by
  unfold handMonitors; exact { h with }

theorem delayChange_ranges (h : RangesWith D s) (r : RefId) : RangesWith D (delayChange r s) :=
  h.of_quiet (delayChange_frame r s) (delayChange_quiet r s)

theorem referenceEvent_ranges (h : RangesWith D s) (before : State) :
    RangesWith D (referenceEvent before s) := by
  refine allocEvent_ranges (foldl_keeps _ _ (fun x r _ k => ?_) (foldl_keeps _ _ (fun x r _ k => ?_) h)) _
  · split
    · exact silenceRef_ranges k r
    · exact k
    · exact k
  · split
    · exact k
    · exact delayChange_ranges k r

theorem tableEvent_ranges (h : RangesWith D s) {t : Table} (other : t ≠ .tuning) (before : State) :
    RangesWith D (tableEvent t before s) := by
  cases t with
  | beam => exact allocEvent_ranges h _
  | reference => exact referenceEvent_ranges h before
  | pairmask => exact allocEvent_ranges h _
  | step => exact h
  | tuning => exact absurd rfl other
  | threshold => exact h
  | meter => exact h
  | monitor =>
    unfold tableEvent rehandMonitors
    dsimp only
    split
    · exact handMonitors_ranges h
    · exact h

/-- The entries of a TABLE WRITE with what the write brings about keep every range. -/
theorem writeEntries_ranges (h : RangesWith D s) (t : Table) (n i : Nat) (p : List Byte) :
    RangesWith D (tableEvent t s (writeEntries t n i p s).1) := by
  by_cases tuning : t = .tuning
  · subst tuning
    obtain ⟨T, inRange, e⟩ := writeEntries_induction .tuning
      (fun u => ∃ T, tuningInRange T ∧ u = { s with cmd := { s.cmd with tuning := T } })
      (fun i p u r ⟨T, inRange, hu⟩ e => by
        subst hu
        obtain ⟨T', inRange', e'⟩ := writeTuning_inRange inRange e
        exact ⟨T', inRange', e'⟩) n i p s ⟨s.cmd.tuning, h.tuning, rfl⟩
    rw [e]
    exact tuningEvent_ranges h inRange
  · exact tableEvent_ranges (writeEntries_induction t (RangesWith D)
      (fun _ _ _ _ k e => writeEntry_ranges tuning k e) n i p s h) tuning s

theorem runTableWrite_ranges (h : RangesWith D s) (m : Msg) : RangesWith D (runTableWrite m s) := by
  have refuse : ∀ r, RangesWith D (completeReply r s) := fun _ => completeReply_ranges h _
  unfold runTableWrite; split
  · exact refuse _
  · split
    · exact refuse _
    · unfold writeTable; dsimp only; split
      · exact refuse _
      · split
        · exact refuse _
        · split
          · exact refuse _
          · exact completeReply_ranges (writeEntries_ranges h _ _ _ _) _

/-! ### SOFT RESET -/

theorem tuningDefaults_inRange : tuningInRange tuningDefaults := by
  intro i; revert i; decide

theorem ctlBeam_powerOn_inRange : BeamInRange CtlBeam.powerOn := by
  constructor <;> simp [CtlBeam.powerOn]

theorem softResetState_ranges {E : BeamId → Prop} (h : RangesWith D s) (keep : Bool) :
    RangesWith E (softResetState keep s) where
  steerErrors := Nat.zero_le _
  meters m := by
    have := h.meters m
    cases keep <;> simp [softResetState, resetPlay, Meter.powerOn] at this ⊢; omega
  refs r := by
    have := h.refs r
    cases keep
    · simp only [softResetState, resetRef, Fin.getElem_fin, Vector.getElem_ofFn]
      constructor <;> simp [Reference.powerOn]
    · simp only [softResetState, resetRef, Fin.getElem_fin, Vector.getElem_ofFn]
      exact { this with level := Nat.zero_le _, linger := Nat.zero_le _ }
  tags b := by cases keep <;> simp [softResetState, resetBeam, Beam.powerOn]
  steering r hr := by cases hr
  beams b := by simpa [softResetState, Controller.powerOn] using ctlBeam_powerOn_inRange
  divCtr b := by simp [softResetState, Controller.powerOn, CtlBeam.powerOn]
  slots sl := by simp [softResetState, Controller.powerOn, CtlSlot.powerOn]; exact ⟨Nat.zero_le _, Nat.zero_le _⟩
  micLu b := by simp [softResetState, Canceller.powerOn]
  tuning := by
    cases keep
    · exact tuningDefaults_inRange
    · exact h.tuning
  blockTuning := tuningDefaults_inRange
  attenuation b j := by simp [softResetState, Suppressor.powerOn]
  monitors t := by
    cases keep
    · simp [softResetState, Output.powerOn, Monitor.powerOn, monitorAllowed]
    · exact h.monitors t

/-- A command keeps every range (R169). -/
theorem runCommand_ranges (h : RangesWith D s) (m : Msg) : RangesWith D (runCommand m s) := by
  unfold runCommand
  split
  · next f e =>
    unfold catalogue at e
    split at e <;> cases e
    · exact report_ranges h _ m
    · exact withLength_ranges h (done_ranges (startRunning_ranges h) m) 0
    · exact withLength_ranges h (done_ranges (stopRunning_ranges h) m) 0
    · exact withLength_ranges h (judgeSetTail_ranges h m) 1
    · refine withLength_ranges h ?_ 1
      unfold judgeSoftReset
      split
      · exact completeReply_ranges h _
      · exact completeReply_ranges (softResetState_ranges h _) _
    · exact runTableWrite_ranges h m
    · exact report_ranges h _ m
    · exact report_ranges h _ m
    · exact withLength_ranges h (done_ranges (clearEvents_ranges h _) m) 1
    · exact withLength_ranges h (judgeEventSetup_ranges h m) 2
    · exact report_ranges h _ m
    · exact report_ranges h _ m
    · exact withLength_ranges h (judgeFreeze_ranges h m) 3
    · exact withLength_ranges h (done_ranges (flushStore_ranges h) m) 0
    · exact withLength_ranges h (done_ranges (enableStore_ranges h) m) 0
    · exact withLength_ranges h (done_ranges (invalidateSets_ranges h _) m) 3
    · exact withLength_ranges h (judgeEntryRead_ranges h m) 3
    · exact withLength_ranges h (judgeEntryLoad_ranges h m) 109
    · exact withLength_ranges h (judgeEntryCommit_ranges h m) 5
  · exact completeReply_ranges h _

theorem afterTaking_ranges (h : RangesWith D s) (rest : List Msg) :
    RangesWith D { s with cmd := afterTaking s rest } := { h with }

end Commands

end Sys2Proof.Machine
end

