-- ==== Sys2Proof/Proofs/RangesKept.lean ====
section
/-! PROOF. Settings, measures and counters stay in range, continued (O12): the opening of a boundary, its events,
and every row. -/

namespace Sys2Proof.Machine

/-! ### The counting rules (R25, R50, R81, R84, R87 to R92, R96) -/

/-- The hangover counter is kept, ends, falls, or starts at the hangover time (R83). -/
theorem nextTalk_counter (st : Talk) {ctr hang limit : Nat} (far near : Bool) (counter : ctr ≤ limit)
    (time : hang ≤ limit) : (nextTalk st ctr far near hang).2 ≤ limit := by
  have single : (if (far && near) = true then (Talk.double, ctr) else (flagGiven far near, ctr)).2 ≤ limit := by
    split <;> exact counter
  cases st with
  | idle => exact single
  | far => exact single
  | near => exact single
  | double =>
    dsimp only [nextTalk]
    split
    · exact counter
    · split
      · exact Nat.zero_le _
      · exact time
  | hangover =>
    dsimp only [nextTalk]
    split
    · exact Nat.zero_le _
    · split
      · exact Nat.zero_le _
      · exact (Nat.sub_le _ _).trans counter

/-- The stages of the Controller keep a beam's record in range (R50, R81, R84). -/
theorem beamStages_inRange {t : Vector Nat 26} (tuning : tuningInRange t) (far near : Bool) (mic res : Nat)
    {x : CtlBeam} (h : BeamInRange x) : BeamInRange (beamStages t far near mic res x) := by
  have rises : noiseRise t ≤ 1000 := (tuning 22).2
  have hangs : hangoverTime t ≤ 1000 := (tuning 5).2
  constructor
  · dsimp only [beamStages]
    split
    · unfold erleStep saturate; omega
    · exact h.erle
  · have := h.noise
    dsimp only [beamStages, floorStep]
    split
    · dsimp only; omega
    · split <;> dsimp only <;> omega
  · exact h.divCount
  · dsimp only [beamStages, floorStep]
    split
    · exact Nat.zero_le _
    · split
      · exact Nat.zero_le _
      · dsimp only; omega
  · dsimp only [beamStages]
    exact nextTalk_counter _ far near h.hangCtr hangs
  · exact h.degCtr

/-- The counting of a slot keeps its record in range (R87 to R91). -/
theorem countPhase_le {t : Vector Nat 26} (tuning : tuningInRange t) (erle : Int) (ph : Phase) (ctr : Nat) :
    (countPhase t erle ph ctr).2 ≤ 10000 := by
  have warm : warmBlocks t ≤ 10000 := (tuning 10).2
  have track : trackCount t ≤ 10000 := (tuning 9).2
  unfold countPhase
  split
  · split <;> dsimp only <;> omega
  · split
    · split <;> dsimp only <;> omega
    · exact Nat.zero_le _
  · split <;> exact Nat.zero_le _

theorem countRun_le (run : Nat) (clamped : Bool) : countRun run clamped ≤ 1000 := by
  unfold countRun runLimit; split <;> omega

/-- A degrade time in force is at most 4080 blocks (R95). -/
theorem degradeTime_le {t : Vector Nat 26} (tuning : tuningInRange t) {limit : Nat}
    (h : degradeTime (degradeCode t) = some limit) : limit ≤ 4080 := by
  have code : degradeCode t ≤ 255 := (tuning 23).2
  unfold degradeTime at h
  split at h
  · cases h
  · split at h <;> cases h <;> omega

theorem countDegrade_le {limit ctr : Nat} (hl : limit ≤ 4080) (hc : ctr ≤ 4080) (erle : Int)
    (threshold : Nat) (flag : Bool) : (countDegrade limit erle threshold ctr flag).1 ≤ 4080 := by
  unfold countDegrade
  split
  · dsimp only
    split <;> dsimp only <;> omega
  · exact Nat.zero_le _

/-- The activity decision keeps the linger counter in range (R25). -/
theorem decideActivity_le {st : Activity} {counter leff : Nat} (hc : counter ≤ 65535) (hl : leff ≤ 65535)
    (loud : Bool) : (decideActivity st counter leff loud).2 ≤ 65535 := by
  unfold decideActivity
  split
  · split <;> exact Nat.zero_le _
  · split <;> assumption
  · split
    · exact Nat.zero_le _
    · split <;> dsimp only <;> omega

theorem tailBlocks_le (code : Fin 6) : tailBlocks code ≤ 384 := by revert code; decide

/-! ### Within a boundary -/

/-- What the boundary's notes hold between its opening and its close: decisions and counters in range; what the
counting calls for is noted only once it has been done, and never once a reset has discarded the block's work. -/
structure NotesSound (b : Block) : Prop where
  decided : ∀ r : RefId, b.decided[r].2 ≤ 65535
  degCtr : ∀ k : BeamId, b.work[k].degCtr ≤ 4080
  fresh : b.counted = false → b.divDone = []
  dead : b.live = false → b.counted = true ∧ b.divDone = []

/-- The ranges within a boundary: a divergence counter may be out of range where its beam's reset is still due. -/
structure RangesMid (s : State) : Prop where
  ranges : RangesWith (· ∈ s.blk.divDone) s
  notes : NotesSound s.blk

/-- The counting has been done, and its resets. -/
def ResetsDone (s : State) : Prop := s.blk.counted = true ∧ s.blk.divDone = []

/-- The notes that `NotesSound` and `ResetsDone` speak of. -/
structure NotesKept (s t : State) : Prop where
  live : t.blk.live = s.blk.live
  decided : t.blk.decided = s.blk.decided
  work : t.blk.work = s.blk.work
  counted : t.blk.counted = s.blk.counted
  divDone : t.blk.divDone = s.blk.divDone

theorem PoolFrame.notes {s t : State} (h : PoolFrame s t) : NotesKept s t := by
  constructor <;> rw [h.blk]

theorem CommandFrame.notes {s t : State} (h : CommandFrame s t) : NotesKept s t := by
  constructor <;> rw [h.blk]

theorem NotesKept.sound {s t : State} (h : NotesKept s t) (k : NotesSound s.blk) : NotesSound t.blk where
  decided := by rw [h.decided]; exact k.decided
  degCtr := by rw [h.work]; exact k.degCtr
  fresh := by rw [h.counted, h.divDone]; exact k.fresh
  dead := by rw [h.live, h.counted, h.divDone]; exact k.dead

theorem NotesKept.done {s t : State} (h : NotesKept s t) (k : ResetsDone s) : ResetsDone t := by
  unfold ResetsDone; rw [h.counted, h.divDone]; exact k

theorem RangesMid.of_notes {s t : State} (h : RangesMid s) (n : NotesKept s t)
    (r : RangesWith (· ∈ s.blk.divDone) t) : RangesMid t :=
  ⟨by rw [n.divDone]; exact r, n.sound h.notes⟩

theorem RangesMid.of_calm {s t : State} (h : RangesMid s) (f : PoolFrame s t) (q : CtlCalm s t) :
    RangesMid t := h.of_notes f.notes (h.ranges.of_calm f q)

/-! ### The opening (R23 to R25, R49, R78) -/

/-- The band values of every beam's microphone have a level in range. -/
def MicsInRange (s : State) : Prop := ∀ b : BeamId, lu (blockEnergy s.blk.work[b].micBands) ≤ 423

theorem analyseBlock_ranges {D : BeamId → Prop} {s : State} (h : RangesWith D s) :
    RangesWith D (analyseBlock s) ∧ MicsInRange (analyseBlock s) := by
  constructor
  · unfold analyseBlock
    refine { h with refs := fun r => ?_ }
    have old := h.refs r
    simp only [Fin.getElem_fin, Vector.getElem_ofFn] at old ⊢
    exact { old with level := analyse_level _ }
  · intro b
    simp only [analyseBlock, Fin.getElem_fin, Vector.getElem_ofFn]
    exact analyse_level _

theorem decideBlock_ranges {D : BeamId → Prop} {s : State} (h : RangesWith D s) :
    RangesWith D (decideBlock s) ∧ ∀ r : RefId, (decideBlock s).blk.decided[r].2 ≤ 65535 := by
  refine ⟨by unfold decideBlock; exact { h with }, fun r => ?_⟩
  have linger : lingerBlocks s.blk.tuning ≤ 65535 := (h.blockTuning 0).2
  have tail : tailLen s ≤ 384 := tailBlocks_le _
  have old := (h.refs r).linger
  simp only [decideBlock, Fin.getElem_fin, Vector.getElem_ofFn]
  unfold decideRef
  dsimp only
  split
  · exact Nat.zero_le _
  · exact Nat.zero_le _
  · refine decideActivity_le old ?_ _
    unfold effectiveLinger
    split <;> omega

theorem estimateBlock_ranges {D : BeamId → Prop} {s : State} (h : RangesWith D s) (mics : MicsInRange s) :
    RangesWith D (estimateBlock s) := by
  unfold estimateBlock
  refine { h with micLu := fun b => ?_ }
  simp only [Fin.getElem_fin, Vector.getElem_ofFn]
  exact mics b

theorem controlled_ranges {D : BeamId → Prop} {s : State} (h : RangesWith D s) {B : Vector CtlBeam 16}
    {W : Vector BlockBeam 16} {R : List BeamId} (beams : ∀ b : BeamId, BeamInRange B[b])
    (div : ∀ b : BeamId, B[b].divCtr ≤ 1000 ∨ D b) : RangesWith D { s with
      ctl := { s.ctl with beams := B }, blk := { s.blk with work := W, rose := R } } :=
  { h with beams := beams, divCtr := div }

/-- What the stages 1 to 4 of the Controller make of a beam. -/
structure Controlled (x : CtlBeam) (r : CtlBeam × BlockBeam) : Prop where
  inRange : BeamInRange r.1
  divCtr : r.1.divCtr = x.divCtr
  degCtr : r.2.degCtr ≤ 4080

theorem controlBeam_inRange {D : BeamId → Prop} {s : State} (h : RangesWith D s) (active : RefId → Bool)
    (b : BeamId) : Controlled s.ctl.beams[b] (controlBeam active s b) :=
  ⟨beamStages_inRange h.blockTuning _ _ _ _ (h.beams b), rfl, (h.beams b).degCtr⟩

theorem controlUnlocked_inRange {D : BeamId → Prop} {s : State} (h : RangesWith D s) (b : BeamId) :
    Controlled s.ctl.beams[b] (controlUnlocked s b) :=
  ⟨{ h.beams b with hangCtr := Nat.zero_le _ }, rfl, (h.beams b).degCtr⟩

/-- The Controller's stages 1 to 4 take each beam's record by itself. -/
theorem controlBlock_cases {D : BeamId → Prop} {s : State} (h : RangesWith D s) (active : RefId → Bool) :
    ∃ r : BeamId → CtlBeam × BlockBeam, (∀ b, Controlled s.ctl.beams[b] (r b)) ∧
      controlBlock active s = { s with
        ctl := { s.ctl with beams := Vector.ofFn fun b => (r b).1 }
        blk := { s.blk with
          work := Vector.ofFn fun b => (r b).2
          rose := allBeams.filter (floorRose s) } } := by
  cases lock : s.ports.arrayRx.lock with
  | locked => exact ⟨_, controlBeam_inRange h active, by simp [controlBlock, lock]⟩
  | seeking => exact ⟨_, controlUnlocked_inRange h, by simp [controlBlock, lock]⟩

theorem controlBlock_ranges {D : BeamId → Prop} {s : State} (h : RangesWith D s) (active : RefId → Bool) :
    RangesWith D (controlBlock active s) ∧
      ∀ b : BeamId, (controlBlock active s).blk.work[b].degCtr ≤ 4080 := by
  obtain ⟨r, beam, e⟩ := controlBlock_cases h active
  rw [e]
  refine ⟨controlled_ranges h (fun b => ?_) fun b => ?_, fun b => ?_⟩
  · simpa using (beam b).inRange
  · simpa [(beam b).divCtr] using h.divCtr b
  · simpa using (beam b).degCtr

/-- The opening of a boundary leaves the settings and measures in range, with sound notes. -/
theorem openBlock_mid {s : State} (h : RangesWith (fun _ => False) s) (sees : RefId → Bool) :
    RangesMid (openBlock sees s) := by
  have taken : RangesWith (fun _ => False) (snapshotBlock s) := { h with blockTuning := h.tuning }
  have locked : RangesWith (fun _ => False) (pushLock (snapshotBlock s)) := { taken with }
  obtain ⟨analysed, mics⟩ := analyseBlock_ranges locked
  obtain ⟨decided, inRange⟩ := decideBlock_ranges analysed
  have pushed : RangesWith (fun _ => False) (pushHistories (decideBlock (analyseBlock
      (pushLock (snapshotBlock s))))) := by
    generalize decideBlock _ = u at decided
    unfold pushHistories
    exact { decided with }
  have estimated := estimateBlock_ranges pushed (show MicsInRange _ from mics)
  have o := openBlock_open sees s
  have mid : ∀ active : RefId → Bool,
      let u := controlBlock active (estimateBlock (pushHistories (decideBlock (analyseBlock
        (pushLock (snapshotBlock s))))))
      RangesWith (fun _ => False) (updateBlock (grantBlock u)) ∧
        (∀ r : RefId, (updateBlock (grantBlock u)).blk.decided[r].2 ≤ 65535) ∧
        ∀ b : BeamId, (updateBlock (grantBlock u)).blk.work[b].degCtr ≤ 4080 := fun active => by
    obtain ⟨controlled, degCtr⟩ := controlBlock_ranges estimated active
    refine ⟨?_, inRange, degCtr⟩
    generalize controlBlock active _ = u at controlled
    unfold updateBlock grantBlock
    exact { controlled with }
  obtain ⟨ranges, decisions, counters⟩ := mid _
  refine ⟨ranges.counts fun _ => False.elim, decisions, counters, fun _ => ?_, fun dead => ?_⟩
  · exact o.divDone
  · rw [o.live] at dead; cases dead

end Sys2Proof.Machine
end

