-- ==== Sys2Proof/Proofs/RangesEvents.lean ====
section
/-! PROOF. Settings, measures and counters stay in range, continued (O12): the events of a boundary. -/

namespace Sys2Proof.Machine

/-- What changes no note keeps the soundness of a boundary with its ranges. -/
theorem RangesMid.of_blk {s t : State} (h : RangesMid s) (b : t.blk = s.blk)
    (r : RangesWith (· ∈ s.blk.divDone) t) : RangesMid t :=
  h.of_notes (by constructor <;> rw [b]) r

theorem RangesMid.of_quiet {s t : State} (h : RangesMid s) (f : PoolFrame s t) (q : Quiet s t) :
    RangesMid t := h.of_calm f q.calm

/-! ### The blocks' own work -/

/-- Linger counters in range take the place of others. -/
theorem handed_le {s : State} (h : RangesMid s) (r : RefId) : (handed s r).2 ≤ 65535 := by
  unfold handed
  dsimp only
  split
  · exact h.notes.decided r
  · exact (h.ranges.refs r).linger

theorem applyDecided_mid {s : State} (h : RangesMid s) : RangesMid (applyDecided s) := by
  refine h.of_blk rfl ?_
  refine { h.ranges with refs := fun r => ?_ }
  simp only [applyDecided, Fin.getElem_fin, Vector.getElem_ofFn]
  exact { h.ranges.refs r with linger := handed_le h r }

theorem activityEvent_mid {s : State} (h : RangesMid s) : RangesMid (activityEvent s) :=
  (applyDecided_mid h).of_quiet (allocEvent_frame _ _) (allocEvent_quiet _ _)

theorem reportSource_mid {s : State} (h : RangesMid s) (src : Source) : RangesMid (reportSource src s) :=
  h.of_calm (reportSource_frame src s) (reportSource_calm src s)

theorem clippingEvent_mid {s : State} (h : RangesMid s) : RangesMid (clippingEvent s) := by
  unfold clippingEvent; split
  · have cleared : RangesMid { s with play := { s.play with clamped := false } } :=
      h.of_blk rfl { h.ranges with }
    exact reportSource_mid cleared _
  · exact h

theorem countSlot_ranges {D : BeamId → Prop} {s : State} (h : RangesWith D s) (x : BlockSlot) :
    RangesWith D (countSlot s x) := by
  unfold countSlot; split
  · refine setCtlSlot_ranges h _ ?_
    have old := h.slots x.slot
    have phase := countPhase_le h.blockTuning s.blk.work[pairBeam x.pair].erle x.phase x.counter
    constructor
    · split
      · split <;> exact old.run
      · exact countRun_le _ _
    · split <;> split
      · exact old.counter
      · exact phase
      · exact old.counter
      · exact phase
  · exact h

/-- A divergence counter out of range is that of a beam whose reset is due (R92, R93). -/
theorem divergenceCtr_le {D : BeamId → Prop} {s : State} (h : RangesWith D s) (b : BeamId)
    (counted : divergenceCounted s.blk.work[b] = true) :
    divergenceCtr s b ≤ 1000 ∨ divergenceReached s b = true := by
  have limit : divLimit s.blk.tuning ≤ 1000 := (h.blockTuning 12).2
  by_cases small : divergenceCtr s b ≤ 1000
  · exact .inl small
  · refine .inr ?_
    unfold divergenceReached
    rw [counted, Bool.true_and, decide_eq_true_eq]
    omega

theorem countBeam_ranges {D : BeamId → Prop} {s : State} (h : RangesWith D s) (b : BeamId)
    (due : divergenceReached s b = true → D b) : RangesWith D (countBeam s b) := by
  unfold countBeam; split
  · next counted =>
    refine setCtlBeam_ranges h b { h.beams b with } ?_
    dsimp only
    split
    · exact .inl (Nat.zero_le _)
    · exact (divergenceCtr_le h b counted).imp_right due
  · exact h

theorem countSlot_blk (s : State) (x : BlockSlot) : (countSlot s x).blk = s.blk := by
  unfold countSlot; split <;> rfl

theorem countBeam_blk (s : State) (b : BeamId) : (countBeam s b).blk = s.blk := by
  unfold countBeam; split <;> rfl

/-- The resets that the counting calls for are noted. -/
theorem noteCounted_ranges {D : BeamId → Prop} {s : State} (h : RangesWith D s) (c : List (SlotId × PairId))
    (d : List BeamId) : RangesWith D { s with
      blk := { s.blk with counted := true, clampDone := c, divDone := d } } := { h with }

theorem countBlock_mid {s : State} (h : RangesMid s) : RangesMid (countBlock s) := by
  unfold countBlock; split
  · exact h
  · next fresh =>
    have none := h.notes.fresh (Bool.eq_false_iff.2 fresh)
    have start : RangesWith (· ∈ allBeams.filter (divergenceReached s)) s :=
      h.ranges.counts fun b hb => by rw [none] at hb; cases hb
    have slots := foldl_keeps (P := fun x => RangesWith (· ∈ allBeams.filter (divergenceReached s)) x ∧
        x.blk = s.blk) countSlot s.blk.slots
      (fun x y _ k => ⟨countSlot_ranges k.1 y, (countSlot_blk x y).trans k.2⟩) ⟨start, rfl⟩
    have beams := foldl_keeps (P := fun x => RangesWith (· ∈ allBeams.filter (divergenceReached s)) x ∧
        x.blk = s.blk) countBeam allBeams
      (fun x b hb k => ⟨countBeam_ranges k.1 b fun due => by
        unfold divergenceReached divergenceCtr at due
        rw [k.2] at due
        exact List.mem_filter.2 ⟨hb, due⟩, (countBeam_blk x b).trans k.2⟩) slots
    obtain ⟨ranges, same⟩ := beams
    dsimp only
    refine ⟨noteCounted_ranges ranges _ _, ?_, ?_, fun e => ?_, fun dead => ?_⟩
    · rw [same]; exact h.notes.decided
    · rw [same]; exact h.notes.degCtr
    · cases e
    · rw [same] at dead
      exact absurd (h.notes.dead dead).1 fresh

theorem countBlock_counted (s : State) : (countBlock s).blk.counted = true := by
  unfold countBlock; split
  · assumption
  · rfl

theorem divergeBeam_beams (b : BeamId) (s : State) : (divergeBeam b s).ctl.beams = s.ctl.beams.set b
    { s.ctl.beams[b] with erle := 0, divCtr := 0, divCount := countUp255 s.ctl.beams[b].divCount } :=
  (reportSource_calm .diverged _).beams

/-- A divergence reset of a beam closes its counter's bound (R93). -/
theorem divergeBeam_closes {D : BeamId → Prop} {s : State} (h : RangesWith D s) (b : BeamId) :
    RangesWith (fun o => D o ∧ o ≠ b) (divergeBeam b s) := by
  refine RangesWith.counts (divergeBeam_ranges h b) fun o ho => ?_
  by_cases e : o = b
  · subst e
    refine .inl ?_
    rw [divergeBeam_beams]
    simp
  · exact .inr ⟨ho, e⟩

theorem divergeBeams_ranges (ds : List BeamId) {s : State} (h : RangesWith (· ∈ ds) s) :
    RangesWith (fun _ => False) (ds.foldl (fun s b => divergeBeam b s) s) := by
  induction ds generalizing s with
  | nil => exact h.counts fun b hb => by cases hb
  | cons d ds ih =>
    exact ih ((divergeBeam_closes h d).counts fun o ho =>
      .inr ((List.mem_cons.1 ho.1).resolve_left ho.2))

/-- The resets that the counting called for are noted as done. -/
theorem noteResets_ranges {s : State} (h : RangesWith (fun _ => False) s) (d : List SlotId) :
    RangesWith (fun _ => False) { s with
      blk := { s.blk with runDone := d, clampDone := [], divDone := [] } } := { h with }

theorem resetEvent_mid {s : State} (h : RangesMid s) : RangesMid (resetEvent s) ∧ ResetsDone (resetEvent s) := by
  have counted := countBlock_mid h
  have done := countBlock_counted s
  unfold resetEvent
  dsimp only
  generalize countBlock s = u at counted done
  have slots := resetSlots_ranges counted.ranges
    (fun sl p => u.blk.clampDone.contains (sl, p) || u.blk.divDone.contains (pairBeam p))
  have clamps := foldl_keeps (P := RangesWith (· ∈ u.blk.divDone))
    (fun s (x : SlotId × PairId) => clampBeam (pairBeam x.2) s) u.blk.clampDone
    (fun _ x _ k => clampBeam_ranges k _) slots
  have beams := divergeBeams_ranges u.blk.divDone clamps
  have notes := (((resetSlots_frame
    (fun sl p => u.blk.clampDone.contains (sl, p) || u.blk.divDone.contains (pairBeam p)) u).trans (.foldl _ (fun s (x : SlotId × PairId) =>
    clampBeam_frame (pairBeam x.2) s) u.blk.clampDone _)).trans
    (.foldl _ (fun s b => divergeBeam_frame b s) u.blk.divDone _)).notes
  refine ⟨⟨(noteResets_ranges beams _).counts fun _ => False.elim, ?_, ?_, fun _ => rfl, fun _ => ⟨?_, rfl⟩⟩, ?_, rfl⟩
  · exact (notes.sound counted.notes).decided
  · exact (notes.sound counted.notes).degCtr
  · exact notes.counted.trans done
  · exact notes.counted.trans done

theorem degradeBeam_mid {s : State} (h : RangesMid s) {limit : Nat} (hl : limit ≤ 4080) (b : BeamId) :
    RangesMid (degradeBeam limit s b) := by
  have noted : ∀ {t : State}, RangesMid t → RangesMid (reportDegraded b t) := fun k =>
    k.of_notes (reportDegraded_frame b _).notes (reportDegraded_ranges k.ranges b)
  unfold degradeBeam
  dsimp only
  have counted : RangesMid (setCtlBeam b { s.ctl.beams[b] with
      degCtr := (countDegrade limit s.blk.work[b].erle s.blk.thresholds[b.val].toNat s.blk.work[b].degCtr
        s.blk.work[b].degraded).1
      degraded := (countDegrade limit s.blk.work[b].erle s.blk.thresholds[b.val].toNat s.blk.work[b].degCtr
        s.blk.work[b].degraded).2.1 } s) :=
    h.of_blk rfl (setCtlBeam_ranges h.ranges b
      { h.ranges.beams b with degCtr := countDegrade_le hl (h.notes.degCtr b) _ _ _ } (h.ranges.divCtr b))
  split
  · split
    · split
      · exact noted h
      · exact noted counted
    · split
      · exact h
      · exact counted
  · exact h

theorem degradeEvent_mid {s : State} (h : RangesMid s) : RangesMid (degradeEvent s) := by
  unfold degradeEvent; split
  · exact h
  · next limit e =>
    exact foldl_keeps _ _ (fun _ b _ k => degradeBeam_mid k (degradeTime_le h.ranges.blockTuning e) b) h

theorem bandAtt_le (s : State) (b : BeamId) (j : Fin 32) :
    bandAtt (suppressInput s b) j ≤ attMax s.cmd.tuning :=
  (Nat.min_le_left _ _).trans (Nat.min_le_left _ _)

/-- Attenuations and suppressed band values take the place of others. -/
theorem suppressed_ranges {D : BeamId → Prop} {s : State} (h : RangesWith D s)
    {A : Vector (Vector Nat 32) 16} {L : Vector (BitVec 23) 16} {W : Vector BlockBeam 16}
    (att : ∀ (b : BeamId) (j : Fin 32), A[b][j] ≤ attMax s.cmd.tuning) :
    RangesWith D { s with supp := ⟨A, L⟩, blk := { s.blk with work := W } } :=
  { h with attenuation := att }

theorem suppressBlock_mid {s : State} (h : RangesMid s) : RangesMid (suppressBlock s) := by
  unfold suppressBlock
  refine ⟨suppressed_ranges h.ranges fun b j => ?_, ?_⟩
  · simpa using bandAtt_le s b j
  · exact ⟨h.notes.decided, fun k => by simpa using h.notes.degCtr k, h.notes.fresh, h.notes.dead⟩

theorem whileLive_mid {f : State → State} {s : State} (h : RangesMid s) (k : RangesMid (f s)) :
    RangesMid (whileLive f s) := by
  unfold whileLive; split
  · exact k
  · exact h

end Sys2Proof.Machine
end

