-- ==== Sys2Proof/Proofs/RangesBoundary.lean ====
section
/-! PROOF. Settings, measures and counters stay in range, concluded (O12): the command of a boundary, its close, the
frames, and every row. -/

namespace Sys2Proof.Machine

/-! ### Steering -/

theorem applyRecord_ranges {D : BeamId → Prop} {s : State} (h : RangesWith D s) {r : SteerRec} (tag : r.tag ≤ 32) :
    RangesWith D (applyRecord r s) := by
  unfold applyRecord; dsimp only; split
  · exact h
  · have tagged := setBeam_ranges h r.beam (x := { s.router.beams[r.beam] with tag := r.tag }) tag
    split
    · exact tagged.of_quiet (zoneChange_frame _ _ _ _) (zoneChange_quiet _ _ _ _)
    · exact tagged

theorem emptySteer_ranges {D : BeamId → Prop} {s : State} (h : RangesWith D s) :
    RangesWith D { s with router := { s.router with queue := [] } } := { h with steering := by simp }

theorem applySteer_ranges {D : BeamId → Prop} {s : State} (h : RangesWith D s) : RangesWith D (applySteer s) := by
  unfold applySteer; split
  · exact h
  · exact foldl_keeps _ _ (fun _ r hr k => applyRecord_ranges k (h.steering r hr)) (emptySteer_ranges h)

theorem NotesKept.refl (s : State) : NotesKept s s := by constructor <;> rfl

theorem NotesKept.trans {s t u : State} (h : NotesKept s t) (k : NotesKept t u) : NotesKept s u :=
  ⟨k.live.trans h.live, k.decided.trans h.decided, k.work.trans h.work, k.counted.trans h.counted,
    k.divDone.trans h.divDone⟩

theorem NotesKept.of_blk {s t : State} (h : t.blk = s.blk) : NotesKept s t := by constructor <;> rw [h]

theorem NotesKept.foldl {α : Type} (f : State → α → State) (h : ∀ s x, NotesKept s (f s x)) (l : List α)
    (s : State) : NotesKept s (l.foldl f s) := by
  induction l generalizing s with
  | nil => exact .refl s
  | cons x l ih => exact (h s x).trans (ih _)

theorem applyRecord_notes (r : SteerRec) (s : State) : NotesKept s (applyRecord r s) := by
  unfold applyRecord; dsimp only; split
  · exact .refl s
  · have tagged : NotesKept s (setBeam r.beam { s.router.beams[r.beam] with tag := r.tag } s) := .of_blk (by simp)
    split
    · exact tagged.trans (zoneChange_frame _ _ _ _).notes
    · exact tagged

theorem applySteer_notes (s : State) : NotesKept s (applySteer s) := by
  unfold applySteer; split
  · exact .refl s
  · exact (NotesKept.of_blk (by rfl)).trans (.foldl _ (fun s r => applyRecord_notes r s) _ _)

/-! ### What keeps the ranges of a boundary, and its resets done -/

/-- A part of a boundary's work keeps the ranges within it, and the counting's resets once done. -/
structure KeepsMid (s t : State) : Prop where
  mid : RangesMid t
  done : ResetsDone s → ResetsDone t

theorem KeepsMid.refl {s : State} (h : RangesMid s) : KeepsMid s s := ⟨h, id⟩

theorem KeepsMid.of_notes {s t : State} (h : RangesMid s) (n : NotesKept s t)
    (r : RangesWith (· ∈ s.blk.divDone) t) : KeepsMid s t := ⟨h.of_notes n r, n.done⟩

theorem KeepsMid.of_pool {s t : State} (h : RangesMid s) (f : PoolFrame s t)
    (r : RangesWith (· ∈ s.blk.divDone) t) : KeepsMid s t := .of_notes h f.notes r

theorem KeepsMid.trans {s t u : State} (h : KeepsMid s t) (k : KeepsMid t u) : KeepsMid s u :=
  ⟨k.mid, k.done ∘ h.done⟩

/-! ### The command -/

theorem softReset_keeps {s : State} (h : RangesMid s) (keep : Bool) : KeepsMid s (softResetState keep s) := by
  refine ⟨⟨softResetState_ranges h.ranges keep, ?_⟩, fun _ => ⟨rfl, rfl⟩⟩
  unfold softResetState Block.discarded
  constructor
  · intro r; simp
  · intro k; simp [BlockBeam.powerOn]
  · intro _; rfl
  · intro _; exact ⟨rfl, rfl⟩

theorem runCommand_keeps {s : State} (h : RangesMid s) (m : Msg) : KeepsMid s (runCommand m s) := by
  by_cases soft : m.kind = 0x05
  · have e : runCommand m s = withLength 1 judgeSoftReset m s := by
      unfold runCommand
      rw [soft]
      rfl
    have reply : ∀ r t, KeepsMid s t → KeepsMid s (completeReply r t) := fun r t k =>
      k.trans (.of_pool k.mid (completeReply_frame r t) (completeReply_ranges k.mid.ranges r))
    rw [e]
    unfold withLength judgeSoftReset
    split
    · split
      · exact reply _ _ (.refl h)
      · exact reply _ _ (softReset_keeps h _)
    · exact reply _ _ (.refl h)
  · exact .of_notes h (runCommand_command m s soft).notes (runCommand_ranges h.ranges m)

theorem takeCommand_keeps {s : State} (h : RangesMid s) : KeepsMid s (takeCommand s) := by
  rcases takeIf_cases (fun _ => true) runCommand s with e | ⟨m, rest, -, -, -, e⟩
  · rw [takeCommand, e]; exact .refl h
  · rw [takeCommand, e]
    have taken : KeepsMid s { s with cmd := afterTaking s rest } :=
      .of_notes h (.of_blk rfl) (afterTaking_ranges h.ranges rest)
    exact taken.trans (runCommand_keeps taken.mid m)

/-- The unit's queues and the kept reply are in no range. -/
theorem replies_keeps {s : State} (h : RangesMid s) (q : List Msg) (r : Option Msg) : KeepsMid s { s with
    cmd := { s.cmd with replies := q }, blk := { s.blk with reply := r } } :=
  .of_notes h (by constructor <;> rfl) { h.ranges with }

theorem takeKeeping_keeps {s : State} (h : RangesMid s) : KeepsMid s (takeKeeping s) := by
  have empty : KeepsMid s { s with cmd := { s.cmd with replies := [] } } :=
    .of_notes h (.of_blk rfl) { h.ranges with }
  have taken := empty.trans (takeCommand_keeps empty.mid)
  unfold takeKeeping; split
  · dsimp only; split
    · exact taken.trans (replies_keeps taken.mid _ _)
    · exact takeCommand_keeps h
  · exact .refl h

theorem commandEvent_keeps {s : State} (h : RangesMid s) (keep : Bool) : KeepsMid s (commandEvent keep s) := by
  have ended : ∀ {t}, KeepsMid s t → KeepsMid s (endTurn t) := fun k =>
    k.trans (.of_notes k.mid (.of_blk rfl) { k.mid.ranges with })
  unfold commandEvent; split
  · exact ended (takeKeeping_keeps h)
  · exact ended (takeCommand_keeps h)

theorem appendKept_keeps {s : State} (h : RangesMid s) : KeepsMid s (appendKept s) := by
  unfold appendKept; split
  · have emptied : KeepsMid s { s with blk := { s.blk with reply := none } } :=
      .of_notes h (by constructor <;> rfl) { h.ranges with }
    exact emptied.trans (.of_pool emptied.mid (completeReply_frame _ _)
      (completeReply_ranges emptied.mid.ranges _))
  · exact .refl h

/-! ### The events of a boundary -/

theorem whileLive_keeps {f : State → State} {s : State} (h : RangesMid s) (k : KeepsMid s (f s)) :
    KeepsMid s (whileLive f s) := by
  unfold whileLive; split
  · exact k
  · exact .refl h

theorem activityEvent_keeps {s : State} (h : RangesMid s) : KeepsMid s (activityEvent s) :=
  ⟨activityEvent_mid h, fun k => (allocEvent_frame _ (applyDecided s)).notes.done k⟩

theorem clippingEvent_keeps {s : State} (h : RangesMid s) : KeepsMid s (clippingEvent s) := by
  refine ⟨clippingEvent_mid h, fun k => ?_⟩
  unfold clippingEvent; split
  · exact (reportSource_frame .clipping _).notes.done k
  · exact k

theorem countBlock_keeps {s : State} (h : RangesMid s) : KeepsMid s (countBlock s) := by
  refine ⟨countBlock_mid h, fun k => ?_⟩
  unfold countBlock
  rw [if_pos k.1]
  exact k

theorem resetEvent_keeps {s : State} (h : RangesMid s) : KeepsMid s (resetEvent s) :=
  ⟨(resetEvent_mid h).1, fun _ => (resetEvent_mid h).2⟩

theorem degradeBeam_notes (limit : Nat) (s : State) (b : BeamId) : NotesKept s (degradeBeam limit s b) := by
  unfold degradeBeam; dsimp only; split
  · split
    · split
      · exact (reportDegraded_frame b s).notes
      · exact (NotesKept.of_blk (by rfl)).trans (reportDegraded_frame b _).notes
    · split
      · exact .refl s
      · exact .of_blk rfl
  · exact .refl s

theorem degradeEvent_keeps {s : State} (h : RangesMid s) : KeepsMid s (degradeEvent s) := by
  refine ⟨degradeEvent_mid h, fun k => ?_⟩
  unfold degradeEvent; split
  · exact k
  · exact (NotesKept.foldl _ (degradeBeam_notes _) _ s).done k

/-- Every event of a boundary keeps the ranges within it. -/
theorem boundaryEvent_keeps {s : State} (h : RangesMid s) (keep : Bool) (e : BoundaryEvent) :
    KeepsMid s (boundaryEvent keep e s) := by
  cases e with
  | activity => exact whileLive_keeps h (activityEvent_keeps h)
  | clipping => exact whileLive_keeps h (clippingEvent_keeps h)
  | counting => exact whileLive_keeps h (countBlock_keeps h)
  | resets => exact whileLive_keeps h (resetEvent_keeps h)
  | degrade => exact whileLive_keeps h (degradeEvent_keeps h)
  | suppress => exact whileLive_keeps h ⟨suppressBlock_mid h, id⟩
  | view => exact .refl h
  | steer => exact .of_notes h (applySteer_notes s) (applySteer_ranges h.ranges)
  | complete => exact .of_pool h (completeDue_frame s) (h.ranges.of_calm (completeDue_frame s) (completeDue_calm s))
  | grant => exact .of_pool h (grantDue_frame s) (h.ranges.of_calm (grantDue_frame s) (grantDue_calm s))
  | command => exact commandEvent_keeps h keep
  | reply => exact appendKept_keeps h

theorem runEvents_keeps (keep : Bool) (es : List BoundaryEvent) {s : State} (h : RangesMid s) :
    KeepsMid s (runEvents keep es s) := by
  induction es generalizing s with
  | nil => exact .refl h
  | cons e es ih => exact (boundaryEvent_keeps h keep e).trans (ih (boundaryEvent_keeps h keep e).mid)

/-- The events have done the counting's resets, where these are among them. -/
theorem runEvents_done (keep : Bool) {es : List BoundaryEvent} (resets : .resets ∈ es) {s : State}
    (h : RangesMid s) : ResetsDone (runEvents keep es s) := by
  obtain ⟨before, after, rfl⟩ := List.append_of_mem resets
  have first := (runEvents_keeps keep before h).mid
  have done : ResetsDone (boundaryEvent keep .resets (runEvents keep before s)) := by
    cases live : (runEvents keep before s).blk.live with
    | true =>
      unfold boundaryEvent whileLive
      dsimp only
      rw [if_pos live]
      exact (resetEvent_mid first).2
    | false =>
      unfold boundaryEvent whileLive
      dsimp only
      rw [live, if_neg Bool.false_ne_true]
      exact first.notes.dead live
  have rest := (runEvents_keeps keep after (boundaryEvent_keeps first keep .resets).mid).done done
  unfold runEvents at rest ⊢
  rw [List.foldl_append]
  exact rest

theorem resets_mem_eventOrder (order : List BoundaryEvent) : .resets ∈ eventOrder order := by
  unfold eventOrder
  by_cases k : .resets ∈ order
  · exact List.mem_append_left _ (List.mem_eraseDups.2 k)
  · exact List.mem_append_right _ (List.mem_filter.2 ⟨by decide, by simpa using k⟩)

/-! ### A block boundary -/

theorem appendHeld_ranges {D : BeamId → Prop} {s : State} (h : RangesWith D s) : RangesWith D (appendHeld s) := by
  unfold appendHeld; split
  · split
    · exact completeReply_ranges h _
    · exact h
  · exact h
  · exact h

theorem assembled_ranges {D : BeamId → Prop} {s : State} (h : RangesWith D s) {B : Banks} {e c : OutBlock} :
    RangesWith D { s with banks := B, out := { s.out with earlier := e, current := c } } := { h with }

theorem assembleOutput_ranges {D : BeamId → Prop} {s : State} (h : RangesWith D s) :
    RangesWith D (assembleOutput s) := by
  unfold assembleOutput
  exact handMonitors_ranges (assembled_ranges h)

theorem refreshReport_ranges {D : BeamId → Prop} {s : State} (h : RangesWith D s) :
    RangesWith D (refreshReport s) := by
  have unit : ∀ st q, RangesWith D { s with cmd := { s.cmd with state := st, replies := q } } :=
    fun _ _ => { h with }
  unfold refreshReport; split
  · exact h
  · split
    · exact h
    · split
      · exact unit _ _
      · exact unit _ _
      · exact unit _ _

theorem closeBlock_ranges {D : BeamId → Prop} {s : State} (h : RangesWith D s) : RangesWith D (closeBlock s) := by
  unfold closeBlock whileLive
  split
  · exact refreshReport_ranges (assembleOutput_ranges h)
  · exact refreshReport_ranges h

theorem boundary_ranges {s : State} (h : RangesWith (fun _ => False) s) (order : List BoundaryEvent) :
    RangesWith (fun _ => False) (boundary order s) := by
  have opened := openBlock_mid (appendHeld_ranges h) (controllerSees (eventOrder order) (appendHeld s))
  have done := runEvents_done (keepsReply (eventOrder order)) (resets_mem_eventOrder order) opened
  have mid := (runEvents_keeps (keepsReply (eventOrder order)) (eventOrder order) opened).mid
  unfold boundary
  dsimp only
  refine closeBlock_ranges (mid.ranges.counts fun b hb => ?_)
  rw [done.2] at hb
  cases hb

/-! ### Messages -/

section Messages

variable {D : BeamId → Prop} {s : State}

theorem steerError_ranges (h : RangesWith D s) : RangesWith D (steerError s) :=
  { h with steerErrors := Nat.min_le_left _ _ }

theorem deliverCommand_ranges (h : RangesWith D s) (m : Msg) : RangesWith D (deliverCommand m s) := by
  have joined : ∀ q k, RangesWith D { s with cmd := { s.cmd with queue := q, hold := k } } := fun _ _ => { h with }
  unfold deliverCommand; split
  · exact joined _ _
  · exact reportMsgError_ranges h _

theorem steerRecord_tag {m : Msg} {r : SteerRec} (h : steerRecord m = some r) : r.tag ≤ 32 := by
  unfold steerRecord at h
  split at h
  · split at h
    · split at h
      · split at h
        · cases h; dsimp only; omega
        · split at h
          · cases h; exact le_rfl
          · cases h
      · cases h
    · cases h
  · cases h

theorem mergeSteer_tags {q : List SteerRec} (h : ∀ x ∈ q, x.tag ≤ 32) {r : SteerRec} (tag : r.tag ≤ 32) :
    ∀ x ∈ mergeSteer q r, x.tag ≤ 32 := by
  intro x hx
  unfold mergeSteer at hx
  split at hx
  · obtain ⟨y, hy, rfl⟩ := List.mem_map.1 hx
    split
    · exact tag
    · exact h y hy
  · rcases List.mem_append.1 hx with hx | hx
    · exact h x hx
    · rw [List.mem_singleton.1 hx]; exact tag

theorem deliverSteer_ranges (h : RangesWith D s) (m : Msg) : RangesWith D (deliverSteer m s) := by
  unfold deliverSteer; split
  · next r e => exact { h with steering := mergeSteer_tags h.steering (steerRecord_tag e) }
  · exact steerError_ranges h

/-- What the links keep, the steer error count apart, is in no range. -/
theorem ports_ranges (h : RangesWith D s) {p : Ports} (e : p.steerErrors = s.ports.steerErrors) :
    RangesWith D { s with ports := p } := { h with steerErrors := e ▸ h.steerErrors }

theorem completeCommand_ranges (h : RangesWith D s) (f : Nat) (m : Msg) : RangesWith D (completeCommand f m s) := by
  unfold completeCommand; split
  · exact ports_ranges h rfl
  · exact deliverCommand_ranges h m

theorem completeSteer_ranges (h : RangesWith D s) (f : Nat) (m : Msg) : RangesWith D (completeSteer f m s) := by
  unfold completeSteer; split
  · exact ports_ranges h rfl
  · exact deliverSteer_ranges h m

theorem setAsm_ranges (h : RangesWith D s) (link : Link) (a : Assembly) : RangesWith D (setAsm link a s) := by
  cases link <;> exact ports_ranges h rfl

theorem setRx_ranges (h : RangesWith D s) (link : Link) (rx : Receiver) : RangesWith D (setRx link rx s) := by
  cases link <;> exact ports_ranges h rfl

theorem settleAsm_ranges (h : RangesWith D s) (link : Link) (f : Nat) (r : Assembly × AsmOutcome) :
    RangesWith D (settleAsm link f r s) := by
  have set := setAsm_ranges h link r.1
  unfold settleAsm; split
  · exact set
  · cases link
    · exact deliverSteer_ranges set _
    · exact completeCommand_ranges set _ _
  · cases link
    · exact steerError_ranges set
    · exact reportMsgError_ranges set _

theorem feedControl_ranges (h : RangesWith D s) (link : Link) (f : Nat) (data : Option Byte) :
    RangesWith D (feedControl link f data s) := by
  unfold feedControl; split <;> exact settleAsm_ranges h _ _ _

theorem takeControl_ranges (h : RangesWith D s) (link : Link) (f : Nat) (data : Option Byte) :
    RangesWith D (takeControl link f data s) := by
  unfold takeControl; split
  · exact ports_ranges h rfl
  · exact feedControl_ranges h _ _ _

/-! ### Frames -/

theorem takeTransmit_ranges (h : RangesWith D s) (heldNow : Bool) : RangesWith D (takeTransmit heldNow s) := by
  have taken : ∀ x q, RangesWith D { s with
      ports := { s.ports with transmit := x }, cmd := { s.cmd with replies := q } } := fun _ _ => { h with }
  unfold takeTransmit; split
  · dsimp only; split
    · exact appendHeld_ranges (taken _ _)
    · exact taken _ _
  · exact h
  · exact h

theorem startFrame_ranges (h : RangesWith D s) (f : Nat) (heldNow : Bool) :
    RangesWith D (startFrame f heldNow s) := by
  unfold startFrame; split
  · exact takeTransmit_ranges (appendHeld_ranges (ports_ranges h
      (p := { s.ports with frames := { s.ports.frames with started := f + 1 } }) rfl)) _
  · exact h

/-- The playback path keeps its ceilings, and its clamp counts saturate (R19). -/
theorem playFrame_ranges (h : RangesWith D s) (xs : Vector Sample 8) : RangesWith D (playFrame xs s) := by
  unfold playFrame
  refine { h with meters := fun m => ?_ }
  simp only [Fin.getElem_fin, Vector.getElem_ofFn]
  exact ⟨(h.meters m).1, Nat.min_le_left _ _⟩

theorem takeSlots_ranges (h : RangesWith D s) (link : Link) (accepted : Bool) (bits : FrameBits) :
    RangesWith D (takeSlots link accepted bits s) := by
  cases link with
  | array => exact { h with }
  | codec => exact playFrame_ranges h _

theorem controlOf_ranges (h : RangesWith D s) (link : Link) (f : Nat) (res : RxResult) (bits : FrameBits) :
    RangesWith D (controlOf link f res bits s) := by
  cases res with
  | accepted => exact takeControl_ranges h _ _ _
  | ignored => exact h
  | missed => exact takeControl_ranges h _ _ _
  | lost =>
    have dropped : RangesWith D (dropMessage link s) := by cases link <;> exact ports_ranges h rfl
    exact reportSource_ranges dropped _

theorem inboundDue_ranges (h : RangesWith D s) (link : Link) (bits : FrameBits) :
    RangesWith D (inboundDue link bits s) := by
  unfold inboundDue; split
  · have taken := controlOf_ranges (takeSlots_ranges (setRx_ranges
      (startFrame_ranges h (inFrame link s) true) link (receive (rxOf link s) (markerGood bits)).1) link
      ((receive (rxOf link s) (markerGood bits)).2 == .accepted) bits) link (inFrame link s)
      (receive (rxOf link s) (markerGood bits)).2 bits
    unfold inbound countInbound
    dsimp only
    split <;> exact ports_ranges taken rfl
  · exact h

end Messages

/-! ### The end of a boundary -/

theorem commandEvent_ranges {s : State} (h : RangesWith (fun _ => False) s) :
    RangesWith (fun _ => False) (commandEvent false s) := by
  unfold commandEvent
  have ended : ∀ {t}, RangesWith (fun _ => False) t → RangesWith (fun _ => False) (endTurn t) := fun k => { k with }
  refine ended ?_
  rw [if_neg Bool.false_ne_true]
  rcases takeIf_cases (fun _ => true) runCommand s with e | ⟨m, rest, -, -, -, e⟩
  · rw [takeCommand, e]; exact h
  · rw [takeCommand, e]; exact runCommand_ranges (afterTaking_ranges h rest) m

theorem joinCommands_ranges {D : BeamId → Prop} {s : State} (h : RangesWith D s) :
    RangesWith D (joinCommands s) :=
  foldl_keeps _ _ (fun _ m _ k => deliverCommand_ranges k m)
    (ports_ranges h (p := { s.ports with lateCommands := [] }) rfl)

theorem joinControl_ranges {D : BeamId → Prop} {s : State} (h : RangesWith D s) : RangesWith D (joinControl s) :=
  foldl_keeps _ _ (fun _ m _ k => deliverSteer_ranges k m) (foldl_keeps _ _ (fun _ d _ k => feedControl_ranges k _ _ d)
    (ports_ranges h (p := { s.ports with lateControl := [], lateSteers := [] }) rfl))

theorem settleBoundary_ranges {s : State} (h : RangesWith (fun _ => False) s) :
    RangesWith (fun _ => False) (settleBoundary s) :=
  joinControl_ranges (joinCommands_ranges (refreshReport_ranges (commandEvent_ranges
    ((applySteer_ranges h).of_calm (grantDue_frame _) (grantDue_calm _)))))

theorem outboundNext_ranges {s : State} (h : RangesWith (fun _ => False) s) (link : Link) (heldNow : Bool) :
    RangesWith (fun _ => False) (outboundNext link heldNow s) := by
  unfold outboundNext; split
  · have before : RangesWith (fun _ => False) (beforeOutbound link s) := by
      cases link with
      | array => exact h
      | codec =>
        unfold beforeOutbound endBoundary
        dsimp only
        split
        · exact settleBoundary_ranges h
        · exact h
    have begun := startFrame_ranges before (outFrame link (beforeOutbound link s)) heldNow
    cases link <;> exact ports_ranges begun rfl
  · exact h

/-! ### The rows of the blocks' own work -/

section Rows

variable {D : BeamId → Prop} {s : State}

theorem endLinger_ranges (h : RangesWith D s) (r : RefId) : RangesWith D (endLinger r s) := by
  have decided : RangesWith D { s with
      blk := { s.blk with decided := s.blk.decided.set r (.silent, 0) } } := { h with }
  unfold endLinger
  exact allocEvent_ranges (silenceRef_ranges decided r) _

theorem floorStep_le {noise rise mic limit : Nat} (hn : noise ≤ 423) (hr : rise ≤ 999) (hm : mic ≤ 423)
    (hl : limit ≤ 1000) : (floorStep noise rise mic limit).1 ≤ 423 ∧ (floorStep noise rise mic limit).2 ≤ 999 := by
  unfold floorStep
  split
  · exact ⟨hm, Nat.zero_le _⟩
  · split
    · exact ⟨by dsimp only; omega, Nat.zero_le _⟩
    · exact ⟨by dsimp only; omega, by dsimp only; omega⟩

theorem raiseFloor_ranges (h : RangesWith D s) (b : BeamId) : RangesWith D (raiseFloor b s) := by
  obtain ⟨noise, rise⟩ := floorStep_le (h.beams b).noise (h.beams b).rise (h.micLu b) (h.blockTuning 22).2
  have raised := setCtlBeam_ranges h b (x := { s.ctl.beams[b] with
      noise := (floorStep s.ctl.beams[b].noise s.ctl.beams[b].rise s.core.micLu[b] (noiseRise s.blk.tuning)).1
      rise := (floorStep s.ctl.beams[b].noise s.ctl.beams[b].rise s.core.micLu[b] (noiseRise s.blk.tuning)).2 })
    { h.beams b with noise := noise, rise := rise } (h.divCtr b)
  exact { raised with }

theorem endHangover_ranges (h : RangesWith D s) (b : BeamId) : RangesWith D (endHangover b s) :=
  setCtlBeam_ranges h b { h.beams b with hangCtr := Nat.zero_le _ } (h.divCtr b)

theorem enterPhase_ranges (h : RangesWith D s) (ph : Phase) (sl : SlotId) : RangesWith D (enterPhase ph sl s) :=
  setCtlSlot_ranges h sl { h.slots sl with counter := Nat.zero_le _ }

theorem advanceRun_ranges (h : RangesWith D s) (sl : SlotId) : RangesWith D (advanceRun sl s) := by
  have marked : ∀ {t}, RangesWith D t → RangesWith D (markRun sl t) := fun k => { k with }
  unfold advanceRun; split
  · split
    · unfold completeRun
      refine clampBeam_ranges (marked ?_) _
      split
      · exact resetSlot_ranges h _ _
      · exact h
    · exact h
  · exact h

theorem divergenceBeam_ranges (h : RangesWith D s) (b : BeamId) : RangesWith D (divergenceBeam b s) :=
  divergeBeam_ranges (resetSlots_ranges h _) b

theorem advanceDegrade_ranges (h : RangesWith D s) (b : BeamId) : RangesWith D (advanceDegrade b s) := by
  unfold advanceDegrade; split
  · next limit e =>
    split
    · unfold endDegrade
      refine reportDegraded_ranges ?_ b
      split
      · exact h
      · exact setCtlBeam_ranges h b { h.beams b with
          degCtr := countDegrade_le (degradeTime_le h.blockTuning e) (h.beams b).degCtr _ _ _ } (h.divCtr b)
    · exact h
  · exact h

theorem ite_ranges {t : State} {c : Bool} (h : RangesWith D s) (k : RangesWith D t) :
    RangesWith D (if c = true then t else s) := by
  split
  · exact k
  · exact h

theorem completeWhich_ranges (h : RangesWith D s) (which : Transfer → Bool) :
    RangesWith D (completeWhich which s) := h.of_calm (completeWhich_frame which s) (completeWhich_calm which s)

/-- A row of what happens at a boundary, a host row apart, keeps every range. -/
theorem boundaryRow_ranges (h : RangesWith D s) {c : Instr} {t : State} (row : boundaryRow c = true)
    (host : taken c = none) (e : exec c s = .next t) : RangesWith D t := by
  have block : ∀ {f : State → State}, upInBlock f s = .next t → RangesWith D (f s) → RangesWith D t :=
    fun e k => by
      rcases upInBlock_next e with rfl | ⟨-, -, rfl⟩
      · exact h
      · exact k
  have gated : ∀ {f : State → State}, upAtBoundary f s = .next t → RangesWith D (f s) → RangesWith D t :=
    fun e k => by
      rcases upAtBoundary_next e with rfl | ⟨-, rfl⟩
      · exact h
      · exact k
  cases c <;> simp only [boundaryRow, taken, Bool.false_eq_true, reduceCtorEq] at row host
  case lingerExpiry r => exact block e (ite_ranges h (endLinger_ranges h r))
  case noiseFloorRise b => exact block e (ite_ranges h (raiseFloor_ranges h b))
  case hangoverEnd b => exact block e (ite_ranges h (endHangover_ranges h b))
  case warmupEnd sl => exact block e (ite_ranges h (enterPhase_ranges h _ sl))
  case trackingEntry sl => exact block e (ite_ranges h (enterPhase_ranges h _ sl))
  case clampRunReset sl => exact block e (advanceRun_ranges h sl)
  case divergenceReset b => exact block e (ite_ranges h (divergenceBeam_ranges h b))
  case degradeTimeExpiry b => exact block e (advanceDegrade_ranges h b)
  case waitListAssignment sl =>
    exact gated e (ite_ranges h (h.of_quiet (giveToWaiter_frame sl s) (giveToWaiter_quiet sl s)))
  case drainingSlotCapture => exact gated e (h.of_quiet (roomReport_frame s) (roomReport_quiet s))
  case steerApplication => exact gated e (applySteer_ranges h)
  case portGrant => exact gated e (h.of_calm (grantDue_frame s) (grantDue_calm s))
  case fillCompletion => exact gated e (completeWhich_ranges h _)
  case storeDisable => exact gated e (completeWhich_ranges h _)
  case captureCompletion => exact gated e (completeWhich_ranges h _)
  case entryCommitCompletion => exact gated e (completeWhich_ranges h _)
  case entryReadCompletion => exact gated e (completeWhich_ranges h _)

end Rows

/-! ### Every row -/

theorem powerOn_ranges (pending : List Instr) (resetn : Bool) (c : ClockPin) :
    RangesWith (fun _ => False) (setClocks c { State.reset with pending := pending, resetn := resetn }) := by
  have beam : BeamInRange CtlBeam.powerOn := ctlBeam_powerOn_inRange
  unfold setClocks State.reset
  constructor
  · exact Nat.zero_le _
  · intro m; simp [Playback.powerOn, Meter.powerOn]
  · intro r; constructor <;> simp [Tracker.powerOn, Reference.powerOn]
  · intro b; simp [Router.powerOn, Beam.powerOn]
  · intro r hr; cases hr
  · intro b; simpa [Controller.powerOn] using beam
  · intro b; simp [Controller.powerOn, CtlBeam.powerOn]
  · intro sl; constructor <;> simp [Controller.powerOn, CtlSlot.powerOn]
  · intro b; simp [Canceller.powerOn]
  · exact tuningDefaults_inRange
  · exact tuningDefaults_inRange
  · intro b j; simp [Suppressor.powerOn]
  · intro t; simp [Output.powerOn, Monitor.powerOn, monitorAllowed]

theorem idleEnds_ranges {D : BeamId → Prop} {s : State} (h : RangesWith D s) (which : AsmState → Bool)
    (link : Link) : RangesWith D (if idleEnds which link s then settleAsm link 0 (asmIdle (asmOf link s)) s
      else s) := ite_ranges h (settleAsm_ranges h _ _ _)

theorem exec_ranges {c : Instr} {s t : State} (h : RangesWith (fun _ => False) s) (e : exec c s = .next t) :
    RangesWith (fun _ => False) t := by
  have row : ∀ {f : State → State}, up f s = .next t → RangesWith (fun _ => False) (f s) →
      RangesWith (fun _ => False) t := fun e k => by
    rcases up_next e with rfl | ⟨-, rfl⟩
    · exact h
    · exact k
  by_cases b : boundaryRow c = true
  · cases host : taken c with
    | none => exact boundaryRow_ranges h b host e
    | some pred =>
      exact hostRow_keeps host h (fun _ rest _ => afterTaking_ranges h rest)
        (fun m _ k => runCommand_ranges k m) e
  · cases c <;> simp only [boundaryRow, not_true_eq_false, Bool.false_eq_true, not_false_eq_true] at b
    case powerOnReset => cases e; exact powerOn_ranges _ _ _
    case resetnRelease =>
      cases e
      have released : RangesWith (fun _ => False) { s with resetn := true } := { h with }
      exact ports_ranges released rfl
    case inboundFrame link bits => exact row e (inboundDue_ranges h link bits)
    case lockAcquired link bits => exact row e (ite_ranges h (inboundDue_ranges h link bits))
    case lossOfLock link bits => exact row e (ite_ranges h (inboundDue_ranges h link bits))
    case messageTruncation link => exact row e (idleEnds_ranges h _ link)
    case resyncEnd link => exact row e (idleEnds_ranges h _ link)
    case commandDelivery kind payload =>
      by_cases short : payload.length ≤ 240
      · rw [commandDelivery_short kind short] at e
        exact row e (ite_ranges h (completeCommand_ranges h _ _))
      · rw [commandDelivery_long kind (not_le.1 short)] at e
        cases e
    case steer kind payload =>
      by_cases short : payload.length ≤ 240
      · rw [steer_short kind short] at e
        exact row e (ite_ranges h (completeSteer_ranges h _ _))
      · rw [steer_long kind (not_le.1 short)] at e
        cases e
    case outboundFrame link heldNow => exact row e (outboundNext_ranges h link heldNow)
    case heldReplyAppend => exact row e (appendHeld_ranges h)
    case blockBoundary order => exact row e (ite_ranges h (boundary_ranges h order))
    case entryDisturbance p w cells q check =>
      exact row e (h.of_quiet (disturbEntry_frame p w cells q check s)
        (disturbEntry_quiet p w cells q check s))

/-- Settles O12: within a boundary the bound of a divergence counter is open for the beams whose reset is due, and
the boundary's resets close it. -/
theorem rangesStaySound : Obligations.RangesStaySound := by
  unfold Obligations.RangesStaySound
  intro s t h e
  rw [rangesSound_iff] at h ⊢
  rcases step_next e with rfl | ⟨c, rest, e⟩
  · exact h
  · have queued : RangesWith (fun _ => False) { s with pending := rest } := { h with }
    exact exec_ranges queued e

end Sys2Proof.Machine
end

