-- ==== Sys2Proof/Proofs/Reset.lean ====
section
/-! PROOF. Every command completes, and the part in reset (O3); the power-on values (O4); when no command is taken
(O49). -/

namespace Sys2Proof.Machine

/-! ### Completion (O3) -/

/-- A command that is neither the reset nor its release works only while the part is released, and always
completes. -/
theorem exec_gated {c : Instr} (wf : c.wellFormed = true) (reset : c ≠ .powerOnReset)
    (release : c ≠ .resetnRelease) : ∃ f : State → State, ∀ s, exec c s = up f s := by
  cases c
  case powerOnReset => exact absurd rfl reset
  case resetnRelease => exact absurd rfl release
  case commandDelivery kind payload =>
    exact ⟨_, commandDelivery_short kind (of_decide_eq_true wf)⟩
  case steer kind payload => exact ⟨_, steer_short kind (of_decide_eq_true wf)⟩
  all_goals exact ⟨_, fun _ => rfl⟩

/-- Every well-formed command ends in a next state. -/
theorem exec_completes {c : Instr} (wf : c.wellFormed = true) (s : State) : ∃ t, exec c s = .next t := by
  by_cases reset : c = .powerOnReset
  · subst reset; exact ⟨_, rfl⟩
  · by_cases release : c = .resetnRelease
    · subst release; exact ⟨_, rfl⟩
    · obtain ⟨f, e⟩ := exec_gated wf reset release
      exact ⟨whenUp f s, e s⟩

/-- While RESETN is low a command has no effect, the reset and its release apart (R189). -/
theorem exec_held {c : Instr} (wf : c.wellFormed = true) (reset : c ≠ .powerOnReset)
    (release : c ≠ .resetnRelease) {s : State} (low : s.resetn = false) : exec c s = .next s := by
  obtain ⟨f, e⟩ := exec_gated wf reset release
  rw [e, up_held f low]

/-- Settles O3: every row but the reset and its release is gated by RESETN. -/
theorem completionAndReset : Obligations.CompletionAndReset := by
  unfold Obligations.CompletionAndReset
  refine ⟨⟨fun c s wf => exec_completes wf s, fun kind payload s long => ?_⟩, fun s => ?_, fun s => rfl,
    fun s t e => ?_, fun c s low wf reset release => exec_held wf reset release low⟩
  · exact ⟨commandDelivery_long kind long s, steer_long kind long s⟩
  · exact ⟨_, rfl, rfl, rfl, rfl⟩
  · cases e; rfl

/-! ### The power-on values (O4) -/

/-- Settles O4: every memory is a constant at power-on, and the generator of a beam holds its number plus 1. -/
theorem resetValues : Obligations.ResetValues := by
  unfold Obligations.ResetValues
  dsimp only
  refine ⟨⟨rfl, rfl, rfl, rfl, rfl, rfl, rfl, rfl⟩, fun m => ?_, fun r => ?_, fun b => ⟨?_, ?_, ?_⟩,
    ⟨rfl, fun b => ?_⟩, fun j b => ?_, fun k => ?_, fun sl => ⟨?_, ?_, ?_⟩, ⟨rfl, fun p => ⟨?_, ?_, ?_⟩⟩,
    ⟨rfl, rfl, rfl, rfl, rfl⟩, ⟨rfl, rfl, rfl, rfl, rfl, rfl, fun p w => ?_⟩,
    ⟨rfl, rfl, rfl, rfl, rfl, rfl, rfl, rfl⟩, rfl, fun i => ?_⟩
  · simp [State.reset, Playback.powerOn, Meter.powerOn]
  · simp [State.reset, Tracker.powerOn, Reference.powerOn]
  · simp [State.reset, Router.powerOn, Beam.powerOn]
  · simp [State.reset, Controller.powerOn, CtlBeam.powerOn]
  · revert b; decide
  · simp [State.reset, Canceller.powerOn]
  · simp [State.reset, Suppressor.powerOn]
  · simp [State.reset, Output.powerOn, Monitor.powerOn]
  · simp [State.reset, Allocator.powerOn]
  · simp [State.reset, Controller.powerOn, CtlSlot.powerOn]
  · simp [State.reset, Canceller.powerOn, CoreSlot.powerOn]
  · simp [State.reset, Allocator.powerOn]
  · simp [State.reset, Allocator.powerOn]
  · simp [State.reset, Store.powerOn, StoreSet.powerOn]
  · simp [entryOf, State.reset, Store.powerOn, StoreSet.powerOn, Entry.powerOn]
  · simp [State.reset, Controller.powerOn]

/-! ### When no command is taken (O49) -/

/-- A row of what happens at a boundary has no effect off one (R1). -/
theorem boundaryRow_off {c : Instr} (row : boundaryRow c = true) {s : State} (up : s.resetn = true)
    (off : ¬ AtBoundary s) : exec c s = .next s := by
  have gated : ∃ f : State → State, exec c s = upAtBoundary f s := by
    cases c <;> simp only [boundaryRow, Bool.false_eq_true] at row <;> exact ⟨_, rfl⟩
  obtain ⟨f, e⟩ := gated
  rw [e, upAtBoundary_off f up off]

/-- Settles O49: a host row is a taking at a boundary, and a taking needs a unit and a message. -/
theorem commandNotTaken : Obligations.CommandNotTaken := by
  unfold Obligations.CommandNotTaken
  refine ⟨fun c s up row off => boundaryRow_off row up off, fun c pred s up row h => ?_⟩
  rw [exec_hostRow row]
  by_cases on : AtBoundary s
  · rw [upAtBoundary_at _ on, takeIf_not pred runCommand h]
  · exact upAtBoundary_off _ up on

end Sys2Proof.Machine
end

