-- ==== Sys2Proof/Proofs/Receivers.lean ====
section
/-! PROOF. What a receiver makes of a frame (O24, O25), what its control field brings to the message assembly (O25),
the sixteenth idle frame (O28), and a whole message byte by byte (O14). -/

namespace Sys2Proof.Machine

/-! ### The receiver, case by case (R5, R6) -/

section Receive

variable {rx : Receiver}

theorem receive_seeking_wrong (h : rx.lock = .seeking) :
    receive rx false = ({ rx with good := 0 }, .ignored) := by simp [receive, h]

theorem receive_seeking_short (h : rx.lock = .seeking) (short : rx.good + 1 < 4) :
    receive rx true = ({ rx with good := rx.good + 1 }, .ignored) := by
  simp [receive, h, Nat.not_le.2 short]

theorem receive_seeking_fourth (h : rx.lock = .seeking) (fourth : 4 ≤ rx.good + 1) :
    receive rx true = (⟨.locked, 4, 0⟩, .accepted) := by simp [receive, h, fourth]

theorem receive_locked_good (h : rx.lock = .locked) :
    receive rx true = ({ rx with miss := 0 }, .accepted) := by simp [receive, h]

theorem receive_locked_missed (h : rx.lock = .locked) (short : rx.miss + 1 < 3) :
    receive rx false = ({ rx with miss := rx.miss + 1 }, .missed) := by
  simp [receive, h, Nat.not_le.2 short]

theorem receive_locked_lost (h : rx.lock = .locked) (third : 3 ≤ rx.miss + 1) :
    receive rx false = (⟨.seeking, 0, 3⟩, .lost) := by simp [receive, h, third]

end Receive

/-! ### The rows of an inbound frame -/

section Rows

variable {link : Link} {bits : FrameBits} {s : State} (up : s.resetn = true)

include up

theorem inboundFrame_due (due : FrameDue (inFrame link s) s) :
    exec (.inboundFrame link bits) s = .next (inbound link bits s) := by
  change Machine.up (inboundDue link bits) s = _
  rw [up_released _ up, inboundDue, if_pos ((frameDue_iff _ s).2 due)]

/-- What becomes of a frame by what its receiver makes of the marker. -/
theorem inboundFrame_of_receive (due : FrameDue (inFrame link s) s) {good : Bool} {rx : Receiver}
    {res : RxResult} (marker : markerGood bits = good) (h : receive (rxOf link s) good = (rx, res)) :
    exec (.inboundFrame link bits) s = .next (countInbound link (controlOf link (inFrame link s) res bits
      (takeSlots link (res == .accepted) bits (setRx link rx (startFrame (inFrame link s) true s))))) := by
  rw [inboundFrame_due up due, inbound, marker, h]

theorem inboundFrame_early (early : ¬ FrameDue (inFrame link s) s) :
    exec (.inboundFrame link bits) s = .next s := by
  change Machine.up (inboundDue link bits) s = _
  rw [up_released _ up, inboundDue, if_neg fun k => early ((frameDue_iff _ s).1 k)]

/-- LOCK_ACQUIRED is the frame that locks its receiver, and nothing else. -/
theorem lockAcquired_row : exec (.lockAcquired link bits) s =
    if acquires link bits s = true then exec (.inboundFrame link bits) s else .next s := by
  change Machine.up _ s = if _ then Machine.up (inboundDue link bits) s else _
  rw [up_released _ up, up_released _ up]
  split <;> rfl

/-- LOSS_OF_LOCK is the frame that loses its receiver's lock, and nothing else. -/
theorem lossOfLock_row : exec (.lossOfLock link bits) s =
    if loses link bits s = true then exec (.inboundFrame link bits) s else .next s := by
  change Machine.up _ s = if _ then Machine.up (inboundDue link bits) s else _
  rw [up_released _ up, up_released _ up]
  split <;> rfl

end Rows

theorem acquires_iff (link : Link) (bits : FrameBits) (s : State) : acquires link bits s = true ↔
    (rxOf link s).lock = .seeking ∧ 4 ≤ (rxOf link s).good + 1 ∧ markerGood bits = true := by
  simp [acquires, and_assoc]

theorem loses_iff (link : Link) (bits : FrameBits) (s : State) : loses link bits s = true ↔
    (rxOf link s).lock = .locked ∧ 3 ≤ (rxOf link s).miss + 1 ∧ markerGood bits = false := by
  simp [loses, and_assoc]

/-- Settles O24: the cases of the receiver in SEEKING; only the fourth correct marker is an acquisition. -/
theorem seekingFrame : Obligations.SeekingFrame := by
  unfold Obligations.SeekingFrame
  refine ⟨fun link bits s up early => ?_, fun link bits s up due seeks => ?_⟩
  · have idle := inboundFrame_early (bits := bits) up early
    refine ⟨idle, ?_, ?_⟩
    · rw [lockAcquired_row up, idle, ite_self]
    · rw [lossOfLock_row up, idle, ite_self]
  · refine ⟨fun wrong => ⟨?_, ?_⟩, fun right short => ⟨?_, ?_⟩, fun right fourth => ?_⟩
    · exact inboundFrame_of_receive up due wrong (receive_seeking_wrong seeks)
    · rw [lockAcquired_row up, if_neg]
      rw [acquires_iff, wrong]
      simp
    · exact inboundFrame_of_receive up due right (receive_seeking_short seeks short)
    · rw [lockAcquired_row up, if_neg]
      rw [acquires_iff]
      omega
    · have taken := inboundFrame_of_receive up due right (receive_seeking_fourth seeks fourth)
      refine ⟨taken, ?_⟩
      rw [lockAcquired_row up, if_pos ((acquires_iff link bits s).2 ⟨seeks, fourth, right⟩)]
      exact taken

/-! ### Message assembly, case by case (R11 to R15) -/

section Assembly

variable {a : Assembly} (b : Byte)

theorem asmByte_awaitKind (h : a.st = .awaitKind) :
    asmByte a b = (⟨.awaitLength, [b], b, 0, 0⟩, .nothing) := by simp [asmByte, h]

theorem asmByte_length (h : a.st = .awaitLength) (len : b.toNat ≤ 240) : asmByte a b =
    (⟨if b.toNat = 0 then .awaitCheck else .inPayload, a.bytes ++ [b], a.sum + b, b.toNat, 0⟩, .nothing) := by
  simp [asmByte, h, len]

theorem asmByte_tooLong (h : a.st = .awaitLength) (long : 240 < b.toNat) :
    asmByte a b = (⟨.resync, [], 0, 0, 0⟩, .fault .length) := by
  simp [asmByte, h, Nat.not_le.2 long]

theorem asmByte_payload (h : a.st = .inPayload) : asmByte a b =
    (⟨if a.expected ≤ 1 then .awaitCheck else .inPayload, a.bytes ++ [b], a.sum + b, a.expected - 1, 0⟩,
      .nothing) := by simp [asmByte, h]

theorem asmByte_check (h : a.st = .awaitCheck) (sum : a.sum + b = 0) :
    asmByte a b = (Assembly.empty, .delivered ⟨a.bytes.getD 0 0, a.bytes.drop 2⟩) := by
  simp [asmByte, h, sum, byteAt]

theorem asmByte_wrongCheck (h : a.st = .awaitCheck) (sum : a.sum + b ≠ 0) :
    asmByte a b = (Assembly.empty, .fault .check) := by
  unfold asmByte
  rw [h]
  exact if_neg sum

theorem asmByte_resync (h : a.st = .resync) : asmByte a b = ({ a with idle := 0 }, .nothing) := by
  simp [asmByte, h]

theorem asmIdle_awaitKind (h : a.st = .awaitKind) : asmIdle a = (a, .nothing) := by simp [asmIdle, h]

theorem asmIdle_counts (h : a.st ≠ .awaitKind) (few : a.idle < 15) :
    asmIdle a = ({ a with idle := a.idle + 1 }, .nothing) := by
  have short : ¬ idleLimit ≤ a.idle + 1 := by unfold idleLimit; omega
  cases st : a.st <;> simp_all [asmIdle]

theorem asmIdle_truncates (message : a.st ≠ .awaitKind) (inside : a.st ≠ .resync) (sixteenth : 15 ≤ a.idle) :
    asmIdle a = (Assembly.empty, .fault .truncated) := by
  have limit : idleLimit ≤ a.idle + 1 := by unfold idleLimit; omega
  cases st : a.st <;> simp_all [asmIdle]

theorem asmIdle_resync (h : a.st = .resync) (sixteenth : 15 ≤ a.idle) :
    asmIdle a = (Assembly.empty, .nothing) := by
  have limit : idleLimit ≤ a.idle + 1 := by unfold idleLimit; omega
  simp [asmIdle, h, limit]

end Assembly

/-! ### The control field of a frame (R10 to R16) -/

theorem boundaryAhead_iff (f : Nat) (s : State) :
    boundaryAhead f s = true ↔ f % 48 = 47 ∧ s.ports.frames.outCodec ≤ f := by simp [boundaryAhead]

theorem takeControl_late {f : Nat} {s : State} (ahead : f % 48 = 47 ∧ s.ports.frames.outCodec ≤ f)
    (data : Option Byte) : takeControl .array f data s = { s with
      ports := { s.ports with lateControl := s.ports.lateControl ++ [data] } } :=
  if_pos ⟨rfl, (boundaryAhead_iff f s).2 ahead⟩

theorem takeControl_now {link : Link} {f : Nat} {s : State}
    (h : link = .codec ∨ ¬ (f % 48 = 47 ∧ s.ports.frames.outCodec ≤ f)) (data : Option Byte) :
    takeControl link f data s = feedControl link f data s := by
  refine if_neg fun ⟨array, ahead⟩ => ?_
  rcases h with h | h
  · rw [h] at array; cases array
  · exact h ((boundaryAhead_iff f s).1 ahead)

/-- What a whole message meets, by its link. -/
theorem deliver_codec (f : Nat) (m : Msg) (s : State) : deliver .codec f m s =
    if f % 48 = 47 ∧ s.ports.frames.outCodec ≤ f then
      { s with ports := { s.ports with lateCommands := s.ports.lateCommands ++ [m] } }
    else deliverCommand m s := by
  unfold deliver completeCommand
  dsimp only
  by_cases ahead : f % 48 = 47 ∧ s.ports.frames.outCodec ≤ f
  · rw [if_pos ahead, if_pos ((boundaryAhead_iff f s).2 ahead)]
  · rw [if_neg ahead, if_neg fun k => ahead ((boundaryAhead_iff f s).1 k)]

section Feed

variable {link : Link} {f : Nat} {s : State} {a : Assembly}

theorem feedControl_byte {b : Byte} {o : AsmOutcome} (h : asmByte (asmOf link s) b = (a, o)) :
    feedControl link f (some b) s = settleAsm link f (a, o) s := congrArg (settleAsm link f · s) h

theorem feedControl_idle {o : AsmOutcome} (h : asmIdle (asmOf link s) = (a, o)) :
    feedControl link f none s = settleAsm link f (a, o) s := congrArg (settleAsm link f · s) h

end Feed

/-- A lost lock empties the link's assembly (R10) and sets LINK_LOST (R6). -/
theorem asmOf_lost (link : Link) (s : State) :
    asmOf link (countInbound link (reportSource .linkLost (dropMessage link s))) = Assembly.empty := by
  have ports := (reportSource_frame .linkLost (dropMessage link s)).ports
  cases link with
  | array => exact congrArg Ports.arrayAsm ports
  | codec => exact congrArg Ports.codecAsm ports

theorem status_lost (link : Link) (s : State) :
    inSet (countInbound link (reportSource .linkLost (dropMessage link s))).ev.status 0 = true := by
  have e : (countInbound link (reportSource .linkLost (dropMessage link s))).ev =
      (reportSource .linkLost (dropMessage link s)).ev := by cases link <;> rfl
  rw [e, reportSource_status, inSet_setInsert _ _ _ (by decide)]
  simp [sourceBit, sourceCode]

/-- The rows of a frame met in LOCKED. -/
theorem lockedFrame_rows (link : Link) (bits : FrameBits) (s : State) (up : s.resetn = true)
    (due : FrameDue (inFrame link s) s) (locked : (rxOf link s).lock = .locked) :
    let f := inFrame link s
    let u := startFrame f true s
    (markerGood bits = true →
      exec (.inboundFrame link bits) s = .next (countInbound link (takeControl link f
        (frameControl link bits)
        (takeSlots link true bits (setRx link { rxOf link s with miss := 0 } u)))) ∧
      exec (.lossOfLock link bits) s = .next s) ∧
    (markerGood bits = false → (rxOf link s).miss + 1 < 3 →
      exec (.inboundFrame link bits) s = .next (countInbound link (takeControl link f none
        (takeSlots link false bits
          (setRx link { rxOf link s with miss := (rxOf link s).miss + 1 } u)))) ∧
      exec (.lossOfLock link bits) s = .next s) ∧
    (markerGood bits = false → 3 ≤ (rxOf link s).miss + 1 →
      let t := countInbound link (reportSource .linkLost (dropMessage link
        (takeSlots link false bits (setRx link ⟨.seeking, 0, 3⟩ u))))
      exec (.inboundFrame link bits) s = .next t ∧ exec (.lossOfLock link bits) s = .next t ∧
        asmOf link t = Assembly.empty ∧ inSet t.ev.status 0 = true) := by
  intro f u
  refine ⟨fun right => ⟨?_, ?_⟩, fun wrong short => ⟨?_, ?_⟩, fun wrong third => ?_⟩
  · exact inboundFrame_of_receive up due right (receive_locked_good locked)
  · rw [lossOfLock_row up, if_neg]
    rw [loses_iff, right]
    simp
  · exact inboundFrame_of_receive up due wrong (receive_locked_missed locked short)
  · rw [lossOfLock_row up, if_neg]
    rw [loses_iff]
    omega
  · have lost := inboundFrame_of_receive up due wrong (receive_locked_lost locked third)
    refine ⟨lost, ?_, asmOf_lost _ _, status_lost _ _⟩
    rw [lossOfLock_row up, if_pos ((loses_iff link bits s).2 ⟨locked, third, wrong⟩)]
    exact lost

/-- Settles O25: the cases of the receiver in LOCKED, and of the assembly that its control field moves on. -/
theorem lockedFrame : Obligations.LockedFrame := by
  unfold Obligations.LockedFrame
  refine ⟨lockedFrame_rows, fun link f s => ?_⟩
  dsimp only
  refine ⟨fun array ahead data => ?_, fun here => ?_⟩
  · subst array; exact takeControl_late ahead data
  · have now : ∀ data, takeControl link f data s = feedControl link f data s := takeControl_now here
    refine ⟨fun b => ⟨fun h => ?_, fun h len => ?_, fun h long => ?_, fun h => ?_, fun h sum => ?_,
      fun h sum => ?_, fun h => ?_⟩, fun h => ?_, fun h few => ?_, fun h inside limit => ?_, fun h limit => ?_⟩
    · rw [now, feedControl_byte (asmByte_awaitKind b h)]; rfl
    · rw [now, feedControl_byte (asmByte_length b h len)]; rfl
    · rw [now, feedControl_byte (asmByte_tooLong b h long)]
      cases link <;> rfl
    · rw [now, feedControl_byte (asmByte_payload b h)]; rfl
    · rw [now, feedControl_byte (asmByte_check b h sum)]
      cases link with
      | array => rfl
      | codec => exact deliver_codec _ _ _
    · rw [now, feedControl_byte (asmByte_wrongCheck b h sum)]
      cases link <;> rfl
    · rw [now, feedControl_byte (asmByte_resync b h)]; rfl
    · rw [now, feedControl_idle (asmIdle_awaitKind h)]; rfl
    · rw [now, feedControl_idle (asmIdle_counts h few)]; rfl
    · rw [now, feedControl_idle (asmIdle_truncates h inside limit)]
      cases link <;> rfl
    · rw [now, feedControl_idle (asmIdle_resync h limit)]; rfl

/-! ### The sixteenth idle frame (O28) -/

theorem idleEnds_iff (which : AsmState → Bool) (link : Link) (s : State) : idleEnds which link s = true ↔
    which (asmOf link s).st = true ∧ 15 ≤ (asmOf link s).idle := by
  simp [idleEnds, idleLimit]

/-- Settles O28: each row is the idle frame that completes sixteen, in the states that the row names. -/
theorem idleLimit_rows : Obligations.IdleLimit := by
  unfold Obligations.IdleLimit
  intro link s up
  have truncation : exec (.messageTruncation link) s = .next (if idleEnds inMessage link s then
      settleAsm link 0 (asmIdle (asmOf link s)) s else s) := up_released _ up
  have resync : exec (.resyncEnd link) s = .next (if idleEnds (· == .resync) link s then
      settleAsm link 0 (asmIdle (asmOf link s)) s else s) := up_released _ up
  refine ⟨⟨fun ⟨message, limit⟩ => ?_, fun h => ?_⟩, fun ⟨waits, limit⟩ => ?_, fun h => ?_⟩
  · have inside : (asmOf link s).st ≠ .awaitKind ∧ (asmOf link s).st ≠ .resync := by
      constructor <;> intro e <;> rw [e] at message <;> cases message
    rw [truncation, if_pos ((idleEnds_iff _ _ _).2 ⟨message, limit⟩), asmIdle_truncates inside.1 inside.2 limit]
    constructor <;> intro e <;> subst e <;> rfl
  · rw [truncation, if_neg]
    rw [idleEnds_iff]
    rintro ⟨message, limit⟩
    rcases h with h | h
    · rw [h] at message; cases message
    · omega
  · rw [resync, if_pos ((idleEnds_iff _ _ _).2 ⟨by rw [waits]; rfl, limit⟩), asmIdle_resync waits limit]
    rfl
  · rw [resync, if_neg]
    rw [idleEnds_iff]
    rintro ⟨waits, limit⟩
    rcases h with h | h
    · exact h (beq_iff_eq.1 waits)
    · omega

/-! ### A whole message (O14) -/

theorem assemble_some (a : Assembly) (b : Byte) (rest : List (Option Byte)) :
    assemble a (some b :: rest) = ((assemble (asmByte a b).1 rest).1,
      if (asmByte a b).2 = .nothing then (assemble (asmByte a b).1 rest).2
      else (asmByte a b).2 :: (assemble (asmByte a b).1 rest).2) := rfl

theorem assemble_none (a : Assembly) (rest : List (Option Byte)) :
    assemble a (none :: rest) = ((assemble (asmIdle a).1 rest).1,
      if (asmIdle a).2 = .nothing then (assemble (asmIdle a).1 rest).2
      else (asmIdle a).2 :: (assemble (asmIdle a).1 rest).2) := rfl

/-- A byte ends a gap: what the assembly makes of it does not depend on the idle frames before it. -/
theorem asmByte_idle (a : Assembly) (n : Nat) (b : Byte) : asmByte { a with idle := n } b = asmByte a b := by
  unfold asmByte
  cases a.st <;> rfl

theorem asmByte_idle_zero (a : Assembly) (b : Byte) : (asmByte a b).1.idle = 0 := by
  unfold asmByte
  cases a.st with
  | awaitLength => dsimp only; split <;> rfl
  | awaitCheck => dsimp only; split <;> rfl
  | awaitKind => rfl
  | inPayload => rfl
  | resync => rfl

/-- Idle frames before a byte leave no trace, any number between messages and up to fifteen within one. -/
theorem assemble_gap (g : Nat) (a : Assembly) (h : a.st = .awaitKind ∨ a.idle + g ≤ 15) (b : Byte)
    (rest : List (Option Byte)) :
    assemble a (List.replicate g none ++ some b :: rest) = assemble a (some b :: rest) := by
  induction g generalizing a with
  | zero => rfl
  | succ g ih =>
    rw [List.replicate_succ, List.cons_append, assemble_none]
    by_cases between : a.st = .awaitKind
    · rw [asmIdle_awaitKind between]
      exact ih a (.inl between)
    · have few := h.resolve_left between
      rw [asmIdle_counts between (by omega)]
      have later := ih { a with idle := a.idle + 1 } (.inr (by dsimp only; omega))
      dsimp only
      rw [later, assemble_some, assemble_some, asmByte_idle]
      rfl

/-- Gaps of up to fifteen idle frames leave no trace in a run of bytes. -/
theorem assemble_spread (bytes : List Byte) (gaps : List Nat) (len : gaps.length = bytes.length)
    (few : ∀ g ∈ gaps, g ≤ 15) (a : Assembly) (idle : a.idle = 0) :
    assemble a (spread bytes gaps) = assemble a (bytes.map some) := by
  induction bytes generalizing a gaps with
  | nil => cases gaps <;> rfl
  | cons b bytes ih =>
    cases gaps with
    | nil => cases len
    | cons g gaps =>
      have first := few g List.mem_cons_self
      have rest := ih gaps (Nat.succ.inj len) (fun x hx => few x (List.mem_cons_of_mem _ hx))
        (asmByte a b).1 (asmByte_idle_zero a b)
      rw [spread, assemble_gap g a (.inr (by omega)), List.map_cons, assemble_some, assemble_some, rest]

/-- An assembly at its payload takes the bytes still expected and the check. -/
theorem assemble_payload (p : List Byte) (bytes : List Byte) (sum check : Byte)
    (total : p.foldl (· + ·) sum + check = 0) :
    assemble ⟨if p.length = 0 then .awaitCheck else .inPayload, bytes, sum, p.length, 0⟩
      ((p ++ [check]).map some) =
      (Assembly.empty, [.delivered ⟨(bytes ++ p).getD 0 0, (bytes ++ p).drop 2⟩]) := by
  induction p generalizing bytes sum with
  | nil =>
    rw [List.nil_append, List.map_cons, assemble_some, asmByte_check check rfl total, List.append_nil]
    rfl
  | cons b p ih =>
    have rest := ih (bytes ++ [b]) (sum + b) total
    rw [List.append_assoc, List.singleton_append] at rest
    rw [List.cons_append, List.map_cons, assemble_some, asmByte_payload b rfl, if_pos rfl]
    have next : (if (b :: p).length ≤ 1 then AsmState.awaitCheck else .inPayload) =
        if p.length = 0 then .awaitCheck else .inPayload := by
      simp
    dsimp only
    rw [next]
    exact rest

theorem u8_toNat {n : Nat} (h : n ≤ 240) : (u8 n).toNat = n := by
  unfold u8
  rw [BitVec.toNat_ofNat]
  omega

theorem sum8_msgBytes (m : Msg) : sum8 (msgBytes m) = 0 := by
  unfold msgBytes
  rw [sum8_append]
  exact add_neg_cancel _

/-- The bytes of a message, without gaps, are delivered whole. -/
theorem assemble_msgBytes (m : Msg) (short : m.payload.length ≤ 240) :
    assemble Assembly.empty ((msgBytes m).map some) = (Assembly.empty, [.delivered m]) := by
  have sum := sum8_msgBytes m
  have total : m.payload.foldl (· + ·) (m.kind + u8 m.payload.length) +
      -(sum8 (m.kind :: u8 m.payload.length :: m.payload)) = 0 := by
    unfold msgBytes at sum
    rw [sum8_append] at sum
    have head : sum8 (m.kind :: u8 m.payload.length :: m.payload) =
        m.payload.foldl (· + ·) (m.kind + u8 m.payload.length) := by
      simp [sum8]
    rw [← head]
    exact sum
  have payload := assemble_payload m.payload [m.kind, u8 m.payload.length] (m.kind + u8 m.payload.length)
    (-(sum8 (m.kind :: u8 m.payload.length :: m.payload))) total
  have kind := assemble_some Assembly.empty m.kind
    ((u8 m.payload.length :: (m.payload ++ [-(sum8 (m.kind :: u8 m.payload.length :: m.payload))])).map some)
  rw [asmByte_awaitKind m.kind rfl, if_pos rfl] at kind
  have length := assemble_some ⟨.awaitLength, [m.kind], m.kind, 0, 0⟩ (u8 m.payload.length)
    ((m.payload ++ [-(sum8 (m.kind :: u8 m.payload.length :: m.payload))]).map some)
  rw [asmByte_length _ rfl (by rw [u8_toNat short]; exact short), if_pos rfl, u8_toNat short] at length
  rw [List.singleton_append, payload] at length
  rw [List.map_cons, length] at kind
  exact kind

/-- Settles O14: gaps leave no trace, and a message's bytes end in the check that makes their sum 0. -/
theorem messageStreamRoundTrip : Obligations.MessageStreamRoundTrip := by
  unfold Obligations.MessageStreamRoundTrip
  intro m first gaps short len few
  refine ⟨?_, sum8_msgBytes m, by simp [msgBytes]⟩
  have e : msgBytes m = m.kind :: (u8 m.payload.length :: m.payload ++
      [-(sum8 (m.kind :: u8 m.payload.length :: m.payload))]) := rfl
  have whole := assemble_msgBytes m short
  rw [e, List.map_cons, assemble_some] at whole
  rw [e, spread, assemble_gap first _ (.inl rfl), assemble_some,
    assemble_spread _ gaps (by simp [len]) few _ (asmByte_idle_zero _ _)]
  exact whole

end Sys2Proof.Machine
end

