-- ==== Sys2Proof/Proofs/Delivery.lean ====
section
/-! PROOF. A report to the Event Unit (O30), a delivered command (O29), a steering notice (O31), and the moves of
the replies (O27). -/

namespace Sys2Proof.Machine

/-! ### The Event Unit (R181 to R184) -/

/-- A report of a source raises a notice, room apart (R181, R183). -/
def raisesNotice (src : Source) (s : State) : Bool :=
  !inSet s.ev.status (sourceBit src) && noticeAllowed s.ev.mode src && !inSet s.ev.mask (sourceBit src)

/-- The Event Unit's record after a report. -/
def evAfter (src : Source) (s : State) : Events :=
  { s.ev with status := setInsert s.ev.status (sourceBit src) }

theorem reportSource_eq (src : Source) (s : State) : reportSource src s = { s with
    ev := evAfter src s
    cmd := { s.cmd with replies := s.cmd.replies ++
      (if raisesNotice src s && decide (s.cmd.replies.length < 8) then [noticeMsg (evAfter src s)] else []) } } := by
  have e : reportSource src s = if raisesNotice src s = true then appendNotice { s with ev := evAfter src s }
      else { s with ev := evAfter src s } := rfl
  rw [e]
  by_cases r : raisesNotice src s = true
  · rw [if_pos r, r, Bool.true_and]
    unfold appendNotice replyLimit
    by_cases room : s.cmd.replies.length < 8
    · rw [if_pos room, if_pos (decide_eq_true room)]
    · rw [if_neg room, if_neg (by simpa using room), List.append_nil]
  · rw [if_neg r, Bool.eq_false_iff.2 r, Bool.false_and, if_neg Bool.false_ne_true, List.append_nil]

/-- The pending code is the lowest among the sources set and unmasked, where there is one (R182). -/
theorem pendingCode_lowest (ev : Events) {i : Nat} (lt : i < 8) (set : (unmasked ev).getLsbD i = true) :
    1 ≤ pendingCode ev ∧ pendingCode ev ≤ 8 ∧ (unmasked ev).getLsbD (pendingCode ev - 1) = true ∧
      ∀ c, 1 ≤ c → c < pendingCode ev → (unmasked ev).getLsbD (c - 1) = false := by
  cases found : (List.range 8).find? fun i => (unmasked ev).getLsbD i with
  | none =>
    have := List.find?_eq_none.1 found i (List.mem_range.2 lt)
    exact absurd set this
  | some j =>
    have code : pendingCode ev = j + 1 := by simp [pendingCode, found]
    obtain ⟨bit, inRange, lowest⟩ := List.find?_range_eq_some.1 found
    have := List.mem_range.1 inRange
    rw [code]
    refine ⟨by omega, by omega, bit, fun c _ below => ?_⟩
    simpa using lowest (c - 1) (by omega)

theorem sourceBit_lt (src : Source) : sourceBit src < 8 := by cases src <;> decide

/-- A source whose report raises a notice stands set and unmasked in the record that the notice carries. -/
theorem unmasked_of_raisesNotice {src : Source} {s : State} (h : raisesNotice src s = true) :
    (unmasked (evAfter src s)).getLsbD (sourceBit src) = true := by
  unfold raisesNotice at h
  simp only [Bool.and_eq_true, Bool.not_eq_true'] at h
  obtain ⟨-, clear⟩ := h
  have set : inSet (setInsert s.ev.status (sourceBit src)) (sourceBit src) = true := by
    rw [inSet_setInsert _ _ _ (sourceBit_lt src)]
    simp
  unfold inSet at set clear
  unfold unmasked evAfter
  rw [BitVec.getLsbD_and, BitVec.getLsbD_not, set, clear]
  simpa using sourceBit_lt src

/-- Settles O30: the report as one equation, and the pending code of the notice. -/
theorem eventReported : Obligations.EventReported := by
  unfold Obligations.EventReported
  refine ⟨fun src s => ?_, fun c s => by cases c <;> rfl⟩
  intro t bit status raised
  have e : raised = raisesNotice src s := by
    unfold raisesNotice noticeAllowed inSet
    rw [Bool.and_right_comm]
    rfl
  clear_value raised
  subst e
  refine ⟨pendingCode (evAfter src s), reportSource_eq src s, fun h => ?_⟩
  exact pendingCode_lowest (evAfter src s) (sourceBit_lt src) (unmasked_of_raisesNotice h)

/-! ### A delivered command (R160, R161) -/

theorem holdAfter_add_one (hold : Bool) (n trigger : Nat) :
    holdAfter hold (n + 1) trigger = (decide (trigger ≤ n + 1) || hold) := by
  unfold holdAfter
  by_cases h : trigger ≤ n + 1 <;> simp [h]

theorem deliverCommand_room (m : Msg) {s : State} (room : s.cmd.queue.length < 8) :
    deliverCommand m s = { s with cmd := { s.cmd with
      queue := s.cmd.queue ++ [m]
      hold := decide (holdTrigger s.cmd.tuning ≤ s.cmd.queue.length + 1) || s.cmd.hold } } := by
  unfold deliverCommand queueLimit updateHold
  rw [if_pos room]
  dsimp only
  rw [List.length_append, List.length_singleton, holdAfter_add_one]

theorem deliverCommand_full (m : Msg) {s : State} (full : 8 ≤ s.cmd.queue.length) :
    deliverCommand m s = reportMsgError .overflow s := if_neg (not_lt.2 full)

theorem commandDelivery_locked (kind : Byte) {payload : List Byte} {s : State} (up : s.resetn = true)
    (short : payload.length ≤ 240) (locked : s.ports.codecRx.lock = .locked) :
    exec (.commandDelivery kind payload) s =
      .next (completeCommand (s.ports.frames.inCodec - 1) ⟨kind, payload⟩ s) := by
  rw [commandDelivery_short kind short, up_released _ up, locked]
  rfl

theorem steer_locked (kind : Byte) {payload : List Byte} {s : State} (up : s.resetn = true)
    (short : payload.length ≤ 240) (locked : s.ports.arrayRx.lock = .locked) :
    exec (.steer kind payload) s = .next (completeSteer (s.ports.frames.inArray - 1) ⟨kind, payload⟩ s) := by
  rw [steer_short kind short, up_released _ up, locked]
  rfl

/-- Settles O29: the two rows are the delivery of a message that the newest frame of their link completes. -/
theorem commandDelivered : Obligations.CommandDelivered := by
  unfold Obligations.CommandDelivered
  refine ⟨fun m s => ⟨deliverCommand_room m, fun full => ?_⟩, fun kind payload s up short => ?_⟩
  · refine ⟨_, rfl, ?_⟩
    rw [deliverCommand_full m full, reportMsgError, reportSource_eq]
    exact ⟨rfl, rfl, rfl⟩
  · refine ⟨fun locked now => ?_, fun locked late => ?_, fun seeks => ?_, fun locked now => ?_,
      fun locked late => ?_, fun seeks => ?_⟩
    · rw [commandDelivery_locked kind up short locked, completeCommand,
        if_neg fun k => now ((boundaryAhead_iff _ s).1 k)]
    · rw [commandDelivery_locked kind up short locked, completeCommand,
        if_pos ((boundaryAhead_iff _ s).2 late)]
    · rw [commandDelivery_short kind short, up_released _ up, seeks]
      rfl
    · rw [steer_locked kind up short locked, completeSteer,
        if_neg fun k => now ((boundaryAhead_iff _ s).1 k)]
    · rw [steer_locked kind up short locked, completeSteer,
        if_pos ((boundaryAhead_iff _ s).2 late)]
    · rw [steer_short kind short, up_released _ up, seeks]
      rfl

/-! ### A steering notice (R32, R33) -/

theorem steerRecord_valid {b z : Byte} (hb : b.toNat < 16) (hz : z.toNat ≤ 31 ∨ z.toNat = 255) :
    steerRecord ⟨0x31, [b, z]⟩ = some ⟨⟨b.toNat, hb⟩, if z.toNat = 255 then 32 else z.toNat⟩ := by
  unfold steerRecord
  dsimp only
  rw [if_pos rfl, dif_pos hb]
  rcases hz with hz | hz
  · rw [if_pos hz, if_neg (by omega)]
  · rw [if_neg (by omega), if_pos hz, if_pos hz]

theorem steerRecord_invalid {kind : Byte} {payload : List Byte}
    (h : kind ≠ 0x31 ∨ payload.length ≠ 2 ∨ 16 ≤ (payload.getD 0 0).toNat ∨
      (32 ≤ (payload.getD 1 0).toNat ∧ (payload.getD 1 0).toNat ≤ 254)) :
    steerRecord ⟨kind, payload⟩ = none := by
  unfold steerRecord
  split
  · next b z e =>
    dsimp only at e
    subst e
    dsimp only [List.length, List.getD_cons_zero, List.getD_cons_succ] at h
    by_cases hk : kind = 0x31
    · rw [if_pos hk]
      by_cases hb : b.toNat < 16
      · have wrong : 32 ≤ z.toNat ∧ z.toNat ≤ 254 := by
          rcases h with h | h | h | h
          · exact absurd hk h
          · exact absurd rfl h
          · exact absurd hb (not_lt.2 h)
          · exact h
        rw [dif_pos hb, if_neg (by omega), if_neg (by omega)]
      · rw [dif_neg hb]
    · rw [if_neg hk]
  · rfl

theorem deliverSteer_some {m : Msg} {r : SteerRec} (h : steerRecord m = some r) (s : State) :
    deliverSteer m s = { s with router := { s.router with queue := mergeSteer s.router.queue r } } := by
  unfold deliverSteer; rw [h]

theorem deliverSteer_none {m : Msg} (h : steerRecord m = none) (s : State) : deliverSteer m s = steerError s := by
  unfold deliverSteer; rw [h]

theorem mergeSteer_new {q : List SteerRec} {r : SteerRec} (h : ∀ x ∈ q, x.beam ≠ r.beam) :
    mergeSteer q r = q ++ [r] := by
  unfold mergeSteer
  rw [if_neg]
  rw [List.any_eq_true]
  rintro ⟨x, hx, e⟩
  exact h x hx (beq_iff_eq.1 e)

theorem mergeSteer_replaces {q : List SteerRec} {r : SteerRec} (h : ∃ x ∈ q, x.beam = r.beam) :
    mergeSteer q r = q.map fun x => if x.beam = r.beam then { x with tag := r.tag } else x := by
  unfold mergeSteer
  rw [if_pos]
  rw [List.any_eq_true]
  obtain ⟨x, hx, e⟩ := h
  exact ⟨x, hx, beq_iff_eq.2 e⟩

/-- Settles O31: a valid notice is merged into the steer queue, and every other message is counted. -/
theorem steerNotice : Obligations.SteerNotice := by
  unfold Obligations.SteerNotice
  refine ⟨fun b z hb s hz => ?_, fun kind payload s h => deliverSteer_none (steerRecord_invalid h) s⟩
  have delivered := deliverSteer_some (steerRecord_valid hb hz) s
  refine ⟨fun new => ?_, fun old => ?_⟩
  · rw [delivered, mergeSteer_new new]
  · rw [mergeSteer_replaces old] at delivered
    refine ⟨_, delivered, List.length_map _, fun i lt lt' => ?_⟩
    rw [List.getElem_map]
    by_cases same : s.router.queue[i].beam = ⟨b.toNat, hb⟩
    · rw [if_pos same, if_pos same, same]
    · rw [if_neg same, if_neg same]

/-! ### The replies (R17, R163) -/

/-- The Command Unit after a reply held has had the chance of a free place. -/
def heldPlaced (c : Command) : Command :=
  match c.state with
  | .replyHeld r => if c.replies.length < 8 then { c with state := .idle, replies := c.replies ++ [r] } else c
  | .idle => c
  | .portWait => c

theorem appendHeld_eq (s : State) : appendHeld s = { s with cmd := heldPlaced s.cmd } := by
  unfold appendHeld heldPlaced completeReply replyLimit
  cases s.cmd.state with
  | replyHeld r => dsimp only; split <;> rfl
  | idle => rfl
  | portWait => rfl

theorem heldPlaced_room {c : Command} {r : Msg} (held : c.state = .replyHeld r) (room : c.replies.length < 8) :
    heldPlaced c = { c with state := .idle, replies := c.replies ++ [r] } := by
  unfold heldPlaced
  rw [held]
  exact if_pos room

theorem heldPlaced_kept {c : Command} (h : 8 ≤ c.replies.length ∨ ∀ r, c.state ≠ .replyHeld r) :
    heldPlaced c = c := by
  unfold heldPlaced
  split
  · next r held => exact if_neg fun room => h.elim (fun full => by omega) fun none => none r held
  · rfl
  · rfl

/-- A held reply takes a free place once: either no reply is held any more, or there is no place. -/
theorem heldPlaced_idem (c : Command) : heldPlaced (heldPlaced c) = heldPlaced c := by
  by_cases h : 8 ≤ c.replies.length ∨ ∀ r, c.state ≠ .replyHeld r
  · rw [heldPlaced_kept h, heldPlaced_kept h]
  · simp only [not_or, not_le, not_forall, not_not] at h
    obtain ⟨room, r, held⟩ := h
    rw [heldPlaced_room held room]
    exact heldPlaced_kept (.inr fun _ e => by cases e)

theorem appendHeld_idem (s : State) : appendHeld (appendHeld s) = appendHeld s := by
  rw [appendHeld_eq (appendHeld s), appendHeld_eq s]
  dsimp only
  rw [heldPlaced_idem]

/-- The first direction to reach a frame starts it, a held reply having the first free place. -/
theorem startFrame_starts {f : Nat} {s : State} (first : s.ports.frames.started ≤ f) (heldNow : Bool) :
    startFrame f heldNow s = takeTransmit heldNow { s with
      ports := { s.ports with frames := { s.ports.frames with started := f + 1 } }
      cmd := heldPlaced s.cmd } := by
  unfold startFrame
  rw [if_pos first, appendHeld_eq]

theorem takeTransmit_some {s : State} {t : TxRecord} (h : s.ports.transmit = some t) (heldNow : Bool) :
    takeTransmit heldNow s = s := by
  unfold takeTransmit; rw [h]

theorem takeTransmit_nil {s : State} (h : s.cmd.replies = []) (heldNow : Bool) :
    takeTransmit heldNow s = s := by
  unfold takeTransmit; rw [h]; cases s.ports.transmit <;> rfl

theorem takeTransmit_cons {s : State} {m : Msg} {rest : List Msg} (h : s.ports.transmit = none)
    (k : s.cmd.replies = m :: rest) (heldNow : Bool) : takeTransmit heldNow s = { s with
      ports := { s.ports with transmit := some ⟨m, 0⟩ }
      cmd := if heldNow then heldPlaced { s.cmd with replies := rest } else { s.cmd with replies := rest } } := by
  unfold takeTransmit
  rw [h, k]
  dsimp only
  cases heldNow
  · rfl
  · rw [if_pos rfl, if_pos rfl, appendHeld_eq]

/-- The part at the start of a frame. -/
theorem startFrame_moves (f : Nat) (heldNow : Bool) (s : State) :
    let queued := heldPlaced s.cmd
    let placed := { s with
      ports := { s.ports with frames := { s.ports.frames with started := f + 1 } }
      cmd := queued }
    (f < s.ports.frames.started → startFrame f heldNow s = s) ∧
    (s.ports.frames.started ≤ f →
      (∀ t, s.ports.transmit = some t → startFrame f heldNow s = placed) ∧
      (queued.replies = [] → startFrame f heldNow s = placed) ∧
      ∀ m rest, s.ports.transmit = none → queued.replies = m :: rest →
        let u := { placed with
          ports := { placed.ports with transmit := some ⟨m, 0⟩ }
          cmd := { queued with replies := rest } }
        (heldNow = false → startFrame f heldNow s = u) ∧
        (∀ r, heldNow = true → queued.state = .replyHeld r → rest.length < 8 →
          startFrame f heldNow s =
            { u with cmd := { queued with state := .idle, replies := rest ++ [r] } }) ∧
        ((∀ r, queued.state ≠ .replyHeld r) → startFrame f heldNow s = u)) := by
  intro queued placed
  refine ⟨fun later => if_neg (not_le.2 later), fun first => ?_⟩
  have starts : startFrame f heldNow s = takeTransmit heldNow placed := startFrame_starts first heldNow
  refine ⟨fun t sending => starts.trans (takeTransmit_some (s := placed) sending _),
    fun empty => starts.trans (takeTransmit_nil (s := placed) empty _), fun m rest free head => ?_⟩
  have takes := starts.trans (takeTransmit_cons (s := placed) free head heldNow)
  refine ⟨fun early => ?_, fun r now held room => ?_, fun none => ?_⟩
  · subst early; exact takes
  · subst now
    rw [if_pos rfl, heldPlaced_room (c := { queued with replies := rest }) held room] at takes
    exact takes
  · rw [heldPlaced_kept (c := { queued with replies := rest }) (.inr none), ite_self] at takes
    exact takes

/-- Settles O27: the start of a frame, the row, and a boundary, each by the place of the held reply. -/
theorem replyMoves : Obligations.ReplyMoves := by
  unfold Obligations.ReplyMoves
  refine ⟨fun f heldNow s => startFrame_moves f heldNow s, fun s up => ?_, fun order s t due e => ?_⟩
  · have row : exec .heldReplyAppend s = .next { s with cmd := heldPlaced s.cmd } :=
      (up_released appendHeld up).trans (congrArg _ (appendHeld_eq s))
    refine ⟨fun r held room => ?_, fun h => ?_⟩
    · rw [row, heldPlaced_room held room]
    · rw [row, heldPlaced_kept h]
  · have row : exec .heldReplyAppend s = .next (appendHeld s) := up_released appendHeld due.resetn
    rw [row] at e
    cases e
    have f := appendHeld_frame s
    have due' : BoundaryDue (appendHeld s) :=
      ⟨f.resetn.trans due.resetn, by rw [f.ports, f.event.count]; exact due.array,
        by rw [f.ports, f.event.count]; exact due.codec⟩
    calc exec (.blockBoundary order) s = .next (boundary order s) := execBlockBoundary_due order due
      _ = .next (boundary order (appendHeld s)) := by rw [boundary, boundary, appendHeld_idem]
      _ = exec (.blockBoundary order) (appendHeld s) := (execBlockBoundary_due order due').symm

end Sys2Proof.Machine
end

