-- ==== Sys2Proof/Proofs/FrameLayout.lean ====
section
/-! PROOF. The fields of an outbound frame (O16), and the samples of an inbound one (O26). -/

namespace Sys2Proof.Machine

/-! ### Packed fields (R191) -/

/-- The bit periods that fields take. -/
def fieldsWidth (fields : List (Nat × Nat)) : Nat := (fields.map Prod.fst).sum

/-- The number that fields spell, most significant first. -/
def fieldsValue (fields : List (Nat × Nat)) : Nat := fields.foldl (fun v f => v * 2 ^ f.1 + f.2 % 2 ^ f.1) 0

theorem fieldsWidth_append (xs ys : List (Nat × Nat)) :
    fieldsWidth (xs ++ ys) = fieldsWidth xs + fieldsWidth ys := by simp [fieldsWidth]

theorem fieldsWidth_cons (f : Nat × Nat) (ys : List (Nat × Nat)) :
    fieldsWidth (f :: ys) = f.1 + fieldsWidth ys := by simp [fieldsWidth]

theorem foldl_fields (ys : List (Nat × Nat)) (v : Nat) :
    ys.foldl (fun v f => v * 2 ^ f.1 + f.2 % 2 ^ f.1) v = v * 2 ^ fieldsWidth ys + fieldsValue ys := by
  induction ys generalizing v with
  | nil => simp [fieldsWidth, fieldsValue]
  | cons f ys ih =>
    have first := ih (f.2 % 2 ^ f.1)
    rw [fieldsValue, List.foldl_cons, List.foldl_cons, ih, Nat.zero_mul, Nat.zero_add, first,
      fieldsWidth_cons, Nat.add_mul, Nat.pow_add, Nat.mul_assoc, Nat.add_assoc]

theorem fieldsValue_append (xs ys : List (Nat × Nat)) :
    fieldsValue (xs ++ ys) = fieldsValue xs * 2 ^ fieldsWidth ys + fieldsValue ys := by
  rw [fieldsValue, List.foldl_append, foldl_fields]; rfl

theorem fieldsValue_cons (f : Nat × Nat) (ys : List (Nat × Nat)) :
    fieldsValue (f :: ys) = f.2 % 2 ^ f.1 * 2 ^ fieldsWidth ys + fieldsValue ys := by
  rw [fieldsValue, List.foldl_cons, Nat.zero_mul, Nat.zero_add, foldl_fields]

theorem fieldsValue_lt (fields : List (Nat × Nat)) : fieldsValue fields < 2 ^ fieldsWidth fields := by
  induction fields with
  | nil => simp [fieldsWidth, fieldsValue]
  | cons f ys ih =>
    rw [fieldsValue_cons, fieldsWidth_cons, Nat.pow_add]
    have top : f.2 % 2 ^ f.1 + 1 ≤ 2 ^ f.1 := Nat.mod_lt _ (Nat.two_pow_pos _)
    calc f.2 % 2 ^ f.1 * 2 ^ fieldsWidth ys + fieldsValue ys
        < f.2 % 2 ^ f.1 * 2 ^ fieldsWidth ys + 2 ^ fieldsWidth ys := Nat.add_lt_add_left ih _
      _ = (f.2 % 2 ^ f.1 + 1) * 2 ^ fieldsWidth ys := by rw [Nat.succ_mul]
      _ ≤ 2 ^ f.1 * 2 ^ fieldsWidth ys := Nat.mul_le_mul_right _ top

/-- A frame of fields holds their number at the top of its bit periods. -/
theorem packFrame_toNat {fields : List (Nat × Nat)} (fits : fieldsWidth fields ≤ 512) :
    (packFrame fields).toNat = fieldsValue fields * 2 ^ (512 - fieldsWidth fields) := by
  unfold packFrame
  dsimp only
  rw [BitVec.toNat_ofNat]
  refine Nat.mod_eq_of_lt ?_
  rw [← Nat.pow_sub_mul_pow 2 fits, Nat.mul_comm (2 ^ _)]
  exact Nat.mul_lt_mul_of_pos_right (fieldsValue_lt fields) (Nat.two_pow_pos _)

/-- A field of a frame stands at the bit periods that the fields before it leave. -/
theorem frameField_packFrame {fields xs ys : List (Nat × Nat)} {w v : Nat} (e : fields = xs ++ (w, v) :: ys)
    (fits : fieldsWidth fields ≤ 512) :
    frameField (packFrame fields) (fieldsWidth xs) w = BitVec.ofNat w v := by
  have width : fieldsWidth fields = fieldsWidth xs + (w + fieldsWidth ys) := by
    rw [e, fieldsWidth_append, fieldsWidth_cons]
  have value : fieldsValue fields =
      (fieldsValue xs * 2 ^ w + v % 2 ^ w) * 2 ^ fieldsWidth ys + fieldsValue ys := by
    rw [e, fieldsValue_append, fieldsValue_cons, fieldsWidth_cons, Nat.pow_add, Nat.add_mul, Nat.mul_assoc,
      Nat.add_assoc]
  have below : 512 - fieldsWidth xs - w = 512 - fieldsWidth fields + fieldsWidth ys := by omega
  apply BitVec.eq_of_toNat_eq
  rw [frameField, BitVec.extractLsb'_toNat, packFrame_toNat fits, below, BitVec.toNat_ofNat,
    Nat.shiftRight_eq_div_pow, Nat.pow_add, ← Nat.div_div_eq_div_mul,
    Nat.mul_div_cancel _ (Nat.two_pow_pos _), value, Nat.mul_comm _ (2 ^ fieldsWidth ys),
    Nat.mul_add_div (Nat.two_pow_pos _), Nat.div_eq_of_lt (fieldsValue_lt ys), Nat.add_zero,
    Nat.mul_comm _ (2 ^ w), Nat.mul_add_mod, Nat.mod_mod]

/-- The bit periods that the fields leave are 0. -/
theorem frameField_rest {fields : List (Nat × Nat)} (fits : fieldsWidth fields ≤ 512) {w : Nat}
    (rest : fieldsWidth fields + w = 512) : frameField (packFrame fields) (fieldsWidth fields) w = 0 := by
  apply BitVec.eq_of_toNat_eq
  have low : 512 - fieldsWidth fields - w = 0 := by omega
  have all : 512 - fieldsWidth fields = w := by omega
  rw [frameField, BitVec.extractLsb'_toNat, packFrame_toNat fits, low, all, Nat.shiftRight_zero,
    Nat.mul_mod_left]
  rfl

/-! ### The outbound frame (O16) -/

/-- The fields of an outbound frame's slots. -/
def slotFields (slots : List Sample) : List (Nat × Nat) := slots.map fun x => (24, x.toNat)

theorem slotFields_width (slots : List Sample) : fieldsWidth (slotFields slots) = 24 * slots.length := by
  induction slots with
  | nil => rfl
  | cons x slots ih => rw [slotFields, List.map_cons, fieldsWidth_cons, ← slotFields, ih, List.length_cons]; omega

/-- The fields of an outbound frame's control field. -/
def controlFields (data : Option Byte) (ho ep : Bool) : List (Nat × Nat) :=
  [(1, if data.isSome then 1 else 0), (1, if ho then 1 else 0), (1, if ep then 1 else 0), (1, 0),
    (8, (data.getD 0).toNat)]

/-- All the fields of an outbound frame. -/
def outboundFields (slots : List Sample) (data : Option Byte) (ho ep : Bool) : List (Nat × Nat) :=
  (8, marker.toNat) :: slotFields slots ++ controlFields data ho ep

theorem outboundFields_width (slots : List Sample) (data : Option Byte) (ho ep : Bool) :
    fieldsWidth (outboundFields slots data ho ep) = 20 + 24 * slots.length := by
  rw [outboundFields, fieldsWidth_append, fieldsWidth_cons, slotFields_width]
  simp [controlFields, fieldsWidth]
  omega

/-- A field of the control field, by the fields of the control field before it. -/
theorem outbound_controlField {slots : List Sample} {data : Option Byte} {ho ep : Bool}
    (fits : slots.length ≤ 20) {xs ys : List (Nat × Nat)} {w v : Nat}
    (e : controlFields data ho ep = xs ++ (w, v) :: ys) {n : Nat} (at_n : fieldsWidth xs = n) :
    frameField (outboundBits slots data ho ep) (8 + 24 * slots.length + n) w = BitVec.ofNat w v := by
  subst at_n
  have split : outboundFields slots data ho ep = ((8, marker.toNat) :: slotFields slots ++ xs) ++ (w, v) :: ys := by
    rw [outboundFields, e, List.append_assoc]
  have field := frameField_packFrame split (by rw [outboundFields_width]; omega)
  rw [fieldsWidth_append, fieldsWidth_cons, slotFields_width] at field
  exact field

theorem frameSlot_outbound {slots : List Sample} (data : Option Byte) (ho ep : Bool) (fits : slots.length ≤ 20)
    {k : Nat} (h : k < slots.length) : frameSlot (outboundBits slots data ho ep) k = slots[k] := by
  have split : outboundFields slots data ho ep = ((8, marker.toNat) :: slotFields (slots.take k)) ++
      (24, slots[k].toNat) :: (slotFields (slots.drop (k + 1)) ++ controlFields data ho ep) := by
    have parts : slotFields slots = slotFields (slots.take k) ++
        (24, slots[k].toNat) :: slotFields (slots.drop (k + 1)) := by
      have at_k : slots = slots.take k ++ slots[k] :: slots.drop (k + 1) := by simp
      exact (congrArg slotFields at_k).trans (by simp only [slotFields, List.map_append, List.map_cons])
    rw [outboundFields, parts]
    simp only [List.cons_append, List.append_assoc]
  have field := frameField_packFrame split (by rw [outboundFields_width]; omega)
  rw [fieldsWidth_cons, slotFields_width, List.length_take, Nat.min_eq_left h.le] at field
  exact field.trans (by simp)

/-- Settles O16: each field stands after the widths of the fields before it. -/
theorem frameFields : Obligations.FrameFields := by
  unfold Obligations.FrameFields
  intro slots data ho ep fits
  have whole := outboundFields_width slots data ho ep
  refine ⟨?_, fun k h => frameSlot_outbound data ho ep fits h, ?_, ?_, ?_, ?_, ?_, ?_⟩
  · exact frameField_packFrame (fields := outboundFields slots data ho ep) (xs := []) rfl (by omega)
  · exact (outbound_controlField fits (xs := []) rfl rfl).trans (by split <;> rfl)
  · exact (outbound_controlField fits (xs := [_]) rfl rfl).trans (by split <;> rfl)
  · exact (outbound_controlField fits (xs := [_, _]) rfl rfl).trans (by split <;> rfl)
  · exact outbound_controlField fits (xs := [_, _, _]) rfl rfl
  · exact (outbound_controlField fits (xs := [_, _, _, _]) rfl rfl).trans (by simp)
  · have rest := frameField_rest (fields := outboundFields slots data ho ep) (w := 500 - (8 + 24 * slots.length))
      (by omega) (by omega)
    rw [whole] at rest
    have start : 8 + 24 * slots.length + 12 = 20 + 24 * slots.length := by omega
    rw [start]
    exact rest

/-! ### The limiter (R19) -/

theorem toInt_ofInt24 {n : Int} (low : -8388608 ≤ n) (high : n ≤ 8388607) : (BitVec.ofInt 24 n).toInt = n := by
  rw [BitVec.toInt_ofInt]
  exact Int.bmod_eq_of_le (by norm_num; omega) (by norm_num; omega)

/-- The limiter holds a sample within its ceiling, and says so exactly where it changes it. -/
theorem limitSample_spec {ceiling : Nat} (bound : ceiling ≤ 8388607) (x : Sample) :
    (limitSample ceiling x).1.toInt = max (-(ceiling : Int)) (min ceiling x.toInt) ∧
      (limitSample ceiling x).2 = ((limitSample ceiling x).1 != x) := by
  have changed : ∀ {n : Int}, -8388608 ≤ n → n ≤ 8388607 → x.toInt ≠ n →
      true = (BitVec.ofInt 24 n != x) := fun low high far => by
    refine (bne_iff_ne.2 fun same => far ?_).symm
    rw [← same, toInt_ofInt24 low high]
  unfold limitSample
  split
  · next above =>
    rw [toInt_ofInt24 (by omega) (by omega)]
    exact ⟨by omega, changed (by omega) (by omega) (by omega)⟩
  · split
    · next below =>
      rw [toInt_ofInt24 (by omega) (by omega)]
      exact ⟨by omega, changed (by omega) (by omega) (by omega)⟩
    · exact ⟨by dsimp only; omega, by simp⟩

theorem limitPlayback_spec {s : State} (ceilings : ∀ m : Fin 4, s.play.meters[m].ceiling ≤ 8388607) (r : RefId)
    (x : Sample) :
    ((limitPlayback s r x).1.toInt = match s.tracker.refs[r].meter with
      | none => x.toInt
      | some m => max (-(s.play.meters[m].ceiling : Int)) (min s.play.meters[m].ceiling x.toInt)) ∧
    (limitPlayback s r x).2 = ((limitPlayback s r x).1 != x) := by
  unfold limitPlayback
  cases s.tracker.refs[r].meter with
  | none => exact ⟨rfl, by simp⟩
  | some m => exact limitSample_spec (ceilings m) x

/-- The playback path's work on the eight samples of a frame. -/
theorem playFrame_spec {s : State} (ceilings : ∀ m : Fin 4, s.play.meters[m].ceiling ≤ 8388607)
    (raw : RefId → Sample) :
    let t := playFrame (Vector.ofFn raw) s
    t = { s with
      play := { s.play with
        meters := t.play.meters, clamped := t.play.clamped, speaker := t.play.speaker }
      tracker := { s.tracker with lines := t.tracker.lines } } ∧
    ∃ limited : Vector Sample 8,
      (∀ r : RefId, limited[r].toInt =
        match s.tracker.refs[r].meter with
        | none => (raw r).toInt
        | some m => max (-(s.play.meters[m].ceiling : Int))
            (min s.play.meters[m].ceiling (raw r).toInt)) ∧
      t.play.speaker = (limited :: s.play.speaker).take 50 ∧
      (∀ r : RefId, t.tracker.lines[r] = (limited[r] :: s.tracker.lines[r]).take 3072) ∧
      (∀ m : Fin 4, t.play.meters[m].ceiling = s.play.meters[m].ceiling ∧
        t.play.meters[m].clamps = min 65535 (s.play.meters[m].clamps +
          (allRefs.filter fun r => s.tracker.refs[r].meter == some m &&
            limited[r] != raw r).length)) ∧
      (t.play.clamped = true ↔ s.play.clamped = true ∨ ∃ r : RefId, limited[r] ≠ raw r) := by
  have limits := fun r => limitPlayback_spec ceilings r (raw r)
  have hits : ∀ r, (limitPlayback s r (raw r)).2 = ((limitPlayback s r (raw r)).1 != raw r) :=
    fun r => (limits r).2
  unfold playFrame
  refine ⟨rfl, Vector.ofFn fun r => (limitPlayback s r (raw r)).1, fun r => ?_, ?_, fun r => ?_,
    fun m => ⟨?_, ?_⟩, ?_⟩
  · rw [Fin.getElem_fin, Vector.getElem_ofFn]
    exact (limits r).1
  · simp [speakerLength]
  · simp [delayLineLength]
  · simp
  · simp [clampsOf, hits]
  · simp [hits, allRefs]

/-- Settles O26: the limiter says exactly where it changes a sample, and the rest is as written. -/
theorem frameSamples : Obligations.FrameSamples := by
  unfold Obligations.FrameSamples
  refine fun accepted bits s => ⟨⟨rfl, fun b => ?_⟩, fun ceilings => playFrame_spec ceilings _⟩
  simp [takeSlots, beamFrame, bypassLength]

end Sys2Proof.Machine
end

