-- ==== Sys2Proof/Proofs/Counters.lean ====
section
/-! PROOF. The counters of a boundary at their limits: noise floor, hangover, phases (O38), the degrade time (O41) and
the divergence reset (O40). -/

namespace Sys2Proof.Machine

/-! ### A row with its condition -/

/-- The work of a row that acts in a block whose work is live, where its condition holds. -/
def whenDue (g : State → Bool) (f : State → State) (s : State) : State := if g s = true then f s else s

theorem upInBlock_due {g : State → Bool} {f : State → State} {s : State} (h : AtBoundary s)
    (due : s.blk.live = true ∧ g s = true) : upInBlock (whenDue g f) s = .next (f s) := by
  rw [upInBlock_live _ h due.1, whenDue, if_pos due.2]

theorem upInBlock_notDue {g : State → Bool} {f : State → State} {s : State} (h : AtBoundary s)
    (none : ¬ (s.blk.live = true ∧ g s = true)) : upInBlock (whenDue g f) s = .next s := by
  cases live : s.blk.live with
  | true => rw [upInBlock_live _ h live, whenDue, if_neg fun k => none ⟨live, k⟩]
  | false => exact upInBlock_discarded _ h live

/-- A row with its condition: its work where that holds, by any statement of it, and otherwise nothing. -/
theorem upInBlock_cases {g : State → Bool} {f : State → State} {s t : State} {P : Prop} (h : AtBoundary s)
    (cond : P ↔ s.blk.live = true ∧ g s = true) (acts : P → f s = t) :
    (P → upInBlock (whenDue g f) s = .next t) ∧ (¬ P → upInBlock (whenDue g f) s = .next s) :=
  ⟨fun p => by rw [upInBlock_due h (cond.1 p), acts p], fun n => upInBlock_notDue h fun k => n (cond.2 k)⟩

/-! ### The noise floor and the hangover (R50, R81) -/

theorem floorDue_iff (b : BeamId) (s : State) : floorDue b s = true ↔
    s.ports.arrayRx.lock = .locked ∧ b ∉ s.blk.rose ∧ s.ctl.beams[b].noise ≤ s.core.micLu[b] ∧
      noiseRise s.blk.tuning ≤ s.ctl.beams[b].rise + 1 := by
  simp [floorDue, floorRises, and_assoc]

theorem raiseFloor_due {b : BeamId} {s : State} (mic : s.ctl.beams[b].noise ≤ s.core.micLu[b])
    (limit : noiseRise s.blk.tuning ≤ s.ctl.beams[b].rise + 1) : raiseFloor b s = { s with
      ctl := { s.ctl with
        beams := s.ctl.beams.set b { s.ctl.beams[b] with noise := min 423 (s.ctl.beams[b].noise + 1), rise := 0 } }
      blk := { s.blk with rose := b :: s.blk.rose } } := by
  unfold raiseFloor floorStep
  dsimp only
  rw [if_neg (not_lt.2 mic), if_pos limit]
  rfl

theorem hangoverEnds_iff (b : BeamId) (s : State) : hangoverEnds b s = true ↔
    s.ports.arrayRx.lock = .locked ∧ s.ctl.beams[b].talk = .hangover ∧ s.ctl.beams[b].hangCtr ≤ 1 ∧
      ¬ (s.blk.work[b].far = true ∧ s.blk.work[b].near = true) := by
  simp [hangoverEnds, and_assoc, imp_iff_not_or]

/-- Of one presence at most, the flag-given state is that of the one there is (R81). -/
theorem flagGiven_of_not_both {far near : Bool} (h : ¬ (far = true ∧ near = true)) :
    flagGiven far near = if far = true then .far else if near = true then .near else .idle := by
  revert h
  cases far <;> cases near <;> decide

/-! ### The phases (R87, R88) -/

theorem countsIn_iff (ph : Phase) (x : BlockSlot) (sl : SlotId) (s : State) : countsIn ph x sl s = true ↔
    x.phase = ph ∧ s.ctl.slots[sl].phase = ph ∧ sl ∉ s.blk.phaseSet := by
  simp [countsIn, and_assoc]

theorem slotCounts_iff {s : State} (live : s.blk.live = true) (sl : SlotId) (x : BlockSlot) (ph : Phase) :
    SlotCounts s sl x ph ↔ adapts sl s = some x ∧ countsIn ph x sl s = true := by
  rw [adapts_iff sl s x live, countsIn_iff]
  exact ⟨fun ⟨a, was, still, own⟩ => ⟨a, was, still, own⟩, fun ⟨a, was, still, own⟩ => ⟨a, was, still, own⟩⟩

theorem warmupEnds_iff (sl : SlotId) (s : State) : (s.blk.live = true ∧ warmupEnds sl s = true) ↔
    (∃ x, SlotCounts s sl x .warmup) ∧ warmBlocks s.blk.tuning ≤ s.ctl.slots[sl].counter + 1 := by
  constructor
  · rintro ⟨live, h⟩
    unfold warmupEnds at h
    split at h
    · next x found =>
      rw [Bool.and_eq_true, decide_eq_true_eq] at h
      exact ⟨⟨x, (slotCounts_iff live sl x _).2 ⟨found, h.1⟩⟩, h.2⟩
    · cases h
  · rintro ⟨⟨x, counts⟩, limit⟩
    have live := counts.adapts.live
    obtain ⟨found, inPhase⟩ := (slotCounts_iff live sl x _).1 counts
    refine ⟨live, ?_⟩
    unfold warmupEnds
    rw [found]
    dsimp only
    rw [inPhase, Bool.true_and, decide_eq_true_eq]
    exact limit

theorem trackingBegins_iff (sl : SlotId) (s : State) : (s.blk.live = true ∧ trackingBegins sl s = true) ↔
    ∃ x, SlotCounts s sl x .converging ∧ (trackErle s.blk.tuning : Int) ≤ s.blk.work[pairBeam x.pair].erle ∧
      trackCount s.blk.tuning ≤ s.ctl.slots[sl].counter + 1 := by
  constructor
  · rintro ⟨live, h⟩
    unfold trackingBegins at h
    split at h
    · next x found =>
      simp only [Bool.and_eq_true, decide_eq_true_eq, and_assoc] at h
      obtain ⟨inPhase, estimate, limit⟩ := h
      exact ⟨x, (slotCounts_iff live sl x _).2 ⟨found, inPhase⟩, estimate, limit⟩
    · cases h
  · rintro ⟨x, counts, estimate, limit⟩
    have live := counts.adapts.live
    obtain ⟨found, inPhase⟩ := (slotCounts_iff live sl x _).1 counts
    refine ⟨live, ?_⟩
    unfold trackingBegins
    rw [found]
    simp only [Bool.and_eq_true, decide_eq_true_eq, and_assoc]
    exact ⟨inPhase, estimate, limit⟩

/-- Settles O38: each row's condition, and its work where the condition holds. -/
theorem counterRows : Obligations.CounterRows := by
  unfold Obligations.CounterRows
  refine fun s h => ⟨fun b => ?_, fun b => ?_, fun sl => ?_⟩
  · exact upInBlock_cases (g := floorDue b) (f := raiseFloor b) h (and_congr_right' (floorDue_iff b s).symm)
      fun ⟨_, _, _, mic, limit⟩ => raiseFloor_due mic limit
  · exact upInBlock_cases (g := hangoverEnds b) (f := endHangover b) h
      (and_congr_right' (hangoverEnds_iff b s).symm) fun ⟨_, _, _, _, one⟩ => by
        unfold endHangover
        dsimp only
        rw [flagGiven_of_not_both one]
        rfl
  · obtain ⟨warms, keepsWarm⟩ := upInBlock_cases (g := warmupEnds sl) (f := enterPhase .converging sl) h
      (warmupEnds_iff sl s).symm fun _ => rfl
    obtain ⟨tracks, keepsPhase⟩ := upInBlock_cases (g := trackingBegins sl) (f := enterPhase .tracking sl) h
      (trackingBegins_iff sl s).symm fun _ => rfl
    exact ⟨warms, keepsWarm, tracks, keepsPhase⟩

/-! ### The degrade time (R95 to R97) -/

theorem degradeEnds_iff (limit : Nat) (b : BeamId) (s : State) : degradeEnds limit b s = true ↔
    s.blk.work[b].talk = .far ∧ s.ctl.beams[b].degraded = false ∧
      s.blk.work[b].erle < (s.blk.thresholds[b.val].toNat : Int) ∧ limit ≤ s.ctl.beams[b].degCtr + 1 := by
  simp [degradeEnds, and_assoc]

theorem degradeTime_some {code : Nat} (h : code ≠ 0) :
    degradeTime code = some (if code ≤ 15 then 250 else code * 16) := by
  unfold degradeTime
  rw [if_neg h]
  split <;> rfl

theorem countDegrade_reaches {limit ctr threshold : Nat} {erle : Int} {flag : Bool}
    (low : erle < (threshold : Int)) (reaches : limit ≤ ctr + 1) :
    (countDegrade limit erle threshold ctr flag).1 = max limit ctr := by
  unfold countDegrade
  rw [if_pos low]
  dsimp only
  rw [if_pos reaches, Nat.min_eq_left reaches]

/-- What the flagging of a beam writes. -/
theorem endDegrade_spec {limit : Nat} {b : BeamId} {s : State}
    (low : s.blk.work[b].erle < (s.blk.thresholds[b.val].toNat : Int))
    (reaches : limit ≤ s.ctl.beams[b].degCtr + 1) :
    let t := endDegrade limit b s
    let c := s.ctl.beams[b]
    t.ctl.beams = (if degradeCode s.cmd.tuning = 0 then s.ctl.beams
        else s.ctl.beams.set b { c with degCtr := max limit c.degCtr, degraded := true }) ∧
      t.ev.degraded = s.ev.degraded ||| BitVec.ofNat 16 (2 ^ b.val) ∧
      t.ev.status = s.ev.status ||| 32 ∧
      t = { s with
        ctl := { s.ctl with beams := t.ctl.beams }
        cmd := { s.cmd with replies := t.cmd.replies }
        ev := { s.ev with status := t.ev.status, degraded := t.ev.degraded } } := by
  unfold endDegrade reportDegraded
  dsimp only
  rw [countDegrade_reaches low reaches]
  split
  · rw [reportSource_eq]; exact ⟨rfl, rfl, rfl, rfl⟩
  · rw [reportSource_eq]; exact ⟨rfl, rfl, rfl, rfl⟩

/-- Settles O41: the row acts with a degrade time in force, where its condition holds. -/
theorem degradeTimeExpiry : Obligations.DegradeTimeExpiry := by
  unfold Obligations.DegradeTimeExpiry
  intro b s h
  dsimp only
  by_cases code : degradeCode s.blk.tuning = 0
  · refine ⟨fun due => absurd code due.2.1, fun _ => ?_⟩
    have idle : whileLive (advanceDegrade b) s = s := by
      unfold whileLive advanceDegrade degradeTime
      rw [if_pos code]
      exact ite_self s
    exact (upAtBoundary_at (whileLive (advanceDegrade b)) h).trans (congrArg _ idle)
  · have row : exec (.degradeTimeExpiry b) s = upInBlock (whenDue
        (degradeEnds (if degradeCode s.blk.tuning ≤ 15 then 250 else degradeCode s.blk.tuning * 16) b)
        (endDegrade (if degradeCode s.blk.tuning ≤ 15 then 250 else degradeCode s.blk.tuning * 16) b)) s := by
      have work : whileLive (advanceDegrade b) s = whileLive (whenDue
          (degradeEnds (if degradeCode s.blk.tuning ≤ 15 then 250 else degradeCode s.blk.tuning * 16) b)
          (endDegrade (if degradeCode s.blk.tuning ≤ 15 then 250 else degradeCode s.blk.tuning * 16) b)) s := by
        unfold whileLive advanceDegrade
        rw [degradeTime_some code]
        rfl
      exact (upAtBoundary_at (whileLive (advanceDegrade b)) h).trans
        ((congrArg _ work).trans (upAtBoundary_at _ h).symm)
    obtain ⟨acts, idles⟩ := upInBlock_cases (f := endDegrade _ b) h
      (and_congr_right' (degradeEnds_iff _ b s).symm) (fun _ => rfl)
    rw [row]
    refine ⟨fun ⟨live, _, due⟩ => ⟨_, acts ⟨live, due⟩, ?_⟩, fun none => idles fun ⟨live, due⟩ => none ⟨live, code, due⟩⟩
    exact endDegrade_spec due.2.2.1 due.2.2.2

end Sys2Proof.Machine
end

