-- ==== Sys2Proof/Proofs/ColdResets.lean ====
section
/-! PROOF. The cold resets of a divergence reset, each slot once (O40). -/

namespace Sys2Proof.Machine

/-! ### One cold reset (R69, R94) -/

/-- What cold resets move: the Core, the slots' records, the fill queue and the boundary's notes on its slots. -/
def ResetFrame (s t : State) : Prop :=
  t = { s with
    core := { s.core with mem := t.core.mem, slots := t.core.slots }
    ctl := { s.ctl with slots := t.ctl.slots }
    store := { s.store with fills := t.store.fills }
    blk := { s.blk with
      phaseSet := t.blk.phaseSet, runSet := t.blk.runSet, resets := t.blk.resets, cold := t.blk.cold } }

theorem ResetFrame.refl (s : State) : ResetFrame s s := rfl

theorem ResetFrame.trans {s t u : State} (h : ResetFrame s t) (k : ResetFrame t u) : ResetFrame s u := by
  unfold ResetFrame at *
  rw [k, h]

theorem ResetFrame.tailLen {s t : State} (h : ResetFrame s t) : tailLen t = tailLen s := by
  rw [h]; rfl

theorem ResetFrame.lookupHit {s t : State} (h : ResetFrame s t) (p : SetId) (tag : Nat) :
    lookupHit t p tag = lookupHit s p tag := by
  rw [h]; rfl

/-- The request of a cold reset's lookup. -/
def resetRequest (s : State) (tag : Nat) (sl : SlotId) (p : PairId) : List FillReq :=
  if lookupHit s p tag then [⟨sl, s.core.slots[sl].ticket + 1, p, tag, s.blk.count⟩] else []

/-- A cold reset of a slot that has had none at this boundary. -/
structure SlotReset (s t : State) (sl : SlotId) (p : PairId) : Prop where
  frame : ResetFrame s t
  made : MadeCold s t sl
  kept : ∀ o : SlotId, o ≠ sl → SlotKept s t o
  fills : t.store.fills = s.store.fills.filter (·.slot ≠ sl) ++
    resetRequest s s.router.beams[pairBeam p].tag sl p
  resets : t.blk.resets = sl :: s.blk.resets

/-- The slot made cold and marked, before its lookup. -/
theorem resetCold_frame (sl : SlotId) (s : State) : ResetFrame s (markReset sl (coldSlot sl s)) := by
  have zero : ResetFrame s (zeroSlot sl s) := rfl
  have raised : ∀ t, ResetFrame t (raiseTicket sl t) := fun _ => rfl
  have slot : ∀ x t, ResetFrame t (setCoreSlot sl x t) := fun _ _ => rfl
  have phase : ∀ t, ResetFrame t (setPhaseRun sl .warmup t) := fun _ => rfl
  have cold : ∀ t, ResetFrame t (markCold sl t) := fun _ => rfl
  have reset : ∀ t, ResetFrame t (markReset sl t) := fun _ => rfl
  exact ((((zero.trans (raised _)).trans (slot _ _)).trans (phase _)).trans (cold _)).trans (reset _)

theorem setFills_resetFrame (q : List FillReq) (s : State) : ResetFrame s (setFills q s) := rfl

theorem markReset_kept (sl o : SlotId) (s : State) : SlotKept s (markReset sl s) o := ⟨fun _ _ _ => rfl, rfl, rfl⟩

/-- A slot made cold and marked, with its lookup. -/
theorem lookup_reset {s u : State} {sl : SlotId} (cold : ResetFrame s u) (made : MadeCold s u sl)
    (kept : ∀ o : SlotId, o ≠ sl → SlotKept s u o) (fills : u.store.fills = s.store.fills.filter (·.slot ≠ sl))
    (resets : u.blk.resets = sl :: s.blk.resets) (p : PairId) :
    SlotReset s (lookup sl p (beamTag (pairBeam p) u) u) sl p := by
  have tag : beamTag (pairBeam p) u = s.router.beams[pairBeam p].tag := by
    unfold beamTag; rw [cold]
  have count : u.blk.count = s.blk.count := by rw [cold]
  rw [tag]
  obtain ⟨looked, queue⟩ := lookup_spec sl p s.router.beams[pairBeam p].tag u
  constructor
  · rw [looked]; exact cold.trans (setFills_resetFrame _ u)
  · exact made.kept (lookup_kept sl sl p _ u) cold.tailLen
  · exact fun o h => (kept o h).trans (lookup_kept sl o p _ u) cold.tailLen
  · rw [queue, fills, cold.lookupHit, made.ticket, count, resetRequest]
    split
    · rw [List.filter_filter]; simp
    · rw [List.append_nil]
  · rw [looked]; exact resets

theorem raiseTicket_resets (sl : SlotId) (s : State) : (raiseTicket sl s).blk.resets = s.blk.resets := rfl

theorem zeroSlot_resets (sl : SlotId) (s : State) : (zeroSlot sl s).blk.resets = s.blk.resets := rfl

theorem coldSlot_resets (sl : SlotId) (s : State) : (coldSlot sl s).blk.resets = s.blk.resets := by
  unfold coldSlot
  simp [markCold, setPhaseRun, raiseTicket_resets, zeroSlot_resets]

theorem resetSlot_reset {s : State} {sl : SlotId} (first : sl ∉ s.blk.resets) (p : PairId) :
    SlotReset s (resetSlot sl p s) sl p := by
  have frame := resetCold_frame sl s
  have made := coldSlot_made sl s
  have kept := fun (o : SlotId) (h : o ≠ sl) => coldSlot_kept h s
  have fills := coldSlot_fills sl s
  have resets := coldSlot_resets sl s
  unfold resetSlot
  rw [if_neg (by simpa using first)]
  generalize coldSlot sl s = u at *
  exact lookup_reset frame (made.kept (markReset_kept sl sl u) frame.tailLen)
    (fun o h => (kept o h).trans (markReset_kept sl o u) frame.tailLen) fills (congrArg (sl :: ·) resets) p

/-! ### The cold resets of a beam's slots (R93, R94) -/

/-- The pair of a slot that a divergence reset of the beam reaches. -/
def servedSlot (b : BeamId) (s : State) (sl : SlotId) : Option PairId :=
  match s.alloc.slots[sl] with
  | .running p => if pairBeam p = b ∧ sl ∉ s.blk.resets then some p else none
  | .free => none
  | .draining _ _ _ => none

/-- One slot's turn in a divergence reset. -/
def beamResetStep (b : BeamId) (s : State) (sl : SlotId) : State :=
  match s.alloc.slots[sl] with
  | .running p => if pairBeam p == b then resetSlot sl p s else s
  | .free => s
  | .draining _ _ _ => s

theorem servedSlot_some {b : BeamId} {s : State} {sl : SlotId} {p : PairId} (h : servedSlot b s sl = some p) :
    s.alloc.slots[sl] = .running p ∧ pairBeam p = b ∧ sl ∉ s.blk.resets := by
  unfold servedSlot at h
  split at h
  · next q running =>
    split at h
    · next served =>
      cases h
      exact ⟨running, served⟩
    · cases h
  · cases h
  · cases h

theorem servedSlot_of {b : BeamId} {s : State} {sl : SlotId} {p : PairId} (running : s.alloc.slots[sl] = .running p)
    (beam : pairBeam p = b) (first : sl ∉ s.blk.resets) : servedSlot b s sl = some p := by
  unfold servedSlot
  rw [running]
  exact if_pos ⟨beam, first⟩

theorem beamResetStep_served {b : BeamId} {s : State} {sl : SlotId} {p : PairId}
    (h : servedSlot b s sl = some p) : SlotReset s (beamResetStep b s sl) sl p := by
  obtain ⟨running, beam, first⟩ := servedSlot_some h
  have e : beamResetStep b s sl = resetSlot sl p s := by
    unfold beamResetStep
    rw [running]
    exact if_pos (beq_iff_eq.2 beam)
  rw [e]
  exact resetSlot_reset first p

theorem beamResetStep_unserved {b : BeamId} {s : State} {sl : SlotId} (h : servedSlot b s sl = none) :
    beamResetStep b s sl = s := by
  unfold beamResetStep
  split
  · next p running =>
    split
    · next beam =>
      unfold resetSlot
      rw [if_pos]
      by_contra first
      rw [servedSlot_of running (beq_iff_eq.1 beam) (by simpa using first)] at h
      cases h
    · rfl
  · rfl
  · rfl

/-- The other slots stand for the beam's reset as before. -/
theorem servedSlot_frame {b : BeamId} {s t : State} (h : ResetFrame s t) {sl o : SlotId}
    (resets : t.blk.resets = sl :: s.blk.resets) (apart : o ≠ sl) : servedSlot b t o = servedSlot b s o := by
  have alloc : t.alloc = s.alloc := by rw [h]
  unfold servedSlot
  rw [alloc, resets]
  simp only [List.mem_cons, apart, false_or]

/-- The requests of the lookups of a beam's reset, in the order of its slots. -/
def beamRequests (b : BeamId) (s : State) (l : List SlotId) : List FillReq :=
  l.flatMap fun sl => (servedSlot b s sl).elim [] (resetRequest s s.router.beams[b].tag sl)

/-- A divergence reset's work on some slots: those it reaches are made cold, and their requests replace the ones in
the fill queue. -/
structure SlotsReset (b : BeamId) (s t : State) (l : List SlotId) : Prop where
  frame : ResetFrame s t
  made : ∀ sl ∈ l, ∀ p, servedSlot b s sl = some p → MadeCold s t sl
  kept : ∀ sl, sl ∉ l ∨ servedSlot b s sl = none → SlotKept s t sl
  fills : t.store.fills =
    s.store.fills.filter (fun r => decide (r.slot ∉ l) || (servedSlot b s r.slot).isNone) ++ beamRequests b s l

theorem beamReset_spec (b : BeamId) (l : List SlotId) (nodup : l.Nodup) (s : State) :
    SlotsReset b s (l.foldl (beamResetStep b) s) l := by
  induction l generalizing s with
  | nil => exact ⟨.refl s, by simp, fun sl _ => .refl s sl, by simp [beamRequests]⟩
  | cons sl l ih =>
    obtain ⟨fresh, nodup⟩ := List.nodup_cons.1 nodup
    rw [List.foldl_cons]
    cases served : servedSlot b s sl with
    | none =>
      rw [beamResetStep_unserved served]
      have rest := ih nodup s
      refine ⟨rest.frame, fun o ho p h => ?_, fun o h => rest.kept o ?_, ?_⟩
      · rcases List.mem_cons.1 ho with rfl | ho
        · rw [served] at h; cases h
        · exact rest.made o ho p h
      · exact h.imp_left fun n k => n (List.mem_cons_of_mem _ k)
      · rw [rest.fills, beamRequests, beamRequests, List.flatMap_cons, served]
        congr 1
        refine List.filter_congr fun r _ => ?_
        by_cases same : r.slot = sl
        · simp [same, served]
        · simp [same]
    | some p =>
      have one := beamResetStep_served served
      have tag : s.router.beams[pairBeam p].tag = s.router.beams[b].tag :=
        congrArg (fun o : BeamId => s.router.beams[o].tag) (servedSlot_some served).2.1
      generalize beamResetStep b s sl = u at one
      have rest := ih nodup u
      have same : ∀ o, o ≠ sl → servedSlot b u o = servedSlot b s o := fun o h =>
        servedSlot_frame one.frame one.resets h
      have done : servedSlot b u sl = none := by
        cases h : servedSlot b u sl with
        | none => rfl
        | some q =>
          have := (servedSlot_some h).2.2
          rw [one.resets] at this
          exact absurd List.mem_cons_self this
      have requests : beamRequests b u l = beamRequests b s l := by
        unfold beamRequests
        refine List.flatMap_congr fun o ho => ?_
        have apart : o ≠ sl := fun e => fresh (e ▸ ho)
        have tag : u.router = s.router := by rw [one.frame]
        have count : u.blk.count = s.blk.count := by rw [one.frame]
        rw [same o apart, tag]
        unfold resetRequest
        simp only [one.frame.lookupHit, (one.kept o apart).numeric, count]
      refine ⟨one.frame.trans rest.frame, fun o ho q h => ?_, fun o h => ?_, ?_⟩
      · rcases List.mem_cons.1 ho with rfl | ho
        · exact one.made.kept (rest.kept o (.inr done)) one.frame.tailLen
        · have apart : o ≠ sl := fun e => fresh (e ▸ ho)
          have made := rest.made o ho q ((same o apart).trans h)
          have before := one.kept o apart
          exact ⟨fun j k hk => one.frame.tailLen ▸ made.taps j k (one.frame.tailLen ▸ hk),
            made.ticket.trans (by rw [before.numeric]), made.origin, made.record⟩
      · have apart : o ≠ sl := by
          rintro rfl
          rcases h with h | h
          · exact h List.mem_cons_self
          · rw [served] at h; cases h
        refine (one.kept o apart).trans (rest.kept o ?_) one.frame.tailLen
        exact h.imp (fun n k => n (List.mem_cons_of_mem _ k)) ((same o apart).trans ·)
      · rw [rest.fills, one.fills, requests, List.filter_append, List.filter_filter, beamRequests, beamRequests,
          List.flatMap_cons, served, tag, Option.elim_some, ← List.append_assoc]
        congr 1
        congr 1
        · refine List.filter_congr fun r _ => ?_
          by_cases at_sl : r.slot = sl
          · simp [at_sl, served]
          · simp [at_sl, same]
        · refine List.filter_eq_self.2 fun r hr => ?_
          have at_sl : r.slot = sl := by
            unfold resetRequest at hr
            split at hr
            · rw [List.mem_singleton.1 hr]
            · cases hr
          simp [at_sl, done]

/-! ### The divergence reset (O40) -/

theorem divergenceEnds_iff (b : BeamId) (s : State) : divergenceEnds b s = true ↔
    s.blk.work[b].talk = .far ∧ s.blk.work[b].frozen = false ∧ b ∉ s.blk.diverged ∧
      s.blk.work[b].mic + divMargin s.blk.tuning < s.blk.work[b].res ∧
      divLimit s.blk.tuning ≤ s.ctl.beams[b].divCtr + 1 := by
  simp [divergenceEnds, divergenceCounted, and_assoc]

/-- The report of a divergence, after its resets. -/
theorem divergeBeam_eq (b : BeamId) (s : State) : divergeBeam b s = { s with
    ctl := { s.ctl with beams := s.ctl.beams.set b { s.ctl.beams[b] with
      erle := 0, divCtr := 0, divCount := min 255 (s.ctl.beams[b].divCount + 1) } }
    cmd := { s.cmd with replies := (divergeBeam b s).cmd.replies }
    ev := { s.ev with
      status := s.ev.status ||| 4, diverged := s.ev.diverged ||| BitVec.ofNat 16 (2 ^ b.val) }
    blk := { s.blk with diverged := b :: s.blk.diverged } } := by
  unfold divergeBeam reportDiverged
  rw [reportSource_eq]
  rfl

theorem resetSlots_beam (b : BeamId) (s : State) :
    resetSlots (fun _ p => pairBeam p == b) s = allSlots.foldl (beamResetStep b) s := rfl

theorem beamRequests_eq (b : BeamId) (s : State) (l : List SlotId) : beamRequests b s l =
    l.filterMap fun sl => (servedSlot b s sl).bind fun p =>
      if lookupHit s p s.router.beams[b].tag then
        some ⟨sl, s.core.slots[sl].ticket + 1, p, s.router.beams[b].tag, s.blk.count⟩
      else none := by
  induction l with
  | nil => rfl
  | cons sl l ih =>
    rw [beamRequests, List.flatMap_cons, ← beamRequests, ih, List.filterMap_cons]
    cases servedSlot b s sl with
    | none => rfl
    | some p =>
      rw [Option.elim_some, Option.bind_some, resetRequest]
      split <;> rfl

/-- What a divergence reset writes. -/
theorem divergenceBeam_spec (b : BeamId) (s : State) :
    let t := divergenceBeam b s
    let c := s.ctl.beams[b]
    (∀ (sl : SlotId) (p : PairId), s.alloc.slots[sl] = .running p → pairBeam p = b →
        sl ∉ s.blk.resets → MadeCold s t sl) ∧
      (∀ sl : SlotId, (∀ p, s.alloc.slots[sl] = .running p → pairBeam p ≠ b) ∨ sl ∈ s.blk.resets →
        SlotKept s t sl) ∧
      t.store.fills = s.store.fills.filter (fun r => (servedSlot b s r.slot).isNone) ++
        beamRequests b s allSlots ∧
      t.ctl.beams = s.ctl.beams.set b { c with
        erle := 0, divCtr := 0, divCount := min 255 (c.divCount + 1) } ∧
      t.ev.diverged = s.ev.diverged ||| BitVec.ofNat 16 (2 ^ b.val) ∧
      t.ev.status = s.ev.status ||| 4 ∧
      t = { s with
        core := { s.core with mem := t.core.mem, slots := t.core.slots }
        ctl := { s.ctl with beams := t.ctl.beams, slots := t.ctl.slots }
        store := { s.store with fills := t.store.fills }
        cmd := { s.cmd with replies := t.cmd.replies }
        ev := { s.ev with status := t.ev.status, diverged := t.ev.diverged }
        blk := { s.blk with
          phaseSet := t.blk.phaseSet, runSet := t.blk.runSet, resets := t.blk.resets
          cold := t.blk.cold
          diverged := b :: s.blk.diverged } } := by
  have all : ∀ sl : SlotId, sl ∈ allSlots := fun sl => List.mem_finRange sl
  obtain ⟨frame, made, kept, fills⟩ := beamReset_spec b allSlots (List.nodup_finRange 128) s
  unfold divergenceBeam
  rw [resetSlots_beam]
  generalize allSlots.foldl (beamResetStep b) s = u at *
  have told := divergeBeam_eq b u
  generalize divergeBeam b u = t at *
  have reported : ∀ sl, SlotKept u t sl := fun sl =>
    ⟨fun _ _ _ => by rw [told], by rw [told], by rw [told]⟩
  refine ⟨fun sl p running beam first => ?_, fun sl h => ?_, ?_, ?_, ?_, ?_, ?_⟩
  · exact (made sl (all sl) p (servedSlot_of running beam first)).kept (reported sl) frame.tailLen
  · refine (kept sl (.inr ?_)).trans (reported sl) frame.tailLen
    cases served : servedSlot b s sl with
    | none => rfl
    | some p =>
      obtain ⟨running, beam, first⟩ := servedSlot_some served
      exact absurd h (not_or.2 ⟨fun k => k p running beam, first⟩)
  · rw [told]
    dsimp only
    rw [fills]
    simp [all]
  · rw [told, frame]
  · rw [told, frame]
  · rw [told, frame]
  · rw [told, frame]

/-- Settles O40: the resets of the beam's slots, each once, and then the report; the beam's note keeps the row from
acting again at the boundary. -/
theorem divergenceReset : Obligations.DivergenceReset := by
  unfold Obligations.DivergenceReset
  intro b s h c tag w due served
  have served_eq : served = servedSlot b s := by funext sl; rfl
  have cond : due ↔ s.blk.live = true ∧ divergenceEnds b s = true := and_congr_right' (divergenceEnds_iff b s).symm
  clear_value served
  subst served_eq
  obtain ⟨acts, idles⟩ := upInBlock_cases (f := divergenceBeam b) h cond (fun _ => rfl)
  refine ⟨fun k => ⟨divergenceBeam b s, acts k, ?_⟩, idles⟩
  obtain ⟨made, kept, fills, beams, diverged, status, frame⟩ := divergenceBeam_spec b s
  refine ⟨made, kept, ?_, beams, diverged, status, frame, ?_⟩
  · rw [fills, beamRequests_eq]
    congr 2
    funext sl
    cases servedSlot b s sl <;> rfl
  · have at_t : AtBoundary (divergenceBeam b s) := by
      have same := (divergenceBeam_frame b s).event
      exact ⟨same.resetn.trans h.resetn, by rw [same.ports, same.count]; exact h.frame⟩
    refine upInBlock_notDue (f := divergenceBeam b) at_t fun ⟨_, again⟩ => ?_
    obtain ⟨-, -, first, -⟩ := (divergenceEnds_iff b _).1 again
    rw [frame] at first
    exact first List.mem_cons_self

end Sys2Proof.Machine
end

