-- ==== Sys2Proof/Proofs/OutboundFrames.lean ====
section
/-! PROOF. The outbound frames of both links, field by field (O32). -/

namespace Sys2Proof.Machine

/-! ### The fields of a frame of the part -/

/-- The fields of an outbound frame's control field, at the bit period that its slots leave (R191). -/
theorem outbound_control {slots : List Sample} {c : Nat} (count : 8 + 24 * slots.length = c) (fits : slots.length ≤ 20)
    (data : Option Byte) (ho ep : Bool) :
    let bits := outboundBits slots data ho ep
    frameField bits 0 8 = 0x9D ∧ frameField bits c 1 = (if data.isSome then 1 else 0) ∧
      frameField bits (c + 1) 1 = (if ho then 1 else 0) ∧ frameField bits (c + 2) 1 = (if ep then 1 else 0) ∧
      frameField bits (c + 3) 1 = 0 ∧ frameField bits (c + 4) 8 = data.getD 0 ∧
      frameField bits (c + 12) (500 - c) = 0 := by
  subst count
  obtain ⟨marker, -, rest⟩ := frameFields slots data ho ep fits
  exact ⟨marker, rest⟩

/-- A frame that brings no byte and no condition is zero from its control field on. -/
theorem outbound_silent {slots : List Sample} {c : Nat} (count : 8 + 24 * slots.length = c)
    (fits : slots.length ≤ 20) : frameField (outboundBits slots none false false) c (512 - c) = 0 := by
  have width : fieldsWidth ((8, marker.toNat) :: slotFields slots) = c := by
    rw [fieldsWidth_cons, slotFields_width]; exact count
  have same : outboundBits slots none false false = packFrame ((8, marker.toNat) :: slotFields slots) := by
    apply BitVec.eq_of_toNat_eq
    have whole := outboundFields_width slots none false false
    have tail : fieldsValue (outboundFields slots none false false) =
        fieldsValue ((8, marker.toNat) :: slotFields slots) * 2 ^ 12 := by
      have width12 : fieldsWidth (controlFields none false false) = 12 := rfl
      have zero : fieldsValue (controlFields none false false) = 0 := rfl
      rw [outboundFields, fieldsValue_append, width12, zero, Nat.add_zero]
    have packed := packFrame_toNat (fields := outboundFields slots none false false) (by omega)
    rw [packFrame_toNat (by omega), width]
    refine packed.trans ?_
    rw [tail, Nat.mul_assoc, ← Nat.pow_add, whole]
    congr 2
    omega
  rw [same]
  have rest := frameField_rest (fields := (8, marker.toNat) :: slotFields slots) (w := 512 - c) (by omega) (by omega)
  rw [width] at rest
  exact rest

/-! ### The slots (R9, R156, R157, R159) -/

/-- A slot of an Array Link frame is its speaker feed. -/
theorem arrayFrame_slot (s : State) (f : Nat) (r : RefId) : frameSlot (arrayFrame s f) r.val = speakerSlot s f r := by
  unfold arrayFrame
  rw [frameSlot_outbound _ _ _ (by simp [allRefs]) (by simp [allRefs])]
  simp [allRefs]

/-- The slots of a Codec Link frame. -/
def codecSlots (s : State) (f : Nat) : List Sample :=
  allBeams.map (cleanedSlot s f) ++ (List.finRange 2).map (monitorSlot s f)

theorem codecSlots_length (s : State) (f : Nat) : (codecSlots s f).length = 18 := by
  simp [codecSlots, allBeams]

/-- The first sixteen slots of a Codec Link frame are the cleaned beams. -/
theorem codecFrame_slot (s : State) (f : Nat) (b : BeamId) : frameSlot (codecFrame s f) b.val = cleanedSlot s f b := by
  have len := codecSlots_length s f
  have slot := frameSlot_outbound (slots := codecSlots s f) (transmitByte s) s.cmd.hold (eventPending s.ev)
    (by omega) (k := b.val) (by omega)
  refine slot.trans ?_
  unfold codecSlots
  rw [List.getElem_append_left (by simp [allBeams])]
  simp [allBeams]

/-- The last two are the monitors. -/
theorem codecFrame_monitor (s : State) (f : Nat) (k : Fin 2) :
    frameSlot (codecFrame s f) (16 + k.val) = monitorSlot s f k := by
  have len := codecSlots_length s f
  have slot := frameSlot_outbound (slots := codecSlots s f) (transmitByte s) s.cmd.hold (eventPending s.ev)
    (by omega) (k := 16 + k.val) (by omega)
  refine slot.trans ?_
  unfold codecSlots
  rw [List.getElem_append_right (by simp [allBeams])]
  simp [allBeams]

/-- The speaker feed of frame f − 2, by the frames received since (R9). -/
theorem speakerSlot_eq {s : State} {f back : Nat} {xs : Vector Sample 8} (late : 2 ≤ f)
    (received : s.ports.frames.inCodec = f - 1 + back) (line : s.play.speaker[back]? = some xs) (r : RefId) :
    speakerSlot s f r = xs[r] := by
  unfold speakerSlot
  have index : s.ports.frames.inCodec - 1 - (f - 2) = back := by omega
  rw [if_neg (by omega), if_pos (by omega), index, line]

/-- The outputs that stand for the frames of a block (R42, R156). -/
def Stands (s : State) (f : Nat) (o : OutBlock) : Prop :=
  (s.out.current.index = f / 48 ∧ o = s.out.current) ∨
    (s.out.current.index ≠ f / 48 ∧ s.out.earlier.index = f / 48 ∧ o = s.out.earlier)

theorem outBlockAt_stands {s : State} {f : Nat} {o : OutBlock} (h : Stands s f o) : outBlockAt s f = o := by
  unfold outBlockAt
  rcases h with ⟨current, rfl⟩ | ⟨not, earlier, rfl⟩
  · rw [if_pos current]
  · rw [if_neg not, if_pos earlier]

theorem outBlockAt_none {s : State} {f : Nat} (current : s.out.current.index ≠ f / 48)
    (earlier : s.out.earlier.index ≠ f / 48) : outBlockAt s f = OutBlock.silent 0 := by
  unfold outBlockAt
  rw [if_neg current, if_neg earlier]

theorem cleanedSlot_seeking {s : State} (h : s.ports.arrayRx.lock = .seeking) (f : Nat) (b : BeamId) :
    cleanedSlot s f b = 0 := by
  unfold cleanedSlot; rw [h]

theorem cleanedSlot_none {s : State} {f : Nat} (h : outBlockAt s f = OutBlock.silent 0) (b : BeamId) :
    cleanedSlot s f b = 0 := by
  unfold cleanedSlot
  rw [h]
  cases s.ports.arrayRx.lock <;> simp [OutBlock.silent]

theorem cleanedSlot_locked {s : State} {f : Nat} {o : OutBlock} (locked : s.ports.arrayRx.lock = .locked)
    (h : outBlockAt s f = o) (b : BeamId) : cleanedSlot s f b = match o.sources[b] with
      | .zero => 0
      | .bypass => bypassSample s b f
      | .synthesis => o.samples[b].getD (f % 48) 0 := by
  unfold cleanedSlot
  rw [locked, h] <;> rfl

/-- The bypass sample of a frame that the Array Link has answered: the inbound one of 192 frames before (R156). -/
theorem bypassSample_eq {s : State} {f : Nat} (answered : f < s.ports.frames.inArray) (b : BeamId) :
    bypassSample s b f = if f < 192 then 0 else s.out.bypass[b].getD (s.ports.frames.inArray + 191 - f) 0 := by
  unfold bypassSample lineAt
  split
  · rfl
  · have index : s.ports.frames.inArray - 1 - (f - 192) = s.ports.frames.inArray + 191 - f := by omega
    rw [if_pos (by omega), index]

theorem monitorSlot_none {s : State} {f : Nat} (h : outBlockAt s f = OutBlock.silent 0) (k : Fin 2) :
    monitorSlot s f k = 0 := by
  unfold monitorSlot
  rw [h]
  simp [OutBlock.silent]

/-! ### The start of a frame leaves the outputs -/

theorem startFrame_out (f : Nat) (heldNow : Bool) (s : State) : (startFrame f heldNow s).out = s.out ∧
    (startFrame f heldNow s).play = s.play := by
  have k := startFrame_transmit f heldNow s
  exact ⟨by rw [k.rest], by rw [k.rest]⟩

/-- The counts of inbound frames and the receivers at the start of a frame. -/
theorem startFrame_inbound (f : Nat) (heldNow : Bool) (s : State) :
    (startFrame f heldNow s).ports.frames.inArray = s.ports.frames.inArray ∧
      (startFrame f heldNow s).ports.frames.inCodec = s.ports.frames.inCodec ∧
      (startFrame f heldNow s).ports.arrayRx = s.ports.arrayRx := by
  obtain ⟨frames, -, ports⟩ := startFrame_counts f heldNow s
  exact ⟨by rw [frames], by rw [frames], by rw [ports]⟩

theorem advanceTransmit_eq (t : Option TxRecord) : advanceTransmit t = match t with
    | none => none
    | some x => if x.pos + 1 < x.msg.payload.length + 3 then some ⟨x.msg, x.pos + 1⟩ else none := by
  cases t with
  | none => rfl
  | some x =>
    have len : (msgBytes x.msg).length = x.msg.payload.length + 3 := by simp [msgBytes]
    unfold advanceTransmit
    dsimp only
    rw [len]

/-! ### The rows -/

theorem outboundFrame_due {link : Link} {heldNow : Bool} {s : State} (up : s.resetn = true)
    (due : OutboundDue link s) : exec (.outboundFrame link heldNow) s =
      .next (outbound link heldNow (beforeOutbound link s)) := by
  change Machine.up (outboundNext link heldNow) s = _
  rw [up_released _ up, outboundNext, if_pos ((outboundDue_iff link s).2 due)]

theorem outboundFrame_early {link : Link} {heldNow : Bool} {s : State} (up : s.resetn = true)
    (early : ¬ OutboundDue link s) : exec (.outboundFrame link heldNow) s = .next s := by
  change Machine.up (outboundNext link heldNow) s = _
  rw [up_released _ up, outboundNext, if_neg fun k => early ((outboundDue_iff link s).1 k)]

/-- The slots of an Array Link frame (R9). -/
theorem arrayFrame_spec (s : State) (f : Nat) :
    frameField (arrayFrame s f) 0 8 = 0x9D ∧
      (∀ r : RefId, (f < 2 → frameSlot (arrayFrame s f) r.val = 0) ∧
        ∀ (back : Nat) (xs : Vector Sample 8), 2 ≤ f → s.ports.frames.inCodec = f - 1 + back →
          s.play.speaker[back]? = some xs → frameSlot (arrayFrame s f) r.val = xs[r]) ∧
      frameField (arrayFrame s f) 200 312 = 0 := by
  have len : (allRefs.map (speakerSlot s f)).length = 8 := by simp [allRefs]
  refine ⟨(outbound_control rfl (by omega) none false false).1, fun r => ⟨fun early => ?_,
    fun back xs late received line => ?_⟩, outbound_silent (c := 200) (by omega) (by omega)⟩
  · rw [arrayFrame_slot, speakerSlot, if_pos early]
  · rw [arrayFrame_slot, speakerSlot_eq late received line]

/-- A monitor's slot by the outputs that stand (R159). -/
theorem monitorSlot_spec {s : State} {f : Nat} (k : Fin 2) :
    (s.out.current.index ≠ f / 48 → s.out.earlier.index ≠ f / 48 → frameSlot (codecFrame s f) (16 + k.val) = 0) ∧
      ∀ o, Stands s f o →
        (∀ b : BeamId, o.repeats[k] = some b →
          frameSlot (codecFrame s f) (16 + k.val) = frameSlot (codecFrame s f) b.val) ∧
        (o.repeats[k] = none → frameSlot (codecFrame s f) (16 + k.val) = o.monitors[k].getD (f % 48) 0) := by
  rw [codecFrame_monitor]
  refine ⟨fun current earlier => monitorSlot_none (outBlockAt_none current earlier) k,
    fun o stands => ⟨fun b repeats => ?_, fun repeats => ?_⟩⟩
  · rw [monitorSlot, outBlockAt_stands stands, repeats, codecFrame_slot]
  · rw [monitorSlot, outBlockAt_stands stands, repeats]

/-- A cleaned-beam slot by the outputs that stand (R156, R157). -/
theorem cleanedSlot_spec {s : State} {f : Nat} (answered : f < s.ports.frames.inArray) (b : BeamId) :
    (s.ports.arrayRx.lock = .seeking → frameSlot (codecFrame s f) b.val = 0) ∧
      (s.out.current.index ≠ f / 48 → s.out.earlier.index ≠ f / 48 → frameSlot (codecFrame s f) b.val = 0) ∧
      ∀ o, s.ports.arrayRx.lock = .locked → Stands s f o → frameSlot (codecFrame s f) b.val =
        match o.sources[b] with
        | .zero => 0
        | .synthesis => o.samples[b].getD (f % 48) 0
        | .bypass => if f < 192 then 0 else s.out.bypass[b].getD (s.ports.frames.inArray + 191 - f) 0 := by
  rw [codecFrame_slot]
  refine ⟨fun seeks => cleanedSlot_seeking seeks f b,
    fun current earlier => cleanedSlot_none (outBlockAt_none current earlier) b, fun o locked stands => ?_⟩
  rw [cleanedSlot_locked locked (outBlockAt_stands stands), bypassSample_eq answered]
  cases o.sources[b] <;> rfl

/-- The control field of a Codec Link frame (R3, R4, R17). -/
theorem codecFrame_control (s : State) (f : Nat) :
    frameField (codecFrame s f) 0 8 = 0x9D ∧
      frameField (codecFrame s f) 440 1 = (if s.ports.transmit.isSome then 1 else 0) ∧
      frameField (codecFrame s f) 441 1 = (if s.cmd.hold then 1 else 0) ∧
      frameField (codecFrame s f) 442 1 = (if eventPending s.ev then 1 else 0) ∧
      frameField (codecFrame s f) 443 1 = 0 ∧ frameField (codecFrame s f) 452 60 = 0 ∧
      (s.ports.transmit = none → frameField (codecFrame s f) 444 8 = 0) ∧
      (∀ x, s.ports.transmit = some x →
        frameField (codecFrame s f) 444 8 = (msgBytes x.msg).getD x.pos 0) := by
  have len := codecSlots_length s f
  obtain ⟨marker, cv, ho, ep, reserved, data, rest⟩ := outbound_control (slots := codecSlots s f) (c := 440)
    (by omega) (by omega) (transmitByte s) s.cmd.hold (eventPending s.ev)
  have sends : (transmitByte s).isSome = s.ports.transmit.isSome := by
    unfold transmitByte; exact Option.isSome_map
  rw [sends] at cv
  refine ⟨marker, cv, ho, ep, reserved, rest, fun none => ?_, fun x some => ?_⟩
  · refine data.trans ?_
    rw [transmitByte, none]
    rfl
  · refine data.trans ?_
    rw [transmitByte, some]
    rfl

/-- Settles O32: the frames as the fields of their slots and control fields, at the state that sends them. -/
theorem outboundFrame : Obligations.OutboundFrame := by
  unfold Obligations.OutboundFrame
  refine fun heldNow s up => ⟨fun link early => outboundFrame_early up early, fun due => ?_, fun due => ?_⟩
  · refine ⟨_, outboundFrame_due up due, ?_⟩
    intro f u
    obtain ⟨-, inCodec, -⟩ := startFrame_inbound f heldNow s
    obtain ⟨-, play⟩ := startFrame_out f heldNow s
    obtain ⟨marker, slots, rest⟩ := arrayFrame_spec u f
    refine ⟨rfl, marker, fun r => ⟨(slots r).1, fun back xs late received line => ?_⟩, rest⟩
    exact (slots r).2 back xs late (inCodec.trans received) (by rw [play]; exact line)
  · obtain ⟨inArray, -, -⟩ := due.answers rfl
    have ended := endBoundary_end s
    refine ⟨_, outboundFrame_due up due, ?_⟩
    intro f v u slot stands
    have number : v.ports.frames.outCodec = f := by rw [ended.frames]
    have sent : outbound .codec heldNow (beforeOutbound .codec s) = { u with ports := { u.ports with
        cdo := codecFrame u f
        transmit := advanceTransmit u.ports.transmit
        frames := { u.ports.frames with outCodec := f + 1 } } } := by
      show outboundCodec heldNow v = _
      unfold outboundCodec
      rw [number]
    obtain ⟨inArray', -, rx⟩ := startFrame_inbound f heldNow v
    obtain ⟨out, -⟩ := startFrame_out f heldNow v
    have frames : u.ports.frames.inArray = s.ports.frames.inArray := inArray'.trans (by rw [ended.frames])
    have lock : u.ports.arrayRx = s.ports.arrayRx := rx.trans ended.arrayRx
    have cdo : (outbound .codec heldNow (beforeOutbound .codec s)).ports.cdo = codecFrame u f := by rw [sent]
    have answered : f < u.ports.frames.inArray := by rw [frames]; exact inArray
    have slots := fun b => cleanedSlot_spec answered b
    have monitors := fun k => monitorSlot_spec (s := u) (f := f) k
    unfold Stands at slots monitors
    obtain ⟨marker, control⟩ := codecFrame_control u f
    rw [out, lock, frames] at slots
    rw [out] at monitors
    dsimp only [slot]
    rw [cdo]
    refine ⟨?_, marker, slots, monitors, control⟩
    rw [sent, advanceTransmit_eq] <;> rfl

end Sys2Proof.Machine
end

