-- ==== Sys2Proof/Proofs/SoftReset.lean ====
section
/-! PROOF. An accepted SOFT RESET (O53). -/

namespace Sys2Proof.Machine

/-! ### The outputs of the block at hand (R44) -/

section Held

variable {s : State} {o : OutBlock} {b : BeamId}

/-- A slot of zero stays so. -/
theorem heldOutputs_zero (h : o.sources[b] = .zero) : (heldOutputs s o).sources[b] = .zero := by
  rw [Fin.getElem_fin] at h
  simp [heldOutputs, h]

/-- A slot of a synthesis bank keeps its samples. -/
theorem heldOutputs_synthesis (h : o.sources[b] = .synthesis) :
    (heldOutputs s o).sources[b] = .synthesis ∧ (heldOutputs s o).samples[b] = o.samples[b] := by
  rw [Fin.getElem_fin] at h
  constructor <;> simp [heldOutputs, h]

/-- A bypass slot has the samples of its block written out, which are those that the lines hold. -/
theorem heldOutputs_bypass (h : o.sources[b] = .bypass) {f : Nat} (block : o.index = f / 48) :
    (heldOutputs s o).sources[b] = .synthesis ∧
      (heldOutputs s o).samples[b].getD (f % 48) 0 = bypassSample s b f := by
  have frame : 48 * o.index + f % 48 = f := by omega
  have lt : f % 48 < 48 := Nat.mod_lt _ (by decide)
  rw [Fin.getElem_fin] at h
  constructor
  · simp [heldOutputs, h]
  · simp [heldOutputs, h, lt, frame]

end Held

/-- The part through a soft reset, as an outbound frame of the block at hand finds it. -/
structure HoldsOutputs (s t : State) (count : Nat) : Prop where
  lock : t.ports.arrayRx = s.ports.arrayRx
  newest : s.out.current.index = count
  current : t.out.current.index = count
  earlier : t.out.earlier = heldOutputs s s.out.earlier

theorem HoldsOutputs.earlierIndex {s t : State} {count : Nat} (h : HoldsOutputs s t count) :
    t.out.earlier.index = s.out.earlier.index := by rw [h.earlier]; rfl

theorem HoldsOutputs.outBlock {s t : State} {count f : Nat} (h : HoldsOutputs s t count) (block : f / 48 + 1 = count) :
    (s.out.earlier.index = f / 48 ∧ outBlockAt s f = s.out.earlier ∧
        outBlockAt t f = heldOutputs s s.out.earlier) ∨
      (outBlockAt s f = OutBlock.silent 0 ∧ outBlockAt t f = OutBlock.silent 0) := by
  have newest : s.out.current.index ≠ f / 48 := by rw [h.newest]; omega
  have current : t.out.current.index ≠ f / 48 := by rw [h.current]; omega
  by_cases at_hand : s.out.earlier.index = f / 48
  · refine .inl ⟨at_hand, outBlockAt_stands (.inr ⟨newest, at_hand, rfl⟩), ?_⟩
    exact outBlockAt_stands (.inr ⟨current, h.earlierIndex.trans at_hand, h.earlier.symm⟩)
  · exact .inr ⟨outBlockAt_none newest at_hand, outBlockAt_none current (by rw [h.earlierIndex]; exact at_hand)⟩

/-- The frames of the block at hand carry the cleaned beams that they would have carried. -/
theorem HoldsOutputs.cleaned {s t : State} {count f : Nat} (h : HoldsOutputs s t count) (block : f / 48 + 1 = count)
    (b : BeamId) : cleanedSlot t f b = cleanedSlot s f b := by
  cases lock : s.ports.arrayRx.lock with
  | seeking =>
    rw [cleanedSlot_seeking lock, cleanedSlot_seeking (by rw [h.lock]; exact lock)]
  | locked =>
    rcases h.outBlock block with ⟨at_hand, old, new⟩ | ⟨old, new⟩
    · rw [cleanedSlot_locked lock old, cleanedSlot_locked (by rw [h.lock]; exact lock) new]
      cases source : s.out.earlier.sources[b] with
      | zero => rw [heldOutputs_zero source]
      | synthesis =>
        obtain ⟨synthesis, samples⟩ := heldOutputs_synthesis (s := s) source
        rw [synthesis, samples]
      | bypass =>
        obtain ⟨synthesis, samples⟩ := heldOutputs_bypass (s := s) source at_hand
        rw [synthesis]
        exact samples
    · rw [cleanedSlot_none old, cleanedSlot_none new]

/-- And the monitor samples likewise. -/
theorem HoldsOutputs.monitor {s t : State} {count f : Nat} (h : HoldsOutputs s t count) (block : f / 48 + 1 = count)
    (k : Fin 2) : monitorSlot t f k = monitorSlot s f k := by
  unfold monitorSlot
  rcases h.outBlock block with ⟨-, old, new⟩ | ⟨old, new⟩
  · rw [old, new]
    have repeats : (heldOutputs s s.out.earlier).repeats = s.out.earlier.repeats := rfl
    have monitors : (heldOutputs s s.out.earlier).monitors = s.out.earlier.monitors := rfl
    rw [repeats, monitors]
    cases s.out.earlier.repeats[k] with
    | none => rfl
    | some b => exact h.cleaned block b
  · rw [old, new]
    simp [OutBlock.silent]

/-! ### The command -/

/-- The part after an accepted SOFT RESET, its reply alone in the queue. -/
def softResetDone (keep : Bool) (s : State) : State :=
  { softResetState keep s with
    cmd := { s.cmd with
      state := .idle, op := .config, queue := [], replies := [⟨0x85, [0]⟩], hold := false
      tuning := if keep then s.cmd.tuning else tuningDefaults
      loadWritten := 0, turn := false } }

theorem softReset_taken {s : State} {flag : Byte} {rest : List Msg} (ready : Ready s ⟨0x05, [flag]⟩ rest)
    {keep : Bool} (valid : flagOf flag = some keep) : exec .softReset s = .next (softResetDone keep s) := by
  have act : runSoftReset ⟨0x05, [flag]⟩ { s with cmd := afterTaking s rest } = softResetDone keep s := by
    have byte : byteAt [flag] 0 = flag := rfl
    unfold runSoftReset withLength judgeSoftReset
    dsimp only
    rw [if_pos (show [flag].length = 1 from rfl), byte, valid]
    rfl
  calc exec .softReset s = .next (takeIf (kindIs 0x05) runSoftReset s) := upAtBoundary_at _ ready.boundary
    _ = .next (softResetDone keep s) := by rw [takeIf_ready _ _ ready rfl, act]

theorem softResetDone_holds {s : State} (keep : Bool) (at_hand : s.out.current.index = s.blk.count) :
    HoldsOutputs s (softResetDone keep s) s.blk.count where
  lock := rfl
  newest := at_hand
  current := rfl
  earlier := by
    have outputs : outputsAtHand s = s.out.earlier := if_pos at_hand
    show heldOutputs s (outputsAtHand s) = _
    rw [outputs]

/-- Settles O53: the blocks of the part after the reset, read off it one by one; the outputs of the block at hand are
written out before the bypass lines are emptied. -/
theorem softResetTaken : Obligations.SoftResetTaken := by
  unfold Obligations.SoftResetTaken
  intro s flag rest ready small keep
  obtain ⟨k, valid, same⟩ : ∃ k : Bool, flagOf flag = some k ∧ (keep ↔ k = true) := by
    have either : flag = 0 ∨ flag = 1 := by
      rcases Nat.le_one_iff_eq_zero_or_eq_one.1 small with h | h
      · exact .inl (BitVec.eq_of_toNat_eq h)
      · exact .inr (BitVec.eq_of_toNat_eq h)
    rcases either with rfl | rfl
    · exact ⟨false, rfl, by decide⟩
    · exact ⟨true, rfl, by decide⟩
  have choice : ∀ {α : Type} (a b : α), (if keep then a else b) = if k = true then a else b :=
    fun a b => if_congr same rfl rfl
  simp only [choice]
  refine ⟨softResetDone k s, softReset_taken ready valid, rfl, ready.boundary.resetn, rfl, rfl, rfl, fun m => ?_,
    fun r => ⟨?_, ?_⟩, fun b => ?_, rfl, rfl, ?_, rfl, rfl, fun i => ?_, rfl, rfl, rfl, fun p => ?_, rfl, rfl,
    fun b => ?_, rfl, ?_, rfl, fun b => ⟨?_, ?_⟩, fun j => ⟨?_, ?_⟩, fun at_hand f block => ⟨fun b => ?_, fun j => ?_⟩,
    rfl, rfl, rfl⟩
  · simp [softResetDone, softResetState, resetPlay, Meter.powerOn]
  · simp [softResetDone, softResetState]
  · simp [softResetDone, softResetState, resetRef, Reference.powerOn]
  · simp [softResetDone, softResetState, resetBeam, Beam.powerOn]
  · rfl
  · cases k <;> simp [softResetDone, softResetState, Controller.powerOn]
  · cases k <;> simp [softResetDone, softResetState, Allocator.powerOn]
  · simp [softResetDone, softResetState, Output.powerOn]
  · rfl
  · simp [softResetDone, softResetState, OutBlock.silent]
  · simp [softResetDone, softResetState, OutBlock.silent]
  · simp [softResetDone, softResetState, OutBlock.silent]
  · simp [softResetDone, softResetState, OutBlock.silent]
  · exact (softResetDone_holds k at_hand).cleaned block b
  · exact (softResetDone_holds k at_hand).monitor block j

end Sys2Proof.Machine
end

