-- ==== Sys2Proof/Proofs/HostSteps.lean ====
section
/-! PROOF. What the events of a boundary other than the command make of the Command Unit and of the host's access to
the store port (R133, R145, R163 to R165): they leave both alone, but for the replies that they append, or withdraw an
access that waits. -/

namespace Sys2Proof.Machine

/-- The Command Unit and the host's access stand as before; the reply queue has at most grown, and not in notice mode
NONE. -/
structure HostKept (s t : State) : Prop where
  state : t.cmd.state = s.cmd.state
  mode : t.ev.mode = s.ev.mode
  count : t.blk.count = s.blk.count
  host : t.store.host = s.store.host
  replies : s.cmd.replies <+: t.cmd.replies
  silent : s.ev.mode = .none → t.cmd.replies = s.cmd.replies
  flight : ¬ hostInFlight s → ¬ hostInFlight t

theorem HostKept.refl (s : State) : HostKept s s := ⟨rfl, rfl, rfl, rfl, List.prefix_rfl, fun _ => rfl, id⟩

theorem HostKept.trans {s t u : State} (h : HostKept s t) (k : HostKept t u) : HostKept s u where
  state := k.state.trans h.state
  mode := k.mode.trans h.mode
  count := k.count.trans h.count
  host := k.host.trans h.host
  replies := h.replies.trans k.replies
  silent e := (k.silent (h.mode.trans e)).trans (h.silent e)
  flight := k.flight ∘ h.flight

theorem HostKept.foldl {α : Type} (f : State → α → State) (h : ∀ s x, HostKept s (f s x)) (l : List α)
    (s : State) : HostKept s (l.foldl f s) := by
  induction l generalizing s with
  | nil => exact .refl s
  | cons x l ih => exact (h s x).trans (ih _)

theorem HostKept.of_same {s t : State} (cmd : t.cmd = s.cmd) (ev : t.ev = s.ev) (store : t.store = s.store)
    (count : t.blk.count = s.blk.count) : HostKept s t where
  state := by rw [cmd]
  mode := by rw [ev]
  count := count
  host := by rw [store]
  replies := by rw [cmd]
  silent _ := by rw [cmd]
  flight h := by unfold hostInFlight; rw [store]; exact h

/-- Whether an access of the host is in flight depends on the cargo of the transfer alone. -/
theorem hostInFlight_iff (s : State) :
    hostInFlight s ↔ ∃ c, s.store.port.map (·.cargo) = some c ∧ hostCargo c = true := by
  unfold hostInFlight
  constructor
  · rintro ⟨t, port, host⟩
    exact ⟨t.cargo, by rw [port]; rfl, host⟩
  · rintro ⟨c, cargo, host⟩
    obtain ⟨t, port, rfl⟩ := Option.map_eq_some_iff.1 cargo
    exact ⟨t, port, host⟩

theorem HostKept.of_quiet {s t : State} (f : PoolFrame s t) (q : Quiet s t) : HostKept s t where
  state := q.state
  mode := q.mode
  count := by rw [f.blk]
  host := q.host
  replies := q.replies
  silent := q.silent
  flight h := by rw [hostInFlight_iff, q.cargo, ← hostInFlight_iff]; exact h

theorem reportSource_kept (src : Source) (s : State) : HostKept s (reportSource src s) := by
  obtain ⟨n, -, silent, e⟩ := reportSource_cases src s
  rw [e]
  exact ⟨rfl, rfl, rfl, rfl, List.prefix_append _ _, fun none => by simp [silent (.inr none)], id⟩

theorem HostKept.ite {s t : State} {c : Bool} (h : HostKept s t) : HostKept s (if c = true then t else s) := by
  split
  · exact h
  · exact .refl s

theorem reportDiverged_kept (b : BeamId) (s : State) : HostKept s (reportDiverged b s) :=
  HostKept.trans (t := { s with ev := { s.ev with diverged := setInsert s.ev.diverged b.val } })
    ⟨rfl, rfl, rfl, rfl, List.prefix_rfl, fun _ => rfl, id⟩ (reportSource_kept _ _)

theorem reportDegraded_kept (b : BeamId) (s : State) : HostKept s (reportDegraded b s) :=
  HostKept.trans (t := { s with ev := { s.ev with degraded := setInsert s.ev.degraded b.val } })
    ⟨rfl, rfl, rfl, rfl, List.prefix_rfl, fun _ => rfl, id⟩ (reportSource_kept _ _)

/-! ### The blocks' own work -/

theorem setCtlBeam_kept (b : BeamId) (x : CtlBeam) (s : State) : HostKept s (setCtlBeam b x s) :=
  .of_same rfl rfl rfl rfl

theorem setCtlSlot_kept (sl : SlotId) (x : CtlSlot) (s : State) : HostKept s (setCtlSlot sl x s) :=
  .of_same rfl rfl rfl rfl

theorem activityEvent_kept (s : State) : HostKept s (activityEvent s) :=
  HostKept.trans (t := applyDecided s) (.of_same rfl rfl rfl rfl)
    (.of_quiet (allocEvent_frame _ _) (allocEvent_quiet _ _))

theorem clippingEvent_kept (s : State) : HostKept s (clippingEvent s) := by
  unfold clippingEvent
  split
  · exact HostKept.trans (t := { s with play := { s.play with clamped := false } })
      (.of_same rfl rfl rfl rfl) (reportSource_kept _ _)
  · exact .refl s

theorem countBlock_kept (s : State) : HostKept s (countBlock s) := by
  have slot : ∀ s x, HostKept s (countSlot s x) := fun s x => by
    unfold countSlot; exact (setCtlSlot_kept _ _ s).ite
  have beam : ∀ s b, HostKept s (countBeam s b) := fun s b => by
    unfold countBeam; exact (setCtlBeam_kept _ _ s).ite
  have noted : ∀ c d s, HostKept s
      { s with blk := { s.blk with counted := true, clampDone := c, divDone := d } } :=
    fun _ _ _ => .of_same rfl rfl rfl rfl
  unfold countBlock; split
  · exact .refl s
  · exact ((HostKept.foldl _ slot _ s).trans (.foldl _ beam _ _)).trans (noted _ _ _)

theorem clampBeam_kept (b : BeamId) (s : State) : HostKept s (clampBeam b s) :=
  (setCtlBeam_kept _ _ s).trans (reportDiverged_kept b _)

theorem markDiverged_kept (b : BeamId) (s : State) : HostKept s (markDiverged b s) := .of_same rfl rfl rfl rfl

theorem divergeBeam_kept (b : BeamId) (s : State) : HostKept s (divergeBeam b s) :=
  ((setCtlBeam_kept _ _ s).trans (markDiverged_kept b _)).trans (reportDiverged_kept b _)

theorem resetEvent_kept (s : State) : HostKept s (resetEvent s) := by
  have noted : ∀ d s, HostKept s { s with blk := { s.blk with runDone := d, clampDone := [], divDone := [] } } :=
    fun _ _ => .of_same rfl rfl rfl rfl
  exact (((countBlock_kept s).trans (.of_quiet (resetSlots_frame _ _) (resetSlots_quiet _ _))).trans
    ((HostKept.foldl _ (fun s _ => clampBeam_kept _ s) _ _).trans
      (.foldl _ (fun s b => divergeBeam_kept b s) _ _))).trans (noted _ _)

theorem degradeEvent_kept (s : State) : HostKept s (degradeEvent s) := by
  have beam : ∀ limit s b, HostKept s (degradeBeam limit s b) := fun limit s b => by
    unfold degradeBeam; dsimp only; split
    · split
      · split
        · exact reportDegraded_kept b s
        · exact (setCtlBeam_kept b _ s).trans (reportDegraded_kept b _)
      · split
        · exact .refl s
        · exact setCtlBeam_kept b _ s
    · exact .refl s
  unfold degradeEvent; split
  · exact .refl s
  · exact .foldl _ (beam _) _ s

theorem suppressBlock_kept (s : State) : HostKept s (suppressBlock s) := by
  unfold suppressBlock; exact .of_same rfl rfl rfl rfl

theorem whileLive_kept {f : State → State} {s : State} (h : HostKept s (f s)) : HostKept s (whileLive f s) := by
  unfold whileLive; exact h.ite

theorem applyRecord_kept (r : SteerRec) (s : State) : HostKept s (applyRecord r s) := by
  have tagged : ∀ x, HostKept s (setBeam r.beam x s) := fun _ => .of_same rfl rfl rfl rfl
  unfold applyRecord; dsimp only; split
  · exact .refl s
  · split
    · exact (tagged _).trans (.of_quiet (zoneChange_frame _ _ _ _) (zoneChange_quiet _ _ _ _))
    · exact tagged _

theorem applySteer_kept (s : State) : HostKept s (applySteer s) := by
  have emptied : HostKept s { s with router := { s.router with queue := [] } } := .of_same rfl rfl rfl rfl
  unfold applySteer; split
  · exact .refl s
  · exact emptied.trans (.foldl _ (fun s r => applyRecord_kept r s) _ _)

/-! ### The store port (R127 to R131, R137, R138, R145) -/

/-- A reply has been appended, or is held by the unit. -/
def Answered (r : Msg) (s : State) : Prop := r ∈ s.cmd.replies ∨ s.cmd.state = .replyHeld r

/-- A waiting access of the host has been withdrawn with its reply. -/
structure HostWithdrawn (h : HostWait) (s t : State) : Prop where
  waited : s.store.host = some h
  host : t.store.host = none
  count : t.blk.count = s.blk.count
  answered : ∃ r, r.kind = hostReply h.access ∧ Answered r t
  flight : ¬ hostInFlight t

/-- What the store port makes of the host's access, where none is in flight and none waits from an earlier
boundary. -/
def HostStep (s t : State) : Prop := HostKept s t ∨ ∃ h, HostWithdrawn h s t

/-- No access of the host is in flight, and none that waits is a candidate for a grant (R127). -/
structure PortCalm (s : State) : Prop where
  flight : ¬ hostInFlight s
  born : ∀ h, s.store.host = some h → s.blk.count ≤ h.born

theorem HostKept.calm {s t : State} (k : HostKept s t) (h : PortCalm s) : PortCalm t :=
  ⟨k.flight h.flight, fun w e => by rw [k.count]; exact h.born w (k.host ▸ e)⟩

theorem HostKept.answered {s t : State} (k : HostKept s t) {r : Msg} (h : Answered r s) : Answered r t :=
  h.imp (fun m => k.replies.subset m) fun e => k.state.trans e

theorem HostStep.calm {s t : State} (k : HostStep s t) (h : PortCalm s) : PortCalm t := by
  rcases k with k | ⟨w, k⟩
  · exact k.calm h
  · exact ⟨k.flight, fun w' e => by rw [k.host] at e; cases e⟩

theorem HostStep.count {s t : State} (k : HostStep s t) : t.blk.count = s.blk.count :=
  k.elim (·.count) fun ⟨_, k⟩ => k.count

theorem HostStep.trans {s t u : State} (h : HostStep s t) (k : HostStep t u) : HostStep s u := by
  rcases h with h | ⟨w, h⟩
  · rcases k with k | ⟨w, k⟩
    · exact .inl (h.trans k)
    · exact .inr ⟨w, h.host ▸ k.waited, k.host, k.count.trans h.count, k.answered, k.flight⟩
  · rcases k with k | ⟨w', k⟩
    · obtain ⟨r, kind, answered⟩ := h.answered
      exact .inr ⟨w, h.waited, k.host.trans h.host, k.count.trans h.count, ⟨r, kind, k.answered answered⟩,
        k.flight h.flight⟩
    · have waited := k.waited
      rw [h.host] at waited
      cases waited

/-- Where no access waits, none is withdrawn. -/
theorem HostStep.kept {s t : State} (h : HostStep s t) (none : s.store.host = none) : HostKept s t := by
  rcases h with h | ⟨w, h⟩
  · exact h
  · rw [h.waited] at none; cases none

theorem completeReply_answered (r : Msg) (s : State) : Answered r (completeReply r s) := by
  unfold completeReply Answered
  split
  · exact .inl (by simp)
  · exact .inr rfl

theorem withdrawHost_step {s : State} (calm : PortCalm s) : HostStep s (withdrawHost s) := by
  unfold withdrawHost
  split
  · exact .inl (.refl s)
  · next h waits =>
    refine .inr ⟨h, waits, ?_, ?_, ⟨_, rfl, completeReply_answered _ _⟩, ?_⟩
    · unfold completeReply; split <;> rfl
    · unfold completeReply; split <;> rfl
    · unfold completeReply
      split <;> exact calm.flight

theorem disableStore_step (failing : SlotId) {s : State} (calm : PortCalm s) :
    HostStep s (disableStore failing s) := by
  have cleared := ((setEnabled_quiet false s).trans (invalidateAll_quiet _)).trans (raiseNamed_quiet failing _)
  have clearedFrame := ((setEnabled_frame false s).trans (invalidateAll_frame _)).trans (raiseNamed_frame failing _)
  have emptied := (setFills_quiet [] (raiseNamed failing (invalidateAll (setEnabled false s)))).trans
    ((freeDraining_quiet (fun _ => true) _).trans (emptyCaptures_quiet _))
  have emptiedFrame := (setFills_frame [] (raiseNamed failing (invalidateAll (setEnabled false s)))).trans
    ((freeDraining_frame (fun _ => true) _).trans (emptyCaptures_frame _))
  have kept := HostKept.of_quiet (clearedFrame.trans emptiedFrame) (cleared.trans emptied)
  unfold disableStore
  exact (HostStep.trans (.inl kept) (withdrawHost_step (kept.calm calm))).trans (.inl (reportSource_kept _ _))

theorem checkFailure_step (t : Transfer) (r : FillReq) (e : Entry) {s : State} (calm : PortCalm s) :
    HostStep s (checkFailure t r e s) := by
  have quiet := ((invalidateEntry_quiet t.set t.way s).trans (setErrors_quiet (s.store.errors + 1) _)).trans
    (latchError_quiet ⟨t.set, t.way, e.tag, .fill⟩ _)
  have frame := ((invalidateEntry_frame t.set t.way s).trans (setErrors_frame (s.store.errors + 1) _)).trans
    (latchError_frame ⟨t.set, t.way, e.tag, .fill⟩ _)
  have kept := (HostKept.of_quiet frame quiet).trans (reportSource_kept .storeFault _)
  unfold checkFailure; dsimp only; split
  · exact HostStep.trans (.inl kept) (disableStore_step r.slot (kept.calm calm))
  · exact .inl kept

theorem setPort_kept {t : Option Transfer} (other : ∀ x, t = some x → hostCargo x.cargo = false) (s : State) :
    HostKept s (setPort t s) :=
  ⟨rfl, rfl, rfl, rfl, List.prefix_rfl, fun _ => rfl, fun _ ⟨x, e, host⟩ => by rw [other x e] at host; cases host⟩

/-- A transfer that is none of the host's completes. -/
theorem finishTransfer_step {t : Transfer} (other : hostCargo t.cargo = false) {s : State} (calm : PortCalm s) :
    HostStep s (finishTransfer t s) := by
  have idle := setPort_kept (t := none) (fun _ e => by cases e) s
  refine HostStep.trans (.inl idle) ?_
  replace calm := idle.calm calm
  unfold finishTransfer
  dsimp only
  generalize setPort none s = u at calm
  cases cargo : t.cargo with
  | fill r e =>
    dsimp only
    unfold finishFill; split
    · exact .inl (.refl _)
    · split
      · split
        · exact .inl (.of_quiet (installHead_frame _ _ _) (installHead_quiet _ _ _))
        · exact .inl (.refl _)
      · exact checkFailure_step _ _ _ calm
  | capture c =>
    dsimp only
    unfold finishCapture; split
    · exact .inl (.refl _)
    · exact .inl (.of_quiet (writeWay_frame _ _ _ _) (writeWay_quiet _ _ _ _))
  | commit tag q check => rw [cargo] at other; cases other
  | read chunk => rw [cargo] at other; cases other

theorem completeDue_step {s : State} (calm : PortCalm s) : HostStep s (completeDue s) := by
  unfold completeDue; split
  · next t due =>
    refine finishTransfer_step ?_ calm
    unfold dueTransfer at due
    split at due
    · next x port =>
      split at due
      · cases due
        exact Bool.eq_false_iff.2 fun host => calm.flight ⟨t, port, host⟩
      · cases due
    · cases due
  · exact .inl (.refl s)

theorem grantCapture_kept (s : State) : HostKept s (grantCapture s) := by
  unfold grantCapture; split
  · exact .refl s
  · have reserved : ∀ p w tag, HostKept s (reserveWay p w tag s) := fun _ _ _ =>
      .of_quiet (reserveWay_frame _ _ _ _) (reserveWay_quiet _ _ _ _)
    exact (((reserved _ _ _).trans (setPort_kept (fun _ e => by cases e; rfl) _)).trans
      (.of_quiet (setCaptures_frame _ _) (setCaptures_quiet _ _))).trans
      (.of_quiet (roomReport_frame _) (roomReport_quiet _))

theorem grantFill_kept (r : FillReq) (w : WayId) (s : State) : HostKept s (grantFill r w s) :=
  HostKept.trans (.of_quiet (setLru_frame _ _ _) (setLru_quiet _ _ _)) (setPort_kept (fun _ e => by cases e; rfl) _)

/-- A host access that is no candidate is not granted (R127). -/
theorem grantHost_calm_eq {s : State} (calm : PortCalm s) : grantHost s = s := by
  unfold grantHost; split
  · rfl
  · next h waits => exact if_pos (calm.born h waits)

theorem grantIdle_kept {s : State} (calm : PortCalm s) : HostKept s (grantIdle s) := by
  have queued : ∀ q, HostKept s (setFills q s) := fun q => .of_quiet (setFills_frame q s) (setFills_quiet q s)
  unfold grantIdle; split
  · exact grantCapture_kept s
  · split
    · exact (queued _).trans (grantFill_kept _ _ _)
    · split
      · exact (queued _).trans (grantCapture_kept _)
      · rw [grantHost_calm_eq ((queued _).calm calm)]
        exact queued _

theorem grantDue_step {s : State} (calm : PortCalm s) : HostStep s (grantDue s) := by
  have completed := completeDue_step calm
  unfold grantDue; dsimp only; split
  · exact completed.trans (.inl (grantIdle_kept (completed.calm calm)))
  · exact completed

/-- Every event of a boundary but the command and the reply. -/
theorem boundaryEvent_step (keep : Bool) {e : BoundaryEvent} (command : e ≠ .command) (reply : e ≠ .reply)
    {s : State} (calm : PortCalm s) : HostStep s (boundaryEvent keep e s) := by
  cases e with
  | activity => exact .inl (whileLive_kept (activityEvent_kept s))
  | clipping => exact .inl (whileLive_kept (clippingEvent_kept s))
  | counting => exact .inl (whileLive_kept (countBlock_kept s))
  | resets => exact .inl (whileLive_kept (resetEvent_kept s))
  | degrade => exact .inl (whileLive_kept (degradeEvent_kept s))
  | suppress => exact .inl (whileLive_kept (suppressBlock_kept s))
  | view => exact .inl (.refl s)
  | steer => exact .inl (applySteer_kept s)
  | complete => exact completeDue_step calm
  | grant => exact grantDue_step calm
  | command => exact absurd rfl command
  | reply => exact absurd rfl reply

end Sys2Proof.Machine
end

