-- ==== Sys2Proof/Proofs/CommandOutcome.lean ====
section
/-! PROOF. What carrying out a command other than SOFT RESET comes to for the Command Unit (R161, R163, R164): an
access that waits for the store port, or one reply of the command's kind after the notices that its own work has
raised. -/

namespace Sys2Proof.Machine

/-- What an operation in the course of a command leaves to the Command Unit: its state, the hold-off condition and
the settings, the host's access, and the reply queue but for notices of the pool. -/
structure UnitCalm (s t : State) : Prop where
  state : t.cmd.state = s.cmd.state
  hold : t.cmd.hold = s.cmd.hold
  tuning : t.cmd.tuning = s.cmd.tuning
  host : t.store.host = s.store.host
  cargo : t.store.port.map (·.cargo) = s.store.port.map (·.cargo)
  report : t.blk.report = s.blk.report
  replies : s.cmd.replies <+: t.cmd.replies
  notices : t.cmd.replies.length + poolSourcesClear t ≤ s.cmd.replies.length + poolSourcesClear s

theorem UnitCalm.trans {s t u : State} (h : UnitCalm s t) (k : UnitCalm t u) : UnitCalm s u where
  state := k.state.trans h.state
  hold := k.hold.trans h.hold
  tuning := k.tuning.trans h.tuning
  host := k.host.trans h.host
  cargo := k.cargo.trans h.cargo
  report := k.report.trans h.report
  replies := h.replies.trans k.replies
  notices := k.notices.trans h.notices

/-- An operation on the other blocks. -/
theorem UnitCalm.of_same {s t : State} (state : t.cmd.state = s.cmd.state) (hold : t.cmd.hold = s.cmd.hold)
    (tuning : t.cmd.tuning = s.cmd.tuning) (replies : t.cmd.replies = s.cmd.replies)
    (status : t.ev.status = s.ev.status) (host : t.store.host = s.store.host)
    (port : t.store.port = s.store.port) (report : t.blk.report = s.blk.report) : UnitCalm s t where
  state := state
  hold := hold
  tuning := tuning
  host := host
  cargo := by rw [port]
  report := report
  replies := by rw [replies]
  notices := by rw [poolSourcesClear, poolSourcesClear, replies, status]

theorem UnitCalm.refl (s : State) : UnitCalm s s := .of_same rfl rfl rfl rfl rfl rfl rfl rfl

theorem UnitCalm.of_quiet {s t : State} (f : PoolFrame s t) (q : Quiet s t) : UnitCalm s t where
  state := q.state
  hold := by rw [f.cmd]
  tuning := by rw [f.cmd]
  host := q.host
  cargo := q.cargo
  report := by rw [f.blk]
  replies := q.replies
  notices := q.notices

theorem UnitCalm.foldl {α : Type} (f : State → α → State) (h : ∀ s x, UnitCalm s (f s x)) (l : List α)
    (s : State) : UnitCalm s (l.foldl f s) := by
  induction l generalizing s with
  | nil => exact .refl s
  | cons x l ih => exact (h s x).trans (ih _)

/-- The state that a command's own work leaves for its reply: as `UnitCalm`, but for the settings that a TUNING
write has changed, with the hold-off condition judged anew (R161). -/
structure Effect (x u : State) : Prop where
  state : u.cmd.state = x.cmd.state
  host : u.store.host = x.store.host
  cargo : u.store.port.map (·.cargo) = x.store.port.map (·.cargo)
  replies : x.cmd.replies <+: u.cmd.replies
  room : u.cmd.replies.length ≤ x.cmd.replies.length + 2
  hold : (u.cmd.hold = x.cmd.hold ∧ u.cmd.tuning = x.cmd.tuning) ∨
    u.cmd.hold = holdAfter x.cmd.hold x.cmd.queue.length (holdTrigger u.cmd.tuning)

theorem poolSourcesClear_le (s : State) : poolSourcesClear s ≤ 2 := by
  have := Bool.toNat_le (!inSet s.ev.status (sourceBit .poolFull))
  have := Bool.toNat_le (!inSet s.ev.status (sourceBit .captureDropped))
  unfold poolSourcesClear
  omega

theorem UnitCalm.effect {s t : State} (h : UnitCalm s t) : Effect s t where
  state := h.state
  host := h.host
  cargo := h.cargo
  replies := h.replies
  room := by have := h.notices; have := poolSourcesClear_le s; omega
  hold := .inl ⟨h.hold, h.tuning⟩

/-- What a command comes to: an access that waits for the port, of a reply of the command's kind, or that reply;
a report is noted with its message. -/
def Outcome (m : Msg) (x t : State) : Prop :=
  ((m.kind = 0x43 ∨ m.kind = 0x45) ∧ ∃ a, hostReply a = m.kind + 0x80 ∧ t = waitPort a x) ∨
  ∃ r u, r.kind = m.kind + 0x80 ∧ Effect x u ∧ (u.blk.report = x.blk.report ∨ u.blk.report = some m) ∧
    t = completeReply r u

theorem UnitCalm.outcome {x u : State} (h : UnitCalm x u) (m : Msg) (st : Status) (results : List Byte) :
    Outcome m x (completeReply (replyMsg m st results) u) :=
  .inr ⟨_, u, rfl, h.effect, .inl h.report, rfl⟩

theorem answer_outcome (m : Msg) (st : Status) (x : State) : Outcome m x (answer m st x) :=
  (UnitCalm.refl x).outcome m st []

theorem done_outcome {f : State → State} {x : State} (h : UnitCalm x (f x)) (m : Msg) : Outcome m x (done f m x) :=
  h.outcome m .ok []

theorem withLength_outcome {act : Msg → State → State} {m : Msg} {x : State} (h : Outcome m x (act m x)) (n : Nat) :
    Outcome m x (withLength n act m x) := by
  unfold withLength; split
  · exact h
  · exact answer_outcome m _ x

theorem report_outcome {reply : Msg → State → Msg} {m : Msg} (kind : ∀ s, (reply m s).kind = m.kind + 0x80)
    (x : State) : Outcome m x (report reply m x) :=
  .inr ⟨_, { x with blk := { x.blk with report := some m } }, kind x,
    ⟨rfl, rfl, rfl, List.prefix_rfl, Nat.le_add_right _ _, .inl ⟨rfl, rfl⟩⟩, .inr rfl, rfl⟩

/-! ### The kinds of the replies (R166) -/

theorem statusReadReply_kind (m : Msg) (s : State) : (statusReadReply m s).kind = m.kind + 0x80 := by
  unfold statusReadReply; split <;> rfl

theorem tableReadReply_kind (m : Msg) (s : State) : (tableReadReply m s).kind = m.kind + 0x80 := by
  unfold tableReadReply; dsimp only; split
  · rfl
  · split
    · rfl
    · split
      · rfl
      · split <;> rfl

theorem eventReadReply_kind (m : Msg) (s : State) : (eventReadReply m s).kind = m.kind + 0x80 := by
  unfold eventReadReply; split <;> rfl

theorem healthReadReply_kind (m : Msg) (s : State) : (healthReadReply m s).kind = m.kind + 0x80 := by
  unfold healthReadReply; dsimp only; split
  · rfl
  · split <;> rfl

theorem slotReadReply_kind (m : Msg) (s : State) : (slotReadReply m s).kind = m.kind + 0x80 := by
  unfold slotReadReply; dsimp only; split
  · rfl
  · split <;> rfl

/-! ### The commands' own work -/

theorem setOp_calm (op : OpState) (s : State) : UnitCalm s (setOp op s) := .of_same rfl rfl rfl rfl rfl rfl rfl rfl

theorem silenceRef_calm (r : RefId) (s : State) : UnitCalm s (silenceRef r s) :=
  .of_same rfl rfl rfl rfl rfl rfl rfl rfl

theorem silenceAll_calm (s : State) : UnitCalm s (silenceAll s) := .foldl _ (fun s r => silenceRef_calm r s) _ s

theorem startRunning_calm (s : State) : UnitCalm s (startRunning s) := by
  unfold startRunning; split
  · exact .refl s
  · exact ((setOp_calm .running s).trans (silenceAll_calm _)).trans (.of_same rfl rfl rfl rfl rfl rfl rfl rfl)

theorem stopRunning_calm (s : State) : UnitCalm s (stopRunning s) := by
  unfold stopRunning; split
  · exact .refl s
  · exact ((setOp_calm .config s).trans (silenceAll_calm _)).trans
      (.of_quiet (stopPool_frame _) (stopPool_quiet _))

theorem judgeSetTail_outcome (m : Msg) (s : State) : Outcome m s (judgeSetTail m s) := by
  unfold judgeSetTail; split
  · split
    · exact answer_outcome m _ s
    · split
      · exact answer_outcome m _ s
      · exact done_outcome (.of_same rfl rfl rfl rfl rfl rfl rfl rfl) m
  · exact answer_outcome m _ s

/-- EVENT CLEAR raises no notice, though it clears sources (R185). -/
theorem clearEvents_outcome (set : Byte) (m : Msg) (s : State) : Outcome m s (done (clearEvents set) m s) :=
  .inr ⟨_, clearEvents set s, rfl, ⟨rfl, rfl, rfl, List.prefix_rfl, Nat.le_add_right _ _, .inl ⟨rfl, rfl⟩⟩,
    .inl rfl, rfl⟩

theorem judgeEventSetup_outcome (m : Msg) (s : State) : Outcome m s (judgeEventSetup m s) := by
  unfold judgeEventSetup; split
  · exact answer_outcome m _ s
  · exact done_outcome (.of_same rfl rfl rfl rfl rfl rfl rfl rfl) m

theorem freezeBeam_calm (on : Bool) (b : BeamId) (s : State) : UnitCalm s (freezeBeam on b s) := by
  unfold freezeBeam; dsimp only; split <;> exact .of_same rfl rfl rfl rfl rfl rfl rfl rfl

theorem judgeFreeze_outcome (m : Msg) (s : State) : Outcome m s (judgeFreeze m s) := by
  unfold judgeFreeze; split
  · exact answer_outcome m _ s
  · refine done_outcome (.foldl _ (fun s b => ?_) _ s) m
    split
    · exact freezeBeam_calm _ _ s
    · exact .refl s

theorem invalidateSets_calm (which : SetId → Bool) (s : State) : UnitCalm s (invalidateSets which s) :=
  .of_quiet (invalidateSets_frame _ s) (invalidateSets_quiet _ s)

theorem judgeEntryRead_outcome {m : Msg} (kind : m.kind = 0x43) (s : State) : Outcome m s (judgeEntryRead m s) := by
  unfold judgeEntryRead; dsimp only; split
  · split
    · split
      · exact answer_outcome m _ s
      · split
        · exact .inl ⟨.inl kind, _, by rw [kind]; rfl, rfl⟩
        · exact answer_outcome m _ s
    · exact answer_outcome m _ s
  · exact answer_outcome m _ s

theorem loadChunk_calm (c : Nat) (taps : List Byte) (s : State) : UnitCalm s (loadChunk c taps s) := by
  unfold loadChunk
  apply UnitCalm.of_same <;> dsimp only

theorem judgeEntryLoad_outcome (m : Msg) (s : State) : Outcome m s (judgeEntryLoad m s) := by
  unfold judgeEntryLoad; dsimp only; split
  · exact answer_outcome m _ s
  · exact done_outcome (loadChunk_calm _ _ s) m

theorem judgeEntryCommit_outcome {m : Msg} (kind : m.kind = 0x45) (s : State) :
    Outcome m s (judgeEntryCommit m s) := by
  unfold judgeEntryCommit; dsimp only; split
  · split
    · exact answer_outcome m _ s
    · split
      · exact answer_outcome m _ s
      · split
        · exact answer_outcome m _ s
        · split
          · exact answer_outcome m _ s
          · exact .inl ⟨.inr kind, _, by rw [kind]; rfl, rfl⟩
  · exact answer_outcome m _ s

/-! ### TABLE WRITE (R174 to R176) -/

theorem writeEntry_calm {t : Table} (other : t ≠ .tuning) {i : Nat} {p : List Byte} {s : State} {r : State × Bool}
    (h : writeEntry t i p s = some r) : UnitCalm s r.1 := by
  have same : ∀ {t : State}, t.cmd = s.cmd → t.ev = s.ev → t.store = s.store → t.blk = s.blk → UnitCalm s t :=
    fun cmd ev store blk => .of_same (by rw [cmd]) (by rw [cmd]) (by rw [cmd]) (by rw [cmd]) (by rw [ev])
      (by rw [store]) (by rw [store]) (by rw [blk])
  cases t with
  | tuning => exact absurd rfl other
  | beam =>
    simp only [writeEntry, writeBeam] at h
    split at h
    · split at h
      · cases h; exact same rfl rfl rfl rfl
      · cases h
    · cases h
  | reference =>
    simp only [writeEntry, writeReference] at h
    split at h
    · split at h
      · cases h; exact same rfl rfl rfl rfl
      · cases h
    · cases h
  | pairmask =>
    simp only [writeEntry, writePairmask] at h
    split at h
    · split at h
      · cases h; exact same rfl rfl rfl rfl
      · cases h
    · cases h
  | step =>
    simp only [writeEntry, writeStep] at h
    split at h
    · cases h; exact same rfl rfl rfl rfl
    · cases h
  | threshold =>
    simp only [writeEntry, writeThreshold] at h
    split at h
    · cases h; exact same rfl rfl rfl rfl
    · cases h
  | meter =>
    simp only [writeEntry, writeMeter] at h
    split at h
    · cases h; exact same rfl rfl rfl rfl
    · cases h
  | monitor =>
    simp only [writeEntry, writeMonitor] at h
    split at h
    · split at h
      · split at h
        · cases h; exact same rfl rfl rfl rfl
        · cases h
      · cases h
    · cases h

theorem allocEvent_calm (was : Vector Bool 128) (s : State) : UnitCalm s (allocEvent was s) :=
  .of_quiet (allocEvent_frame _ _) (allocEvent_quiet _ _)

theorem referenceEvent_calm (before s : State) : UnitCalm s (referenceEvent before s) := by
  refine ((UnitCalm.foldl _ (fun x r => ?_) _ s).trans (.foldl _ (fun x r => ?_) _ _)).trans (allocEvent_calm _ _)
  · split
    · exact .refl x
    · exact .of_quiet (delayChange_frame r x) (delayChange_quiet r x)
  · split
    · exact silenceRef_calm r x
    · exact .refl x
    · exact .refl x

theorem tableEvent_calm {t : Table} (other : t ≠ .tuning) (before s : State) :
    UnitCalm s (tableEvent t before s) := by
  cases t with
  | beam => exact allocEvent_calm _ s
  | reference => exact referenceEvent_calm before s
  | pairmask => exact allocEvent_calm _ s
  | step => exact .refl s
  | tuning => exact absurd rfl other
  | threshold => exact .refl s
  | meter => exact .refl s
  | monitor =>
    unfold tableEvent rehandMonitors handMonitors
    dsimp only
    split
    · exact .of_same rfl rfl rfl rfl rfl rfl rfl rfl
    · exact .refl s

/-- The entries of a TUNING write change the settings alone. -/
theorem writeTuning_settings (n i : Nat) (p : List Byte) (s : State) :
    ∃ T, (writeEntries .tuning n i p s).1 = { s with cmd := { s.cmd with tuning := T } } := by
  refine writeEntries_induction .tuning (fun u => ∃ T, u = { s with cmd := { s.cmd with tuning := T } })
    (fun i p u r ⟨T, hu⟩ e => ?_) n i p s ⟨_, rfl⟩
  subst hu
  unfold writeEntry writeTuning at e
  dsimp only at e
  split at e
  · split at e
    · obtain ⟨-, e⟩ := Option.ite_none_right_eq_some.1 e
      cases e; exact ⟨_, rfl⟩
    · cases e; exact ⟨_, rfl⟩
  · cases e

/-- A TUNING write judges the hold-off condition by the new hold_trigger (R161). -/
theorem tuningEvent_effect (T : Vector Nat 26) (s : State) :
    Effect s (tuningEvent { s with cmd := { s.cmd with tuning := T } }) ∧
      (tuningEvent { s with cmd := { s.cmd with tuning := T } }).blk.report = s.blk.report := by
  unfold tuningEvent updateHold lowerAtt; dsimp only
  split <;> exact ⟨⟨rfl, rfl, rfl, List.prefix_rfl, Nat.le_add_right _ _, .inr rfl⟩, rfl⟩

theorem runTableWrite_outcome (m : Msg) (s : State) : Outcome m s (runTableWrite m s) := by
  have refuse : ∀ st n, Outcome m s (completeReply (writeReply m st n) s) := fun st n =>
    (UnitCalm.refl s).outcome m st _
  unfold runTableWrite; split
  · exact refuse _ _
  · split
    · exact refuse _ _
    · next t _ =>
      unfold writeTable; dsimp only; split
      · exact refuse _ _
      · split
        · exact refuse _ _
        · split
          · exact refuse _ _
          · by_cases tuning : t = .tuning
            · subst tuning
              obtain ⟨T, e⟩ := writeTuning_settings
                (resolveCount .tuning (byteAt m.payload 1).toNat (byteAt m.payload 2).toNat)
                (byteAt m.payload 1).toNat (m.payload.drop 4) s
              obtain ⟨effect, report⟩ := tuningEvent_effect T s
              refine .inr ⟨_, _, rfl, ?_, .inl ?_, rfl⟩
              · rw [e]; exact effect
              · rw [e]; exact report
            · exact UnitCalm.outcome ((writeEntries_induction t (UnitCalm s ·)
                (fun _ _ _ _ hs e => hs.trans (writeEntry_calm tuning e)) _ _ _ s (.refl s)).trans
                (tableEvent_calm tuning s _)) m _ _

/-- What a command other than SOFT RESET comes to (R163, R164, R169). -/
theorem runCommand_outcome {m : Msg} (h : m.kind ≠ 0x05) (s : State) : Outcome m s (runCommand m s) := by
  unfold runCommand
  split
  · next f e =>
    unfold catalogue at e
    split at e <;> cases e
    · exact report_outcome (statusReadReply_kind m) s
    · exact withLength_outcome (done_outcome (startRunning_calm s) m) 0
    · exact withLength_outcome (done_outcome (stopRunning_calm s) m) 0
    · exact withLength_outcome (judgeSetTail_outcome m s) 1
    · next k => exact absurd (BitVec.eq_of_toNat_eq k) h
    · exact runTableWrite_outcome m s
    · exact report_outcome (tableReadReply_kind m) s
    · exact report_outcome (eventReadReply_kind m) s
    · exact withLength_outcome (clearEvents_outcome _ m s) 1
    · exact withLength_outcome (judgeEventSetup_outcome m s) 2
    · exact report_outcome (healthReadReply_kind m) s
    · exact report_outcome (slotReadReply_kind m) s
    · exact withLength_outcome (judgeFreeze_outcome m s) 3
    · exact withLength_outcome (done_outcome (f := flushStore) (invalidateSets_calm _ s) m) 0
    · exact withLength_outcome (done_outcome (.of_same rfl rfl rfl rfl rfl rfl rfl rfl) m) 0
    · exact withLength_outcome (done_outcome (f := invalidateSets _) (invalidateSets_calm _ s) m) 3
    · next k => exact withLength_outcome (judgeEntryRead_outcome (BitVec.eq_of_toNat_eq k) s) 3
    · exact withLength_outcome (judgeEntryLoad_outcome m s) 109
    · next k => exact withLength_outcome (judgeEntryCommit_outcome (BitVec.eq_of_toNat_eq k) s) 5
  · exact answer_outcome m _ s

end Sys2Proof.Machine
end

