-- ==== Sys2Proof/Proofs/BoundaryCommand.lean ====
section
/-! PROOF. A boundary that takes a command (O36, first half): the events before the taking leave the unit IDLE with
its head message, the taking comes to an access that waits for the port or to a reply of the command's kind, and the
events after it keep that answer, or withdraw the access with a reply of the same kind. -/

namespace Sys2Proof.Machine

/-! ### The order of the events -/

/-- A member of a list stands once in it without its repetitions, and first where it was first. -/
theorem eraseDups_split {α : Type} [BEq α] [LawfulBEq α] {a : α} : (l : List α) → a ∈ l →
    ∃ p q, l.eraseDups = p ++ a :: q ∧ a ∉ p ∧ a ∉ q ∧ (l.head? = some a → p = [])
  | b :: l, h => by
    rw [List.eraseDups_cons]
    by_cases same : a = b
    · subst same
      exact ⟨[], _, rfl, List.not_mem_nil, by simp [List.mem_eraseDups], fun _ => rfl⟩
    · have shorter := List.length_filter_le (fun x => !x == b) l
      obtain ⟨p, q, e, notBefore, notAfter, -⟩ := eraseDups_split (l.filter fun x => !x == b)
        (List.mem_filter.2 ⟨(List.mem_cons.1 h).resolve_left same, by simp [same]⟩)
      exact ⟨b :: p, q, by rw [e]; rfl, by simp [same, notBefore], notAfter, fun first => by
        cases first; exact absurd rfl same⟩
termination_by l => l.length
decreasing_by exact Nat.lt_succ_of_le shorter

/-- An order that holds the command holds it once, and the boundary starts with it where the order does. -/
theorem eventOrder_command {order : List BoundaryEvent} (h : BoundaryEvent.command ∈ order) :
    ∃ p q, eventOrder order = p ++ .command :: q ∧ .command ∉ p ∧ .command ∉ q ∧
      (order.head? = some .command → p = []) := by
  obtain ⟨p, q, e, notBefore, notAfter, first⟩ := eraseDups_split order h
  refine ⟨p, q ++ ownWork.filter fun e => !order.contains e, ?_, notBefore, ?_, first⟩
  · rw [eventOrder, e, List.append_assoc, List.cons_append]
  · simp [notAfter, ownWork, List.mem_filter]

/-- The reply has a place of its own after the command where the order gives it one. -/
theorem keepsReply_split {p q : List BoundaryEvent} (h : BoundaryEvent.command ∉ p) :
    keepsReply (p ++ .command :: q) = true ↔ .reply ∈ q := by
  have skipped : (p ++ .command :: q).dropWhile (· != .command) = BoundaryEvent.command :: q := by
    rw [List.dropWhile_append_of_pos fun e he => bne_iff_ne.2 (ne_of_mem_of_not_mem he h)]
    rfl
  rw [keepsReply, skipped]
  simp

/-! ### Before the taking -/

/-- The part between the opening of a boundary and its command event: the unit is IDLE with its turn, no reply is
kept, no report is noted, and no access of the host stands at the port. -/
structure BeforeTaking (o x : State) : Prop where
  frame : EventFrame o x
  kept : HostKept o x
  calm : PortCalm x
  host : x.store.host = none
  reply : x.blk.reply = none

/-- An event other than the command, where no reply is kept. -/
theorem boundaryEvent_unkept (keep : Bool) {e : BoundaryEvent} (command : e ≠ .command) {x : State}
    (calm : PortCalm x) (reply : x.blk.reply = none) :
    EventFrame x (boundaryEvent keep e x) ∧ HostStep x (boundaryEvent keep e x) := by
  by_cases own : e = .reply
  · subst own
    have idle : boundaryEvent keep .reply x = x := by
      show appendKept x = x
      unfold appendKept; rw [reply]
    rw [idle]
    exact ⟨.refl x, .inl (.refl x)⟩
  · exact ⟨boundaryEvent_event keep e x command own, boundaryEvent_step keep command own calm⟩

theorem BeforeTaking.run {o : State} (keep : Bool) (es : List BoundaryEvent) {x : State} (h : BeforeTaking o x)
    (command : .command ∉ es) : BeforeTaking o (runEvents keep es x) := by
  induction es generalizing x with
  | nil => exact h
  | cons e es ih =>
    simp only [List.mem_cons, not_or] at command
    obtain ⟨frame, step⟩ := boundaryEvent_unkept keep (Ne.symm command.1) h.calm h.reply
    have kept := step.kept h.host
    exact ih ⟨h.frame.trans frame, h.kept.trans kept, kept.calm h.calm, kept.host.trans h.host,
      frame.reply.trans h.reply⟩ command.2

/-! ### After the taking -/

/-- What the host is owed: its access waits for the port since this boundary, or its reply stands in the queue or is
held. -/
def Owed (m : Msg) (x : State) : Prop :=
  (x.cmd.state = .portWait ∧ (m.kind = 0x43 ∨ m.kind = 0x45) ∧
    ∃ a, hostReply a = m.kind + 0x80 ∧ x.store.host = some ⟨a, x.blk.count⟩) ∨
  (x.store.host = none ∧ ∃ r, r.kind = m.kind + 0x80 ∧ Answered r x)

/-- The part after the command event that has taken message `m` and left `rest`: its reply may be kept for a place
of its own (R163). -/
structure AfterTaking (s : State) (m : Msg) (rest : List Msg) (x : State) : Prop where
  count : x.blk.count = s.blk.count + 1
  turn : x.cmd.turn = false
  queue : x.cmd.queue = rest
  hold : x.cmd.hold = holdAfter (holdLeft s rest) rest.length (holdTrigger x.cmd.tuning)
  report : x.blk.report = none ∨ x.blk.report = some m
  calm : PortCalm x
  owed : (x.blk.reply = none ∧ Owed m x) ∨
    ∃ r, r.kind = m.kind + 0x80 ∧ x.blk.reply = some r ∧ x.store.host = none

theorem HostStep.owed {m : Msg} {x y : State} (h : HostStep x y) (owed : Owed m x) : Owed m y := by
  rcases owed with ⟨state, kind, a, reply, host⟩ | ⟨host, r, kind, answered⟩
  · rcases h with kept | ⟨w, withdrawn⟩
    · exact .inl ⟨kept.state.trans state, kind, a, reply, by rw [kept.host, kept.count]; exact host⟩
    · obtain ⟨r, kind, answered⟩ := withdrawn.answered
      have same : w = ⟨a, x.blk.count⟩ := Option.some.inj (withdrawn.waited.symm.trans host)
      subst same
      exact .inr ⟨withdrawn.host, r, kind.trans reply, answered⟩
  · have kept := h.kept host
    exact .inr ⟨kept.host.trans host, r, kind, kept.answered answered⟩

theorem AfterTaking.of_frame {s x y : State} {m : Msg} {rest : List Msg} (h : AfterTaking s m rest x)
    (f : EventFrame x y) (k : HostStep x y) : AfterTaking s m rest y where
  count := f.count.trans h.count
  turn := by rw [f.cmd]; exact h.turn
  queue := by rw [f.cmd]; exact h.queue
  hold := by rw [f.cmd]; exact h.hold
  report := by rw [f.report]; exact h.report
  calm := k.calm h.calm
  owed := by
    rcases h.owed with ⟨reply, owed⟩ | ⟨r, kind, reply, host⟩
    · exact .inl ⟨f.reply.trans reply, k.owed owed⟩
    · exact .inr ⟨r, kind, f.reply.trans reply, (k.kept host).host.trans host⟩

/-- The kept reply is appended, or held, at its own place. -/
theorem AfterTaking.appendKept {s x : State} {m : Msg} {rest : List Msg} (h : AfterTaking s m rest x) :
    AfterTaking s m rest (appendKept x) ∧ (Machine.appendKept x).blk.reply = none := by
  unfold Machine.appendKept
  rcases h.owed with ⟨reply, owed⟩ | ⟨r, kind, reply, host⟩
  · rw [reply]
    exact ⟨h, reply⟩
  · rw [reply]
    dsimp only
    have answered := completeReply_answered r { x with blk := { x.blk with reply := none } }
    unfold completeReply at answered ⊢
    split at answered
    · next room =>
      rw [if_pos room]
      exact ⟨⟨h.count, h.turn, h.queue, h.hold, h.report, ⟨h.calm.flight, h.calm.born⟩,
        .inl ⟨rfl, .inr ⟨host, r, kind, answered⟩⟩⟩, rfl⟩
    · next full =>
      rw [if_neg full]
      exact ⟨⟨h.count, h.turn, h.queue, h.hold, h.report, ⟨h.calm.flight, h.calm.born⟩,
        .inl ⟨rfl, .inr ⟨host, r, kind, answered⟩⟩⟩, rfl⟩

theorem AfterTaking.event {s x : State} {m : Msg} {rest : List Msg} (h : AfterTaking s m rest x) (keep : Bool)
    {e : BoundaryEvent} (command : e ≠ .command) : AfterTaking s m rest (boundaryEvent keep e x) ∧
      (e = .reply ∨ x.blk.reply = none → (boundaryEvent keep e x).blk.reply = none) := by
  by_cases own : e = .reply
  · subst own
    exact ⟨h.appendKept.1, fun _ => h.appendKept.2⟩
  · have frame := boundaryEvent_event keep e x command own
    exact ⟨h.of_frame frame (boundaryEvent_step keep command own h.calm),
      fun k => frame.reply.trans (k.resolve_left own)⟩

/-- The events after the taking; no reply is kept beyond its place. -/
theorem AfterTaking.run {s : State} {m : Msg} {rest : List Msg} (keep : Bool) (es : List BoundaryEvent) {x : State}
    (h : AfterTaking s m rest x) (command : .command ∉ es) : AfterTaking s m rest (runEvents keep es x) ∧
      (.reply ∈ es ∨ x.blk.reply = none → (runEvents keep es x).blk.reply = none) := by
  induction es generalizing x with
  | nil => exact ⟨h, fun k => k.resolve_left List.not_mem_nil⟩
  | cons e es ih =>
    simp only [List.mem_cons, not_or] at command
    obtain ⟨next, reply⟩ := h.event keep (Ne.symm command.1)
    obtain ⟨last, done⟩ := ih next command.2
    refine ⟨last, fun k => done ?_⟩
    rcases k with k | k
    · exact (List.mem_cons.1 k).elim (fun e => .inr (reply (.inl e.symm))) .inl
    · exact .inr (reply (.inr k))

/-! ### The taking -/

/-- The hold-off condition, judged again by the same count and trigger, stays (R161). -/
theorem holdAfter_idem (hold : Bool) (n k : Nat) : holdAfter (holdAfter hold n k) n k = holdAfter hold n k := by
  unfold holdAfter
  split
  · rfl
  · split <;> rfl

/-- The part as the command event finds it, where the unit may take the head message. -/
structure CanTake (s : State) (m : Msg) (rest : List Msg) (x : State) : Prop where
  waiting : Waiting x m rest
  turn : x.cmd.turn = true
  hold : x.cmd.hold = s.cmd.hold
  tuning : x.cmd.tuning = s.cmd.tuning
  count : x.blk.count = s.blk.count + 1
  live : x.blk.live = true
  report : x.blk.report = none
  reply : x.blk.reply = none
  host : x.store.host = none
  calm : PortCalm x

theorem takeCommand_waiting {x : State} {m : Msg} {rest : List Msg} (h : Waiting x m rest) (turn : x.cmd.turn = true) :
    takeCommand x = runCommand m { x with cmd := afterTaking x rest } := by
  simp [takeCommand, takeIf, h.idle, h.head, turn, h.room, replyLimit, afterTaking, holdLeft, updateHold]

/-- The hold-off condition that a command leaves. -/
theorem Effect.holdLeft {s x u : State} {rest : List Msg} {c : Command} (h : Effect { x with cmd := c } u)
    (hold : c.hold = holdLeft s rest) (tuning : c.tuning = s.cmd.tuning) (queue : c.queue = rest) :
    u.cmd.hold = holdAfter (holdLeft s rest) rest.length (holdTrigger u.cmd.tuning) := by
  rcases h.hold with ⟨same, settings⟩ | judged
  · rw [same, settings]
    show c.hold = holdAfter _ _ (holdTrigger c.tuning)
    rw [hold, tuning, Machine.holdLeft, holdAfter_idem]
  · rw [judged]
    show holdAfter c.hold c.queue.length _ = _
    rw [hold, queue]

theorem PortCalm.of_cargo {x u : State} (h : PortCalm x)
    (cargo : u.store.port.map (·.cargo) = x.store.port.map (·.cargo)) (host : u.store.host = none) : PortCalm u :=
  ⟨by rw [hostInFlight_iff, cargo, ← hostInFlight_iff]; exact h.flight, fun w e => by rw [host] at e; cases e⟩

/-- What a completed command leaves of the queue and of the boundary is what its own work leaves. -/
theorem completeReply_kept (r : Msg) (u : State) :
    (completeReply r u).store = u.store ∧ (completeReply r u).blk = u.blk ∧
      (completeReply r u).cmd.hold = u.cmd.hold ∧ (completeReply r u).cmd.tuning = u.cmd.tuning := by
  unfold completeReply; split <;> exact ⟨rfl, rfl, rfl, rfl⟩

/-- The taking whose reply joins the queue at once. -/
theorem CanTake.takeCommand {s x : State} {m : Msg} {rest : List Msg} (h : CanTake s m rest x) (kind : m.kind ≠ 0x05) :
    AfterTaking s m rest (endTurn (takeCommand x)) := by
  have left : (afterTaking x rest).hold = holdLeft s rest := by
    show holdAfter x.cmd.hold rest.length (holdTrigger x.cmd.tuning) = _
    rw [h.hold, h.tuning]; rfl
  rw [takeCommand_waiting h.waiting h.turn]
  have frame := runCommand_command m { x with cmd := afterTaking x rest } kind
  rcases runCommand_outcome kind { x with cmd := afterTaking x rest } with
    ⟨port, a, reply, e⟩ | ⟨r, u, reply, effect, report, e⟩
  · rw [e]
    refine ⟨h.count, rfl, rfl, ?_, .inl h.report, ⟨h.calm.flight, fun w e => ?_⟩, .inl ⟨h.reply, .inl ⟨rfl, port, a, reply, rfl⟩⟩⟩
    · show (afterTaking x rest).hold = holdAfter _ _ (holdTrigger x.cmd.tuning)
      rw [left, h.tuning, holdLeft, holdAfter_idem]
    · cases e; exact le_rfl
  · obtain ⟨store, blk, hold, tuning⟩ := completeReply_kept r u
    rw [e] at frame ⊢
    have noHost : (completeReply r u).store.host = none := by rw [store, effect.host]; exact h.host
    refine ⟨?_, rfl, frame.queue, ?_, ?_, ?_, .inl ⟨?_, .inr ⟨noHost, r, reply, completeReply_answered r u⟩⟩⟩
    · show (completeReply r u).blk.count = _
      rw [frame.blk]; exact h.count
    · show (completeReply r u).cmd.hold = holdAfter _ _ (holdTrigger (completeReply r u).cmd.tuning)
      rw [hold, tuning]; exact effect.holdLeft left h.tuning rfl
    · show (completeReply r u).blk.report = _ ∨ (completeReply r u).blk.report = _
      rw [blk]; exact report.imp_left (·.trans h.report)
    · exact PortCalm.of_cargo (u := endTurn (completeReply r u)) h.calm
        (by show (completeReply r u).store.port.map _ = _; rw [store]; exact effect.cargo) noHost
    · show (completeReply r u).blk.reply = _
      rw [frame.blk]; exact h.reply

/-- The taking whose reply is kept for a place of its own (R163). -/
theorem CanTake.takeKeeping {s x : State} {m : Msg} {rest : List Msg} (h : CanTake s m rest x) (kind : m.kind ≠ 0x05) :
    AfterTaking s m rest (endTurn (takeKeeping x)) := by
  have left : (afterTaking x rest).hold = holdLeft s rest := by
    show holdAfter x.cmd.hold rest.length (holdTrigger x.cmd.tuning) = _
    rw [h.hold, h.tuning]; rfl
  have taken : Machine.takeCommand { x with cmd := { x.cmd with replies := [] } } =
      runCommand m { x with cmd := { afterTaking x rest with replies := [] } } :=
    takeCommand_waiting (x := { x with cmd := { x.cmd with replies := [] } })
      ⟨h.waiting.idle, Nat.zero_lt_succ 7, h.waiting.head⟩ h.turn
  have frame := runCommand_command m { x with cmd := { afterTaking x rest with replies := [] } } kind
  have live : (runCommand m { x with cmd := { afterTaking x rest with replies := [] } }).blk.live = true := by
    rw [frame.blk]; exact h.live
  have room : x.cmd.replies.length < replyLimit := h.waiting.room
  unfold Machine.takeKeeping
  rw [if_pos room]
  dsimp only
  rw [taken, if_pos live]
  rcases runCommand_outcome kind { x with cmd := { afterTaking x rest with replies := [] } } with
    ⟨port, a, reply, e⟩ | ⟨r, u, reply, effect, report, e⟩
  · rw [e]
    refine ⟨h.count, rfl, rfl, ?_, .inl h.report, ⟨h.calm.flight, fun w e => ?_⟩, .inl ⟨rfl, .inl ⟨rfl, port, a, reply, rfl⟩⟩⟩
    · show (afterTaking x rest).hold = holdAfter _ _ (holdTrigger x.cmd.tuning)
      rw [left, h.tuning, holdLeft, holdAfter_idem]
    · cases e; exact le_rfl
  · have short : u.cmd.replies.length < 8 := by have : u.cmd.replies.length ≤ 0 + 2 := effect.room; omega
    rw [e, (completeReply_spec r u).1 short] at frame ⊢
    have noHost : u.store.host = none := effect.host.trans h.host
    refine ⟨?_, rfl, frame.queue, effect.holdLeft left h.tuning rfl, report.imp_left (·.trans h.report),
      ⟨(PortCalm.of_cargo h.calm effect.cargo noHost).flight, fun w e => (nomatch noHost.symm.trans e)⟩,
      .inr ⟨r, reply, ?_, noHost⟩⟩
    · show u.blk.count = _
      rw [frame.blk]; exact h.count
    · exact List.getLast?_concat

theorem CanTake.commandEvent {s x : State} {m : Msg} {rest : List Msg} (h : CanTake s m rest x) (kind : m.kind ≠ 0x05)
    (keep : Bool) : AfterTaking s m rest (commandEvent keep x) ∧
      (keep = false → (Machine.commandEvent keep x).blk.reply = none) := by
  cases keep with
  | true => exact ⟨h.takeKeeping kind, nofun⟩
  | false =>
    refine ⟨h.takeCommand kind, fun _ => ?_⟩
    show (Machine.takeCommand x).blk.reply = none
    rw [takeCommand_waiting h.waiting h.turn, (runCommand_command m _ kind).blk]
    exact h.reply

end Sys2Proof.Machine
end

