-- ==== Sys2Proof/Proofs/BoundaryClose.lean ====
section
/-! PROOF. The close of a boundary that takes a command (O36, first half): a report's reply is replaced by one of the
same kind with the values that stand (R177, R179), and a unit that has found the reply queue full has taken
nothing. -/

namespace Sys2Proof.Machine

/-! ### The last message of a kind, replaced -/

/-- One step of `replaceLast`, from the end of the queue. -/
def replaceStep (kind : Byte) (r : Msg) (acc : Bool × List Msg) (m : Msg) : Bool × List Msg :=
  if !acc.1 && m.kind == kind then (true, r :: acc.2) else (acc.1, m :: acc.2)

theorem replaceLast_steps (kind : Byte) (r : Msg) (q : List Msg) :
    replaceLast kind r q = (q.reverse.foldl (replaceStep kind r) (false, [])).2 := rfl

/-- Steps over messages of other kinds, or after the replacement, keep the messages. -/
theorem foldl_replaceStep_kept {kind : Byte} {r : Msg} {done : Bool} (l acc : List Msg)
    (h : done = true ∨ ∀ x ∈ l, x.kind ≠ kind) :
    l.foldl (replaceStep kind r) (done, acc) = (done, l.reverse ++ acc) := by
  induction l generalizing acc with
  | nil => rfl
  | cons m l ih =>
    have other : replaceStep kind r (done, acc) m = (done, m :: acc) := by
      refine if_neg fun c => ?_
      simp only [Bool.and_eq_true, Bool.not_eq_true', beq_iff_eq] at c
      rcases h with rfl | h
      · exact Bool.noConfusion c.1
      · exact h m (List.mem_cons_self ..) c.2
    rw [List.foldl_cons, other, ih _ (h.imp_right fun h x hx => h x (List.mem_cons_of_mem _ hx))]
    simp

theorem replaceLast_split {kind : Byte} (r : Msg) {old : Msg} (before : List Msg) {after : List Msg}
    (is : old.kind = kind) (last : ∀ x ∈ after, x.kind ≠ kind) :
    replaceLast kind r (before ++ old :: after) = before ++ r :: after := by
  have found : replaceStep kind r (false, after) old = (true, r :: after) :=
    if_pos (by simp [is])
  rw [replaceLast_steps, List.reverse_append, List.reverse_cons, List.foldl_append, List.foldl_append,
    foldl_replaceStep_kept _ _ (.inr fun x hx => last x (List.mem_reverse.1 hx)), List.reverse_reverse,
    List.append_nil, List.foldl_cons, List.foldl_nil, found, foldl_replaceStep_kept _ _ (.inl rfl),
    List.reverse_reverse]

/-- A queue with a message of a kind has a last one. -/
theorem exists_last_of_kind {kind : Byte} {q : List Msg} (h : ∃ x ∈ q, x.kind = kind) :
    ∃ before old after, q = before ++ old :: after ∧ old.kind = kind ∧ ∀ x ∈ after, x.kind ≠ kind := by
  induction q with
  | nil => obtain ⟨x, hx, -⟩ := h; cases hx
  | cons m q ih =>
    by_cases later : ∃ x ∈ q, x.kind = kind
    · obtain ⟨before, old, after, e, is, last⟩ := ih later
      exact ⟨m :: before, old, after, by rw [e]; rfl, is, last⟩
    · obtain ⟨x, hx, is⟩ := h
      rcases List.mem_cons.1 hx with rfl | hx
      · exact ⟨[], x, q, rfl, is, fun y hy e => later ⟨y, hy, e⟩⟩
      · exact absurd ⟨x, hx, is⟩ later

theorem mem_replaceLast {kind : Byte} (r : Msg) {q : List Msg} (h : ∃ x ∈ q, x.kind = kind) :
    r ∈ replaceLast kind r q := by
  obtain ⟨before, old, after, rfl, is, last⟩ := exists_last_of_kind h
  rw [replaceLast_split r before is last]
  simp

/-! ### The report by the values that stand -/

theorem reportReply_kind {m r : Msg} {s : State} (h : reportReply m s = some r) : r.kind = m.kind + 0x80 := by
  unfold reportReply at h
  split at h
  · cases h; exact statusReadReply_kind m s
  · cases h; exact tableReadReply_kind m s
  · cases h; exact eventReadReply_kind m s
  · cases h; exact healthReadReply_kind m s
  · cases h; exact slotReadReply_kind m s
  · cases h

/-- What the end of a boundary makes of a report's reply. -/
theorem refreshReport_cases (x : State) : refreshReport x = x ∨
    ∃ m r, x.blk.report = some m ∧ reportReply m x = some r ∧
      ((∃ held, x.cmd.state = .replyHeld held ∧
          refreshReport x = { x with cmd := { x.cmd with state := .replyHeld r } }) ∨
        (∀ held, x.cmd.state ≠ .replyHeld held) ∧
          refreshReport x = { x with cmd := { x.cmd with replies := replaceLast r.kind r x.cmd.replies } }) := by
  unfold refreshReport
  split
  · exact .inl rfl
  · next m report =>
    split
    · exact .inl rfl
    · next r reply =>
      refine .inr ⟨m, r, report, reply, ?_⟩
      split
      · next held state => exact .inl ⟨held, state, rfl⟩
      · next state => exact .inr ⟨fun held e => (nomatch state.symm.trans e), rfl⟩
      · next state => exact .inr ⟨fun held e => (nomatch state.symm.trans e), rfl⟩

/-- The replaced reply still is the host's answer. -/
theorem refreshReport_owed {m : Msg} {x : State} (report : x.blk.report = none ∨ x.blk.report = some m)
    (owed : Owed m x) : Owed m (refreshReport x) := by
  rcases refreshReport_cases x with e | ⟨m', r, noted, reply, e⟩
  · rw [e]; exact owed
  · have same : m' = m := by
      rcases report with none | some
      · rw [none] at noted; cases noted
      · exact Option.some.inj (noted.symm.trans some)
    subst same
    have kind := reportReply_kind reply
    rcases e with ⟨held, state, e⟩ | ⟨notHeld, e⟩ <;> rw [e]
    · rcases owed with ⟨waits, -⟩ | ⟨host, -⟩
      · rw [state] at waits; cases waits
      · exact .inr ⟨host, r, kind, .inr rfl⟩
    · rcases owed with waits | ⟨host, old, is, answered⟩
      · exact .inl waits
      · exact .inr ⟨host, r, kind, .inl (mem_replaceLast r
          ⟨old, answered.resolve_right (notHeld old), is.trans kind.symm⟩)⟩

theorem assembleOutput_kept (s : State) : HostKept s (assembleOutput s) := by
  unfold assembleOutput handMonitors
  apply HostKept.of_same <;> dsimp only

theorem closeBlock_owed {s x : State} {m : Msg} {rest : List Msg} (h : AfterTaking s m rest x)
    (reply : x.blk.reply = none) :
    let t := closeBlock x
    t.blk.count = s.blk.count + 1 ∧ t.cmd.turn = false ∧ t.blk.reply = none ∧ t.cmd.queue = rest ∧
      t.cmd.hold = holdAfter (holdLeft s rest) rest.length (holdTrigger t.cmd.tuning) ∧ Owed m t := by
  have assembled : AfterTaking s m rest (whileLive assembleOutput x) :=
    h.of_frame (whileLive_event (assembleOutput_event x)) (.inl (whileLive_kept (assembleOutput_kept x)))
  have f := refreshReport_event (whileLive assembleOutput x)
  have none : (whileLive assembleOutput x).blk.reply = none :=
    (whileLive_event (assembleOutput_event x)).reply.trans reply
  have owed : Owed m (whileLive assembleOutput x) := assembled.owed.elim (·.2) fun ⟨r, _, kept, _⟩ => by
    rw [none] at kept; cases kept
  refine ⟨f.count.trans assembled.count, ?_, f.reply.trans none, ?_, ?_, refreshReport_owed assembled.report owed⟩
  · show (refreshReport _).cmd.turn = false
    rw [f.cmd]; exact assembled.turn
  · show (refreshReport _).cmd.queue = rest
    rw [f.cmd]; exact assembled.queue
  · show (refreshReport _).cmd.hold = holdAfter _ _ (holdTrigger (refreshReport _).cmd.tuning)
    rw [f.cmd]; exact assembled.hold

/-! ### The boundary -/

/-- The part as the opening of the boundary leaves it. -/
structure Opened (s o : State) : Prop where
  cmd : o.cmd = { s.cmd with turn := true }
  mode : o.ev.mode = s.ev.mode
  count : o.blk.count = s.blk.count + 1
  live : o.blk.live = true
  report : o.blk.report = none
  before : BeforeTaking o o

theorem openBlock_opened {s : State} (idle : s.cmd.state = .idle) (sound : UnitSound s) (sees : RefId → Bool) :
    Opened s (openBlock sees (appendHeld s)) := by
  have placed : appendHeld s = s := by unfold appendHeld; rw [idle]
  have noAccess : ¬ (s.store.host.isSome = true ∨ hostInFlight s) := fun c => by
    have := sound.wait.2 c
    rw [idle] at this; cases this
  obtain ⟨noHost, noFlight⟩ := not_or.1 noAccess
  have host : s.store.host = none := Option.not_isSome_iff_eq_none.1 noHost
  rw [placed]
  have f := openBlock_open sees s
  have opened : (openBlock sees s).store.host = none := by rw [f.store]; exact host
  exact ⟨f.cmd, by rw [f.ev]; rfl, f.count, f.live, f.report,
    ⟨.refl _, .refl _, ⟨by unfold hostInFlight; rw [f.store]; exact noFlight,
      fun w e => nomatch opened.symm.trans e⟩, opened, f.reply⟩⟩

/-- Where the events before the taking leave room, the unit may take the head message. -/
theorem BeforeTaking.canTake {s o x : State} {m : Msg} {rest : List Msg} (h : BeforeTaking o x) (opened : Opened s o)
    (waiting : Waiting s m rest) (room : x.cmd.replies.length < 8) : CanTake s m rest x := by
  have cmd := h.frame.cmd
  rw [opened.cmd] at cmd
  exact ⟨⟨by rw [h.kept.state, opened.cmd]; exact waiting.idle, room, by rw [cmd]; exact waiting.head⟩,
    by rw [cmd], by rw [cmd], by rw [cmd], h.frame.count.trans opened.count, h.frame.live.trans opened.live,
    h.frame.report.trans opened.report, h.reply, h.host, h.calm⟩

/-- A unit that finds the reply queue full takes nothing, and its turn ends (R162). -/
theorem commandEvent_full {x : State} (full : 8 ≤ x.cmd.replies.length) (keep : Bool) :
    commandEvent keep x = endTurn x := by
  unfold commandEvent
  cases keep with
  | true => rw [if_pos rfl, takeKeeping, if_neg (by show ¬ _ < 8; omega)]
  | false =>
    rw [if_neg Bool.false_ne_true, takeCommand]
    exact congrArg endTurn (takeIf_not _ _ (.inr (.inr (.inl full))))

theorem BeforeTaking.endTurn {o x : State} (h : BeforeTaking o x) : BeforeTaking (endTurn x) (endTurn x) :=
  ⟨.refl _, .refl _, ⟨h.calm.flight, h.calm.born⟩, h.host, h.reply⟩

/-- The close of a boundary at which nothing was taken. -/
theorem closeBlock_untaken {o x : State} (h : BeforeTaking o x) (report : o.blk.report = none) :
    EventFrame o (closeBlock x) ∧ HostKept o (closeBlock x) ∧ (closeBlock x).blk.reply = none := by
  have assembled := h.frame.trans (whileLive_event (assembleOutput_event x))
  have kept := h.kept.trans (whileLive_kept (assembleOutput_kept x))
  have same : closeBlock x = whileLive assembleOutput x := by
    show refreshReport _ = _
    unfold refreshReport
    rw [assembled.report, report]
  rw [same]
  exact ⟨assembled, kept, (whileLive_event (assembleOutput_event x)).reply.trans h.reply⟩

/-- A boundary whose order holds the command event, for a unit that finds a message waiting. -/
theorem boundary_takesCommand {order : List BoundaryEvent} {s : State} {m : Msg} {rest : List Msg}
    (waiting : Waiting s m rest) (command : .command ∈ order) (sound : UnitSound s) (kind : m.kind ≠ 0x05) :
    let t := boundary order s
    t.blk.count = s.blk.count + 1 ∧ t.cmd.turn = false ∧ t.blk.reply = none ∧
      ((t.cmd.queue = rest ∧
        t.cmd.hold = holdAfter (holdLeft s rest) rest.length (holdTrigger t.cmd.tuning) ∧ Owed m t) ∨
       (s.ev.mode ≠ .none ∧ order.head? ≠ some .command ∧ t.cmd.queue = m :: rest ∧
        t.cmd.hold = s.cmd.hold ∧ t.cmd.state = .idle ∧ 8 ≤ t.cmd.replies.length)) := by
  obtain ⟨p, q, events, notBefore, notAfter, first⟩ := eventOrder_command command
  have opened := openBlock_opened waiting.idle sound (controllerSees (eventOrder order) (appendHeld s))
  unfold boundary
  dsimp only
  generalize openBlock (controllerSees (eventOrder order) (appendHeld s)) (appendHeld s) = o at opened
  rw [events]
  have kept := keepsReply_split (q := q) notBefore
  generalize keepsReply (p ++ .command :: q) = keep at kept
  have before := opened.before.run keep p notBefore
  have split : runEvents keep (p ++ .command :: q) o =
      runEvents keep q (commandEvent keep (runEvents keep p o)) := by
    unfold runEvents
    rw [List.foldl_append, List.foldl_cons]
    rfl
  have start : p = [] → runEvents keep p o = o := by rintro rfl; rfl
  rw [split]
  generalize runEvents keep p o = x at before start
  by_cases room : x.cmd.replies.length < 8
  · obtain ⟨taken, atOnce⟩ := (before.canTake opened waiting room).commandEvent kind keep
    obtain ⟨after, done⟩ := taken.run keep q notAfter
    have reply := done (by
      cases keep with
      | true => exact .inl (kept.1 rfl)
      | false => exact .inr (atOnce rfl))
    obtain ⟨count, turn, none, queue, hold, owed⟩ := closeBlock_owed after reply
    exact ⟨count, turn, none, .inl ⟨queue, hold, owed⟩⟩
  · have full : 8 ≤ x.cmd.replies.length := Nat.le_of_not_lt room
    have replies : o.cmd.replies = s.cmd.replies := by rw [opened.cmd]
    have short := waiting.room
    rw [commandEvent_full full]
    have after := before.endTurn.run keep q notAfter
    obtain ⟨f, k, none⟩ := closeBlock_untaken after (before.frame.report.trans opened.report)
    have cmd := before.frame.cmd
    rw [opened.cmd] at cmd
    refine ⟨f.count.trans (before.frame.count.trans opened.count), by rw [f.cmd]; rfl, none, .inr
      ⟨fun silent => ?_, fun head => ?_, ?_, ?_, ?_, full.trans k.replies.length_le⟩⟩
    · rw [before.kept.silent (opened.mode.trans silent), replies] at full
      omega
    · rw [start (first head), replies] at full
      omega
    · rw [f.cmd]
      show x.cmd.queue = _
      rw [cmd]; exact waiting.head
    · rw [f.cmd]
      show x.cmd.hold = _
      rw [cmd]
    · rw [k.state]
      show x.cmd.state = _
      rw [before.kept.state, opened.cmd]; exact waiting.idle

end Sys2Proof.Machine
end

