-- ==== Sys2Proof/Proofs/BoundaryEnd.lean ====
section
/-! PROOF. The end of a boundary (O36, second half): what is left of its events, the report by the values that stand
after them, and the delivery of what the block's last frame has brought; and O36. -/

namespace Sys2Proof.Machine

/-! ### The gate -/

theorem EndFrame.atBoundary {s t : State} (f : EndFrame s t) (h : AtBoundary s) : AtBoundary t :=
  ⟨f.resetn.trans h.resetn, by rw [f.frames, f.count]; exact h.frame⟩

theorem endBoundary_elsewhere {s : State} (h : ¬ AtBoundary { s with resetn := true }) : endBoundary s = s :=
  endBoundary_off (Bool.eq_false_iff.2 fun at' => h ⟨rfl, (atBoundary_iff s).1 at'⟩)

/-! ### The taking -/

/-- A command leaves the turn ended: SOFT RESET leaves none (R39). -/
theorem runCommand_turn (m : Msg) {s : State} (h : s.cmd.turn = false) : (runCommand m s).cmd.turn = false := by
  by_cases k : m.kind = 0x05
  · rw [runCommand, k]
    show (runSoftReset m s).cmd.turn = false
    have replied : ∀ r (u : State), u.cmd.turn = false → (completeReply r u).cmd.turn = false := fun r u e => by
      rw [(completeReply_command r u).turn]; exact e
    unfold runSoftReset withLength judgeSoftReset
    split
    · split
      · exact replied _ _ h
      · exact replied _ _ rfl
    · exact replied _ _ h
  · rw [(runCommand_command m s k).turn]; exact h

/-- A unit that is ready carries out the message at its head by its row, and its turn is over. -/
theorem commandEvent_ready {s : State} {row : Instr} {pred : Msg → Bool} {m : Msg} {rest : List Msg}
    (taking : taken row = some pred) (ready : Ready s m rest) (picked : pred m = true) :
    exec row s = .next (commandEvent false s) := by
  have turn := runCommand_turn m (s := { s with cmd := afterTaking s rest }) rfl
  rw [exec_hostRow taking, upAtBoundary_at _ ready.boundary, takeIf_ready pred runCommand ready picked]
  show _ = Host.Outcome.next (endTurn (takeCommand s))
  rw [takeCommand, takeIf_ready _ runCommand ready rfl]
  generalize runCommand m { s with cmd := afterTaking s rest } = u at turn
  rw [endTurn, ← turn]

/-- A unit that is not ready takes nothing, and its turn is over. -/
theorem commandEvent_idle {s : State} (at' : AtBoundary s) (notReady : ∀ m rest, ¬ Ready s m rest) :
    commandEvent false s = { s with cmd := { s.cmd with turn := false } } := by
  show endTurn (takeCommand s) = endTurn s
  rcases takeIf_cases (fun _ => true) runCommand s with e | ⟨m, rest, waiting, turn, -, -⟩
  · exact congrArg endTurn e
  · exact absurd ⟨at', turn, waiting.idle, waiting.room, waiting.head⟩ (notReady m rest)

theorem commandEvent_atBoundary {s : State} (h : AtBoundary s) : AtBoundary (commandEvent false s) := by
  have taken := (takeCommand_end s).atBoundary h
  exact ⟨taken.resetn, taken.frame⟩

/-! ### The report (R177, R179) -/

/-- The part with a message put at the head of the command queue, and the unit ready to take it. -/
def readyFor (m : Msg) (c : State) : State :=
  { c with cmd := { c.cmd with state := .idle, queue := m :: c.cmd.queue, replies := [], turn := true } }

theorem ready_readyFor (m : Msg) {c : State} (at' : AtBoundary c) : Ready (readyFor m c) m c.cmd.queue :=
  ⟨⟨at'.resetn, at'.frame⟩, rfl, rfl, Nat.zero_lt_succ 7, rfl⟩

/-- What a report command would be answered with, where the unit stood ready for it, is what the end of the boundary
answers it with. -/
theorem reportReply_of_exec {c x : State} {m r : Msg} {row : Instr} {pred : Msg → Bool} (at' : AtBoundary c)
    (taking : taken row = some pred) (picked : pred m = true)
    (kind : m.kind = 0x01 ∨ m.kind = 0x11 ∨ m.kind = 0x20 ∨ m.kind = 0x28 ∨ m.kind = 0x29)
    (run : exec row (readyFor m c) = .next x) (alone : x.cmd.replies = [r]) : reportReply m c = some r := by
  have ready := ready_readyFor m at'
  rw [exec_hostRow taking, upAtBoundary_at _ ready.boundary, takeIf_ready pred runCommand ready picked] at run
  cases run
  have answer : ∀ reply : Msg → State → Msg,
      (report reply m { readyFor m c with cmd := afterTaking (readyFor m c) c.cmd.queue }).cmd.replies = [r] →
      reply m { readyFor m c with cmd := afterTaking (readyFor m c) c.cmd.queue } = r := fun reply e => by
    cases e; rfl
  rcases kind with k | k | k | k | k
  all_goals
    rw [runCommand, k] at alone
    rw [reportReply, k]
    exact congrArg some (answer _ alone)

theorem refreshReport_none {c : State} (h : c.blk.report = none) : refreshReport c = c := by
  unfold refreshReport; rw [h]

/-- The report writes the unit's replies alone. -/
theorem refreshReport_frame (c : State) : refreshReport c = { c with
    cmd := { c.cmd with state := (refreshReport c).cmd.state, replies := (refreshReport c).cmd.replies } } := by
  rcases refreshReport_cases c with e | ⟨m, r, -, -, ⟨held, -, e⟩ | ⟨-, e⟩⟩ <;> rw [e]

/-- The report's reply, held or in the queue, gives way to the one by the values that stand. -/
theorem refreshReport_reply {c : State} {m r : Msg} (report : c.blk.report = some m) (reply : reportReply m c = some r) :
    (∀ held, c.cmd.state = .replyHeld held →
      (refreshReport c).cmd.state = .replyHeld r ∧ (refreshReport c).cmd.replies = c.cmd.replies) ∧
    ∀ before old after, (∀ held, c.cmd.state ≠ .replyHeld held) →
      c.cmd.replies = before ++ old :: after → old.kind = r.kind → (∀ x ∈ after, x.kind ≠ r.kind) →
      (refreshReport c).cmd.state = c.cmd.state ∧ (refreshReport c).cmd.replies = before ++ r :: after := by
  unfold refreshReport
  rw [report]
  dsimp only
  rw [reply]
  dsimp only
  refine ⟨fun held state => ?_, fun before old after notHeld replies is last => ?_⟩
  · rw [state]
    exact ⟨rfl, rfl⟩
  · have replaced := replaceLast_split r before is last
    cases state : c.cmd.state with
    | replyHeld held => exact absurd state (notHeld held)
    | idle => exact ⟨rfl, by dsimp only; rw [replies, replaced]⟩
    | portWait => exact ⟨rfl, by dsimp only; rw [replies, replaced]⟩

/-! ### What the Array Link has brought (R32, R191) -/

/-- What the Array Link's control field changes: its assembly, the steer error count and the steer queue. -/
def ArrayFrame (s t : State) : Prop :=
  t = { s with
    ports := { s.ports with arrayAsm := t.ports.arrayAsm, steerErrors := t.ports.steerErrors }
    router := { s.router with queue := t.router.queue } }

theorem ArrayFrame.refl (s : State) : ArrayFrame s s := rfl

theorem ArrayFrame.trans {s t u : State} (h : ArrayFrame s t) (k : ArrayFrame t u) : ArrayFrame s u := by
  unfold ArrayFrame at h k ⊢
  rw [k, h]

theorem ArrayFrame.foldl {α : Type} (f : State → α → State) (h : ∀ s x, ArrayFrame s (f s x)) (l : List α)
    (s : State) : ArrayFrame s (l.foldl f s) := by
  induction l generalizing s with
  | nil => exact .refl s
  | cons x l ih => exact (h s x).trans (ih _)

theorem deliverSteer_array (m : Msg) (s : State) : ArrayFrame s (deliverSteer m s) := by
  unfold deliverSteer steerError; split <;> rfl

theorem settleAsm_array (f : Nat) (r : Assembly × AsmOutcome) (s : State) : ArrayFrame s (settleAsm .array f r s) := by
  have put : ArrayFrame s (setAsm .array r.1 s) := rfl
  unfold settleAsm
  split
  · exact put
  · exact put.trans (deliverSteer_array _ _)
  · exact put.trans rfl

theorem feedControl_array (f : Nat) (data : Option Byte) (s : State) : ArrayFrame s (feedControl .array f data s) := by
  unfold feedControl; split
  · exact settleAsm_array f _ s
  · exact settleAsm_array f _ s

/-- The control fields of the block's last frame are taken as those of a frame inside a block. -/
theorem joinControl_eq (e : State) : joinControl e =
    e.ports.lateSteers.foldl (fun s m => deliverSteer m s)
      (e.ports.lateControl.foldl (fun s x => takeControl .array 0 x s)
        { e with ports := { e.ports with lateControl := [], lateSteers := [] } }) := by
  have now : (fun s x => takeControl .array 0 x s) = fun s x => feedControl .array 0 x s :=
    funext fun s => funext fun x => takeControl_now (.inr fun h => absurd h.1 (by decide)) x
  rw [now]
  rfl

theorem joinControl_frame (e : State) : joinControl e = { e with
    ports := { e.ports with
      lateControl := [], lateSteers := []
      arrayAsm := (joinControl e).ports.arrayAsm, steerErrors := (joinControl e).ports.steerErrors }
    router := { e.router with queue := (joinControl e).router.queue } } :=
  (ArrayFrame.foldl _ (fun s x => feedControl_array 0 x s) e.ports.lateControl
    { e with ports := { e.ports with lateControl := [], lateSteers := [] } }).trans
    (.foldl _ (fun s m => deliverSteer_array m s) e.ports.lateSteers _)

/-- Settles O36: `boundary_takesCommand` for the boundary's own work, and for its end the rows of the steer queue, of
the store port and of the host's commands, the report, and what the block's last frame has brought, in turn. -/
theorem boundaryTakesCommand : Obligations.BoundaryTakesCommand := by
  unfold Obligations.BoundaryTakesCommand
  refine ⟨fun order s m rest due waiting command sound kind => ?_, fun s => ⟨endBoundary_elsewhere, fun at' => ?_⟩⟩
  · obtain ⟨count, turn, reply, h⟩ := boundary_takesCommand waiting command sound kind
    refine ⟨boundary order s, execBlockBoundary_due order due, count, turn, reply, h.imp_left ?_⟩
    rintro ⟨queue, hold, ⟨state, port, a, -, host⟩ | ⟨-, answered⟩⟩
    · exact ⟨queue, hold, .inl ⟨state, port, a, host⟩⟩
    · exact ⟨queue, hold, .inr answered⟩
  · have atA := (applySteer_event s).toEnd.atBoundary at'
    have atB := (grantDue_frame (applySteer s)).event.toEnd.atBoundary atA
    have atC := commandEvent_atBoundary atB
    have done : endBoundary s = joinControl (joinCommands (refreshReport
        (commandEvent false (grantDue (applySteer s))))) := endBoundary_at at'
    refine ⟨_, _, _, _, _, upAtBoundary_at applySteer at', upAtBoundary_at grantDue atA,
      fun row pred m rest taking ready picked => commandEvent_ready taking ready picked, commandEvent_idle atB,
      refreshReport_none, refreshReport_frame _, fun m r row pred x report taking picked kind run alone =>
        refreshReport_reply report (reportReply_of_exec atC taking picked kind run alone),
      rfl, _, done, joinControl_eq _, joinControl_frame _⟩

end Sys2Proof.Machine
end

