-- ==== Sys2Proof/Proofs/Queues.lean ====
section
/-! PROOF. The bounds of the queues (O6): every operation of the pool, of the store and of the host's commands keeps
at most 8 commands, 8 replies and 8 capture records, one steering record for each beam and one fill request for each
slot (R33, R124, R126, R160, R165). -/

namespace Sys2Proof.Machine

section Operations

variable {s : State}

/-! ### Setters -/

theorem setSlotState_queues (h : QueuesBounded s) (sl : SlotId) (st : SlotState) :
    QueuesBounded (setSlotState sl st s) := { h with }

theorem setPair_queues (h : QueuesBounded s) (p : PairId) (e : PairEntry) : QueuesBounded (setPair p e s) :=
  { h with }

theorem setWaiting_queues (h : QueuesBounded s) (w : List PairId) : QueuesBounded (setWaiting w s) := { h with }

theorem setCoreSlot_queues (h : QueuesBounded s) (sl : SlotId) (x : CoreSlot) :
    QueuesBounded (setCoreSlot sl x s) := { h with }

theorem setCtlBeam_queues (h : QueuesBounded s) (b : BeamId) (x : CtlBeam) : QueuesBounded (setCtlBeam b x s) :=
  { h with }

theorem setPhaseKeepRun_queues (h : QueuesBounded s) (sl : SlotId) (ph : Phase) :
    QueuesBounded (setPhaseKeepRun sl ph s) := { h with }

theorem setSets_queues (h : QueuesBounded s) (x : Vector StoreSet 128) : QueuesBounded (setSets x s) := { h with }

theorem setPort_queues (h : QueuesBounded s) (t : Option Transfer) : QueuesBounded (setPort t s) := { h with }

theorem setHost_queues (h : QueuesBounded s) (a : Option HostWait) : QueuesBounded (setHost a s) := { h with }

theorem setWritten_queues (h : QueuesBounded s) (w : BitVec 64) : QueuesBounded (setWritten w s) := { h with }

theorem writeWay_queues (h : QueuesBounded s) (p : SetId) (w : WayId) (e : Entry) :
    QueuesBounded (writeWay p w e s) := { h with }

theorem setMem_queues (h : QueuesBounded s) (m : TapMem) : QueuesBounded (setMem m s) := { h with }

theorem setPhaseRun_queues (h : QueuesBounded s) (sl : SlotId) (ph : Phase) :
    QueuesBounded (setPhaseRun sl ph s) := { h with }

theorem installHead_queues (h : QueuesBounded s) (sl : SlotId) (hd : Head) : QueuesBounded (installHead sl hd s) :=
  setPhaseRun_queues (setCoreSlot_queues (setMem_queues h _) sl _) sl _

theorem reserveWay_queues (h : QueuesBounded s) (p : SetId) (w : WayId) (tag : Nat) :
    QueuesBounded (reserveWay p w tag s) := { h with }

/-- The boundary's notes hold no queue. -/
theorem blk_queues (h : QueuesBounded s) (b : Block) : QueuesBounded { s with blk := b } := { h with }

/-- Requests that stood in the fill queue, in their order, keep its bound. -/
theorem setFills_queues (h : QueuesBounded s) {q : List FillReq} (sub : q.Sublist s.store.fills) :
    QueuesBounded (setFills q s) := { h with fills := h.fills.sublist (sub.map _) }

/-- Records that stood in the capture area keep its bound. -/
theorem setCaptures_queues (h : QueuesBounded s) {q : List CaptureRec} (sub : q.Sublist s.store.captures) :
    QueuesBounded (setCaptures q s) := { h with captures := sub.length_le.trans h.captures }

/-! ### Requests and captures (R124, R126) -/

theorem raiseTicket_queues (h : QueuesBounded s) (sl : SlotId) : QueuesBounded (raiseTicket sl s) :=
  setFills_queues (setCoreSlot_queues h sl _) List.filter_sublist

/-- A request that enters the queue takes the place of its slot's earlier one (R123). -/
theorem pushFill_queues (h : QueuesBounded s) (sl : SlotId) (p : SetId) (tag : Nat) :
    QueuesBounded (pushFill sl p tag s) :=
  { h with
    fills := by
      have kept : ((s.store.fills.filter (·.slot ≠ sl)).map (·.slot)).Nodup :=
        h.fills.sublist (List.filter_sublist.map _)
      simp only [pushFill, setFills_store, List.map_append, List.map_cons, List.map_nil]
      refine List.nodup_append.2 ⟨kept, List.nodup_singleton _, fun a ha b hb => ?_⟩
      obtain ⟨r, hr, rfl⟩ := List.mem_map.1 ha
      obtain rfl := List.mem_singleton.1 hb
      exact of_decide_eq_true (List.mem_filter.1 hr).2 }

theorem lookup_queues (h : QueuesBounded s) (sl : SlotId) (p : SetId) (tag : Nat) :
    QueuesBounded (lookup sl p tag s) := by
  unfold lookup; split
  · exact pushFill_queues h sl p tag
  · exact h

/-- Ordering an event's requests keeps the requests that stand (R124). -/
theorem orderRequests_queues (h : QueuesBounded s) (before : List FillReq) :
    QueuesBounded (orderRequests before s) :=
  { h with fills := ((orderRequests_spec before s).2.2.map _).nodup_iff.2 h.fills }

theorem pushCapture_queues (h : QueuesBounded s) (room : captureRoom s = true) (sl : SlotId) (p : SetId)
    (tag q : Nat) : QueuesBounded (pushCapture sl p tag q s) :=
  { h with
    captures := by
      have few : s.store.captures.length < 8 := of_decide_eq_true room
      simp only [pushCapture, setCaptures_store, List.length_append, List.length_singleton]
      omega }

/-! ### Reports and replies (R163, R183) -/

theorem reportSource_queues (h : QueuesBounded s) (src : Source) : QueuesBounded (reportSource src s) := by
  obtain ⟨n, -, -, e⟩ := reportSource_cases src s
  have replies := reportSource_replies src s h.replies
  rw [e] at replies ⊢
  exact { h with replies := replies }

theorem reportDiverged_queues (h : QueuesBounded s) (b : BeamId) : QueuesBounded (reportDiverged b s) :=
  reportSource_queues (s := { s with ev := { s.ev with diverged := setInsert s.ev.diverged b.val } }) { h with } _

theorem reportDegraded_queues (h : QueuesBounded s) (b : BeamId) : QueuesBounded (reportDegraded b s) :=
  reportSource_queues (s := { s with ev := { s.ev with degraded := setInsert s.ev.degraded b.val } }) { h with } _

theorem reportMsgError_queues (h : QueuesBounded s) (c : MsgCause) : QueuesBounded (reportMsgError c s) :=
  reportSource_queues (s := { s with ev := { s.ev with causes := setInsert s.ev.causes (causeBit c) } }) { h with } _

theorem completeReply_queues (h : QueuesBounded s) (r : Msg) : QueuesBounded (completeReply r s) := by
  have replies := completeReply_replies r s h.replies
  unfold completeReply at replies ⊢
  split at replies
  · next c => rw [if_pos c]; exact { h with replies := replies }
  · next c => rw [if_neg c]; exact { h with }

/-! ### Assignment and release (R104 to R109) -/

theorem coldSlot_queues (h : QueuesBounded s) (sl : SlotId) : QueuesBounded (coldSlot sl s) := by
  have zeroed : QueuesBounded (zeroSlot sl s) := { h with }
  exact { raiseTicket_queues zeroed sl with }

theorem assignSlot_queues (h : QueuesBounded s) (sl : SlotId) (p : PairId) : QueuesBounded (assignSlot sl p s) := by
  have cold := coldSlot_queues (setPair_queues (setSlotState_queues h sl (.running p)) p (.held sl)) sl
  exact lookup_queues (blk_queues (setCoreSlot_queues cold sl _) _) sl p _

theorem giveToWaiter_queues (h : QueuesBounded s) (sl : SlotId) : QueuesBounded (giveToWaiter sl s) := by
  unfold giveToWaiter; split
  · exact h
  · exact assignSlot_queues (setWaiting_queues h _) sl _

theorem freeSlot_queues (h : QueuesBounded s) (sl : SlotId) (p : PairId) : QueuesBounded (freeSlot sl p s) :=
  giveToWaiter_queues (setSlotState_queues (setPair_queues h p _) sl _) sl

theorem releaseSlot_queues (h : QueuesBounded s) (sl : SlotId) (p : PairId) :
    QueuesBounded (releaseSlot sl p s) := by
  have raised := raiseTicket_queues h sl
  unfold releaseSlot; dsimp only; split
  · split
    · next room => exact freeSlot_queues (pushCapture_queues raised room sl p _ _) sl p
    · exact setSlotState_queues raised sl _
  · exact freeSlot_queues raised sl p

theorem roomReport_queues (h : QueuesBounded s) : QueuesBounded (roomReport s) := by
  unfold roomReport; split
  · split
    · next room => exact freeSlot_queues (pushCapture_queues h room _ _ _ _) _ _
    · exact h
  · exact h

theorem roomReports_queues (h : QueuesBounded s) (n : Nat) : QueuesBounded (roomReports n s) :=
  foldl_keeps _ _ (fun _ _ _ k => roomReport_queues k) h

/-- A sweep over the slots that does to each nothing, or something that keeps the bounds, keeps them. -/
theorem sweep_queues (h : QueuesBounded s) (f : State → SlotId → State)
    (k : ∀ {s}, QueuesBounded s → ∀ sl, QueuesBounded (f s sl)) : QueuesBounded (allSlots.foldl f s) :=
  foldl_keeps f _ (fun _ sl _ h => k h sl) h

theorem freeDraining_queues (h : QueuesBounded s) (which : SetId → Bool) : QueuesBounded (freeDraining which s) := by
  refine sweep_queues h _ fun h sl => ?_
  split
  · split
    · exact freeSlot_queues h sl _
    · exact h
  · exact h
  · exact h

theorem captureOrDrop_queues (h : QueuesBounded s) (sl : SlotId) (p : PairId) (tag : Nat) :
    QueuesBounded (captureOrDrop sl p tag s) := by
  unfold captureOrDrop; split
  · split
    · next room => exact pushCapture_queues h room sl p tag _
    · exact reportSource_queues h _
  · exact h

theorem preemptSlot_queues (h : QueuesBounded s) (sl : SlotId) (q : PairId) : QueuesBounded (preemptSlot sl q s) :=
  giveToWaiter_queues (setWaiting_queues (setSlotState_queues
    (setPair_queues (raiseTicket_queues (captureOrDrop_queues h sl q _) sl) q _) sl _) _) sl

/-! ### Changes of wanted-ness (R101, R104, R106, R115) -/

theorem unwantPair_queues (h : QueuesBounded s) (p : PairId) : QueuesBounded (unwantPair p s) := by
  unfold unwantPair; split
  · exact h
  · exact setPair_queues (setWaiting_queues h _) p _
  · split
    · exact releaseSlot_queues h _ _
    · exact h
    · exact h

theorem joinWait_queues (h : QueuesBounded s) (p : PairId) : QueuesBounded (joinWait p s) := by
  have joined := reportSource_queues (setPair_queues (setWaiting_queues h (s.alloc.waiting ++ [p])) p .waiting) .poolFull
  unfold joinWait; dsimp only; split
  · split
    · exact preemptSlot_queues joined _ _
    · exact joined
  · exact joined

theorem wantPair_queues (h : QueuesBounded s) (p : PairId) : QueuesBounded (wantPair p s) := by
  unfold wantPair; split
  · split
    · exact setSlotState_queues h _ _
    · exact h
    · exact h
  · exact h
  · split
    · exact assignSlot_queues h _ p
    · exact joinWait_queues h p

theorem changePairs_queues (h : QueuesBounded s) (was : Vector Bool 128) : QueuesBounded (changePairs was s) := by
  unfold changePairs; dsimp only
  refine foldl_keeps _ _ (fun s p _ h => ?_) (foldl_keeps _ _ (fun s p _ h => ?_) h)
  · split
    · exact wantPair_queues h p
    · exact h
  · split
    · exact unwantPair_queues h p
    · exact h

theorem allocEvent_queues (h : QueuesBounded s) (was : Vector Bool 128) : QueuesBounded (allocEvent was s) :=
  orderRequests_queues (changePairs_queues h was) _

theorem stopPool_queues (h : QueuesBounded s) : QueuesBounded (stopPool s) :=
  foldl_keeps _ _ (fun _ p _ k => unwantPair_queues k p)
    (setWaiting_queues (foldl_keeps _ _ (fun _ p _ k => setPair_queues k p _) h) [])

/-! ### Zone changes and cold resets (R69, R125) -/

theorem zoneSlot_queues (h : QueuesBounded s) (old new : Nat) (sl : SlotId) (p : PairId) :
    QueuesBounded (zoneSlot old new sl p s) := by
  have raised := raiseTicket_queues (captureOrDrop_queues h sl p old) sl
  unfold zoneSlot
  generalize raiseTicket sl _ = t at raised
  unfold zoneLookup; split
  · exact pushFill_queues raised sl p new
  · split
    · exact raised
    · exact setPhaseKeepRun_queues (setCoreSlot_queues raised sl _) sl _

theorem zoneChange_queues (h : QueuesBounded s) (b : BeamId) (old new : Nat) :
    QueuesBounded (zoneChange b old new s) := by
  refine sweep_queues h _ fun h sl => ?_
  split
  · split
    · exact zoneSlot_queues h old new sl _
    · exact h
  · exact h
  · exact h

theorem applyRecord_queues (h : QueuesBounded s) (r : SteerRec) : QueuesBounded (applyRecord r s) := by
  unfold applyRecord; dsimp only; split
  · exact h
  · have tagged : QueuesBounded (setBeam r.beam { s.router.beams[r.beam] with tag := r.tag } s) := { h with }
    split
    · exact zoneChange_queues tagged _ _ _
    · exact tagged

theorem applySteer_queues (h : QueuesBounded s) : QueuesBounded (applySteer s) := by
  unfold applySteer; split
  · exact h
  · exact foldl_keeps _ _ (fun _ r _ k => applyRecord_queues k r) { h with steering := List.nodup_nil }

theorem resetSlot_queues (h : QueuesBounded s) (sl : SlotId) (p : PairId) : QueuesBounded (resetSlot sl p s) := by
  unfold resetSlot; split
  · exact h
  · exact lookup_queues (blk_queues (coldSlot_queues h sl) _) sl p _

theorem resetSlots_queues (h : QueuesBounded s) (which : SlotId → PairId → Bool) :
    QueuesBounded (resetSlots which s) := by
  refine sweep_queues h _ fun h sl => ?_
  split
  · split
    · exact resetSlot_queues h sl _
    · exact h
  · exact h
  · exact h

theorem resetReference_queues (h : QueuesBounded s) (r : RefId) : QueuesBounded (resetReference r s) := by
  refine sweep_queues h _ fun h sl => ?_
  split
  · split
    · exact coldSlot_queues h sl
    · exact h
  · exact h
  · exact h

theorem clampBeam_queues (h : QueuesBounded s) (b : BeamId) : QueuesBounded (clampBeam b s) :=
  reportDiverged_queues (setCtlBeam_queues h b _) b

theorem divergeBeam_queues (h : QueuesBounded s) (b : BeamId) : QueuesBounded (divergeBeam b s) :=
  reportDiverged_queues (blk_queues (setCtlBeam_queues h b _) _) b

/-! ### Invalidation and the disabling of the store (R133 to R138) -/

theorem abandonTransfer_queues (h : QueuesBounded s) (which : SetId → Bool) :
    QueuesBounded (abandonTransfer which s) := by
  unfold abandonTransfer; split
  · split
    · exact setPort_queues h _
    · exact h
  · exact h

theorem invalidateSets_queues (h : QueuesBounded s) (which : SetId → Bool) :
    QueuesBounded (invalidateSets which s) := by
  have cleared : QueuesBounded (clearSets which (freeDraining which s)) := setSets_queues (freeDraining_queues h which) _
  unfold invalidateSets
  generalize clearSets which (freeDraining which s) = t at cleared
  exact abandonTransfer_queues (roomReports_queues
    (setFills_queues (setCaptures_queues cleared List.filter_sublist) List.filter_sublist) _) which

theorem delayChange_queues (h : QueuesBounded s) (r : RefId) : QueuesBounded (delayChange r s) :=
  invalidateSets_queues (resetReference_queues h r) _

theorem latchError_queues (h : QueuesBounded s) (e : FirstError) : QueuesBounded (latchError e s) := by
  unfold latchError; split
  · exact { h with }
  · exact h

theorem withdrawHost_queues (h : QueuesBounded s) : QueuesBounded (withdrawHost s) := by
  unfold withdrawHost; split
  · exact h
  · exact completeReply_queues (setHost_queues h none) _

theorem raiseNamed_queues (h : QueuesBounded s) (failing : SlotId) : QueuesBounded (raiseNamed failing s) := by
  unfold raiseNamed; dsimp only
  refine sweep_queues h _ fun k sl => ?_
  split
  · exact raiseTicket_queues k sl
  · exact k

theorem emptyCaptures_queues (h : QueuesBounded s) : QueuesBounded (emptyCaptures s) :=
  roomReports_queues (setCaptures_queues h (List.nil_sublist _)) _

theorem disableStore_queues (h : QueuesBounded s) (failing : SlotId) : QueuesBounded (disableStore failing s) := by
  have off : QueuesBounded (setEnabled false s) := { h with }
  have named : QueuesBounded (raiseNamed failing (invalidateAll (setEnabled false s))) :=
    raiseNamed_queues (setSets_queues off _) failing
  exact reportSource_queues (withdrawHost_queues (emptyCaptures_queues
    (freeDraining_queues (setFills_queues named (List.nil_sublist _)) _))) _

theorem checkFailure_queues (h : QueuesBounded s) (t : Transfer) (r : FillReq) (e : Entry) :
    QueuesBounded (checkFailure t r e s) := by
  have counted : QueuesBounded (setErrors (s.store.errors + 1) (invalidateEntry t.set t.way s)) := { h with }
  have latched := reportSource_queues (latchError_queues counted ⟨t.set, t.way, e.tag, .fill⟩) .storeFault
  unfold checkFailure; dsimp only; split
  · exact disableStore_queues latched _
  · exact latched

/-! ### Completions and grants (R127 to R132, R143, R144) -/

theorem finishFill_queues (h : QueuesBounded s) (t : Transfer) (r : FillReq) (e : Entry) :
    QueuesBounded (finishFill t r e s) := by
  unfold finishFill; split
  · exact h
  · split
    · split
      · exact installHead_queues h _ _
      · exact h
    · exact checkFailure_queues h t r e

theorem finishCapture_queues (h : QueuesBounded s) (t : Transfer) (c : CaptureRec) :
    QueuesBounded (finishCapture t c s) := by
  unfold finishCapture; split
  · exact h
  · exact writeWay_queues h _ _ _

theorem finishCommit_queues (h : QueuesBounded s) (t : Transfer) (tag q : Nat) (check : BitVec 16) :
    QueuesBounded (finishCommit t tag q check s) := by
  unfold finishCommit; split
  · exact h
  · exact completeReply_queues (setWritten_queues (writeWay_queues h _ _ _) 0) _

theorem finishRead_queues (h : QueuesBounded s) (t : Transfer) (chunk : Nat) :
    QueuesBounded (finishRead t chunk s) := by
  unfold finishRead; split
  · exact h
  · dsimp only; split
    · exact completeReply_queues (latchError_queues h _) _
    · exact completeReply_queues h _

theorem finishTransfer_queues (h : QueuesBounded s) (t : Transfer) : QueuesBounded (finishTransfer t s) := by
  have idle := setPort_queues h none
  unfold finishTransfer; dsimp only; split
  · exact finishFill_queues idle t _ _
  · exact finishCapture_queues idle t _
  · exact finishCommit_queues idle t _ _ _
  · exact finishRead_queues idle t _

theorem completeDue_queues (h : QueuesBounded s) : QueuesBounded (completeDue s) := by
  unfold completeDue; split
  · exact finishTransfer_queues h _
  · exact h

theorem completeWhich_queues (h : QueuesBounded s) (which : Transfer → Bool) :
    QueuesBounded (completeWhich which s) := by
  unfold completeWhich; split
  · split
    · exact finishTransfer_queues h _
    · exact h
  · exact h

theorem grantCapture_queues (h : QueuesBounded s) : QueuesBounded (grantCapture s) := by
  unfold grantCapture; split
  · exact h
  · next c rest e =>
    refine roomReport_queues (setCaptures_queues (setPort_queues (reserveWay_queues h _ _ _) _) ?_)
    show rest.Sublist s.store.captures
    rw [e]
    exact List.sublist_cons_self c rest

theorem grantHost_queues (h : QueuesBounded s) : QueuesBounded (grantHost s) := by
  unfold grantHost; split
  · exact h
  · split
    · exact h
    · dsimp only; split
      · exact setPort_queues (reserveWay_queues (setHost_queues h none) _ _ _) _
      · exact setPort_queues (setHost_queues h none) _

/-- The fill queue that a grant leaves is what stood behind the requests that it drops and grants (R129). -/
theorem pickFill_sublist (s : State) (q : List FillReq) : (pickFill s q).1.Sublist q := by
  induction q with
  | nil => exact List.Sublist.refl _
  | cons r rest ih =>
    unfold pickFill; split
    · exact List.Sublist.refl _
    · split
      · exact List.sublist_cons_self r rest
      · exact ih.cons r

theorem grantIdle_queues (h : QueuesBounded s) : QueuesBounded (grantIdle s) := by
  have picked := setFills_queues h (pickFill_sublist s s.store.fills)
  unfold grantIdle; split
  · exact grantCapture_queues h
  · split
    · next q r w e => rw [e] at picked; exact { picked with }
    · next q e =>
      rw [e] at picked
      split
      · exact grantCapture_queues picked
      · exact grantHost_queues picked

theorem grantDue_queues (h : QueuesBounded s) : QueuesBounded (grantDue s) := by
  unfold grantDue; dsimp only; split
  · exact grantIdle_queues (completeDue_queues h)
  · exact completeDue_queues h

end Operations

end Sys2Proof.Machine
end

