-- ==== Sys2Proof/Proofs/QueuesKept.lean ====
section
/-! PROOF. The bounds of the queues through the host's commands, the boundary, the frames and the rows; and O6
(R33, R124, R126, R160, R165). -/

namespace Sys2Proof.Machine

/-! ### What the entries of a TABLE WRITE write (R176, R194) -/

/-- t differs from s at most in the eight tables. -/
def TablesWritten (s t : State) : Prop :=
  t = { s with
    router := { s.router with beams := t.router.beams }
    tracker := { s.tracker with refs := t.tracker.refs }
    alloc := { s.alloc with mask := t.alloc.mask }
    core := { s.core with step := t.core.step }
    cmd := { s.cmd with tuning := t.cmd.tuning }
    ctl := { s.ctl with thresholds := t.ctl.thresholds }
    play := { s.play with meters := t.play.meters }
    out := { s.out with monitors := t.out.monitors } }

theorem TablesWritten.refl (s : State) : TablesWritten s s := rfl

theorem TablesWritten.trans {s t u : State} (h : TablesWritten s t) (k : TablesWritten t u) : TablesWritten s u := by
  unfold TablesWritten at *
  rw [k, h]

theorem writeEntry_tables {t : Table} {i : Nat} {p : List Byte} {s : State} {r : State × Bool}
    (h : writeEntry t i p s = some r) : TablesWritten s r.1 := by
  cases t with
  | beam =>
    simp only [writeEntry, writeBeam] at h
    split at h
    · split at h
      · cases h; rfl
      · cases h
    · cases h
  | reference =>
    simp only [writeEntry, writeReference] at h
    split at h
    · split at h
      · cases h; rfl
      · cases h
    · cases h
  | pairmask =>
    simp only [writeEntry, writePairmask] at h
    split at h
    · split at h
      · cases h; rfl
      · cases h
    · cases h
  | step =>
    simp only [writeEntry, writeStep] at h
    split at h
    · cases h; rfl
    · cases h
  | tuning =>
    have key : ∀ (h : i < 26) (x : Nat), TablesWritten s (setTuning i h x s) := fun _ _ => rfl
    unfold writeEntry writeTuning at h
    dsimp only at h
    split at h
    · split at h
      · obtain ⟨_, e⟩ := Option.ite_none_right_eq_some.1 h
        cases e; exact key _ _
      · cases h; exact key _ _
    · cases h
  | threshold =>
    simp only [writeEntry, writeThreshold] at h
    split at h
    · cases h; rfl
    · cases h
  | meter =>
    simp only [writeEntry, writeMeter] at h
    split at h
    · cases h; rfl
    · cases h
  | monitor =>
    simp only [writeEntry, writeMonitor] at h
    split at h
    · split at h
      · split at h
        · cases h; rfl
        · cases h
      · cases h
    · cases h

theorem writeEntries_tables (t : Table) (n i : Nat) (p : List Byte) (s : State) :
    TablesWritten s (writeEntries t n i p s).1 :=
  writeEntries_induction t (TablesWritten s ·) (fun _ _ _ _ hs e => hs.trans (writeEntry_tables e)) n i p s (.refl s)

/-! ### The host's commands (R169) -/

section Commands

variable {s : State}

theorem TablesWritten.queues {t : State} (w : TablesWritten s t) (h : QueuesBounded s) : QueuesBounded t := by
  rw [w]
  exact { h with }

theorem silenceRef_queues (h : QueuesBounded s) (r : RefId) : QueuesBounded (silenceRef r s) := { h with }

theorem silenceAll_queues (h : QueuesBounded s) : QueuesBounded (silenceAll s) :=
  foldl_keeps _ _ (fun _ r _ k => silenceRef_queues k r) h

theorem setOp_queues (h : QueuesBounded s) (op : OpState) : QueuesBounded (setOp op s) := { h with }

theorem report_queues (h : QueuesBounded s) (reply : Msg → State → Msg) (m : Msg) : QueuesBounded (report reply m s) :=
  completeReply_queues (blk_queues h _) _

theorem withLength_queues (h : QueuesBounded s) {act : Msg → State → State} {m : Msg}
    (k : QueuesBounded (act m s)) (n : Nat) : QueuesBounded (withLength n act m s) := by
  unfold withLength; split
  · exact k
  · exact completeReply_queues h _

theorem done_queues {f : State → State} (k : QueuesBounded (f s)) (m : Msg) : QueuesBounded (done f m s) :=
  completeReply_queues k _

theorem startRunning_queues (h : QueuesBounded s) : QueuesBounded (startRunning s) := by
  have silent := silenceAll_queues (setOp_queues h .running)
  unfold startRunning; split
  · exact h
  · generalize silenceAll (setOp .running s) = t at silent
    exact { silent with }

theorem stopRunning_queues (h : QueuesBounded s) : QueuesBounded (stopRunning s) := by
  unfold stopRunning; split
  · exact h
  · exact stopPool_queues (silenceAll_queues (setOp_queues h .config))

theorem judgeSetTail_queues (h : QueuesBounded s) (m : Msg) : QueuesBounded (judgeSetTail m s) := by
  unfold judgeSetTail; split
  · split
    · exact completeReply_queues h _
    · split
      · exact completeReply_queues h _
      · exact done_queues (f := changeTail _) { h with } m
  · exact completeReply_queues h _

/-- An accepted SOFT RESET empties every queue (R173). -/
theorem softResetState_queues (keep : Bool) (s : State) : QueuesBounded (softResetState keep s) :=
  ⟨Nat.zero_le _, Nat.zero_le _, Nat.zero_le _, List.nodup_nil, List.nodup_nil⟩

theorem judgeSoftReset_queues (h : QueuesBounded s) (m : Msg) : QueuesBounded (judgeSoftReset m s) := by
  unfold judgeSoftReset; split
  · exact completeReply_queues h _
  · exact completeReply_queues (softResetState_queues _ s) _

theorem ev_queues (h : QueuesBounded s) (e : Events) : QueuesBounded { s with ev := e } := { h with }

theorem clearEvents_queues (h : QueuesBounded s) (set : Byte) : QueuesBounded (clearEvents set s) := ev_queues h _

theorem enableStore_queues (h : QueuesBounded s) : QueuesBounded (enableStore s) :=
  ⟨h.commands, h.replies, h.captures, h.steering, h.fills⟩

theorem waitPort_queues (h : QueuesBounded s) (a : HostAccess) : QueuesBounded (waitPort a s) :=
  ⟨h.commands, h.replies, h.captures, h.steering, h.fills⟩

theorem flushStore_queues (h : QueuesBounded s) : QueuesBounded (flushStore s) :=
  invalidateSets_queues h fun _ => true

theorem judgeEventSetup_queues (h : QueuesBounded s) (m : Msg) : QueuesBounded (judgeEventSetup m s) := by
  unfold judgeEventSetup; split
  · exact completeReply_queues h _
  · exact done_queues (f := fun s => { s with ev := _ }) (ev_queues h _) m

theorem freezeBeam_queues (h : QueuesBounded s) (on : Bool) (b : BeamId) : QueuesBounded (freezeBeam on b s) := by
  unfold freezeBeam; dsimp only; split
  · exact { h with }
  · exact { h with }

theorem judgeFreeze_queues (h : QueuesBounded s) (m : Msg) : QueuesBounded (judgeFreeze m s) := by
  unfold judgeFreeze; split
  · exact completeReply_queues h _
  · refine done_queues (foldl_keeps _ _ (fun s b _ k => ?_) h) m
    split
    · exact freezeBeam_queues k _ b
    · exact k

theorem judgeEntryRead_queues (h : QueuesBounded s) (m : Msg) : QueuesBounded (judgeEntryRead m s) := by
  have refuse : ∀ st, QueuesBounded (answer m st s) := fun _ => completeReply_queues h _
  unfold judgeEntryRead; dsimp only; split
  · split
    · split
      · exact refuse _
      · split
        · exact waitPort_queues h _
        · exact refuse _
    · exact refuse _
  · exact refuse _

theorem loadArea_queues (h : QueuesBounded s) (taps : Head) (written : BitVec 64) :
    QueuesBounded { s with cmd := { s.cmd with loadTaps := taps, loadWritten := written } } := { h with }

theorem loadChunk_queues (h : QueuesBounded s) (c : Nat) (p : List Byte) : QueuesBounded (loadChunk c p s) := by
  unfold loadChunk
  exact loadArea_queues h _ _

theorem judgeEntryLoad_queues (h : QueuesBounded s) (m : Msg) : QueuesBounded (judgeEntryLoad m s) := by
  unfold judgeEntryLoad; dsimp only; split
  · exact completeReply_queues h _
  · exact done_queues (loadChunk_queues h _ _) m

theorem judgeEntryCommit_queues (h : QueuesBounded s) (m : Msg) : QueuesBounded (judgeEntryCommit m s) := by
  have refuse : ∀ st, QueuesBounded (answer m st s) := fun _ => completeReply_queues h _
  unfold judgeEntryCommit; dsimp only; split
  · split
    · exact refuse _
    · split
      · exact refuse _
      · split
        · exact refuse _
        · split
          · exact refuse _
          · exact waitPort_queues h _
  · exact refuse _

theorem referenceEvent_queues (h : QueuesBounded s) (before : State) : QueuesBounded (referenceEvent before s) := by
  unfold referenceEvent; dsimp only
  refine allocEvent_queues (foldl_keeps _ _ (fun x r _ k => ?_) (foldl_keeps _ _ (fun x r _ k => ?_) h)) _
  · split
    · exact silenceRef_queues k r
    · exact k
    · exact k
  · split
    · exact k
    · exact delayChange_queues k r

theorem lowerAtt_queues (h : QueuesBounded s) (limit : Nat) : QueuesBounded (lowerAtt limit s) :=
  ⟨h.commands, h.replies, h.captures, h.steering, h.fills⟩

theorem updateHold_queues (h : QueuesBounded s) : QueuesBounded (updateHold s) :=
  ⟨h.commands, h.replies, h.captures, h.steering, h.fills⟩

theorem clearDegrade_queues (h : QueuesBounded s) : QueuesBounded (clearDegrade s) :=
  ⟨h.commands, h.replies, h.captures, h.steering, h.fills⟩

theorem tuningEvent_queues (h : QueuesBounded s) : QueuesBounded (tuningEvent s) := by
  have limited := updateHold_queues (lowerAtt_queues h (attMax s.cmd.tuning))
  unfold tuningEvent; dsimp only; split
  · exact clearDegrade_queues limited
  · exact limited

theorem handMonitors_queues (h : QueuesBounded s) : QueuesBounded (handMonitors s) := by
  unfold handMonitors
  exact { h with }

theorem tableEvent_queues (h : QueuesBounded s) (t : Table) (before : State) :
    QueuesBounded (tableEvent t before s) := by
  cases t with
  | beam => exact allocEvent_queues h _
  | reference => exact referenceEvent_queues h before
  | pairmask => exact allocEvent_queues h _
  | step => exact h
  | tuning => exact tuningEvent_queues h
  | threshold => exact h
  | meter => exact h
  | monitor =>
    show QueuesBounded (rehandMonitors s)
    unfold rehandMonitors
    split
    · exact handMonitors_queues h
    · exact h

theorem runTableWrite_queues (h : QueuesBounded s) (m : Msg) : QueuesBounded (runTableWrite m s) := by
  have refuse : ∀ r, QueuesBounded (completeReply r s) := completeReply_queues h
  unfold runTableWrite; split
  · exact refuse _
  · split
    · exact refuse _
    · unfold writeTable; dsimp only; split
      · exact refuse _
      · split
        · exact refuse _
        · split
          · exact refuse _
          · exact completeReply_queues (tableEvent_queues ((writeEntries_tables _ _ _ _ s).queues h) _ s) _

/-- Every command keeps the queues within their bounds (R169). -/
theorem runCommand_queues (h : QueuesBounded s) (m : Msg) : QueuesBounded (runCommand m s) := by
  unfold runCommand
  split
  · next f e =>
    unfold catalogue at e
    split at e <;> cases e
    · exact report_queues h _ m
    · exact withLength_queues h (done_queues (startRunning_queues h) m) 0
    · exact withLength_queues h (done_queues (stopRunning_queues h) m) 0
    · exact withLength_queues h (judgeSetTail_queues h m) 1
    · exact withLength_queues h (judgeSoftReset_queues h m) 1
    · exact runTableWrite_queues h m
    · exact report_queues h _ m
    · exact report_queues h _ m
    · exact withLength_queues h (done_queues (clearEvents_queues h _) m) 1
    · exact withLength_queues h (judgeEventSetup_queues h m) 2
    · exact report_queues h _ m
    · exact report_queues h _ m
    · exact withLength_queues h (judgeFreeze_queues h m) 3
    · exact withLength_queues h (done_queues (flushStore_queues h) m) 0
    · exact withLength_queues h (done_queues (enableStore_queues h) m) 0
    · exact withLength_queues h (done_queues (invalidateSets_queues h _) m) 3
    · exact withLength_queues h (judgeEntryRead_queues h m) 3
    · exact withLength_queues h (judgeEntryLoad_queues h m) 109
    · exact withLength_queues h (judgeEntryCommit_queues h m) 5
  · exact completeReply_queues h _

/-- The taking of a command leaves one fewer in the queue (R162). -/
theorem afterTaking_queues (h : QueuesBounded s) {m : Msg} {rest : List Msg} (w : Waiting s m rest) :
    QueuesBounded { s with cmd := afterTaking s rest } :=
  { h with
    commands := by
      have few := h.commands
      rw [w.head, List.length_cons] at few
      show rest.length ≤ 8
      omega }

end Commands

/-! ### The boundary (R60, R78) -/

section Boundary

variable {s : State}

theorem takeCommand_queues (h : QueuesBounded s) : QueuesBounded (takeCommand s) := by
  unfold takeCommand
  rcases takeIf_cases (fun _ => true) runCommand s with e | ⟨m, rest, w, -, -, e⟩
  · rw [e]; exact h
  · rw [e]; exact runCommand_queues (afterTaking_queues h w) m

/-- A reply kept for its own place leaves the queue with the notices that came before it, cut to the bound. -/
theorem takeKeeping_queues (h : QueuesBounded s) : QueuesBounded (takeKeeping s) := by
  unfold takeKeeping
  split
  · have taken : QueuesBounded (takeCommand { s with cmd := { s.cmd with replies := [] } }) :=
      takeCommand_queues { h with replies := Nat.zero_le _ }
    dsimp only
    split
    · generalize takeCommand { s with cmd := { s.cmd with replies := [] } } = t at taken
      exact { taken with replies := List.length_take_le _ _ }
    · exact takeCommand_queues h
  · exact h

theorem commandEvent_queues (h : QueuesBounded s) (keep : Bool) : QueuesBounded (commandEvent keep s) := by
  have taken : QueuesBounded (if keep then takeKeeping s else takeCommand s) := by
    split
    · exact takeKeeping_queues h
    · exact takeCommand_queues h
  unfold commandEvent
  generalize (if keep then takeKeeping s else takeCommand s) = t at taken
  exact { taken with }

theorem appendKept_queues (h : QueuesBounded s) : QueuesBounded (appendKept s) := by
  unfold appendKept; split
  · exact completeReply_queues (blk_queues h _) _
  · exact h

theorem appendHeld_queues (h : QueuesBounded s) : QueuesBounded (appendHeld s) := by
  unfold appendHeld; split
  · split
    · exact completeReply_queues h _
    · exact h
  · exact h
  · exact h

theorem clippingEvent_queues (h : QueuesBounded s) : QueuesBounded (clippingEvent s) := by
  unfold clippingEvent; split
  · exact reportSource_queues (s := { s with play := { s.play with clamped := false } }) { h with } _
  · exact h

theorem countSlot_queues (h : QueuesBounded s) (x : BlockSlot) : QueuesBounded (countSlot s x) := by
  unfold countSlot; split
  · exact { h with }
  · exact h

theorem countBeam_queues (h : QueuesBounded s) (b : BeamId) : QueuesBounded (countBeam s b) := by
  unfold countBeam; split
  · exact setCtlBeam_queues h b _
  · exact h

theorem countBlock_queues (h : QueuesBounded s) : QueuesBounded (countBlock s) := by
  unfold countBlock; split
  · exact h
  · exact blk_queues (foldl_keeps _ _ (fun _ b _ k => countBeam_queues k b)
      (foldl_keeps _ _ (fun _ x _ k => countSlot_queues k x) h)) _

theorem resetEvent_queues (h : QueuesBounded s) : QueuesBounded (resetEvent s) := by
  unfold resetEvent; dsimp only
  exact blk_queues (foldl_keeps _ _ (fun _ b _ k => divergeBeam_queues k b)
    (foldl_keeps _ _ (fun _ x _ k => clampBeam_queues k _) (resetSlots_queues (countBlock_queues h) _))) _

theorem degradeBeam_queues (h : QueuesBounded s) (limit : Nat) (b : BeamId) :
    QueuesBounded (degradeBeam limit s b) := by
  unfold degradeBeam; dsimp only; split
  · have kept : ∀ {x : CtlBeam} {c : Prop} [Decidable c], QueuesBounded (if c then s else setCtlBeam b x s) := by
      intro x c _
      split
      · exact h
      · exact setCtlBeam_queues h b _
    split
    · exact reportDegraded_queues kept b
    · exact kept
  · exact h

theorem degradeEvent_queues (h : QueuesBounded s) : QueuesBounded (degradeEvent s) := by
  unfold degradeEvent; split
  · exact h
  · exact foldl_keeps _ _ (fun _ b _ k => degradeBeam_queues k _ b) h

theorem suppressBlock_queues (h : QueuesBounded s) : QueuesBounded (suppressBlock s) := by
  unfold suppressBlock
  exact { h with }

theorem whileLive_queues (h : QueuesBounded s) {f : State → State} (k : QueuesBounded (f s)) :
    QueuesBounded (whileLive f s) := by
  unfold whileLive; split
  · exact k
  · exact h

theorem boundaryEvent_queues (h : QueuesBounded s) (keep : Bool) (e : BoundaryEvent) :
    QueuesBounded (boundaryEvent keep e s) := by
  cases e with
  | activity => exact whileLive_queues h (allocEvent_queues (s := applyDecided s) { h with } _)
  | clipping => exact whileLive_queues h (clippingEvent_queues h)
  | counting => exact whileLive_queues h (countBlock_queues h)
  | resets => exact whileLive_queues h (resetEvent_queues h)
  | degrade => exact whileLive_queues h (degradeEvent_queues h)
  | suppress => exact whileLive_queues h (suppressBlock_queues h)
  | view => exact h
  | steer => exact applySteer_queues h
  | complete => exact completeDue_queues h
  | grant => exact grantDue_queues h
  | command => exact commandEvent_queues h keep
  | reply => exact appendKept_queues h

/-- The work up to the Core's update leaves every queue (R60). -/
theorem openBlock_queues (h : QueuesBounded s) (sees : RefId → Bool) : QueuesBounded (openBlock sees s) := by
  have o := openBlock_open sees s
  exact ⟨by rw [o.cmd]; exact h.commands, by rw [o.cmd]; exact h.replies, by rw [o.store]; exact h.captures,
    by rw [o.router]; exact h.steering, by rw [o.store]; exact h.fills⟩

/-- A report's final values take the place of the ones it had (R177). -/
theorem length_replaceLast (kind : Byte) (r : Msg) (q : List Msg) : (replaceLast kind r q).length = q.length := by
  have key : ∀ (l : List Msg) (acc : Bool × List Msg),
      (l.foldl (replaceStep kind r) acc).2.length = l.length + acc.2.length := by
    intro l
    induction l with
    | nil => simp
    | cons m l ih =>
      intro acc
      rw [List.foldl_cons, ih, replaceStep]
      split
      · simp; omega
      · simp; omega
  rw [replaceLast_steps, key]
  simp

theorem refreshReport_queues (h : QueuesBounded s) : QueuesBounded (refreshReport s) := by
  unfold refreshReport; split
  · exact h
  · split
    · exact h
    · split
      · exact { h with }
      · exact { h with replies := (length_replaceLast _ _ _).le.trans h.replies }
      · exact { h with replies := (length_replaceLast _ _ _).le.trans h.replies }

theorem assembleOutput_queues (h : QueuesBounded s) : QueuesBounded (assembleOutput s) := by
  unfold assembleOutput
  exact handMonitors_queues { h with }

theorem boundary_queues (h : QueuesBounded s) (order : List BoundaryEvent) : QueuesBounded (boundary order s) := by
  have run : ∀ es keep sees, QueuesBounded (runEvents keep es (openBlock sees (appendHeld s))) := fun es keep _ =>
    foldl_keeps _ _ (fun _ e _ k => boundaryEvent_queues k keep e) (openBlock_queues (appendHeld_queues h) _)
  exact refreshReport_queues (whileLive_queues (run _ _ _) (assembleOutput_queues (run _ _ _)))

end Boundary

/-! ### Messages and frames (R12 to R17, R32, R33, R160) -/

section Links

variable {s : State}

theorem ports_queues (h : QueuesBounded s) (p : Ports) : QueuesBounded { s with ports := p } := { h with }

theorem deliverCommand_queues (h : QueuesBounded s) (m : Msg) : QueuesBounded (deliverCommand m s) := by
  unfold deliverCommand; split
  · next room =>
    refine { h with commands := ?_ }
    simp only [updateHold_cmd, List.length_append, List.length_singleton]
    exact room
  · exact reportMsgError_queues h _

/-- A record merged in joins the queue where its beam has none, and else takes the place of its beam's (R33). -/
theorem mergeSteer_beams_nodup {q : List SteerRec} (h : (q.map (·.beam)).Nodup) (r : SteerRec) :
    ((mergeSteer q r).map (·.beam)).Nodup := by
  by_cases has : ∃ x ∈ q, x.beam = r.beam
  · rw [mergeSteer_replaces has, List.map_map]
    have same : ((·.beam) ∘ fun x : SteerRec => if x.beam = r.beam then { x with tag := r.tag } else x) =
        (·.beam) := by
      funext x
      dsimp only [Function.comp_apply]
      split <;> rfl
    rwa [same]
  · simp only [not_exists, not_and] at has
    rw [mergeSteer_new has, List.map_append, List.map_cons, List.map_nil]
    refine List.nodup_append.2 ⟨h, List.nodup_singleton _, fun a ha b hb => ?_⟩
    obtain ⟨x, hx, rfl⟩ := List.mem_map.1 ha
    obtain rfl := List.mem_singleton.1 hb
    exact has x hx

theorem deliverSteer_queues (h : QueuesBounded s) (m : Msg) : QueuesBounded (deliverSteer m s) := by
  unfold deliverSteer; split
  · exact { h with steering := mergeSteer_beams_nodup h.steering _ }
  · exact ports_queues h _

theorem completeCommand_queues (h : QueuesBounded s) (f : Nat) (m : Msg) : QueuesBounded (completeCommand f m s) := by
  unfold completeCommand; split
  · exact ports_queues h _
  · exact deliverCommand_queues h m

theorem completeSteer_queues (h : QueuesBounded s) (f : Nat) (m : Msg) : QueuesBounded (completeSteer f m s) := by
  unfold completeSteer; split
  · exact ports_queues h _
  · exact deliverSteer_queues h m

theorem setAsm_queues (h : QueuesBounded s) (link : Link) (a : Assembly) : QueuesBounded (setAsm link a s) := by
  cases link
  · exact ports_queues h _
  · exact ports_queues h _

theorem settleAsm_queues (h : QueuesBounded s) (link : Link) (f : Nat) (r : Assembly × AsmOutcome) :
    QueuesBounded (settleAsm link f r s) := by
  have set := setAsm_queues h link r.1
  unfold settleAsm; split
  · exact set
  · cases link
    · exact deliverSteer_queues set _
    · exact completeCommand_queues set f _
  · cases link
    · exact ports_queues set _
    · exact reportMsgError_queues set _

theorem feedControl_queues (h : QueuesBounded s) (link : Link) (f : Nat) (data : Option Byte) :
    QueuesBounded (feedControl link f data s) := by
  unfold feedControl; split
  · exact settleAsm_queues h link f _
  · exact settleAsm_queues h link f _

theorem takeControl_queues (h : QueuesBounded s) (link : Link) (f : Nat) (data : Option Byte) :
    QueuesBounded (takeControl link f data s) := by
  unfold takeControl; split
  · exact ports_queues h _
  · exact feedControl_queues h link f data

theorem takeTransmit_queues (h : QueuesBounded s) (heldNow : Bool) : QueuesBounded (takeTransmit heldNow s) := by
  unfold takeTransmit; split
  · next m rest _ e =>
    have freed : QueuesBounded { s with
        ports := { s.ports with transmit := some ⟨m, 0⟩ }, cmd := { s.cmd with replies := rest } } :=
      { h with
        replies := by
          have few := h.replies
          rw [e, List.length_cons] at few
          show rest.length ≤ 8
          omega }
    dsimp only; split
    · exact appendHeld_queues freed
    · exact freed
  · exact h
  · exact h

theorem startFrame_queues (h : QueuesBounded s) (f : Nat) (heldNow : Bool) : QueuesBounded (startFrame f heldNow s) := by
  unfold startFrame; split
  · exact takeTransmit_queues (appendHeld_queues (ports_queues h _)) heldNow
  · exact h

theorem takeSlots_queues (h : QueuesBounded s) (link : Link) (accepted : Bool) (bits : FrameBits) :
    QueuesBounded (takeSlots link accepted bits s) := by
  cases link
  · exact { h with }
  · unfold takeSlots playFrame
    exact { h with }

theorem controlOf_queues (h : QueuesBounded s) (link : Link) (f : Nat) (res : RxResult) (bits : FrameBits) :
    QueuesBounded (controlOf link f res bits s) := by
  cases res with
  | accepted => exact takeControl_queues h link f _
  | ignored => exact h
  | missed => exact takeControl_queues h link f none
  | lost =>
    cases link
    · exact reportSource_queues (ports_queues h _) _
    · exact reportSource_queues (ports_queues h _) _

theorem inbound_queues (h : QueuesBounded s) (link : Link) (bits : FrameBits) : QueuesBounded (inbound link bits s) := by
  have begun := startFrame_queues h (inFrame link s) true
  have received : ∀ rx, QueuesBounded (setRx link rx (startFrame (inFrame link s) true s)) := fun rx => by
    cases link
    · exact ports_queues begun _
    · exact ports_queues begun _
  have counted : ∀ {t}, QueuesBounded t → QueuesBounded (countInbound link t) := fun k => by
    cases link
    · exact ports_queues k _
    · exact ports_queues k _
  exact counted (controlOf_queues (takeSlots_queues (received _) link _ bits) link _ _ bits)

theorem inboundDue_queues (h : QueuesBounded s) (link : Link) (bits : FrameBits) :
    QueuesBounded (inboundDue link bits s) := by
  unfold inboundDue; split
  · exact inbound_queues h link bits
  · exact h

theorem joinCommands_queues (h : QueuesBounded s) : QueuesBounded (joinCommands s) :=
  foldl_keeps _ _ (fun _ m _ k => deliverCommand_queues k m) (ports_queues h _)

theorem joinControl_queues (h : QueuesBounded s) : QueuesBounded (joinControl s) :=
  foldl_keeps _ _ (fun _ m _ k => deliverSteer_queues k m)
    (foldl_keeps _ _ (fun _ d _ k => feedControl_queues k .array 0 d) (ports_queues h _))

theorem settleBoundary_queues (h : QueuesBounded s) : QueuesBounded (settleBoundary s) :=
  joinControl_queues (joinCommands_queues (refreshReport_queues
    (commandEvent_queues (grantDue_queues (applySteer_queues h)) false)))

theorem outboundNext_queues (h : QueuesBounded s) (link : Link) (heldNow : Bool) :
    QueuesBounded (outboundNext link heldNow s) := by
  unfold outboundNext; split
  · cases link
    · exact ports_queues (startFrame_queues h _ heldNow) _
    · have ended : QueuesBounded (endBoundary s) := by
        unfold endBoundary; split
        · exact settleBoundary_queues h
        · exact h
      exact ports_queues (startFrame_queues ended _ heldNow) _
  · exact h

end Links

/-! ### The rows -/

section Rows

variable {s : State}

theorem ite_queues {t : State} {c : Bool} (h : QueuesBounded s) (k : QueuesBounded t) :
    QueuesBounded (if c = true then t else s) := by
  split
  · exact k
  · exact h

theorem endLinger_queues (h : QueuesBounded s) (r : RefId) : QueuesBounded (endLinger r s) :=
  allocEvent_queues (silenceRef_queues (blk_queues h _) r) _

theorem advanceRun_queues (h : QueuesBounded s) (sl : SlotId) : QueuesBounded (advanceRun sl s) := by
  unfold advanceRun; split
  · refine ite_queues h (clampBeam_queues (blk_queues ?_ _) _)
    split
    · exact resetSlot_queues h _ _
    · exact h
  · exact h

theorem advanceDegrade_queues (h : QueuesBounded s) (b : BeamId) : QueuesBounded (advanceDegrade b s) := by
  unfold advanceDegrade; split
  · refine ite_queues h ?_
    unfold endDegrade; dsimp only
    refine reportDegraded_queues ?_ b
    split
    · exact h
    · exact setCtlBeam_queues h b _
  · exact h

/-- A boundary row that is no host command keeps the queues within their bounds. -/
theorem boundaryRow_queues (h : QueuesBounded s) {c : Instr} {t : State} (row : boundaryRow c = true)
    (host : taken c = none) (e : exec c s = .next t) : QueuesBounded t := by
  have block : ∀ {f : State → State}, upInBlock f s = .next t → QueuesBounded (f s) → QueuesBounded t :=
    fun e k => by
      rcases upInBlock_next e with rfl | ⟨-, -, rfl⟩
      · exact h
      · exact k
  have gated : ∀ {f : State → State}, upAtBoundary f s = .next t → QueuesBounded (f s) → QueuesBounded t :=
    fun e k => by
      rcases upAtBoundary_next e with rfl | ⟨-, rfl⟩
      · exact h
      · exact k
  cases c <;> simp only [boundaryRow, taken, Bool.false_eq_true, reduceCtorEq] at row host
  case lingerExpiry r => exact block e (ite_queues h (endLinger_queues h r))
  case noiseFloorRise b => exact block e (ite_queues h (blk_queues (setCtlBeam_queues h b _) _))
  case hangoverEnd b => exact block e (ite_queues h (setCtlBeam_queues h b _))
  case warmupEnd sl => exact block e (ite_queues h { h with })
  case trackingEntry sl => exact block e (ite_queues h { h with })
  case clampRunReset sl => exact block e (advanceRun_queues h sl)
  case divergenceReset b => exact block e (ite_queues h (divergeBeam_queues (resetSlots_queues h _) b))
  case degradeTimeExpiry b => exact block e (advanceDegrade_queues h b)
  case waitListAssignment sl => exact gated e (ite_queues h (giveToWaiter_queues h sl))
  case drainingSlotCapture => exact gated e (roomReport_queues h)
  case steerApplication => exact gated e (applySteer_queues h)
  case portGrant => exact gated e (grantDue_queues h)
  case fillCompletion => exact gated e (completeWhich_queues h _)
  case storeDisable => exact gated e (completeWhich_queues h _)
  case captureCompletion => exact gated e (completeWhich_queues h _)
  case entryCommitCompletion => exact gated e (completeWhich_queues h _)
  case entryReadCompletion => exact gated e (completeWhich_queues h _)

theorem disturbEntry_queues (h : QueuesBounded s) (p : SetId) (w : WayId) (cells : List (Fin 1536 × Tap)) (q : Byte)
    (check : BitVec 16) : QueuesBounded (disturbEntry p w cells q check s) := by
  unfold disturbEntry; dsimp only; split
  · exact h
  · exact { h with }

theorem powerOn_queues (pending : List Instr) (resetn : Bool) (c : ClockPin) :
    QueuesBounded (setClocks c { State.reset with pending := pending, resetn := resetn }) :=
  ⟨Nat.zero_le _, Nat.zero_le _, Nat.zero_le _, List.nodup_nil, List.nodup_nil⟩

/-- Every row keeps the queues within their bounds. -/
theorem exec_queues (h : QueuesBounded s) {c : Instr} {t : State} (e : exec c s = .next t) : QueuesBounded t := by
  have row : ∀ {f : State → State}, up f s = .next t → QueuesBounded (f s) → QueuesBounded t := fun e k => by
    rcases up_next e with rfl | ⟨-, rfl⟩
    · exact h
    · exact k
  by_cases b : boundaryRow c = true
  · cases host : taken c with
    | none => exact boundaryRow_queues h b host e
    | some pred =>
      exact hostRow_keeps host h (fun _ _ w => afterTaking_queues h w) (fun m _ k => runCommand_queues k m) e
  · cases c <;> simp only [boundaryRow, not_true_eq_false, Bool.false_eq_true, not_false_eq_true] at b
    case powerOnReset => cases e; exact powerOn_queues _ _ _
    case resetnRelease => cases e; exact { h with }
    case inboundFrame link bits => exact row e (inboundDue_queues h link bits)
    case lockAcquired link bits => exact row e (ite_queues h (inboundDue_queues h link bits))
    case lossOfLock link bits => exact row e (ite_queues h (inboundDue_queues h link bits))
    case messageTruncation link => exact row e (ite_queues h (settleAsm_queues h link 0 _))
    case resyncEnd link => exact row e (ite_queues h (settleAsm_queues h link 0 _))
    case commandDelivery kind payload =>
      by_cases short : payload.length ≤ 240
      · rw [commandDelivery_short kind short] at e
        exact row e (ite_queues h (completeCommand_queues h _ _))
      · rw [commandDelivery_long kind (not_le.1 short)] at e
        cases e
    case steer kind payload =>
      by_cases short : payload.length ≤ 240
      · rw [steer_short kind short] at e
        exact row e (ite_queues h (completeSteer_queues h _ _))
      · rw [steer_long kind (not_le.1 short)] at e
        cases e
    case outboundFrame link heldNow => exact row e (outboundNext_queues h link heldNow)
    case heldReplyAppend => exact row e (appendHeld_queues h)
    case blockBoundary order => exact row e (ite_queues h (boundary_queues h order))
    case entryDisturbance p w cells q check => exact row e (disturbEntry_queues h p w cells q check)

end Rows

/-- Settles O6: every row keeps each queue within its bound. -/
theorem queuesStayBounded : Obligations.QueuesStayBounded := by
  unfold Obligations.QueuesStayBounded
  intro s t h e
  rcases step_next e with rfl | ⟨c, rest, e⟩
  · exact h
  · exact exec_queues (s := { s with pending := rest }) { h with } e

end Sys2Proof.Machine
end

