-- ==== Sys2Proof/Proofs/PowerOn.lean ====
section
/-! PROOF. The part at frame 0 meets every invariant (O5, R189). -/

namespace Sys2Proof.Machine

/-- Power-on with RESETN released and the bit clocks running is the state at frame 0 (R189). -/
theorem setClocks_reset :
    setClocks .running { State.reset with pending := [], resetn := true } = State.reset := rfl

theorem entryOf_reset (p : SetId) (w : WayId) : entryOf State.reset p w = Entry.powerOn := by
  simp [entryOf, State.reset, Store.powerOn, StoreSet.powerOn]

theorem slots_reset (sl : SlotId) : State.reset.alloc.slots[sl] = .free := by
  simp [State.reset, Allocator.powerOn]

theorem pairs_reset (p : PairId) : State.reset.alloc.pairs[p] = .none := by
  simp [State.reset, Allocator.powerOn]

/-- In CONFIG, where the part comes up, no pair is wanted (R100). -/
theorem wanted_reset (p : PairId) : wanted State.reset p = false := rfl

theorem reset_memory : MemoryCanonical State.reset := by
  obtain ⟨coefficients, load, entries⟩ := reset_memory_wf
  exact ⟨coefficients, load, entries, nofun, nofun⟩

theorem reset_pool : PoolSound State.reset := by
  refine ⟨⟨fun sl p => ?_, fun p => ?_, List.nodup_nil, fun sl _ => slots_reset sl⟩,
    ⟨fun _ sl p => ?_, fun _ => rfl⟩, fun p => ?_, ⟨fun _ _ _ => rfl, Nat.zero_le _⟩⟩
  · unfold holds
    rw [slots_reset, pairs_reset]
    simp
  · rw [pairs_reset]
    exact ⟨nofun, nofun⟩
  · rw [slots_reset]
    exact nofun
  · rw [wanted_reset]
    simp only [slots_reset, reduceCtorEq, exists_false, or_false, Bool.false_eq_true, false_iff]
    exact nofun

theorem reset_store : StoreSound State.reset where
  tags :=
    { ways := fun p v _ _ valid => by
        rw [entryOf_reset] at valid
        cases valid
      port := nofun }
  state := ⟨fun _ => Nat.zero_le _, nofun, nofun, nofun, nofun, nofun, nofun, nofun⟩

theorem reset_unit : UnitSound State.reset := by
  have idle : ¬ hostInFlight State.reset := fun ⟨_, flies, _⟩ => nomatch flies
  exact ⟨⟨nofun, fun busy => busy.elim nofun (absurd · idle)⟩, fun _ => idle, nofun⟩

/-- Beam b's generator comes up at b + 1 (R154). -/
theorem reset_generators : GeneratorsRun State.reset := by
  intro b
  have seed : State.reset.supp.lfsr[b] = BitVec.ofNat 23 (b.val + 1) := by
    simp [State.reset, Suppressor.powerOn]
  have small := b.isLt
  rw [seed]
  intro zero
  have := congrArg BitVec.toNat zero
  simp only [BitVec.toNat_ofNat, BitVec.ofNat_eq_ofNat] at this
  omega

/-- Settles O5: each invariant at the power-on values. -/
theorem resetSound : Obligations.ResetSound := by
  unfold Obligations.ResetSound
  refine ⟨?_, reset_memory, reset_pool, reset_store, reset_unit, ?_, ?_, reset_generators⟩
  · exact setClocks_reset ▸ powerOn_queues [] true .running
  · exact setClocks_reset ▸ powerOn_links [] true .running
  · exact (rangesSound_iff _).2 (setClocks_reset ▸ powerOn_ranges [] true .running)

end Sys2Proof.Machine
end

