-- ==== Sys2Proof/Proofs/TableEntries.lean ====
section
/-! PROOF. What one entry of a TABLE WRITE does, table by table (O55, R168, R174 to R178). -/

namespace Sys2Proof.Machine

/-! ### Codes -/

theorem flagOf_eq (b : Byte) : flagOf b = if b.toNat ≤ 1 then some (decide (b = 1)) else none := by
  unfold flagOf
  split
  · next e => subst e; rfl
  · split
    · next e => subst e; rfl
    · rw [if_neg (by bv_omega)]

theorem beamModeOf_eq (b : Byte) : beamModeOf b =
    if b.toNat ≤ 2 then some (if b = 0 then .cancel else if b = 1 then .bypass else .mute) else none := by
  unfold beamModeOf
  split
  · next e => subst e; rfl
  · split
    · next e => subst e; rfl
    · split
      · next e => subst e; rfl
      · rw [if_neg (by bv_omega)]

theorem refModeOf_eq (b : Byte) : refModeOf b =
    if b.toNat ≤ 2 then some (if b = 0 then .off else if b = 1 then .on else .onShort) else none := by
  unfold refModeOf
  split
  · next e => subst e; rfl
  · split
    · next e => subst e; rfl
    · split
      · next e => subst e; rfl
      · rw [if_neg (by bv_omega)]

theorem meterOf_eq (b : Byte) : meterOf b =
    if b.toNat ≤ 3 ∨ b.toNat = 7 then some (if h : b.toNat < 4 then some ⟨b.toNat, h⟩ else none) else none := by
  unfold meterOf
  split
  · rw [if_pos (by omega)]
  · split
    · next e => subst e; rfl
    · rw [if_neg (by bv_omega)]

theorem beNat_two (x y : Byte) : beNat [x, y] = 256 * x.toNat + y.toNat := by
  simp only [beNat, List.foldl_cons, List.foldl_nil]
  omega

theorem beNat_three (x y z : Byte) : beNat [x, y, z] = 65536 * x.toNat + 256 * y.toNat + z.toNat := by
  simp only [beNat, List.foldl_cons, List.foldl_nil]
  omega

/-- A number with no lower bound is clamped to the upper one alone (R168). -/
theorem clampNat_zero (hi v : Nat) : clampNat 0 hi v = (min hi v, decide (hi < v)) := by
  simp [clampNat]

/-! ### The tables -/

section Entries

variable (i : Nat) (x y z : Byte) (more : List Byte) (s : State)

theorem writeBeam_eq (h : i < 16) : writeBeam i (x :: y :: z :: more) s =
    if x.toNat ≤ 2 ∧ y.toNat ≤ 1 ∧ z.toNat ≤ 1 then
      some (setBeam ⟨i, h⟩ { s.router.beams[i] with
        mode := if x = 0 then .cancel else if x = 1 then .bypass else .mute
        suppress := decide (y = 1), comfort := decide (z = 1) } s, false)
    else none := by
  unfold writeBeam
  simp only [byteAt, List.getD_cons_zero, List.getD_cons_succ, beamModeOf_eq, flagOf_eq, dif_pos h]
  by_cases hx : x.toNat ≤ 2 <;> by_cases hy : y.toNat ≤ 1 <;> by_cases hz : z.toNat ≤ 1 <;>
    simp only [hx, hy, hz, if_true, if_false, and_true, and_false, and_self]

theorem writeReference_eq (h : i < 8) : writeReference i (x :: y :: z :: more) s =
    if x.toNat ≤ 2 ∧ (y.toNat ≤ 3 ∨ y.toNat = 7) then
      some (setRef ⟨i, h⟩ { s.tracker.refs[i] with
        mode := if x = 0 then .off else if x = 1 then .on else .onShort
        meter := if h : y.toNat < 4 then some ⟨y.toNat, h⟩ else none
        delay := min 63 z.toNat } s, decide (63 < z.toNat))
    else none := by
  unfold writeReference
  simp only [byteAt, List.getD_cons_zero, List.getD_cons_succ, refModeOf_eq, meterOf_eq, clampNat_zero, dif_pos h]
  by_cases hx : x.toNat ≤ 2 <;> by_cases hy : y.toNat ≤ 3 ∨ y.toNat = 7 <;>
    simp only [hx, hy, if_true, if_false, and_true, and_false, and_self]

theorem writePairmask_eq (h : i < 128) : writePairmask i (x :: more) s =
    if x.toNat ≤ 1 then
      some ({ s with alloc := { s.alloc with mask := s.alloc.mask.set i (decide (x = 1)) } }, false)
    else none := by
  unfold writePairmask
  simp only [byteAt, List.getD_cons_zero, flagOf_eq, dif_pos h]
  by_cases hx : x.toNat ≤ 1
  · simp only [if_pos hx]
  · simp only [if_neg hx]

theorem writeStep_eq (h : i < 12) : writeStep i (x :: more) s =
    some ({ s with core := { s.core with step := s.core.step.set i x } }, false) := dif_pos h

theorem writeThreshold_eq (h : i < 17) : writeThreshold i (x :: more) s =
    some ({ s with ctl := { s.ctl with thresholds := s.ctl.thresholds.set i x } }, false) := dif_pos h

theorem lowByteEntry_iff : lowByteEntry i = true ↔ (i = 4 ∨ i = 7 ∨ i = 14 ∨ i = 23) := by
  simp [lowByteEntry, or_assoc]

/-- An entry read by both bytes is clamped to its range (R168, R178). -/
theorem writeTuning_wide (h : i < 26) (number : i ≠ 24) (wide : ¬ (i = 4 ∨ i = 7 ∨ i = 14 ∨ i = 23)) :
    writeTuning i (x :: y :: more) s =
      some (setTuning i h (max tuningBounds[i].1 (min tuningBounds[i].2 (256 * x.toNat + y.toNat))) s,
        decide (256 * x.toNat + y.toNat < tuningBounds[i].1) ||
          decide (tuningBounds[i].2 < 256 * x.toNat + y.toNat)) := by
  unfold writeTuning
  simp only [byteAt, List.getD_cons_zero, List.getD_cons_succ, dif_pos h, lowByteEntry_iff, if_neg wide, beNat_two,
    poolPolicyEntry, if_neg number, clampNat]

/-- The entries read by their low byte reach 255, so that no byte is clamped (R168, R192). -/
theorem tuningBounds_lowByte (h : i < 26) (low : i = 4 ∨ i = 7 ∨ i = 14 ∨ i = 23) :
    tuningBounds[i] = (0, 255) := by
  rcases low with rfl | rfl | rfl | rfl <;> rfl

theorem writeTuning_lowByte (h : i < 26) (low : i = 4 ∨ i = 7 ∨ i = 14 ∨ i = 23) :
    writeTuning i (x :: y :: more) s = some (setTuning i h y.toNat s, false) := by
  have byte : y.toNat ≤ 255 := Nat.le_of_lt_succ y.isLt
  unfold writeTuning
  simp only [byteAt, List.getD_cons_zero, List.getD_cons_succ, dif_pos h, lowByteEntry_iff, if_pos low,
    tuningBounds_lowByte i h low, clampNat_zero, Nat.min_eq_right byte, poolPolicyEntry]
  rw [if_neg (by omega), decide_eq_false (by omega)]

/-- The pool policy is an enumeration: a value outside it is refused (R178). -/
theorem writeTuning_policy (h : 24 < 26) : writeTuning 24 (x :: y :: more) s =
    if 256 * x.toNat + y.toNat ≤ 1 then some (setTuning 24 h (256 * x.toNat + y.toNat) s, false) else none := by
  rw [← beNat_two]
  rfl

theorem writeMeter_eq (h : i < 4) : writeMeter i (x :: y :: z :: more) s =
    some ({ s with play := { s.play with
      meters := s.play.meters.set i ⟨min 8388607 (65536 * x.toNat + 256 * y.toNat + z.toNat), 0⟩ } },
      decide (8388607 < 65536 * x.toNat + 256 * y.toNat + z.toNat)) := by
  unfold writeMeter
  simp only [byteAt, List.getD_cons_zero, List.getD_cons_succ, dif_pos h, beNat_three, clampNat_zero]

/-- The kinds of a monitor record, each with the indices and points it may hold (R158). -/
theorem writeMonitor_eq (h : i < 2) : writeMonitor i (x :: y :: z :: more) s =
    if x = 0 ∨ (x = 1 ∧ y.toNat ≤ 15 ∧ z.toNat ≤ 3) ∨ (x = 2 ∧ y.toNat ≤ 7 ∧ z = 4) then
      some ({ s with out := { s.out with
        monitors := s.out.monitors.set i ⟨if x = 0 then .none else if x = 1 then .beam else .reference, y, z⟩ } },
        false)
    else none := by
  unfold writeMonitor monKindOf
  simp only [byteAt, List.getD_cons_zero, List.getD_cons_succ, dif_pos h]
  by_cases none : x = 0
  · subst none
    simp [monitorAllowed]
  · by_cases beam : x = 1
    · subst beam
      simp [monitorAllowed]
    · by_cases reference : x = 2
      · subst reference
        simp [monitorAllowed]
      · rw [if_neg none, if_neg beam, if_neg reference, if_neg (not_or.2 ⟨none, not_or.2
          ⟨fun b => beam b.1, fun r => reference r.1⟩⟩)]

/-- No table has an entry from its count of entries on (R174). -/
theorem writeEntry_outside (t : Table) (p : List Byte) (out : tableEntries t ≤ i) : writeEntry t i p s = none := by
  cases t <;> exact dif_neg (Nat.not_lt.2 out)

end Entries

/-- Settles O55: the tables' own equations, one by one. -/
theorem tableEntryWritten : Obligations.TableEntryWritten := by
  unfold Obligations.TableEntryWritten
  refine ⟨rfl, fun i x y z more s => ⟨writeBeam_eq i x y z more s, writeReference_eq i x y z more s,
    writePairmask_eq i x more s, writeStep_eq i x more s, fun h => ⟨writeTuning_wide i x y more s h,
      writeTuning_lowByte i x y more s h, fun e => ?_⟩, writeThreshold_eq i x more s, writeMeter_eq i x y z more s,
    writeMonitor_eq i x y z more s, fun t p => writeEntry_outside i s t p⟩⟩
  subst e
  exact writeTuning_policy x y more s h

end Sys2Proof.Machine
end

