-- ==== Sys2Proof/Proofs/RunTail.lean ====
section
/-! PROOF. References made SILENT, and RUN and SET TAIL (O51, R26, R170, R172). -/

namespace Sys2Proof.Machine

theorem getElem_set_fin {α : Type} {n : Nat} (v : Vector α n) (i j : Fin n) (x : α) :
    (v.set i x)[j] = if j = i then x else v[j] := by
  simp only [Fin.getElem_fin, Vector.getElem_set, Fin.ext_iff, eq_comm]

theorem getElem_ofFn_fin {α : Type} {n : Nat} (f : Fin n → α) (i : Fin n) : (Vector.ofFn f)[i] = f i := by
  simp

/-! ### References made SILENT (R26) -/

/-- A reference's record once it is SILENT. -/
def silenced (x : Reference) : Reference := { x with activity := .silent, linger := 0 }

theorem silenceRef_refs (r q : RefId) (s : State) :
    (silenceRef r s).tracker.refs[q] = if q = r then silenced s.tracker.refs[q] else s.tracker.refs[q] := by
  rw [silenceRef, setRef_tracker, getElem_set_fin]
  split
  · next e => subst e; rfl
  · rfl

theorem silenceRef_eq (r : RefId) (s : State) :
    silenceRef r s = { s with tracker := { s.tracker with refs := (silenceRef r s).tracker.refs } } := rfl

theorem silenceRefs_refs (l : List RefId) (q : RefId) (s : State) :
    (l.foldl (fun s r => silenceRef r s) s).tracker.refs[q] =
      if q ∈ l then silenced s.tracker.refs[q] else s.tracker.refs[q] := by
  induction l generalizing s with
  | nil => rfl
  | cons r l ih =>
    rw [List.foldl_cons, ih, silenceRef_refs]
    by_cases here : q = r <;> by_cases later : q ∈ l <;> simp [here, later, silenced]

theorem silenceRefs_eq (l : List RefId) (s : State) :
    l.foldl (fun s r => silenceRef r s) s = { s with tracker := { s.tracker with
      refs := (l.foldl (fun s r => silenceRef r s) s).tracker.refs } } := by
  induction l generalizing s with
  | nil => rfl
  | cons r l ih =>
    rw [List.foldl_cons, ih]
    rfl

theorem silenceAll_refs (q : RefId) (s : State) : (silenceAll s).tracker.refs[q] = silenced s.tracker.refs[q] := by
  rw [silenceAll, silenceRefs_refs]
  exact if_pos (List.mem_finRange q)

theorem silenceAll_eq (s : State) :
    silenceAll s = { s with tracker := { s.tracker with refs := (silenceAll s).tracker.refs } } := silenceRefs_eq _ s

/-! ### RUN (R170) -/

theorem startRunning_config {s : State} (h : s.cmd.op = .config) :
    startRunning s = { s with
      cmd := { s.cmd with op := .running }
      tracker := { s.tracker with refs := (silenceAll (setOp .running s)).tracker.refs }
      ctl := { s.ctl with beams := Vector.ofFn fun b => beamRun s.ctl.beams[b] } } := by
  unfold startRunning
  rw [h]
  dsimp only
  rw [silenceAll_eq]
  rfl

theorem startRunning_running {s : State} (h : s.cmd.op = .running) : startRunning s = s := by
  unfold startRunning
  rw [h]

/-- A unit ready for a command has room for its reply (R162, R163). -/
theorem completeReply_room {s : State} (room : s.cmd.replies.length < 8) (reply : Msg) :
    completeReply reply s = { s with cmd := { s.cmd with state := .idle, replies := s.cmd.replies ++ [reply] } } :=
  if_pos room

/-- A command without operands, taken and answered OK. -/
theorem done_ready {s t : State} {m : Msg} {rest : List Msg} (ready : Ready s m rest) {f : State → State}
    (effect : f { s with cmd := afterTaking s rest } = t)
    (state : t.cmd.state = (afterTaking s rest).state) (replies : t.cmd.replies = (afterTaking s rest).replies) :
    done f m { s with cmd := afterTaking s rest } =
      { t with cmd := { t.cmd with replies := s.cmd.replies ++ [⟨m.kind + 0x80, [0]⟩] } } := by
  have room : t.cmd.replies.length < 8 := by rw [replies]; exact ready.room
  have idle : t.cmd.state = .idle := by rw [state]; exact ready.idle
  unfold done answer
  rw [effect, completeReply_room room, ← idle, replies]
  rfl

theorem run_ready {s : State} {rest : List Msg} (ready : Ready s ⟨0x02, []⟩ rest) :
    exec .run s = .next (done startRunning ⟨0x02, []⟩ { s with cmd := afterTaking s rest }) :=
  calc exec .run s = .next (takeIf (kindIs 0x02) runRun s) := upAtBoundary_at _ ready.boundary
    _ = _ := by rw [takeIf_ready _ _ ready rfl]; rfl

theorem run_config {s : State} {rest : List Msg} (ready : Ready s ⟨0x02, []⟩ rest) (config : s.cmd.op = .config) :
    ∃ t, exec .run s = .next t ∧
      t = { s with
        cmd := { answered s rest ⟨0x82, [0]⟩ with op := .running }
        tracker := { s.tracker with refs := t.tracker.refs }
        ctl := { s.ctl with beams := t.ctl.beams } } ∧
      (∀ r : RefId, t.tracker.refs[r] = silenced s.tracker.refs[r]) ∧
      ∀ b : BeamId, t.ctl.beams[b] = beamRun s.ctl.beams[b] := by
  have effect := startRunning_config (s := { s with cmd := afterTaking s rest }) config
  refine ⟨_, (run_ready ready).trans (congrArg _ (done_ready ready effect rfl rfl)), rfl, fun r => ?_, fun b => ?_⟩
  · exact silenceAll_refs r (setOp .running { s with cmd := afterTaking s rest })
  · exact getElem_ofFn_fin _ b

theorem run_running {s : State} {rest : List Msg} (ready : Ready s ⟨0x02, []⟩ rest) (running : s.cmd.op = .running) :
    exec .run s = .next { s with cmd := answered s rest ⟨0x82, [0]⟩ } := by
  have effect := startRunning_running (s := { s with cmd := afterTaking s rest }) running
  exact (run_ready ready).trans (congrArg _ (done_ready ready effect rfl rfl))

/-! ### SET TAIL (R116, R172) -/

theorem lowestDraining_none {s : State}
    (h : ∀ (sl : SlotId) (p : PairId) (tag q : Nat), s.alloc.slots[sl] ≠ .draining p tag q) :
    lowestDraining s = none := by
  unfold lowestDraining
  rw [List.findSome?_eq_none_iff]
  intro sl _
  split
  · next p tag q e => exact absurd e (h sl p tag q)
  · rfl
  · rfl

theorem setTail_taken {s : State} {code : Byte} {rest : List Msg} (h : code.toNat < 6)
    (ready : Ready s ⟨0x04, [code]⟩ rest) (config : s.cmd.op = .config)
    (none : ∀ (sl : SlotId) (p : PairId) (tag q : Nat), s.alloc.slots[sl] ≠ .draining p tag q) :
    exec .setTail s = .next { changeTail ⟨code.toNat, h⟩ s with cmd := answered s rest ⟨0x84, [0]⟩ } := by
  have judged : judgeSetTail ⟨0x04, [code]⟩ { s with cmd := afterTaking s rest } =
      done (changeTail ⟨code.toNat, h⟩) ⟨0x04, [code]⟩ { s with cmd := afterTaking s rest } := by
    have op : ({ s with cmd := afterTaking s rest } : State).cmd.op = .config := config
    have quiet : anyDraining { s with cmd := afterTaking s rest } = false := by
      unfold anyDraining
      rw [lowestDraining_none (s := { s with cmd := afterTaking s rest }) none]
      rfl
    unfold judgeSetTail
    rw [dif_pos (show (byteAt [code] 0).toNat < 6 from h), op]
    dsimp only
    rw [quiet]
    rfl
  calc exec .setTail s = .next (takeIf (kindIs 0x04) runSetTail s) := upAtBoundary_at _ ready.boundary
    _ = .next (judgeSetTail ⟨0x04, [code]⟩ { s with cmd := afterTaking s rest }) := by
        rw [takeIf_ready _ _ ready rfl]; rfl
    _ = _ := by rw [judged, done_ready ready rfl rfl rfl]; rfl

/-- Settles O51: RUN by the operating state it finds, and SET TAIL past its tests. -/
theorem runAndTailTaken : Obligations.RunAndTailTaken := by
  unfold Obligations.RunAndTailTaken
  refine ⟨fun s rest ready => ⟨run_config ready, run_running ready⟩, fun s code rest h ready config none => ?_⟩
  refine ⟨_, setTail_taken h ready config none, rfl, rfl, fun a => rfl, fun sl => ?_⟩
  have slot : (changeTail ⟨code.toNat, h⟩ s).core.slots[sl] =
      { s.core.slots[sl] with origin := .cold, clamped := false } := getElem_ofFn_fin _ sl
  have record : (changeTail ⟨code.toNat, h⟩ s).ctl.slots[sl] = CtlSlot.powerOn := by simp [changeTail]
  exact ⟨congrArg (·.ticket) slot, congrArg (·.origin) slot, congrArg (·.clamped) slot, record⟩

end Sys2Proof.Machine
end

