-- ==== Sys2Proof/Proofs/Moves.lean ====
section
/-! PROOF. The operations of the Pair Allocator and of the Snapshot Store as runs of elementary moves. What every
elementary move keeps, every operation keeps: the case split over the operations is made here once. -/

namespace Sys2Proof.Machine

open Relation (ReflTransGen)

/-! ### Elementary moves -/

/-- One elementary move of the Pair Allocator, with what it asks of the Core and of the store, but for reports. -/
inductive PoolMove : State → State → Prop
  | slotState (sl : SlotId) (st : SlotState) (s : State) : PoolMove s (setSlotState sl st s)
  | pair (p : PairId) (e : PairEntry) (s : State) : PoolMove s (setPair p e s)
  | waiting (w : List PairId) (s : State) : PoolMove s (setWaiting w s)
  | ticket (sl : SlotId) (s : State) : PoolMove s (raiseTicket sl s)
  | assigned (sl : SlotId) (s : State) : PoolMove s (unmarkReset sl (clearClamped sl (coldSlot sl s)))
  | fills (q : List FillReq) (s : State) : PoolMove s (setFills q s)
  | captures (q : List CaptureRec) (s : State) : PoolMove s (setCaptures q s)

/-- One elementary move of an event of the Allocator: a move of the pool, or a report. -/
inductive AllocMove : State → State → Prop
  | pool {s t : State} (m : PoolMove s t) : AllocMove s t
  | report (src : Source) (s : State) (other : src ≠ .clipping) : AllocMove s (reportSource src s)

/-- One elementary move of a zone change: a move of the Allocator, or a slot carried that was not made cold at this
boundary (R70, R125). -/
inductive ZoneMove : State → State → Prop
  | alloc {s t : State} (m : AllocMove s t) : ZoneMove s t
  | carried (sl : SlotId) (s : State) (warm : sl ∉ s.blk.cold) : ZoneMove s
      (setPhaseKeepRun sl .converging (setCoreSlot sl { s.core.slots[sl] with origin := .carried } s))

/-- One elementary move of the store port. -/
inductive StoreMove : State → State → Prop
  | alloc {s t : State} (m : AllocMove s t) : StoreMove s t
  | set (p : SetId) (x : StoreSet) (s : State) : StoreMove s (setSet p x s)
  | sets (x : Vector StoreSet 128) (s : State) : StoreMove s (setSets x s)
  | port (t : Option Transfer) (s : State) : StoreMove s (setPort t s)
  | host (h : Option HostWait) (s : State) : StoreMove s (setHost h s)
  | errors (n : Nat) (s : State) : StoreMove s (setErrors n s)
  | enabled (on : Bool) (s : State) : StoreMove s (setEnabled on s)
  | firstError (e : Option FirstError) (s : State) : StoreMove s (setFirstError e s)
  | written (w : BitVec 64) (s : State) : StoreMove s (setWritten w s)
  | reply (r : Msg) (s : State) : StoreMove s (completeReply r s)
  | installed (sl : SlotId) (h : Head) (s : State) : StoreMove s (installHead sl h s)

/-- A run of moves of the pool. -/
def PoolRun : State → State → Prop := ReflTransGen PoolMove

/-- A run of moves of the Allocator. -/
def AllocRun : State → State → Prop := ReflTransGen AllocMove

/-- A run of moves of a zone change. -/
def ZoneRun : State → State → Prop := ReflTransGen ZoneMove

/-- A run of moves of the store port. -/
def StoreRun : State → State → Prop := ReflTransGen StoreMove

theorem PoolRun.refl (s : State) : PoolRun s s := ReflTransGen.refl

theorem AllocRun.refl (s : State) : AllocRun s s := ReflTransGen.refl

theorem StoreRun.refl (s : State) : StoreRun s s := ReflTransGen.refl

theorem PoolMove.run {s t : State} (m : PoolMove s t) : PoolRun s t := ReflTransGen.single m

theorem AllocMove.run {s t : State} (m : AllocMove s t) : AllocRun s t := ReflTransGen.single m

theorem StoreMove.run {s t : State} (m : StoreMove s t) : StoreRun s t := ReflTransGen.single m

theorem PoolRun.trans {s t u : State} (h : PoolRun s t) (k : PoolRun t u) : PoolRun s u := ReflTransGen.trans h k

theorem AllocRun.trans {s t u : State} (h : AllocRun s t) (k : AllocRun t u) : AllocRun s u := ReflTransGen.trans h k

theorem ZoneRun.trans {s t u : State} (h : ZoneRun s t) (k : ZoneRun t u) : ZoneRun s u := ReflTransGen.trans h k

theorem StoreRun.trans {s t u : State} (h : StoreRun s t) (k : StoreRun t u) : StoreRun s u := ReflTransGen.trans h k

theorem PoolRun.alloc {s t : State} (h : PoolRun s t) : AllocRun s t :=
  ReflTransGen.mono (fun _ _ m => .pool m) _ _ h

theorem AllocRun.zone {s t : State} (h : AllocRun s t) : ZoneRun s t :=
  ReflTransGen.mono (fun _ _ m => .alloc m) _ _ h

theorem AllocRun.store {s t : State} (h : AllocRun s t) : StoreRun s t :=
  ReflTransGen.mono (fun _ _ m => .alloc m) _ _ h

theorem PoolRun.store {s t : State} (h : PoolRun s t) : StoreRun s t := h.alloc.store

/-- What every elementary move keeps, a run of them keeps. -/
theorem run_keeps {M R : State → State → Prop} (refl : ∀ s, R s s) (trans : ∀ {s t u}, R s t → R t u → R s u)
    (move : ∀ {s t}, M s t → R s t) {s t : State} (run : ReflTransGen M s t) : R s t := by
  induction run with
  | refl => exact refl s
  | tail _ m ih => exact trans ih (move m)

theorem run_foldl {M : State → State → Prop} {α : Type} (f : State → α → State)
    (h : ∀ s x, ReflTransGen M s (f s x)) (l : List α) (s : State) : ReflTransGen M s (l.foldl f s) := by
  induction l generalizing s with
  | nil => exact .refl
  | cons x l ih => exact (h s x).trans (ih _)

theorem PoolRun.foldl {α : Type} (f : State → α → State) (h : ∀ s x, PoolRun s (f s x)) (l : List α) (s : State) :
    PoolRun s (l.foldl f s) := run_foldl f h l s

/-! ### The Pair Allocator (R100 to R115) -/

theorem lookup_run (sl : SlotId) (p : SetId) (tag : Nat) (s : State) : PoolRun s (lookup sl p tag s) := by
  unfold lookup; split
  · exact (PoolMove.fills _ s).run
  · exact .refl s

theorem assignSlot_run (sl : SlotId) (p : PairId) (s : State) : PoolRun s (assignSlot sl p s) :=
  (((PoolMove.slotState sl _ s).run.trans (PoolMove.pair p _ _).run).trans (PoolMove.assigned sl _).run).trans
    (lookup_run sl p _ _)

theorem giveToWaiter_run (sl : SlotId) (s : State) : PoolRun s (giveToWaiter sl s) := by
  unfold giveToWaiter; split
  · exact .refl s
  · exact (PoolMove.waiting _ s).run.trans (assignSlot_run sl _ _)

theorem freeSlot_run (sl : SlotId) (p : PairId) (s : State) : PoolRun s (freeSlot sl p s) :=
  ((PoolMove.pair p _ s).run.trans (PoolMove.slotState sl _ _).run).trans (giveToWaiter_run sl _)

theorem pushCapture_run (sl : SlotId) (p : SetId) (tag q : Nat) (s : State) : PoolRun s (pushCapture sl p tag q s) :=
  (PoolMove.captures _ s).run

theorem releaseSlot_run (sl : SlotId) (p : PairId) (s : State) : PoolRun s (releaseSlot sl p s) := by
  have raised := (PoolMove.ticket sl s).run
  unfold releaseSlot; dsimp only; split
  · split
    · exact (raised.trans (pushCapture_run _ _ _ _ _)).trans (freeSlot_run _ _ _)
    · exact raised.trans (PoolMove.slotState _ _ _).run
  · exact raised.trans (freeSlot_run _ _ _)

theorem roomReport_run (s : State) : PoolRun s (roomReport s) := by
  unfold roomReport; split
  · split
    · exact (pushCapture_run _ _ _ _ s).trans (freeSlot_run _ _ _)
    · exact .refl s
  · exact .refl s

theorem roomReports_run (n : Nat) (s : State) : PoolRun s (roomReports n s) :=
  .foldl _ (fun s _ => roomReport_run s) _ s

theorem freeDraining_run (which : SetId → Bool) (s : State) : PoolRun s (freeDraining which s) := by
  refine .foldl _ (fun s sl => ?_) _ s
  split
  · split
    · exact freeSlot_run _ _ _
    · exact .refl s
  · exact .refl s
  · exact .refl s

theorem unwantPair_run (p : PairId) (s : State) : PoolRun s (unwantPair p s) := by
  unfold unwantPair; split
  · exact .refl s
  · exact (PoolMove.waiting _ s).run.trans (PoolMove.pair p _ _).run
  · split
    · exact releaseSlot_run _ _ s
    · exact .refl s
    · exact .refl s

theorem captureOrDrop_run (sl : SlotId) (p : PairId) (tag : Nat) (s : State) :
    AllocRun s (captureOrDrop sl p tag s) := by
  unfold captureOrDrop; split
  · split
    · exact (pushCapture_run _ _ _ _ s).alloc
    · exact (AllocMove.report _ s (by decide)).run
  · exact .refl s

theorem preemptSlot_run (sl : SlotId) (q : PairId) (s : State) : AllocRun s (preemptSlot sl q s) :=
  ((captureOrDrop_run sl q _ s).trans (PoolMove.ticket sl _).run.alloc).trans
    (((PoolMove.pair q _ _).run.trans (PoolMove.slotState sl _ _).run).trans
      ((PoolMove.waiting _ _).run.trans (giveToWaiter_run sl _))).alloc

theorem joinWait_run (p : PairId) (s : State) : AllocRun s (joinWait p s) := by
  have joined : AllocRun s (reportSource .poolFull (setPair p .waiting (setWaiting (s.alloc.waiting ++ [p]) s))) :=
    ((PoolMove.waiting _ s).run.trans (PoolMove.pair p _ _).run).alloc.trans (AllocMove.report _ _ (by decide)).run
  unfold joinWait; dsimp only; split
  · split
    · exact joined.trans (preemptSlot_run _ _ _)
    · exact joined
  · exact joined

theorem wantPair_run (p : PairId) (s : State) : AllocRun s (wantPair p s) := by
  unfold wantPair; split
  · split
    · exact (PoolMove.slotState _ _ s).run.alloc
    · exact .refl s
    · exact .refl s
  · exact .refl s
  · split
    · exact (assignSlot_run _ _ s).alloc
    · exact joinWait_run _ s

theorem changePairs_run (was : Vector Bool 128) (s : State) : AllocRun s (changePairs was s) := by
  unfold changePairs; dsimp only
  refine (PoolRun.foldl _ (fun s p => ?_) _ s).alloc.trans (run_foldl _ (fun s p => ?_) _ _)
  · split
    · exact unwantPair_run p s
    · exact .refl s
  · split
    · exact wantPair_run p s
    · exact .refl

/-- An event of the Allocator is a run of its moves (R101). -/
theorem allocEvent_run (was : Vector Bool 128) (s : State) : AllocRun s (allocEvent was s) :=
  (changePairs_run was s).trans (PoolMove.fills _ _).run.alloc

/-! ### Zone changes (R70, R125) -/

theorem zoneLookup_run (new : Nat) (sl : SlotId) (p : PairId) (s : State) : ZoneRun s (zoneLookup new sl p s) := by
  unfold zoneLookup; split
  · exact (PoolMove.fills _ s).run.alloc.zone
  · split
    · exact .refl
    · next warm => exact .single (.carried sl s (by simpa using warm))

theorem zoneSlot_run (old new : Nat) (sl : SlotId) (p : PairId) (s : State) : ZoneRun s (zoneSlot old new sl p s) :=
  ((captureOrDrop_run sl p old s).trans (PoolMove.ticket sl _).run.alloc).zone.trans (zoneLookup_run _ _ _ _)

theorem zoneChange_run (b : BeamId) (old new : Nat) (s : State) : ZoneRun s (zoneChange b old new s) := by
  refine run_foldl _ (fun s sl => ?_) _ s
  split
  · split
    · exact zoneSlot_run _ _ _ _ s
    · exact .refl
  · exact .refl
  · exact .refl

/-! ### The store port (R127 to R132, R137, R138, R143, R144) -/

theorem reportStore_run (src : Source) (s : State) (other : src ≠ .clipping) : StoreRun s (reportSource src s) :=
  (AllocMove.report src s other).run.store

theorem writeWay_run (p : SetId) (w : WayId) (e : Entry) (s : State) : StoreRun s (writeWay p w e s) :=
  (StoreMove.set p _ s).run.trans (StoreMove.set p _ _).run

theorem latchError_run (e : FirstError) (s : State) : StoreRun s (latchError e s) := by
  unfold latchError; split
  · exact (StoreMove.firstError _ s).run
  · exact .refl s

theorem withdrawHost_run (s : State) : StoreRun s (withdrawHost s) := by
  unfold withdrawHost; split
  · exact .refl s
  · exact (StoreMove.host none s).run.trans (StoreMove.reply _ _).run

theorem raiseNamed_run (failing : SlotId) (s : State) : StoreRun s (raiseNamed failing s) := by
  refine run_foldl _ (fun s sl => ?_) _ s
  split
  · exact (PoolMove.ticket sl s).run.store
  · exact .refl

theorem emptyCaptures_run (s : State) : StoreRun s (emptyCaptures s) :=
  ((PoolMove.captures _ s).run.trans (roomReports_run _ _)).store

theorem invalidateAll_run (s : State) : StoreRun s (invalidateAll s) := (StoreMove.sets _ s).run

theorem disableStore_run (failing : SlotId) (s : State) : StoreRun s (disableStore failing s) := by
  have named : StoreRun s (raiseNamed failing (invalidateAll (setEnabled false s))) :=
    ((StoreMove.enabled false s).run.trans (invalidateAll_run _)).trans (raiseNamed_run failing _)
  have freed := named.trans ((PoolMove.fills [] _).run.trans (freeDraining_run (fun _ => true) _)).store
  exact freed.trans ((emptyCaptures_run _).trans ((withdrawHost_run _).trans (reportStore_run _ _ (by decide))))

theorem invalidateEntry_run (p : SetId) (w : WayId) (s : State) : StoreRun s (invalidateEntry p w s) :=
  (StoreMove.set p _ s).run

theorem checkFailure_run (t : Transfer) (r : FillReq) (e : Entry) (s : State) : StoreRun s (checkFailure t r e s) := by
  have failed := ((invalidateEntry_run t.set t.way s).trans (StoreMove.errors (s.store.errors + 1) _).run).trans
    ((latchError_run ⟨t.set, t.way, e.tag, .fill⟩ _).trans (reportStore_run .storeFault _ (by decide)))
  unfold checkFailure; dsimp only; split
  · exact failed.trans (disableStore_run _ _)
  · exact failed

theorem finishFill_run (t : Transfer) (r : FillReq) (e : Entry) (s : State) : StoreRun s (finishFill t r e s) := by
  unfold finishFill; split
  · exact .refl s
  · split
    · split
      · exact (StoreMove.installed _ _ s).run
      · exact .refl s
    · exact checkFailure_run _ _ _ s

theorem finishCapture_run (t : Transfer) (c : CaptureRec) (s : State) : StoreRun s (finishCapture t c s) := by
  unfold finishCapture; split
  · exact .refl s
  · exact writeWay_run _ _ _ s

theorem finishCommit_run (t : Transfer) (tag q : Nat) (check : BitVec 16) (s : State) :
    StoreRun s (finishCommit t tag q check s) := by
  unfold finishCommit; split
  · exact .refl s
  · exact (writeWay_run t.set t.way _ s).trans ((StoreMove.written 0 _).run.trans (StoreMove.reply _ _).run)

theorem finishRead_run (t : Transfer) (chunk : Nat) (s : State) : StoreRun s (finishRead t chunk s) := by
  unfold finishRead; split
  · exact .refl s
  · dsimp only; split
    · exact (latchError_run _ s).trans (StoreMove.reply _ _).run
    · exact (StoreMove.reply _ s).run

theorem finishTransfer_run (t : Transfer) (s : State) : StoreRun s (finishTransfer t s) := by
  unfold finishTransfer; dsimp only
  refine (StoreMove.port none s).run.trans ?_
  split
  · exact finishFill_run _ _ _ _
  · exact finishCapture_run _ _ _
  · exact finishCommit_run _ _ _ _ _
  · exact finishRead_run _ _ _

theorem completeDue_run (s : State) : StoreRun s (completeDue s) := by
  unfold completeDue; split
  · exact finishTransfer_run _ s
  · exact .refl s

theorem grantCapture_run (s : State) : StoreRun s (grantCapture s) := by
  unfold grantCapture; split
  · exact .refl s
  · dsimp only
    exact ((StoreMove.set _ _ s).run.trans (StoreMove.port _ _).run).trans
      ((PoolMove.captures _ _).run.trans (roomReport_run _)).store

theorem grantHost_run (s : State) : StoreRun s (grantHost s) := by
  unfold grantHost; split
  · exact .refl s
  · split
    · exact .refl s
    · dsimp only; split
      · exact (StoreMove.host none s).run.trans ((StoreMove.set _ _ _).run.trans (StoreMove.port _ _).run)
      · exact (StoreMove.host none s).run.trans (StoreMove.port _ _).run

theorem grantFill_run (r : FillReq) (w : WayId) (s : State) : StoreRun s (grantFill r w s) :=
  (StoreMove.set _ _ s).run.trans (StoreMove.port _ _).run

theorem grantIdle_run (s : State) : StoreRun s (grantIdle s) := by
  have queue : ∀ q, StoreRun s (setFills q s) := fun q => (PoolMove.fills q s).run.store
  unfold grantIdle; split
  · exact grantCapture_run s
  · split
    · exact (queue _).trans (grantFill_run _ _ _)
    · split
      · exact (queue _).trans (grantCapture_run _)
      · exact (queue _).trans (grantHost_run _)

theorem grantDue_run (s : State) : StoreRun s (grantDue s) := by
  unfold grantDue; dsimp only; split
  · exact (completeDue_run s).trans (grantIdle_run _)
  · exact completeDue_run s

end Sys2Proof.Machine
end

