-- ==== Sys2Proof/Proofs/MovesKeep.lean ====
section
/-! PROOF. What the moves of the pool and of the store port leave to the work of a block: the records of the beams,
the events reported of them, the settings, and the slots that no note of the boundary names. -/

namespace Sys2Proof.Machine

/-! ### Sources reported -/

/-- A report of a source sets its bit, and appends at most a notice. -/
structure Reported (src : Source) (s t : State) : Prop where
  eq : t = { s with
    cmd := { s.cmd with replies := t.cmd.replies }
    ev := { s.ev with status := setInsert s.ev.status (sourceBit src) } }
  longer : s.cmd.replies.length ≤ t.cmd.replies.length

theorem reportSource_reported (src : Source) (s : State) : Reported src s (reportSource src s) := by
  obtain ⟨n, -, -, e⟩ := reportSource_cases src s
  rw [e]
  exact ⟨rfl, by simp⟩

theorem setInsert_mono {w : Nat} (set : BitVec w) (j : Nat) {i : Nat} (h : set.getLsbD i = true) :
    (setInsert set j).getLsbD i = true := by
  unfold setInsert
  rw [BitVec.getLsbD_or, h, Bool.true_or]

theorem setInsert_self {w : Nat} (set : BitVec w) {i : Nat} (h : i < w) : (setInsert set i).getLsbD i = true := by
  have inserted := inSet_setInsert set i i h
  unfold inSet at inserted
  rw [inserted]
  simp

theorem setInsert_other {w : Nat} (set : BitVec w) {i j : Nat} (h : i ≠ j) :
    (setInsert set i).getLsbD j = set.getLsbD j := by
  by_cases small : j < w
  · have inserted := inSet_setInsert set i j small
    unfold inSet at inserted
    rw [inserted]
    simp [h]
  · rw [BitVec.getLsbD_of_ge _ _ (not_lt.1 small), BitVec.getLsbD_of_ge _ _ (not_lt.1 small)]

theorem sourceBit_clipping {src : Source} (other : src ≠ .clipping) : sourceBit src ≠ 7 := by
  cases src with
  | clipping => exact absurd rfl other
  | _ => decide

/-! ### What moves of the store port keep -/

/-- What the moves of the pool and of the store port leave to the work of a block (R78). -/
structure StoreKeeps (s t : State) : Prop where
  frame : PoolFrame s t
  beams : t.ctl.beams = s.ctl.beams
  diverged : t.blk.diverged = s.blk.diverged
  evDiverged : t.ev.diverged = s.ev.diverged
  evDegraded : t.ev.degraded = s.ev.degraded
  status : ∀ i, s.ev.status.getLsbD i = true → t.ev.status.getLsbD i = true
  clipping : t.ev.status.getLsbD 7 = s.ev.status.getLsbD 7
  longer : s.cmd.replies.length ≤ t.cmd.replies.length
  resets : s.blk.resets = [] → t.blk.resets = []
  phases : ∀ sl : SlotId, sl ∉ t.blk.phaseSet → sl ∉ s.blk.phaseSet ∧
    t.ctl.slots[sl].phase = s.ctl.slots[sl].phase ∧ t.ctl.slots[sl].counter = s.ctl.slots[sl].counter
  runs : ∀ sl : SlotId, sl ∉ t.blk.runSet → sl ∉ s.blk.runSet ∧ t.ctl.slots[sl].run = s.ctl.slots[sl].run

theorem StoreKeeps.refl (s : State) : StoreKeeps s s :=
  ⟨.refl s, rfl, rfl, rfl, rfl, fun _ => id, rfl, le_rfl, id, fun _ h => ⟨h, rfl, rfl⟩, fun _ h => ⟨h, rfl⟩⟩

theorem StoreKeeps.trans {s t u : State} (h : StoreKeeps s t) (k : StoreKeeps t u) : StoreKeeps s u where
  frame := h.frame.trans k.frame
  beams := k.beams.trans h.beams
  diverged := k.diverged.trans h.diverged
  evDiverged := k.evDiverged.trans h.evDiverged
  evDegraded := k.evDegraded.trans h.evDegraded
  status i e := k.status i (h.status i e)
  clipping := k.clipping.trans h.clipping
  longer := h.longer.trans k.longer
  resets e := k.resets (h.resets e)
  phases sl free := by
    obtain ⟨free, phase, counter⟩ := k.phases sl free
    obtain ⟨free, phase', counter'⟩ := h.phases sl free
    exact ⟨free, phase.trans phase', counter.trans counter'⟩
  runs sl free := by
    obtain ⟨free, run⟩ := k.runs sl free
    obtain ⟨free, run'⟩ := h.runs sl free
    exact ⟨free, run.trans run'⟩

/-- A move that touches neither the Controller nor the events nor the notes. -/
theorem StoreKeeps.of_same {s t : State} (frame : PoolFrame s t) (ctl : t.ctl = s.ctl) (ev : t.ev = s.ev)
    (blk : t.blk = { s.blk with cold := t.blk.cold }) (longer : s.cmd.replies.length ≤ t.cmd.replies.length) :
    StoreKeeps s t where
  frame := frame
  beams := by rw [ctl]
  diverged := by rw [blk]
  evDiverged := by rw [ev]
  evDegraded := by rw [ev]
  status i e := by rw [ev]; exact e
  clipping := by rw [ev]
  longer := longer
  resets e := by rw [blk]; exact e
  phases sl free := by rw [blk] at free; rw [ctl]; exact ⟨free, rfl, rfl⟩
  runs sl free := by rw [blk] at free; rw [ctl]; exact ⟨free, rfl⟩

/-- A slot's record set by the pool or the store is noted (R86). -/
theorem StoreKeeps.of_record {s t : State} {sl : SlotId} {x : CtlSlot} (frame : PoolFrame s t)
    (ctl : t.ctl = { s.ctl with slots := s.ctl.slots.set sl x }) (ev : t.ev = s.ev) (cmd : t.cmd = s.cmd)
    (diverged : t.blk.diverged = s.blk.diverged) (resets : t.blk.resets = s.blk.resets)
    (phaseSet : t.blk.phaseSet = sl :: s.blk.phaseSet)
    (runSet : t.blk.runSet = sl :: s.blk.runSet ∨ t.blk.runSet = s.blk.runSet ∧ x.run = s.ctl.slots[sl].run) :
    StoreKeeps s t where
  frame := frame
  beams := by rw [ctl]
  diverged := diverged
  evDiverged := by rw [ev]
  evDegraded := by rw [ev]
  status i e := by rw [ev]; exact e
  clipping := by rw [ev]
  longer := by rw [cmd]
  resets e := by rw [resets]; exact e
  phases o free := by
    rw [phaseSet, List.mem_cons, not_or] at free
    obtain ⟨other, free⟩ := free
    rw [ctl]
    dsimp only
    rw [getElem_set_fin, if_neg other]
    exact ⟨free, rfl, rfl⟩
  runs o free := by
    rw [ctl]
    dsimp only
    rw [getElem_set_fin]
    rcases runSet with noted | ⟨kept, same⟩
    · rw [noted, List.mem_cons, not_or] at free
      obtain ⟨other, free⟩ := free
      rw [if_neg other]
      exact ⟨free, rfl⟩
    · rw [kept] at free
      split
      · next e => subst e; exact ⟨free, same⟩
      · exact ⟨free, rfl⟩

theorem Reported.keeps {src : Source} {s t : State} (r : Reported src s t) (other : src ≠ .clipping) :
    StoreKeeps s t := by
  obtain ⟨eq, longer⟩ := r
  have frame : PoolFrame s t := by rw [eq]; constructor <;> rfl
  constructor
  · exact frame
  all_goals rw [eq]
  · exact fun i e => setInsert_mono _ _ e
  · exact setInsert_other _ (sourceBit_clipping other)
  · exact longer
  · exact id
  · exact fun _ free => ⟨free, rfl, rfl⟩
  · exact fun _ free => ⟨free, rfl⟩

theorem setMem_keeps (m : TapMem) (s : State) : StoreKeeps s (setMem m s) :=
  .of_same (setMem_frame m s) rfl rfl rfl le_rfl

theorem setCoreSlot_keeps (sl : SlotId) (x : CoreSlot) (s : State) : StoreKeeps s (setCoreSlot sl x s) :=
  .of_same (setCoreSlot_frame sl x s) rfl rfl rfl le_rfl

theorem raiseTicket_keeps (sl : SlotId) (s : State) : StoreKeeps s (raiseTicket sl s) :=
  .of_same (raiseTicket_frame sl s) rfl rfl rfl le_rfl

theorem setPhaseRun_keeps (sl : SlotId) (ph : Phase) (s : State) : StoreKeeps s (setPhaseRun sl ph s) :=
  .of_record (sl := sl) (x := ⟨ph, 0, 0⟩) (setPhaseRun_frame sl ph s) rfl rfl rfl rfl rfl rfl (.inl rfl)

theorem markCold_keeps (sl : SlotId) (s : State) : StoreKeeps s (markCold sl s) :=
  .of_same (markCold_frame sl s) rfl rfl rfl le_rfl

theorem coldSlot_keeps (sl : SlotId) (s : State) : StoreKeeps s (coldSlot sl s) :=
  ((setMem_keeps _ s).trans (raiseTicket_keeps sl _)).trans
    (((setCoreSlot_keeps sl _ _).trans (setPhaseRun_keeps sl .warmup _)).trans (markCold_keeps sl _))

theorem installHead_keeps (sl : SlotId) (h : Head) (s : State) : StoreKeeps s (installHead sl h s) :=
  ((setMem_keeps _ s).trans (setCoreSlot_keeps sl _ _)).trans (setPhaseRun_keeps sl .tracking _)

theorem PoolMove.keeps {s t : State} (m : PoolMove s t) : StoreKeeps s t := by
  cases m with
  | slotState sl st => exact .of_same (setSlotState_frame _ _ _) rfl rfl rfl le_rfl
  | pair p e => exact .of_same (setPair_frame _ _ _) rfl rfl rfl le_rfl
  | waiting w => exact .of_same (setWaiting_frame _ _) rfl rfl rfl le_rfl
  | ticket sl => exact raiseTicket_keeps sl s
  | assigned sl =>
    have cleared : StoreKeeps (coldSlot sl s) (clearClamped sl (coldSlot sl s)) :=
      setCoreSlot_keeps sl _ _
    have unmarked : ∀ u, StoreKeeps u (unmarkReset sl u) := fun u =>
      { StoreKeeps.refl u with
        frame := unmarkReset_frame sl u
        resets := fun e => by
          show u.blk.resets.filter _ = []
          rw [e]
          rfl }
    exact ((coldSlot_keeps sl s).trans cleared).trans (unmarked _)
  | fills q => exact .of_same (setFills_frame _ _) rfl rfl rfl le_rfl
  | captures q => exact .of_same (setCaptures_frame _ _) rfl rfl rfl le_rfl

theorem AllocMove.keeps {s t : State} (m : AllocMove s t) : StoreKeeps s t := by
  cases m with
  | pool m => exact m.keeps
  | report src _ other => exact (reportSource_reported src s).keeps other

theorem ZoneMove.keeps {s t : State} (m : ZoneMove s t) : StoreKeeps s t := by
  cases m with
  | alloc m => exact m.keeps
  | carried sl _ _ =>
    exact .of_record (sl := sl) (x := { s.ctl.slots[sl] with phase := .converging, counter := 0 })
      ((setCoreSlot_frame sl _ s).trans (setPhaseKeepRun_frame sl _ _)) rfl rfl rfl rfl rfl rfl (.inr ⟨rfl, rfl⟩)

theorem completeReply_longer (r : Msg) (s : State) :
    s.cmd.replies.length ≤ (completeReply r s).cmd.replies.length := by
  unfold completeReply
  split
  · simp
  · exact le_rfl

theorem completeReply_same (r : Msg) (s : State) : (completeReply r s).ctl = s.ctl ∧ (completeReply r s).ev = s.ev ∧
    (completeReply r s).blk = s.blk := by
  unfold completeReply
  split
  · exact ⟨rfl, rfl, rfl⟩
  · exact ⟨rfl, rfl, rfl⟩

theorem StoreMove.keeps {s t : State} (m : StoreMove s t) : StoreKeeps s t := by
  cases m with
  | alloc m => exact m.keeps
  | set p x => exact .of_same (setSet_frame _ _ _) rfl rfl rfl le_rfl
  | sets x => exact .of_same (setSets_frame _ _) rfl rfl rfl le_rfl
  | port t => exact .of_same (setPort_frame _ _) rfl rfl rfl le_rfl
  | host h => exact .of_same (setHost_frame _ _) rfl rfl rfl le_rfl
  | errors n => exact .of_same (setErrors_frame _ _) rfl rfl rfl le_rfl
  | enabled on => exact .of_same (setEnabled_frame _ _) rfl rfl rfl le_rfl
  | firstError e => exact .of_same (setFirstError_frame _ _) rfl rfl rfl le_rfl
  | written w => exact .of_same (setWritten_frame _ _) rfl rfl rfl le_rfl
  | reply r =>
    obtain ⟨ctl, ev, blk⟩ := completeReply_same r s
    exact .of_same (completeReply_frame r s) ctl ev (by rw [blk]) (completeReply_longer r s)
  | installed sl h => exact installHead_keeps sl h s

theorem PoolRun.keeps {s t : State} (run : PoolRun s t) : StoreKeeps s t :=
  run_keeps .refl (fun h k => h.trans k) (fun m => m.keeps) run

theorem AllocRun.keeps {s t : State} (run : AllocRun s t) : StoreKeeps s t :=
  run_keeps .refl (fun h k => h.trans k) (fun m => m.keeps) run

theorem ZoneRun.keeps {s t : State} (run : ZoneRun s t) : StoreKeeps s t :=
  run_keeps .refl (fun h k => h.trans k) (fun m => m.keeps) run

theorem StoreRun.keeps {s t : State} (run : StoreRun s t) : StoreKeeps s t :=
  run_keeps .refl (fun h k => h.trans k) (fun m => m.keeps) run

/-! ### Coefficients and cold slots -/

/-- A slot made cold at this boundary whose record is that of a cold slot still (R86). -/
def Fresh (s : State) (sl : SlotId) : Prop := sl ∈ s.blk.cold ∧ s.ctl.slots[sl] = ⟨.warmup, 0, 0⟩

/-- What moves other than an installation leave of the coefficients and of the slots made cold (R67, R69, R70). -/
structure TapsKept (s t : State) : Prop where
  tail : t.core.tail = s.core.tail
  fresh : ∀ sl : SlotId, Fresh s sl → Fresh t sl
  warm : ∀ sl : SlotId, sl ∉ t.blk.cold → sl ∉ s.blk.cold ∧
    t.core.slots[sl].clamped = s.core.slots[sl].clamped ∧
    ∀ (j : Fin 32) (k : Nat), k < tailLen s →
      memGet t.core.mem (tapAddr (tailLen s) sl.val j.val k) = memGet s.core.mem (tapAddr (tailLen s) sl.val j.val k)

theorem TapsKept.refl (s : State) : TapsKept s s := ⟨rfl, fun _ => id, fun _ h => ⟨h, rfl, fun _ _ _ => rfl⟩⟩

theorem TapsKept.tailLen {s t : State} (h : TapsKept s t) : tailLen t = tailLen s := by
  unfold Machine.tailLen
  rw [h.tail]

theorem TapsKept.trans {s t u : State} (h : TapsKept s t) (k : TapsKept t u) : TapsKept s u where
  tail := k.tail.trans h.tail
  fresh sl f := k.fresh sl (h.fresh sl f)
  warm sl warm := by
    obtain ⟨warm, clamped, taps⟩ := k.warm sl warm
    obtain ⟨warm, clamped', taps'⟩ := h.warm sl warm
    rw [h.tailLen] at taps
    exact ⟨warm, clamped.trans clamped', fun j i hi => (taps j i hi).trans (taps' j i hi)⟩

theorem TapsKept.foldl {α : Type} (f : State → α → State) (h : ∀ s x, TapsKept s (f s x)) (l : List α) (s : State) :
    TapsKept s (l.foldl f s) := by
  induction l generalizing s with
  | nil => exact .refl s
  | cons x l ih => exact (h s x).trans (ih _)

/-- A move that leaves the coefficients, the slots' clamped flags and records, and the notes of cold slots. -/
theorem TapsKept.of_same {s t : State} (tail : t.core.tail = s.core.tail) (mem : t.core.mem = s.core.mem)
    (clamped : ∀ sl : SlotId, t.core.slots[sl].clamped = s.core.slots[sl].clamped) (slots : t.ctl.slots = s.ctl.slots)
    (cold : t.blk.cold = s.blk.cold) : TapsKept s t where
  tail := tail
  fresh sl f := by unfold Fresh at *; rw [cold, slots]; exact f
  warm sl warm := by rw [cold] at warm; rw [mem]; exact ⟨warm, clamped sl, fun _ _ _ => rfl⟩

/-- A slot made cold: a fresh one, and every other as it was. -/
theorem TapsKept.of_cold {s t : State} {sl : SlotId} (tail : t.core.tail = s.core.tail)
    (cold : t.blk.cold = sl :: s.blk.cold) (record : t.ctl.slots[sl] = ⟨.warmup, 0, 0⟩)
    (kept : ∀ o : SlotId, o ≠ sl → SlotKept s t o) : TapsKept s t where
  tail := tail
  fresh o f := by
    obtain ⟨marked, fresh⟩ := f
    refine ⟨by rw [cold]; exact List.mem_cons_of_mem _ marked, ?_⟩
    by_cases same : o = sl
    · rw [same]; exact record
    · rw [(kept o same).record]; exact fresh
  warm o warm := by
    rw [cold, List.mem_cons, not_or] at warm
    obtain ⟨other, warm⟩ := warm
    have k := kept o other
    exact ⟨warm, by rw [k.numeric], k.taps⟩

theorem coldSlot_taps (sl : SlotId) (s : State) : TapsKept s (coldSlot sl s) :=
  .of_cold rfl rfl (coldSlot_made sl s).record fun _ other => coldSlot_kept other s

theorem coldSlot_fresh (sl : SlotId) (s : State) : Fresh (coldSlot sl s) sl :=
  ⟨List.mem_cons_self, (coldSlot_made sl s).record⟩

/-- A new record of a slot with the same clamped flag. -/
theorem set_clamped {v : Vector CoreSlot 128} {sl : SlotId} {x : CoreSlot} (same : x.clamped = v[sl].clamped)
    (o : SlotId) : (v.set sl x)[o].clamped = v[o].clamped := by
  rw [getElem_set_fin]
  split
  · next e => subst e; exact same
  · rfl

/-- The clamped flag of a slot turns off as the slot is assigned, cold (R67). -/
theorem assigned_taps (sl : SlotId) (s : State) : TapsKept s (unmarkReset sl (clearClamped sl (coldSlot sl s))) := by
  refine .of_cold (sl := sl) rfl rfl (coldSlot_made sl s).record fun o other => ?_
  have kept := coldSlot_kept other s
  refine ⟨kept.taps, ?_, kept.record⟩
  rw [← kept.numeric]
  show ((coldSlot sl s).core.slots.set sl { (coldSlot sl s).core.slots[sl] with clamped := false })[o] = _
  rw [getElem_set_fin, if_neg other]

theorem PoolMove.taps {s t : State} (m : PoolMove s t) : TapsKept s t := by
  cases m with
  | slotState sl st => exact .of_same rfl rfl (fun _ => rfl) rfl rfl
  | pair p e => exact .of_same rfl rfl (fun _ => rfl) rfl rfl
  | waiting w => exact .of_same rfl rfl (fun _ => rfl) rfl rfl
  | ticket sl => exact .of_same rfl rfl (set_clamped rfl) rfl rfl
  | assigned sl => exact assigned_taps sl s
  | fills q => exact .of_same rfl rfl (fun _ => rfl) rfl rfl
  | captures q => exact .of_same rfl rfl (fun _ => rfl) rfl rfl

theorem AllocMove.taps {s t : State} (m : AllocMove s t) : TapsKept s t := by
  cases m with
  | pool m => exact m.taps
  | report src _ _ =>
    have eq := (reportSource_reported src s).eq
    exact .of_same (by rw [eq]) (by rw [eq]) (fun _ => by rw [eq]) (by rw [eq]) (by rw [eq])

theorem ZoneMove.taps {s t : State} (m : ZoneMove s t) : TapsKept s t := by
  cases m with
  | alloc m => exact m.taps
  | carried sl _ warm =>
    refine ⟨rfl, fun o f => ?_, fun o h => ⟨h, set_clamped (v := s.core.slots) (sl := sl)
      (x := { s.core.slots[sl] with origin := .carried }) rfl o, fun _ _ _ => rfl⟩⟩
    obtain ⟨cold, record⟩ := f
    have other : o ≠ sl := fun e => warm (e ▸ cold)
    refine ⟨cold, ?_⟩
    show (s.ctl.slots.set sl _)[o] = _
    rw [getElem_set_fin, if_neg other, record]

theorem PoolRun.taps {s t : State} (run : PoolRun s t) : TapsKept s t :=
  run_keeps .refl (fun h k => h.trans k) (fun m => m.taps) run

theorem AllocRun.taps {s t : State} (run : AllocRun s t) : TapsKept s t :=
  run_keeps .refl (fun h k => h.trans k) (fun m => m.taps) run

theorem ZoneRun.taps {s t : State} (run : ZoneRun s t) : TapsKept s t :=
  run_keeps .refl (fun h k => h.trans k) (fun m => m.taps) run

/-! ### Moves of the pool -/

theorem PoolMove.moves {s t : State} (m : PoolMove s t) : PoolMoves s t := by
  cases m with
  | slotState sl st => rfl
  | pair p e => rfl
  | waiting w => rfl
  | ticket sl => rfl
  | assigned sl =>
    have cleared : ∀ x u, PoolMoves u (setCoreSlot sl x u) := fun _ _ => rfl
    have unmarked : ∀ u, PoolMoves u (unmarkReset sl u) := fun _ => rfl
    exact ((coldSlot_moves sl s).trans (cleared _ _)).trans (unmarked _)
  | fills q => rfl
  | captures q => rfl

theorem PoolRun.moves {s t : State} (run : PoolRun s t) : PoolMoves s t :=
  run_keeps .refl (fun h k => h.trans k) (fun m => m.moves) run

end Sys2Proof.Machine
end

