-- ==== Sys2Proof/Proofs/Untaken.lean ====
section
/-! PROOF. A boundary at which no command is taken (R60, R78): what each of its events leaves of the block's work, and
the boundary as its opening, its events in turn and the output assembly. -/

namespace Sys2Proof.Machine

/-! ### What every event leaves of the block's work -/

/-- What every event of a boundary at which no command is taken leaves: the settings, the measures of the block and
what the block hands on, but for the suppressed band values. -/
structure WorkKept (s t : State) : Prop where
  resetn : t.resetn = s.resetn
  ports : t.ports = s.ports
  play : t.play = { s.play with clamped := t.play.clamped }
  lines : t.tracker.lines = s.tracker.lines
  refs : ∀ r : RefId, t.tracker.refs[r] = { s.tracker.refs[r] with
    activity := t.tracker.refs[r].activity, linger := t.tracker.refs[r].linger }
  banks : t.banks = s.banks
  core : t.core = { s.core with mem := t.core.mem, slots := t.core.slots }
  beams : ∀ b : BeamId, t.ctl.beams[b] = { s.ctl.beams[b] with
    erle := t.ctl.beams[b].erle, divCtr := t.ctl.beams[b].divCtr, divCount := t.ctl.beams[b].divCount
    degCtr := t.ctl.beams[b].degCtr, degraded := t.ctl.beams[b].degraded }
  thresholds : t.ctl.thresholds = s.ctl.thresholds
  mask : t.alloc.mask = s.alloc.mask
  out : t.out = s.out
  cmd : t.cmd = { s.cmd with
    state := t.cmd.state, replies := t.cmd.replies, loadWritten := t.cmd.loadWritten, turn := t.cmd.turn }
  longer : s.cmd.replies.length ≤ t.cmd.replies.length
  evMask : t.ev.mask = s.ev.mask
  evMode : t.ev.mode = s.ev.mode
  status : ∀ i, s.ev.status.getLsbD i = true → t.ev.status.getLsbD i = true
  blk : t.blk = { s.blk with
    work := t.blk.work, phaseSet := t.blk.phaseSet, runSet := t.blk.runSet, runDone := t.blk.runDone
    resets := t.blk.resets, diverged := t.blk.diverged, cold := t.blk.cold, counted := t.blk.counted
    clampDone := t.blk.clampDone, divDone := t.blk.divDone }
  work : ∀ b : BeamId, t.blk.work[b] = { s.blk.work[b] with outBands := t.blk.work[b].outBands }

theorem WorkKept.refl (s : State) : WorkKept s s :=
  ⟨rfl, rfl, rfl, rfl, fun _ => rfl, rfl, rfl, fun _ => rfl, rfl, rfl, rfl, rfl, le_rfl, rfl, rfl, fun _ => id, rfl,
    fun _ => rfl⟩

theorem WorkKept.trans {s t u : State} (h : WorkKept s t) (k : WorkKept t u) : WorkKept s u where
  resetn := k.resetn.trans h.resetn
  ports := k.ports.trans h.ports
  play := by rw [k.play, h.play]
  lines := k.lines.trans h.lines
  refs r := by rw [k.refs r, h.refs r]
  banks := k.banks.trans h.banks
  core := by rw [k.core, h.core]
  beams b := by rw [k.beams b, h.beams b]
  thresholds := k.thresholds.trans h.thresholds
  mask := k.mask.trans h.mask
  out := k.out.trans h.out
  cmd := by rw [k.cmd, h.cmd]
  longer := h.longer.trans k.longer
  evMask := k.evMask.trans h.evMask
  evMode := k.evMode.trans h.evMode
  status i e := k.status i (h.status i e)
  blk := by rw [k.blk, h.blk]
  work b := by rw [k.work b, h.work b]

theorem WorkKept.foldl {α : Type} (f : State → α → State) (h : ∀ s x, WorkKept s (f s x)) (l : List α) (s : State) :
    WorkKept s (l.foldl f s) := by
  induction l generalizing s with
  | nil => exact .refl s
  | cons x l ih => exact (h s x).trans (ih _)

/-- The moves of the pool and of the store port are no part of the block's work. -/
theorem StoreKeeps.work {s t : State} (k : StoreKeeps s t) : WorkKept s t := by
  obtain ⟨f, beams, -, -, -, status, -, longer, -⟩ := k
  have work : t.blk.work = s.blk.work := by rw [f.blk]
  exact
    { resetn := f.resetn, ports := f.ports, play := by rw [f.play], lines := by rw [f.tracker]
      refs := fun r => by rw [f.tracker]
      banks := f.banks, core := f.core, beams := fun b => by rw [beams]
      thresholds := f.thresholds, mask := f.mask, out := f.out, cmd := by rw [f.cmd], longer := longer
      evMask := f.evMask, evMode := f.evMode, status := status, blk := by rw [f.blk], work := fun b => by rw [work] }

/-- A report of a source is no part of the block's work. -/
theorem Reported.work {src : Source} {s t : State} (r : Reported src s t) : WorkKept s t := by
  obtain ⟨eq, longer⟩ := r
  constructor
  case longer => exact longer
  all_goals rw [eq]
  · exact fun _ => rfl
  · exact fun _ => rfl
  · exact fun i e => setInsert_mono _ _ e
  · exact fun _ => rfl

theorem setCtlSlot_work (sl : SlotId) (x : CtlSlot) (s : State) : WorkKept s (setCtlSlot sl x s) :=
  { WorkKept.refl s with }

/-- A beam's record changes in what the counting and the resets write. -/
theorem setCtlBeam_work {b : BeamId} {x : CtlBeam} (s : State)
    (same : x = { s.ctl.beams[b] with
      erle := x.erle, divCtr := x.divCtr, divCount := x.divCount, degCtr := x.degCtr, degraded := x.degraded }) :
    WorkKept s (setCtlBeam b x s) :=
  { WorkKept.refl s with
    beams := fun o => by
      rw [setCtlBeam_ctl]
      dsimp only
      rw [getElem_set_fin]
      split
      · next e => subst e; exact same
      · rfl }

theorem reportDiverged_work (b : BeamId) (s : State) : WorkKept s (reportDiverged b s) := by
  have noted : WorkKept s { s with ev := { s.ev with diverged := setInsert s.ev.diverged b.val } } :=
    { WorkKept.refl s with }
  exact noted.trans (reportSource_reported .diverged _).work

theorem reportDegraded_work (b : BeamId) (s : State) : WorkKept s (reportDegraded b s) := by
  have noted : WorkKept s { s with ev := { s.ev with degraded := setInsert s.ev.degraded b.val } } :=
    { WorkKept.refl s with }
  exact noted.trans (reportSource_reported .degraded _).work

theorem clampBeam_work (b : BeamId) (s : State) : WorkKept s (clampBeam b s) :=
  (setCtlBeam_work s rfl).trans (reportDiverged_work b _)

theorem markDiverged_work (b : BeamId) (s : State) : WorkKept s (markDiverged b s) :=
  { WorkKept.refl s with blk := rfl }

theorem divergeBeam_work (b : BeamId) (s : State) : WorkKept s (divergeBeam b s) :=
  ((setCtlBeam_work s rfl).trans (markDiverged_work b _)).trans (reportDiverged_work b _)

theorem countSlot_work (s : State) (x : BlockSlot) : WorkKept s (countSlot s x) := by
  unfold countSlot; split
  · exact setCtlSlot_work _ _ s
  · exact .refl s

theorem countBeam_work (s : State) (b : BeamId) : WorkKept s (countBeam s b) := by
  unfold countBeam; split
  · exact setCtlBeam_work s rfl
  · exact .refl s

/-- The boundary's notes on the counting and the resets. -/
theorem notes_work (s : State) (counted : Bool) (runDone : List SlotId) (clampDone : List (SlotId × PairId))
    (divDone : List BeamId) : WorkKept s { s with blk := { s.blk with
      counted := counted, runDone := runDone, clampDone := clampDone, divDone := divDone } } :=
  { WorkKept.refl s with blk := rfl }

theorem countBlock_work (s : State) : WorkKept s (countBlock s) := by
  unfold countBlock; split
  · exact .refl s
  · exact ((WorkKept.foldl _ countSlot_work _ s).trans (.foldl _ countBeam_work _ _)).trans (notes_work _ _ _ _ _)

theorem coldSlot_work (sl : SlotId) (s : State) : WorkKept s (coldSlot sl s) := (coldSlot_keeps sl s).work

theorem markReset_work (sl : SlotId) (s : State) : WorkKept s (markReset sl s) := { WorkKept.refl s with blk := rfl }

theorem resetSlot_work (sl : SlotId) (p : PairId) (s : State) : WorkKept s (resetSlot sl p s) := by
  unfold resetSlot; split
  · exact .refl s
  · exact ((coldSlot_work sl s).trans (markReset_work sl _)).trans (lookup_run sl p _ _).keeps.work

theorem resetSlots_work (which : SlotId → PairId → Bool) (s : State) : WorkKept s (resetSlots which s) := by
  refine .foldl _ (fun s sl => ?_) _ s
  split
  · split
    · exact resetSlot_work _ _ s
    · exact .refl s
  · exact .refl s
  · exact .refl s

theorem resetEvent_work (s : State) : WorkKept s (resetEvent s) := by
  have swept := (countBlock_work s).trans (resetSlots_work (fun sl p =>
    (countBlock s).blk.clampDone.contains (sl, p) || (countBlock s).blk.divDone.contains (pairBeam p)) _)
  have told := (swept.trans (.foldl _ (fun s x => clampBeam_work (pairBeam x.2) s) (countBlock s).blk.clampDone _)).trans
    (.foldl _ (fun s b => divergeBeam_work b s) (countBlock s).blk.divDone _)
  exact told.trans (notes_work _ _ _ _ _)

theorem degradeBeam_work (limit : Nat) (s : State) (b : BeamId) : WorkKept s (degradeBeam limit s b) := by
  have record : ∀ {c : Prop} [Decidable c] {n : Nat} {f : Bool}, WorkKept s
      (if c then s else setCtlBeam b { s.ctl.beams[b] with degCtr := n, degraded := f } s) := by
    intro c _ n f
    split
    · exact .refl s
    · exact setCtlBeam_work s rfl
  unfold degradeBeam; dsimp only; split
  · split
    · exact record.trans (reportDegraded_work b _)
    · exact record
  · exact .refl s

theorem degradeEvent_work (s : State) : WorkKept s (degradeEvent s) := by
  unfold degradeEvent; split
  · exact .refl s
  · exact .foldl _ (degradeBeam_work _) _ s

/-- Suppressed band values are handed on (R152). -/
theorem suppressed_work (s : State) {x : Suppressor} {w : Vector BlockBeam 16}
    (same : ∀ b : BeamId, w[b] = { s.blk.work[b] with outBands := w[b].outBands }) :
    WorkKept s { s with supp := x, blk := { s.blk with work := w } } :=
  { WorkKept.refl s with blk := rfl, work := same }

theorem suppressBlock_work (s : State) : WorkKept s (suppressBlock s) :=
  suppressed_work s fun b => by rw [getElem_ofFn_fin]

theorem applyDecided_work (s : State) : WorkKept s (applyDecided s) :=
  { WorkKept.refl s with
    refs := fun r => by
      unfold applyDecided
      dsimp only
      rw [getElem_ofFn_fin] }

theorem clippingEvent_work (s : State) : WorkKept s (clippingEvent s) := by
  unfold clippingEvent; split
  · have cleared : WorkKept s { s with play := { s.play with clamped := false } } :=
      { WorkKept.refl s with play := rfl }
    exact cleared.trans (reportSource_reported .clipping _).work
  · exact .refl s

theorem router_work (s : State) (x : Router) : WorkKept s { s with router := x } := { WorkKept.refl s with }

theorem applyRecord_work (r : SteerRec) (s : State) : WorkKept s (applyRecord r s) := by
  unfold applyRecord; dsimp only; split
  · exact .refl s
  · have tagged : WorkKept s (setBeam r.beam { s.router.beams[r.beam] with tag := r.tag } s) := router_work s _
    split
    · exact tagged.trans (zoneChange_run _ _ _ _).keeps.work
    · exact tagged

theorem applySteer_work (s : State) : WorkKept s (applySteer s) := by
  unfold applySteer; split
  · exact .refl s
  · exact (router_work s _).trans (.foldl _ (fun s r => applyRecord_work r s) _ _)

theorem endTurn_work (s : State) : WorkKept s (endTurn s) := { WorkKept.refl s with cmd := rfl }

/-! ### The events of a boundary at which no command is taken -/

/-- An event of a boundary whose command event takes no command and whose reply event has none to place. -/
def quietEvent (e : BoundaryEvent) (s : State) : State :=
  match e with
  | .command => endTurn s
  | .reply => s
  | .activity | .clipping | .counting | .resets | .degrade | .suppress | .view | .steer | .complete | .grant =>
    boundaryEvent false e s

theorem whileLive_work {f : State → State} {s : State} (k : WorkKept s (f s)) : WorkKept s (whileLive f s) := by
  unfold whileLive; split
  · exact k
  · exact .refl s

theorem quietEvent_work (e : BoundaryEvent) (s : State) : WorkKept s (quietEvent e s) := by
  cases e with
  | activity => exact whileLive_work ((applyDecided_work s).trans (allocEvent_run _ _).keeps.work)
  | clipping => exact whileLive_work (clippingEvent_work s)
  | counting => exact whileLive_work (countBlock_work s)
  | resets => exact whileLive_work (resetEvent_work s)
  | degrade => exact whileLive_work (degradeEvent_work s)
  | suppress => exact whileLive_work (suppressBlock_work s)
  | view => exact .refl s
  | steer => exact applySteer_work s
  | complete => exact (completeDue_run s).keeps.work
  | grant => exact (grantDue_run s).keeps.work
  | command => exact endTurn_work s
  | reply => exact .refl s

/-- The unit finds no message, or no room for a reply (R162), and no reply of the boundary is kept. -/
structure NothingTaken (s : State) : Prop where
  none : s.cmd.queue = [] ∨ 8 ≤ s.cmd.replies.length
  reply : s.blk.reply = .none

theorem WorkKept.nothingTaken {s t : State} (h : WorkKept s t) (n : NothingTaken s) : NothingTaken t := by
  refine ⟨n.none.imp (fun e => ?_) (·.trans h.longer), ?_⟩
  · rw [h.cmd]; exact e
  · rw [h.blk]; exact n.reply

theorem takeCommand_nothing {s : State} (n : NothingTaken s) : takeCommand s = s :=
  takeIf_not _ _ (n.none.elim (fun e => .inr (.inr (.inr (.inl e)))) fun e => .inr (.inr (.inl e)))

theorem commandEvent_nothing {s : State} (n : NothingTaken s) (keep : Bool) : commandEvent keep s = endTurn s := by
  unfold commandEvent
  cases keep with
  | false => exact congrArg endTurn (takeCommand_nothing n)
  | true =>
    rcases n.none with empty | full
    · have same := takeCommand_nothing (s := { s with cmd := { s.cmd with replies := [] } }) ⟨.inl empty, n.reply⟩
      have kept : takeKeeping s = s := by
        unfold takeKeeping
        split
        · next room =>
          have all : (s.cmd.replies ++ []).take replyLimit = s.cmd.replies := by
            rw [List.append_nil]
            exact List.take_of_length_le room.le
          dsimp only
          rw [same, takeCommand_nothing n]
          split
          · show { s with
              cmd := { s.cmd with replies := (s.cmd.replies ++ []).take replyLimit }
              blk := { s.blk with reply := Option.none } } = s
            rw [all, ← n.reply]
          · rfl
        · rfl
      rw [if_pos rfl, kept]
    · rw [if_pos rfl, takeKeeping, if_neg (by show ¬ _ < 8; omega)]

theorem boundaryEvent_nothing {s : State} (n : NothingTaken s) (keep : Bool) (e : BoundaryEvent) :
    boundaryEvent keep e s = quietEvent e s := by
  cases e with
  | command => exact commandEvent_nothing n keep
  | reply =>
    show appendKept s = s
    unfold appendKept
    rw [n.reply]
  | _ => rfl

/-- The events of a boundary at which no command is taken, in turn. -/
def quietEvents (es : List BoundaryEvent) (s : State) : State := es.foldl (fun s e => quietEvent e s) s

theorem quietEvents_work (es : List BoundaryEvent) (s : State) : WorkKept s (quietEvents es s) :=
  .foldl _ (fun s e => quietEvent_work e s) es s

theorem runEvents_nothing (keep : Bool) (es : List BoundaryEvent) {s : State} (n : NothingTaken s) :
    runEvents keep es s = quietEvents es s := by
  induction es generalizing s with
  | nil => rfl
  | cons e es ih =>
    show runEvents keep es (boundaryEvent keep e s) = _
    rw [boundaryEvent_nothing n keep e]
    exact ih ((quietEvent_work e s).nothingTaken n)

/-- Without the command event no command is taken. -/
theorem runEvents_noCommand (keep : Bool) {es : List BoundaryEvent} (without : .command ∉ es) {s : State}
    (reply : s.blk.reply = none) : runEvents keep es s = quietEvents es s := by
  induction es generalizing s with
  | nil => rfl
  | cons e es ih =>
    simp only [List.mem_cons, not_or] at without
    have same : boundaryEvent keep e s = quietEvent e s := by
      cases e with
      | command => exact absurd rfl without.1
      | reply => show appendKept s = s; unfold appendKept; rw [reply]
      | _ => rfl
    show runEvents keep es (boundaryEvent keep e s) = _
    rw [same]
    exact ih without.2 (by rw [(quietEvent_work e s).blk]; exact reply)

/-! ### Once -/

theorem eraseDups_nodup {α : Type} [BEq α] [LawfulBEq α] : (l : List α) → l.eraseDups.Nodup
  | [] => List.nodup_nil
  | a :: l => by
    have shorter := List.length_filter_le (fun x => !x == a) l
    rw [List.eraseDups_cons]
    refine List.nodup_cons.2 ⟨fun again => ?_, eraseDups_nodup _⟩
    simpa using List.mem_eraseDups.1 again
termination_by l => l.length
decreasing_by exact Nat.lt_succ_of_le shorter

theorem eventOrder_nodup (order : List BoundaryEvent) : (eventOrder order).Nodup := by
  refine List.nodup_append.2 ⟨eraseDups_nodup _, List.Nodup.filter _ (by decide), fun a ha b hb e => ?_⟩
  subst e
  have named := List.mem_eraseDups.1 ha
  have unnamed := (List.mem_filter.1 hb).2
  simp [named] at unnamed

theorem ownWork_mem_eventOrder (order : List BoundaryEvent) {e : BoundaryEvent} (own : e ∈ ownWork) :
    e ∈ eventOrder order := by
  unfold eventOrder
  by_cases named : e ∈ order
  · exact List.mem_append_left _ (List.mem_eraseDups.2 named)
  · exact List.mem_append_right _ (List.mem_filter.2 ⟨own, by simpa using named⟩)

theorem mem_eventOrder {order : List BoundaryEvent} {e : BoundaryEvent} (h : e ∈ eventOrder order) :
    e ∈ order ∨ e ∈ ownWork :=
  (List.mem_append.1 h).imp List.mem_eraseDups.1 List.mem_of_mem_filter

theorem quietEvents_append (p q : List BoundaryEvent) (s : State) :
    quietEvents (p ++ q) s = quietEvents q (quietEvents p s) := List.foldl_append

theorem quietEvents_keep {P : State → Prop} {es : List BoundaryEvent} {s : State} (h : P s)
    (keep : ∀ e ∈ es, ∀ x, P x → P (quietEvent e x)) : P (quietEvents es s) :=
  foldl_keeps _ es (fun x e mem hx => keep e mem x hx) h

/-- An event that stands once in the order takes what holds before it to what holds after it. -/
theorem quietEvents_once {P Q : State → Prop} {es : List BoundaryEvent} {e : BoundaryEvent} (once : es.Nodup)
    (mem : e ∈ es) {s : State} (start : P s) (before : ∀ o ∈ es, o ≠ e → ∀ x, P x → P (quietEvent o x))
    (here : ∀ x, P x → Q (quietEvent e x)) (after : ∀ o ∈ es, o ≠ e → ∀ x, Q x → Q (quietEvent o x)) :
    Q (quietEvents es s) := by
  obtain ⟨p, q, rfl⟩ := List.append_of_mem mem
  have unique := List.nodup_middle.1 once
  have apart : ∀ o, o ∈ p ∨ o ∈ q → o ≠ e := fun o ho same =>
    (List.nodup_cons.1 unique).1 (List.mem_append.2 (same ▸ ho))
  rw [quietEvents_append]
  have first : P (quietEvents p s) := quietEvents_keep start fun o ho =>
    before o (List.mem_append_left _ ho) (apart o (.inl ho))
  exact quietEvents_keep (s := quietEvent e (quietEvents p s)) (here _ first) fun o ho =>
    after o (List.mem_append_right _ (List.mem_cons_of_mem _ ho)) (apart o (.inr ho))

/-! ### The boundary -/

/-- The state at which the events of a boundary start. -/
def opened (order : List BoundaryEvent) (s : State) : State :=
  openBlock (controllerSees (eventOrder order) (appendHeld s)) (appendHeld s)

theorem opened_frame (order : List BoundaryEvent) (s : State) :
    OpenFrame (snapshotBlock (appendHeld s)) (opened order s) := openBlock_open _ _

theorem appendHeld_queue (s : State) :
    (appendHeld s).cmd.queue = s.cmd.queue ∧ s.cmd.replies.length ≤ (appendHeld s).cmd.replies.length := by
  unfold appendHeld
  split
  · split
    · exact ⟨by rw [(completeReply_frame _ s).cmd], completeReply_longer _ s⟩
    · exact ⟨rfl, le_rfl⟩
  · exact ⟨rfl, le_rfl⟩
  · exact ⟨rfl, le_rfl⟩

theorem openBlock_reply (sees : RefId → Bool) (s : State) : (openBlock sees s).blk.reply = none :=
  (openBlock_open sees s).reply

/-- No command is taken at an opened boundary that has none to take. -/
theorem openBlock_nothing {s : State} (none : s.cmd.queue = [] ∨ 8 ≤ s.cmd.replies.length) (sees : RefId → Bool) :
    NothingTaken (openBlock sees (appendHeld s)) := by
  obtain ⟨queue, longer⟩ := appendHeld_queue s
  refine ⟨?_, openBlock_reply _ _⟩
  rw [(openBlock_open sees (appendHeld s)).cmd]
  exact none.imp queue.trans longer.trans'

/-- The state that the events of a boundary at which no command is taken leave. -/
def worked (order : List BoundaryEvent) (s : State) : State := quietEvents (eventOrder order) (opened order s)

theorem worked_work (order : List BoundaryEvent) (s : State) : WorkKept (opened order s) (worked order s) :=
  quietEvents_work _ _

theorem worked_live (order : List BoundaryEvent) (s : State) : (worked order s).blk.live = true := by
  rw [(worked_work order s).blk]
  exact (opened_frame order s).live

/-- A boundary at which no command is taken: its opening, its events and the output assembly (R60, R78). -/
theorem boundary_untaken {order : List BoundaryEvent} {s : State} (h : noCommandTaken order s) :
    boundary order s = assembleOutput (worked order s) := by
  have events : runEvents (keepsReply (eventOrder order)) (eventOrder order) (opened order s) = worked order s := by
    rcases h with without | none
    · exact runEvents_noCommand _ (fun mem => (mem_eventOrder mem).elim without (by decide)) (openBlock_reply _ _)
    · exact runEvents_nothing _ _ (openBlock_nothing none _)
  have report : (assembleOutput (worked order s)).blk.report = .none := by
    rw [(assembleOutput_event _).report, (worked_work order s).blk]
    exact (opened_frame order s).report
  calc boundary order s = closeBlock (worked order s) := congrArg closeBlock events
    _ = assembleOutput (worked order s) := by
      unfold closeBlock whileLive refreshReport
      rw [if_pos (worked_live order s), report]

theorem blockBoundary_untaken {order : List BoundaryEvent} {s : State} (due : BoundaryDue s)
    (none : noCommandTaken order s) : exec (.blockBoundary order) s = .next (assembleOutput (worked order s)) := by
  rw [← boundary_untaken none]
  exact execBlockBoundary_due order due

/-! ### Records that some events leave -/

theorem resetSlots_resetFrame (which : SlotId → PairId → Bool) (s : State) : ResetFrame s (resetSlots which s) := by
  have one : ∀ sl p x, ResetFrame x (resetSlot sl p x) := fun sl p x => by
    by_cases done : sl ∈ x.blk.resets
    · unfold resetSlot
      rw [if_pos (by simpa using done)]
      exact .refl x
    · exact (resetSlot_reset done p).frame
  unfold resetSlots
  generalize allSlots = l
  induction l generalizing s with
  | nil => exact .refl s
  | cons sl l ih =>
    refine ResetFrame.trans ?_ (ih _)
    dsimp only
    split
    · split
      · exact one _ _ s
      · exact .refl s
    · exact .refl s
    · exact .refl s

theorem whileLive_of {P : State → Prop} {f : State → State} {s : State} (h : P s) (k : P (f s)) : P (whileLive f s) := by
  unfold whileLive; split
  · exact k
  · exact h

/-- What the steer queue's application leaves beside the block's work. -/
structure Steered (s t : State) : Prop where
  tracker : t.tracker = s.tracker
  play : t.play = s.play
  supp : t.supp = s.supp
  work : t.blk.work = s.blk.work
  clipping : t.ev.status.getLsbD 7 = s.ev.status.getLsbD 7

/-- What the counting, the resets and the moves of the store port leave beside the block's work. -/
structure Still (s t : State) : Prop extends Steered s t where
  router : t.router = s.router

theorem Steered.refl (s : State) : Steered s s := ⟨rfl, rfl, rfl, rfl, rfl⟩

theorem Steered.trans {s t u : State} (h : Steered s t) (k : Steered t u) : Steered s u :=
  ⟨k.tracker.trans h.tracker, k.play.trans h.play, k.supp.trans h.supp, k.work.trans h.work,
    k.clipping.trans h.clipping⟩

theorem Still.refl (s : State) : Still s s := ⟨.refl s, rfl⟩

theorem Still.trans {s t u : State} (h : Still s t) (k : Still t u) : Still s u :=
  ⟨h.toSteered.trans k.toSteered, k.router.trans h.router⟩

theorem Still.foldl {α : Type} (f : State → α → State) (h : ∀ s x, Still s (f s x)) (l : List α) (s : State) :
    Still s (l.foldl f s) := by
  induction l generalizing s with
  | nil => exact .refl s
  | cons x l ih => exact (h s x).trans (ih _)

theorem StoreKeeps.still {s t : State} (k : StoreKeeps s t) : Still s t :=
  ⟨⟨k.frame.tracker, k.frame.play, k.frame.supp, by rw [k.frame.blk], k.clipping⟩, k.frame.router⟩

theorem ResetFrame.still {s t : State} (h : ResetFrame s t) : Still s t := by
  rw [h]
  exact ⟨⟨rfl, rfl, rfl, rfl, rfl⟩, rfl⟩

theorem reportDiverged_still (b : BeamId) (s : State) : Still s (reportDiverged b s) := by
  rw [reportDiverged, (reportSource_reported .diverged _).eq]
  exact ⟨⟨rfl, rfl, rfl, rfl, setInsert_other _ (by decide)⟩, rfl⟩

theorem reportDegraded_still (b : BeamId) (s : State) : Still s (reportDegraded b s) := by
  rw [reportDegraded, (reportSource_reported .degraded _).eq]
  exact ⟨⟨rfl, rfl, rfl, rfl, setInsert_other _ (by decide)⟩, rfl⟩

theorem setCtlBeam_still (b : BeamId) (x : CtlBeam) (s : State) : Still s (setCtlBeam b x s) :=
  ⟨⟨rfl, rfl, rfl, rfl, rfl⟩, rfl⟩

theorem clampBeam_still (b : BeamId) (s : State) : Still s (clampBeam b s) :=
  (setCtlBeam_still b _ s).trans (reportDiverged_still b _)

theorem divergeBeam_still (b : BeamId) (s : State) : Still s (divergeBeam b s) := by
  have marked : ∀ x, Still x (markDiverged b x) := fun _ => ⟨⟨rfl, rfl, rfl, rfl, rfl⟩, rfl⟩
  exact ((setCtlBeam_still b _ s).trans (marked _)).trans (reportDiverged_still b _)

theorem countSlot_still (s : State) (x : BlockSlot) : Still s (countSlot s x) := by
  unfold countSlot; split
  · exact ⟨⟨rfl, rfl, rfl, rfl, rfl⟩, rfl⟩
  · exact .refl s

theorem countBeam_still (s : State) (b : BeamId) : Still s (countBeam s b) := by
  unfold countBeam; split
  · exact setCtlBeam_still b _ s
  · exact .refl s

theorem notes_still (s : State) (counted : Bool) (runDone : List SlotId) (clampDone : List (SlotId × PairId))
    (divDone : List BeamId) : Still s { s with blk := { s.blk with
      counted := counted, runDone := runDone, clampDone := clampDone, divDone := divDone } } :=
  ⟨⟨rfl, rfl, rfl, rfl, rfl⟩, rfl⟩

theorem countBlock_still (s : State) : Still s (countBlock s) := by
  unfold countBlock; split
  · exact .refl s
  · exact ((Still.foldl _ countSlot_still _ s).trans (.foldl _ countBeam_still _ _)).trans (notes_still _ _ _ _ _)

theorem resetEvent_still (s : State) : Still s (resetEvent s) := by
  have swept := (countBlock_still s).trans (resetSlots_resetFrame (fun sl p =>
    (countBlock s).blk.clampDone.contains (sl, p) || (countBlock s).blk.divDone.contains (pairBeam p)) _).still
  have told := (swept.trans (.foldl _ (fun s x => clampBeam_still (pairBeam x.2) s) (countBlock s).blk.clampDone _)).trans
    (.foldl _ (fun s b => divergeBeam_still b s) (countBlock s).blk.divDone _)
  exact told.trans (notes_still _ _ _ _ _)

theorem degradeBeam_still (limit : Nat) (s : State) (b : BeamId) : Still s (degradeBeam limit s b) := by
  have record : ∀ {c : Prop} [Decidable c] {x : CtlBeam}, Still s (if c then s else setCtlBeam b x s) := by
    intro c _ x
    split
    · exact .refl s
    · exact setCtlBeam_still b x s
  unfold degradeBeam; dsimp only; split
  · split
    · exact record.trans (reportDegraded_still b _)
    · exact record
  · exact .refl s

theorem degradeEvent_still (s : State) : Still s (degradeEvent s) := by
  unfold degradeEvent; split
  · exact .refl s
  · exact .foldl _ (degradeBeam_still _) _ s

/-- The events that leave the activity states, the tags, the clamped flag and the suppressed band values. -/
theorem quietEvent_still {e : BoundaryEvent} (other : e ∉ [.activity, .clipping, .suppress, .steer]) (s : State) :
    Still s (quietEvent e s) := by
  cases e with
  | counting => exact whileLive_of (P := Still s) (.refl s) (countBlock_still s)
  | resets => exact whileLive_of (P := Still s) (.refl s) (resetEvent_still s)
  | degrade => exact whileLive_of (P := Still s) (.refl s) (degradeEvent_still s)
  | complete => exact (completeDue_run s).keeps.still
  | grant => exact (grantDue_run s).keeps.still
  | view => exact .refl s
  | command => exact ⟨⟨rfl, rfl, rfl, rfl, rfl⟩, rfl⟩
  | reply => exact .refl s
  | activity => exact absurd (by decide) other
  | clipping => exact absurd (by decide) other
  | suppress => exact absurd (by decide) other
  | steer => exact absurd (by decide) other

/-- The activity event leaves all but the activity states. -/
theorem activityEvent_still (s : State) : Still (applyDecided s) (activityEvent s) := (allocEvent_run _ _).keeps.still

theorem router_steered (s : State) (x : Router) : Steered s { s with router := x } := ⟨rfl, rfl, rfl, rfl, rfl⟩

theorem applyRecord_steered (r : SteerRec) (s : State) : Steered s (applyRecord r s) := by
  unfold applyRecord; dsimp only; split
  · exact .refl s
  · have tagged : Steered s (setBeam r.beam { s.router.beams[r.beam] with tag := r.tag } s) := router_steered s _
    split
    · exact tagged.trans (zoneChange_run _ _ _ _).keeps.still.toSteered
    · exact tagged

/-- The steer queue's application leaves all but the tags. -/
theorem applySteer_steered (s : State) : Steered s (applySteer s) := by
  have fold : ∀ (l : List SteerRec) (x : State), Steered x (l.foldl (fun s r => applyRecord r s) x) := by
    intro l
    induction l with
    | nil => exact fun x => .refl x
    | cons r l ih => exact fun x => (applyRecord_steered r x).trans (ih _)
  unfold applySteer; split
  · exact .refl s
  · exact (router_steered s _).trans (fold _ _)

theorem clippingEvent_still (s : State) : (clippingEvent s).router = s.router ∧ (clippingEvent s).supp = s.supp ∧
    (clippingEvent s).blk = s.blk ∧ (clippingEvent s).tracker = s.tracker := by
  unfold clippingEvent; split
  · rw [(reportSource_reported .clipping _).eq]
    exact ⟨rfl, rfl, rfl, rfl⟩
  · exact ⟨rfl, rfl, rfl, rfl⟩

/-- The tags move with the steer queue alone (R34). -/
theorem quietEvent_router {e : BoundaryEvent} (other : e ≠ .steer) (s : State) :
    (quietEvent e s).router = s.router := by
  by_cases own : e ∈ [BoundaryEvent.activity, .clipping, .suppress, .steer]
  · cases e with
    | activity => exact whileLive_of (P := (·.router = s.router)) rfl (activityEvent_still s).router
    | clipping => exact whileLive_of (P := (·.router = s.router)) rfl (clippingEvent_still s).1
    | suppress => exact whileLive_of (P := (·.router = s.router)) rfl rfl
    | steer => exact absurd rfl other
    | _ => exact absurd own (by decide)
  · exact (quietEvent_still own s).router

/-- The suppressed band values and the generators move with the suppressor's event alone (R148). -/
theorem quietEvent_supp {e : BoundaryEvent} (other : e ≠ .suppress) (s : State) :
    (quietEvent e s).supp = s.supp ∧ (quietEvent e s).blk.work = s.blk.work := by
  by_cases own : e ∈ [BoundaryEvent.activity, .clipping, .suppress, .steer]
  · cases e with
    | activity =>
      exact whileLive_of (P := fun t => t.supp = s.supp ∧ t.blk.work = s.blk.work) ⟨rfl, rfl⟩
        ⟨(activityEvent_still s).supp, (activityEvent_still s).work⟩
    | clipping =>
      obtain ⟨-, supp, blk, -⟩ := clippingEvent_still s
      exact whileLive_of (P := fun t => t.supp = s.supp ∧ t.blk.work = s.blk.work) ⟨rfl, rfl⟩ ⟨supp, by rw [blk]⟩
    | suppress => exact absurd rfl other
    | steer => exact ⟨(applySteer_steered s).supp, (applySteer_steered s).work⟩
    | _ => exact absurd own (by decide)
  · exact ⟨(quietEvent_still own s).supp, (quietEvent_still own s).work⟩

/-- The note that a sample was clamped and the source CLIPPING move with their event alone (R19). -/
theorem quietEvent_play {e : BoundaryEvent} (other : e ≠ .clipping) (s : State) :
    (quietEvent e s).play = s.play ∧ (quietEvent e s).ev.status.getLsbD 7 = s.ev.status.getLsbD 7 := by
  by_cases own : e ∈ [BoundaryEvent.activity, .clipping, .suppress, .steer]
  · cases e with
    | activity =>
      exact whileLive_of (P := fun t => t.play = s.play ∧ t.ev.status.getLsbD 7 = s.ev.status.getLsbD 7) ⟨rfl, rfl⟩
        ⟨(activityEvent_still s).play, (activityEvent_still s).clipping⟩
    | clipping => exact absurd rfl other
    | suppress =>
      exact whileLive_of (P := fun t => t.play = s.play ∧ t.ev.status.getLsbD 7 = s.ev.status.getLsbD 7) ⟨rfl, rfl⟩
        ⟨rfl, rfl⟩
    | steer => exact ⟨(applySteer_steered s).play, (applySteer_steered s).clipping⟩
    | _ => exact absurd own (by decide)
  · exact ⟨(quietEvent_still own s).play, (quietEvent_still own s).clipping⟩

/-- The activity states move with their event alone (R25). -/
theorem quietEvent_tracker {e : BoundaryEvent} (other : e ≠ .activity) (s : State) :
    (quietEvent e s).tracker = s.tracker := by
  by_cases own : e ∈ [BoundaryEvent.activity, .clipping, .suppress, .steer]
  · cases e with
    | activity => exact absurd rfl other
    | clipping => exact whileLive_of (P := (·.tracker = s.tracker)) rfl (clippingEvent_still s).2.2.2
    | suppress => exact whileLive_of (P := (·.tracker = s.tracker)) rfl rfl
    | steer => exact (applySteer_steered s).tracker
    | _ => exact absurd own (by decide)
  · exact (quietEvent_still own s).tracker

end Sys2Proof.Machine
end

