-- ==== Sys2Proof/Proofs/Opening.lean ====
section
/-! PROOF. The opening of a boundary (R60, R78): what its stages hand on, and a boundary for which the Array Link is not
LOCKED (O35, R36, R50, R82, R156). -/

namespace Sys2Proof.Machine

/-! ### The stages -/

/-- The part once the Core has estimated the echo of every beam. -/
def estimated (s : State) : State :=
  estimateBlock (pushHistories (decideBlock (analyseBlock (pushLock (snapshotBlock s)))))

/-- The references that the Controller sees ACTIVE. -/
def seen (sees : RefId → Bool) (s : State) (r : RefId) : Bool :=
  sees r && (estimated s).blk.decided[r].1 == .active

/-- The part once the Controller has granted adaptation. -/
def granting (sees : RefId → Bool) (s : State) : State := grantBlock (controlBlock (seen sees s) (estimated s))

theorem openBlock_eq (sees : RefId → Bool) (s : State) : openBlock sees s = updateBlock (granting sees s) := rfl

/-- A held reply that takes a free place is no part of the boundary's work. -/
theorem appendHeld_same (s : State) : appendHeld s = { s with cmd := { s.cmd with
    state := (appendHeld s).cmd.state, replies := (appendHeld s).cmd.replies } } := by
  unfold appendHeld completeReply
  split
  · split <;> rfl
  · rfl
  · rfl

/-- A beam's record after the Controller's stages 1 to 4, with what is handed on for the block (R78). -/
def controlled (active : RefId → Bool) (s : State) (b : BeamId) : CtlBeam × BlockBeam :=
  match s.ports.arrayRx.lock with
  | .locked => controlBeam active s b
  | .seeking => controlUnlocked s b

theorem controlBlock_beams (active : RefId → Bool) (s : State) (b : BeamId) :
    (controlBlock active s).ctl.beams[b] = (controlled active s b).1 := by
  have stage : (controlBlock active s).ctl.beams =
      Vector.ofFn fun b : BeamId => (Vector.ofFn (controlled active s))[b].1 := rfl
  rw [stage, getElem_ofFn_fin, getElem_ofFn_fin]

theorem controlBlock_work (active : RefId → Bool) (s : State) (b : BeamId) :
    (controlBlock active s).blk.work[b] = (controlled active s b).2 := by
  have stage : (controlBlock active s).blk.work =
      Vector.ofFn fun b : BeamId => (Vector.ofFn (controlled active s))[b].2 := rfl
  rw [stage, getElem_ofFn_fin, getElem_ofFn_fin]

theorem controlled_locked {s : State} (locked : s.ports.arrayRx.lock = .locked) (active : RefId → Bool) (b : BeamId) :
    controlled active s b = controlBeam active s b := by
  unfold controlled
  rw [locked]

theorem controlled_seeking {s : State} (seeking : s.ports.arrayRx.lock = .seeking) (active : RefId → Bool)
    (b : BeamId) : controlled active s b = controlUnlocked s b := by
  unfold controlled
  rw [seeking]

theorem estimated_open (s : State) : OpenFrame (snapshotBlock s) (estimated s) :=
  ((((pushLock_open _).trans (analyseBlock_open _)).trans (decideBlock_open _)).trans (pushHistories_open _)).trans
    (estimateBlock_open _)

theorem estimated_ports (s : State) : (estimated s).ports = s.ports := (estimated_open s).ports

theorem openBlock_work (sees : RefId → Bool) (s : State) :
    (openBlock sees s).blk.work = (controlBlock (seen sees s) (estimated s)).blk.work := rfl

theorem openBlock_beams (sees : RefId → Bool) (s : State) :
    (openBlock sees s).ctl.beams = (controlBlock (seen sees s) (estimated s)).ctl.beams := rfl

theorem openBlock_clampDone (sees : RefId → Bool) (s : State) : (openBlock sees s).blk.clampDone = [] := rfl

theorem slotsOfBlock_same {s t : State} (alloc : t.alloc = s.alloc) (ctl : t.ctl = s.ctl) :
    slotsOfBlock t = slotsOfBlock s := by
  unfold slotsOfBlock
  rw [alloc, ctl]

theorem estimateBlock_slots (s : State) : (estimateBlock s).blk.slots = slotsOfBlock s := rfl

theorem estimated_slots (s : State) : (estimated s).blk.slots = slotsOfBlock s := by
  rw [estimated, estimateBlock_slots]
  exact slotsOfBlock_same rfl rfl

theorem granting_slots (sees : RefId → Bool) (s : State) : (granting sees s).blk.slots =
    (slotsOfBlock s).map fun x => { x with granted := granted (controlBlock (seen sees s) (estimated s)) x } := by
  rw [← estimated_slots]
  rfl

theorem openBlock_slots (sees : RefId → Bool) (s : State) : (openBlock sees s).blk.slots =
    (updateSlots (granting sees s) (granting sees s).blk.slots (granting sees s).core.mem).2 := rfl

/-- The update of the slots of a block leaves of their records all but the clamped flag. -/
theorem updateSlots_records (s : State) (xs : List BlockSlot) (mem : TapMem) :
    (updateSlots s xs mem).2.map (fun x => { x with clamped := false }) =
      xs.map fun x => { x with clamped := false } := by
  induction xs generalizing mem with
  | nil => rfl
  | cons x xs ih =>
    unfold updateSlots
    rw [List.map_cons, List.map_cons, ih]

theorem mem_updateSlots {s : State} {xs : List BlockSlot} {mem : TapMem} {y : BlockSlot}
    (h : y ∈ (updateSlots s xs mem).2) : ∃ x ∈ xs, y = { x with clamped := y.clamped } := by
  have there : { y with clamped := false } ∈ (updateSlots s xs mem).2.map fun x => { x with clamped := false } :=
    List.mem_map.2 ⟨y, h, rfl⟩
  rw [updateSlots_records] at there
  obtain ⟨x, hx, e⟩ := List.mem_map.1 there
  refine ⟨x, hx, ?_⟩
  cases x
  cases y
  simp only [BlockSlot.mk.injEq] at e ⊢
  exact ⟨e.1.symm, e.2.1.symm, e.2.2.1.symm, e.2.2.2.1.symm, e.2.2.2.2.1.symm, e.2.2.2.2.2.1.symm, trivial⟩

/-- The slots of the block at hand, each granted by the Controller's rule (R83). -/
theorem opened_slot {sees : RefId → Bool} {s : State} {y : BlockSlot} (h : y ∈ (openBlock sees s).blk.slots) :
    ∃ x ∈ slotsOfBlock s, y = { x with
      granted := granted (controlBlock (seen sees s) (estimated s)) x, clamped := y.clamped } := by
  rw [openBlock_slots] at h
  obtain ⟨g, hg, e⟩ := mem_updateSlots h
  rw [granting_slots] at hg
  generalize controlBlock (seen sees s) (estimated s) = c at hg ⊢
  obtain ⟨x, hx, rfl⟩ := List.mem_map.1 hg
  exact ⟨x, hx, e⟩

/-! ### A boundary for which the Array Link is not LOCKED -/

/-- What a boundary for which the Array Link is not LOCKED hands to its events (R82): no beam FAR, no slot granted, no
reset owed. -/
structure UnlockedWork (s : State) : Prop where
  lock : s.ports.arrayRx.lock = .seeking
  talk : ∀ b : BeamId, s.blk.work[b].talk = .idle
  slots : ∀ x ∈ s.blk.slots, x.granted = false
  clampDone : s.blk.clampDone = []
  divDone : s.blk.divDone = []

theorem opened_unlocked {s : State} (seeking : s.ports.arrayRx.lock = .seeking) (sees : RefId → Bool) :
    UnlockedWork (openBlock sees s) where
  lock := by rw [(openBlock_open sees s).ports]; exact seeking
  talk b := by
    rw [openBlock_work, controlBlock_work, controlled_seeking (by rw [estimated_ports]; exact seeking)]
    generalize estimated s = e
    rfl
  slots y h := by
    obtain ⟨x, -, e⟩ := opened_slot h
    have lock : (controlBlock (seen sees s) (estimated s)).ports.arrayRx.lock = .seeking := by
      rw [(controlBlock_open _ _).ports, estimated_ports]
      exact seeking
    generalize controlBlock (seen sees s) (estimated s) = c at e lock
    have not : granted c x = false := by simp [granted, lock]
    rw [e, not]
  clampDone := openBlock_clampDone sees s
  divDone := (openBlock_open sees s).divDone

theorem countSlots_ungranted (l : List BlockSlot) {s : State} (h : ∀ x ∈ l, x.granted = false) :
    l.foldl countSlot s = s := by
  induction l generalizing s with
  | nil => rfl
  | cons x l ih =>
    have one : countSlot s x = s := by
      unfold countSlot
      rw [h x List.mem_cons_self, if_neg Bool.false_ne_true]
    rw [List.foldl_cons, one]
    exact ih fun y hy => h y (List.mem_cons_of_mem _ hy)

theorem uncounted_of_idle {s : State} {b : BeamId} (idle : s.blk.work[b].talk = .idle) :
    divergenceCounted s.blk.work[b] = false := by
  unfold divergenceCounted
  rw [idle]
  rfl

theorem countBeams_idle (l : List BeamId) {s : State} (idle : ∀ b : BeamId, s.blk.work[b].talk = .idle) :
    l.foldl countBeam s = s := by
  induction l with
  | nil => rfl
  | cons b l ih =>
    have one : countBeam s b = s := by
      unfold countBeam
      rw [uncounted_of_idle (idle b), if_neg Bool.false_ne_true]
    rw [List.foldl_cons, one, ih]

/-- The records of the slots and of the beams once the block has been counted (R87 to R92). -/
def tallied (s : State) : State := allBeams.foldl countBeam (s.blk.slots.foldl countSlot s)

/-- The counting of a block that has not been counted (R78). -/
theorem countBlock_first {s : State} (first : s.blk.counted = false) : countBlock s = { tallied s with
    blk := { (tallied s).blk with
      counted := true
      clampDone := (s.blk.slots.filter (runComplete s)).map fun x => (x.slot, x.pair)
      divDone := allBeams.filter (divergenceReached s) } } := by
  unfold countBlock tallied
  rw [if_neg (by rw [first]; exact Bool.false_ne_true)]

theorem countBlock_again {s : State} (again : s.blk.counted = true) : countBlock s = s := by
  unfold countBlock
  rw [if_pos again]

/-- Nothing is counted for a block for which the Array Link is not LOCKED. -/
theorem countBlock_unlocked {s : State} (h : UnlockedWork s) :
    countBlock s = { s with blk := { s.blk with counted := true } } := by
  have runs : s.blk.slots.filter (runComplete s) = [] :=
    List.filter_eq_nil_iff.2 fun x hx => by simp [runComplete, h.slots x hx]
  have diverged : allBeams.filter (divergenceReached s) = [] :=
    List.filter_eq_nil_iff.2 fun b _ => by
      unfold divergenceReached
      rw [uncounted_of_idle (h.talk b)]
      exact Bool.false_ne_true
  have clampDone := h.clampDone
  have divDone := h.divDone
  have same : tallied s = s := by rw [tallied, countSlots_ungranted _ h.slots, countBeams_idle _ h.talk]
  cases counted : s.blk.counted with
  | true => rw [countBlock_again counted, ← counted]
  | false => rw [countBlock_first counted, same, runs, diverged, List.map_nil, ← clampDone, ← divDone]

theorem UnlockedWork.of_kept {s t : State} (h : UnlockedWork s) (k : WorkKept s t)
    (clampDone : t.blk.clampDone = []) (divDone : t.blk.divDone = []) : UnlockedWork t where
  lock := by rw [k.ports]; exact h.lock
  talk b := by rw [k.work b]; exact h.talk b
  slots := by rw [k.blk]; exact h.slots
  clampDone := clampDone
  divDone := divDone

/-- The resets of a boundary, and what they bring the beams, once the counting has called for them (R91, R93, R94). -/
def resetCounted (c : State) : State :=
  c.blk.divDone.foldl (fun s b => divergeBeam b s)
    (c.blk.clampDone.foldl (fun s x => clampBeam (pairBeam x.2) s)
      (resetSlots (fun sl p => c.blk.clampDone.contains (sl, p) || c.blk.divDone.contains (pairBeam p)) c))

theorem resetEvent_ctl (s : State) : (resetEvent s).ctl = (resetCounted (countBlock s)).ctl := rfl

theorem ResetFrame.beams {s t : State} (h : ResetFrame s t) : t.ctl.beams = s.ctl.beams := by rw [h]

/-- What stands through the events of a boundary for which the Array Link is not LOCKED. -/
structure Unlocked (o x : State) : Prop where
  work : UnlockedWork x
  beams : x.ctl.beams = o.ctl.beams
  router : x.router = o.router

theorem resetEvent_unlocked {s : State} (h : UnlockedWork s) :
    UnlockedWork (resetEvent s) ∧ (resetEvent s).ctl.beams = s.ctl.beams := by
  have counted := countBlock_unlocked h
  have clampDone : (countBlock s).blk.clampDone = [] := by rw [counted]; exact h.clampDone
  have divDone : (countBlock s).blk.divDone = [] := by rw [counted]; exact h.divDone
  refine ⟨h.of_kept (resetEvent_work s) rfl rfl, ?_⟩
  rw [resetEvent_ctl]
  unfold resetCounted
  rw [clampDone, divDone, List.foldl_nil, List.foldl_nil, (resetSlots_resetFrame _ _).beams, counted]

theorem degradeEvent_unlocked {s : State} (h : UnlockedWork s) : degradeEvent s = s := by
  unfold degradeEvent
  split
  · rfl
  · next limit _ =>
    have one : ∀ b, degradeBeam limit s b = s := fun b => by
      unfold degradeBeam
      dsimp only
      rw [h.talk b]
      rfl
    have fold : ∀ l : List BeamId, l.foldl (degradeBeam limit) s = s := by
      intro l
      induction l with
      | nil => rfl
      | cons b l ih => rw [List.foldl_cons, one, ih]
    exact fold _

/-- A move of the pool or of the store port. -/
theorem Unlocked.of_keeps {o x y : State} (h : Unlocked o x) (k : StoreKeeps x y) : Unlocked o y where
  work := h.work.of_kept k.work (by rw [k.frame.blk]; exact h.work.clampDone) (by rw [k.frame.blk]; exact h.work.divDone)
  beams := k.beams.trans h.beams
  router := k.frame.router.trans h.router

theorem quietEvent_unlocked {o x : State} (h : Unlocked o x) (e : BoundaryEvent) : Unlocked o (quietEvent e x) := by
  have same : ∀ {y : State}, WorkKept x y → y.blk.clampDone = x.blk.clampDone → y.blk.divDone = x.blk.divDone →
      y.ctl.beams = x.ctl.beams → y.router = x.router → Unlocked o y := fun k c d beams router =>
    ⟨h.work.of_kept k (c.trans h.work.clampDone) (d.trans h.work.divDone), beams.trans h.beams, router.trans h.router⟩
  cases e with
  | activity =>
    exact whileLive_of h ((same (y := applyDecided x) (applyDecided_work x) rfl rfl rfl rfl).of_keeps
      (allocEvent_run _ _).keeps)
  | clipping =>
    obtain ⟨router, -, blk, -⟩ := clippingEvent_still x
    have ctl : (clippingEvent x).ctl = x.ctl := by
      unfold clippingEvent; split
      · rw [(reportSource_reported .clipping _).eq]
      · rfl
    exact whileLive_of h (same (clippingEvent_work x) (by rw [blk]) (by rw [blk]) (by rw [ctl]) router)
  | counting =>
    refine whileLive_of h ?_
    rw [countBlock_unlocked h.work]
    exact ⟨h.work.of_kept (notes_work x _ _ _ _) h.work.clampDone h.work.divDone, h.beams, h.router⟩
  | resets =>
    obtain ⟨work, beams⟩ := resetEvent_unlocked h.work
    exact whileLive_of h ⟨work, beams.trans h.beams, (resetEvent_still x).router.trans h.router⟩
  | degrade =>
    refine whileLive_of h ?_
    rw [degradeEvent_unlocked h.work]
    exact h
  | suppress => exact whileLive_of h (same (suppressBlock_work x) rfl rfl rfl rfl)
  | view => exact h
  | steer =>
    have none : applySteer x = x := by
      unfold applySteer
      rw [h.work.lock]
    show Unlocked o (applySteer x)
    rw [none]
    exact h
  | complete => exact h.of_keeps (completeDue_run x).keeps
  | grant => exact h.of_keeps (grantDue_run x).keeps
  | command => exact same (endTurn_work x) rfl rfl rfl rfl
  | reply => exact h

theorem worked_unlocked {s : State} (seeking : s.ports.arrayRx.lock = .seeking) (order : List BoundaryEvent) :
    Unlocked (opened order s) (worked order s) := by
  have lock : (appendHeld s).ports.arrayRx.lock = .seeking := by
    rw [appendHeld_same]
    exact seeking
  exact quietEvents_keep (P := Unlocked (opened order s)) ⟨opened_unlocked lock _, rfl, rfl⟩
    fun e _ x hx => quietEvent_unlocked hx e

/-- The records of the beams as a boundary for which the Array Link is not LOCKED leaves them (R82). -/
theorem worked_beams_unlocked {s : State} (seeking : s.ports.arrayRx.lock = .seeking) (order : List BoundaryEvent)
    (b : BeamId) : (worked order s).ctl.beams[b] = { s.ctl.beams[b] with talk := .idle, hangCtr := 0 } := by
  have lock : (appendHeld s).ports.arrayRx.lock = .seeking := by
    rw [appendHeld_same]
    exact seeking
  have ctl : (appendHeld s).ctl = s.ctl := by rw [appendHeld_same]
  calc (worked order s).ctl.beams[b] = (opened order s).ctl.beams[b] := by rw [(worked_unlocked seeking order).beams]
    _ = beamUnlocked (appendHeld s).ctl.beams[b] := by
        rw [opened, openBlock_beams, controlBlock_beams, controlled_seeking (by rw [estimated_ports]; exact lock)]
        rfl
    _ = { s.ctl.beams[b] with talk := .idle, hangCtr := 0 } := by rw [ctl]; rfl

/-- The sources of the next block once the Array Link is not LOCKED (R156). -/
theorem chooseSource_seeking (hist : List Bool) (op : OpState) (mode : BeamMode) :
    chooseSource ((false :: hist).take 3) op mode = .zero := by
  have not : lockedThree ((false :: hist).take 3) = false := by simp [lockedThree]
  unfold chooseSource
  rw [not, if_neg Bool.false_ne_true]

theorem assembleOutput_source (s : State) (b : BeamId) :
    (assembleOutput s).out.current.sources[b] = chooseSource s.out.lockHist s.blk.op s.blk.beams[b].mode :=
  getElem_ofFn_fin _ b

theorem worked_lockHist (order : List BoundaryEvent) (s : State) : (worked order s).out.lockHist =
    ((s.ports.arrayRx.lock == .locked) :: s.out.lockHist).take 3 := by
  have lock : (appendHeld s).ports = s.ports ∧ (appendHeld s).out = s.out := by
    rw [appendHeld_same]
    exact ⟨rfl, rfl⟩
  rw [(worked_work order s).out, ← lock.1, ← lock.2]
  rfl

theorem worked_router_unlocked {s : State} (seeking : s.ports.arrayRx.lock = .seeking) (order : List BoundaryEvent) :
    (worked order s).router = s.router := by
  rw [(worked_unlocked seeking order).router, (opened_frame order s).router]
  show (appendHeld s).router = s.router
  rw [appendHeld_same]

/-- Settles O35: the boundary's opening sets the beams IDLE, and none of its events moves them or the steer queue. -/
theorem boundaryUnlocked : Obligations.BoundaryUnlocked := by
  unfold Obligations.BoundaryUnlocked
  intro order s due none seeking
  have router := worked_router_unlocked seeking order
  refine ⟨_, blockBoundary_untaken due none, worked_beams_unlocked seeking order, ?_, ?_, fun b => ?_⟩
  · exact congrArg (·.beams) router
  · exact congrArg (·.queue) router
  · rw [assembleOutput_source, worked_lockHist, seeking]
    exact chooseSource_seeking _ _ _

end Sys2Proof.Machine
end

