-- ==== Sys2Proof/Proofs/PoolServes.lean ====
section
/-! PROOF. Slots, pairing table and wait list through the operations of the Pair Allocator: they go on agreeing, and
each operation says which pairs are served after it (R100 to R115). -/

namespace Sys2Proof.Machine

/-! ### Agreement of an Allocator's records (R102, R112) -/

/-- The slots, the pairing table and the wait list of an Allocator with n slots agree. -/
structure Agrees (a : Allocator) (n : Nat) : Prop where
  held : ∀ (sl : SlotId) (p : PairId), holds a.slots[sl] p ↔ a.pairs[p] = .held sl
  waiting : ∀ p : PairId, p ∈ a.waiting ↔ a.pairs[p] = .waiting
  once : a.waiting.Nodup
  inPool : ∀ sl : SlotId, n ≤ sl.val → a.slots[sl] = .free

theorem poolAgrees_iff (s : State) : PoolAgrees s ↔ Agrees s.alloc (slotCount s) :=
  ⟨fun ⟨h, w, o, i⟩ => ⟨h, w, o, i⟩, fun ⟨h, w, o, i⟩ => ⟨h, w, o, i⟩⟩

/-- A pair waits, or a slot is RUNNING for it. -/
def ServedBy (a : Allocator) (p : PairId) : Prop := p ∈ a.waiting ∨ ∃ sl : SlotId, a.slots[sl] = .running p

@[simp] theorem holds_free (p : PairId) : ¬ holds .free p := by simp [holds]

@[simp] theorem holds_running (p q : PairId) : holds (.running p) q ↔ p = q := by simp [holds]

@[simp] theorem holds_draining (p q : PairId) (tag x : Nat) : holds (.draining p tag x) q ↔ p = q := by simp [holds]

section Agreement

variable {a : Allocator} {n : Nat} {sl : SlotId} {p : PairId}

theorem Agrees.inPool_of_holds (h : Agrees a n) (held : holds a.slots[sl] p) : sl.val < n := by
  by_contra out
  rw [h.inPool sl (not_lt.1 out)] at held
  exact holds_free p held

/-- A FREE slot of the pool is assigned to a pair that no slot holds and that is taken off the wait list. -/
theorem Agrees.assign (h : Agrees a n) (free : a.slots[sl] = .free) (small : sl.val < n)
    (unheld : ∀ o, a.pairs[p] ≠ .held o) {rest : List PairId} (once : rest.Nodup)
    (others : ∀ q, q ∈ rest ↔ q ≠ p ∧ q ∈ a.waiting) :
    Agrees { a with slots := a.slots.set sl (.running p), pairs := a.pairs.set p (.held sl), waiting := rest } n where
  held o q := by
    have before := h.held o q
    dsimp only
    rw [getElem_set_fin, getElem_set_fin]
    by_cases slot : o = sl <;> by_cases pair : q = p
    · simp [slot, pair]
    · rw [slot, free] at before
      simp only [holds_free, false_iff] at before
      simp only [slot, pair, if_true, if_false, holds_running, before, Ne.symm pair]
    · rw [pair] at before
      simp only [slot, pair, if_true, if_false, before, unheld o, PairEntry.held.injEq, Ne.symm slot]
    · simp only [slot, pair, if_false, before]
  waiting q := by
    dsimp only
    rw [others, h.waiting, getElem_set_fin]
    split
    · next e => simp [e]
    · next e => simp [e]
  once := once
  inPool o out := by
    dsimp only
    rw [getElem_set_fin, if_neg (by rintro rfl; omega)]
    exact h.inPool o out

/-- The slot of a pair becomes FREE and the pair's entry NONE. -/
theorem Agrees.free (h : Agrees a n) (held : holds a.slots[sl] p) :
    Agrees { a with slots := a.slots.set sl .free, pairs := a.pairs.set p .none } n where
  held o q := by
    have before := h.held o q
    dsimp only
    rw [getElem_set_fin, getElem_set_fin]
    by_cases slot : o = sl <;> by_cases pair : q = p
    · simp [slot, pair]
    · simp only [slot, pair, if_true, if_false, holds_free, false_iff]
      intro other
      have both := (h.held sl q).2 other
      have same : ∀ st, holds st p → holds st q → p = q := by
        rintro (_ | _ | _) <;> simp +contextual
      exact pair (same _ held both).symm
    · rw [pair] at before
      have here := (h.held sl p).1 held
      simp only [slot, pair, if_true, if_false, before, here, PairEntry.held.injEq, Ne.symm slot, reduceCtorEq]
    · simp only [slot, pair, if_false, before]
  waiting q := by
    dsimp only
    rw [h.waiting, getElem_set_fin]
    split
    · next e =>
      rw [e, (h.held sl p).1 held]
      simp
    · rfl
  once := h.once
  inPool o out := by
    dsimp only
    rw [getElem_set_fin]
    split
    · rfl
    · exact h.inPool o out

/-- A slot that holds a pair takes another state that holds it. -/
theorem Agrees.restate (h : Agrees a n) (held : holds a.slots[sl] p) {st : SlotState}
    (same : ∀ q, holds st q ↔ p = q) : Agrees { a with slots := a.slots.set sl st } n where
  held o q := by
    have before := h.held o q
    dsimp only
    rw [getElem_set_fin]
    split
    · next e =>
      rw [same, ← h.held, e]
      constructor
      · rintro rfl; exact held
      · have only : ∀ x, holds x p → holds x q → p = q := by
          rintro (_ | _ | _) <;> simp +contextual
        exact only _ held
    · exact before
  waiting := h.waiting
  once := h.once
  inPool o out := by
    have small := h.inPool_of_holds held
    dsimp only
    rw [getElem_set_fin, if_neg (by rintro rfl; omega)]
    exact h.inPool o out

/-- A waiting pair leaves the wait list. -/
theorem Agrees.leave (h : Agrees a n) (waits : a.pairs[p] = .waiting) :
    Agrees { a with pairs := a.pairs.set p .none, waiting := a.waiting.filter (· ≠ p) } n where
  held o q := by
    dsimp only
    rw [h.held, getElem_set_fin]
    split
    · next e => rw [e, waits]; simp
    · rfl
  waiting q := by
    dsimp only
    rw [List.mem_filter, h.waiting, getElem_set_fin]
    split
    · next e => simp [e]
    · next e => simp [e]
  once := h.once.filter _
  inPool := h.inPool

/-- A pair with no entry joins the wait list. -/
theorem Agrees.join (h : Agrees a n) (none : a.pairs[p] = .none) :
    Agrees { a with pairs := a.pairs.set p .waiting, waiting := a.waiting ++ [p] } n where
  held o q := by
    dsimp only
    rw [h.held, getElem_set_fin]
    split
    · next e => rw [e, none]; simp
    · rfl
  waiting q := by
    dsimp only
    rw [List.mem_append, h.waiting, List.mem_singleton, getElem_set_fin]
    split
    · next e => simp [e]
    · next e => simp [e]
  once := by
    have new : p ∉ a.waiting := fun mem => by rw [(h.waiting p).1 mem] at none; cases none
    exact List.nodup_append.2 ⟨h.once, List.nodup_singleton p, fun x hx y hy e =>
      new (List.mem_singleton.1 hy ▸ e ▸ hx)⟩
  inPool := h.inPool

/-- A slot is RUNNING for at most one pair, and a pair that waits has no slot. -/
theorem Agrees.not_waiting (h : Agrees a n) (running : a.slots[sl] = .running p) : p ∉ a.waiting := fun mem => by
  have held := (h.held sl p).1 (by rw [running]; simp)
  rw [(h.waiting p).1 mem] at held
  cases held

theorem Agrees.one_slot (h : Agrees a n) {o : SlotId} (held : holds a.slots[sl] p) (also : holds a.slots[o] p) :
    o = sl := by
  have here := (h.held sl p).1 held
  have there := (h.held o p).1 also
  rw [here] at there
  exact (PairEntry.held.inj there).symm

/-! ### Who is served -/

theorem servedBy_set (st : SlotState) (q : PairId) : (∃ o : SlotId, (a.slots.set sl st)[o] = .running q) ↔
    st = .running q ∨ ∃ o : SlotId, o ≠ sl ∧ a.slots[o] = .running q := by
  constructor
  · rintro ⟨o, e⟩
    rw [getElem_set_fin] at e
    split at e
    · exact .inl e
    · next other => exact .inr ⟨o, other, e⟩
  · rintro (e | ⟨o, other, e⟩)
    · exact ⟨sl, by rw [getElem_set_fin, if_pos rfl]; exact e⟩
    · exact ⟨o, by rw [getElem_set_fin, if_neg other]; exact e⟩

/-- Who a slot other than a given one serves, where that one is RUNNING for no other pair. -/
theorem servedBy_others (q : PairId) (idle : a.slots[sl] ≠ .running q) :
    (∃ o : SlotId, o ≠ sl ∧ a.slots[o] = .running q) ↔ ∃ o : SlotId, a.slots[o] = .running q := by
  constructor
  · rintro ⟨o, -, e⟩; exact ⟨o, e⟩
  · rintro ⟨o, e⟩
    refine ⟨o, ?_, e⟩
    rintro rfl
    exact idle e

end Agreement

/-! ### The operations -/

theorem lookup_alloc (sl : SlotId) (p : SetId) (tag : Nat) (s : State) : (lookup sl p tag s).alloc = s.alloc := by
  unfold lookup; split
  · rfl
  · rfl

theorem assignSlot_alloc (sl : SlotId) (p : PairId) (s : State) : (assignSlot sl p s).alloc =
    { s.alloc with slots := s.alloc.slots.set sl (.running p), pairs := s.alloc.pairs.set p (.held sl) } := by
  unfold assignSlot
  dsimp only
  rw [lookup_alloc]
  rfl

theorem StoreKeeps.slotCount {s t : State} (k : StoreKeeps s t) : slotCount t = slotCount s := by
  unfold Machine.slotCount tailLen
  rw [k.frame.core]

/-- An operation of the pool after which the records agree, and the pairs served are those of `after`. -/
structure Serves (t : State) (n : Nat) (after : PairId → Prop) : Prop where
  agrees : Agrees t.alloc n
  served : ∀ q, ServedBy t.alloc q ↔ after q

theorem Serves.congr {t : State} {n : Nat} {f g : PairId → Prop} (h : Serves t n f) (same : ∀ q, f q ↔ g q) :
    Serves t n g := ⟨h.agrees, fun q => (h.served q).trans (same q)⟩

section Operations

variable {s : State} {n : Nat} {sl : SlotId} {p : PairId}

theorem assignSlot_serves (h : Agrees s.alloc n) (free : s.alloc.slots[sl] = .free) (small : sl.val < n)
    (none : s.alloc.pairs[p] = .none) :
    Serves (assignSlot sl p s) n (fun q => q = p ∨ ServedBy s.alloc q) := by
  have absent : p ∉ s.alloc.waiting := fun mem => by rw [(h.waiting p).1 mem] at none; cases none
  refine ⟨?_, fun q => ?_⟩
  · rw [assignSlot_alloc]
    refine h.assign free small (fun o e => ?_) h.once fun q => ⟨fun mem => ⟨?_, mem⟩, fun mem => mem.2⟩
    · rw [none] at e; cases e
    · rintro rfl; exact absent mem
  · rw [assignSlot_alloc]
    unfold ServedBy
    dsimp only
    rw [servedBy_set, servedBy_others q (by rw [free]; simp), SlotState.running.injEq]
    tauto

/-- A slot that has become FREE goes to the oldest waiting pair, which is served as before (R105). -/
theorem giveToWaiter_serves (h : Agrees s.alloc n) (free : s.alloc.slots[sl] = .free) (small : sl.val < n) :
    Serves (giveToWaiter sl s) n (ServedBy s.alloc) := by
  unfold giveToWaiter
  split
  · exact ⟨h, fun _ => .rfl⟩
  · next p rest waiting =>
    have order := h.once
    rw [waiting] at order
    obtain ⟨fresh, once⟩ := List.nodup_cons.1 order
    have waits : s.alloc.pairs[p] = .waiting := (h.waiting p).1 (by rw [waiting]; exact List.mem_cons_self)
    refine ⟨?_, fun q => ?_⟩
    · rw [assignSlot_alloc]
      refine h.assign free small (fun o e => ?_) once fun q => ?_
      · rw [waits] at e; cases e
      · rw [waiting, List.mem_cons]
        constructor
        · exact fun mem => ⟨by rintro rfl; exact fresh mem, .inr mem⟩
        · exact fun ⟨other, mem⟩ => mem.resolve_left other
    · rw [assignSlot_alloc]
      unfold ServedBy
      simp only [setWaiting_alloc]
      rw [servedBy_set, servedBy_others q (by rw [free]; simp), SlotState.running.injEq, waiting, List.mem_cons,
        eq_comm (a := p)]
      tauto

theorem freeSlot_serves (h : Agrees s.alloc n) (held : holds s.alloc.slots[sl] p) :
    Serves (freeSlot sl p s) n (fun q => q ≠ p ∧ ServedBy s.alloc q) := by
  have small := h.inPool_of_holds held
  have freed := h.free held
  have given := giveToWaiter_serves (s := setSlotState sl .free (setPair p .none s)) freed
    (by show (s.alloc.slots.set sl .free)[sl] = _; rw [getElem_set_fin, if_pos rfl]) small
  refine given.congr fun q => ?_
  unfold ServedBy
  show (q ∈ s.alloc.waiting ∨ ∃ o : SlotId, (s.alloc.slots.set sl .free)[o] = .running q) ↔ _
  rw [servedBy_set]
  constructor
  · rintro (waits | no | ⟨o, other, e⟩)
    · refine ⟨?_, .inl waits⟩
      rintro rfl
      have entry := (h.waiting q).1 waits
      rw [(h.held sl q).1 held] at entry
      cases entry
    · cases no
    · refine ⟨?_, .inr ⟨o, e⟩⟩
      rintro rfl
      exact other (h.one_slot held (by rw [e]; simp))
  · rintro ⟨other, waits | ⟨o, e⟩⟩
    · exact .inl waits
    · refine .inr (.inr ⟨o, ?_, e⟩)
      rintro rfl
      rw [e] at held
      exact other ((holds_running q p).1 held)

theorem Agrees.served_iff {a : Allocator} (h : Agrees a n) : ServedBy a p ↔
    a.pairs[p] = .waiting ∨ ∃ sl : SlotId, a.pairs[p] = .held sl ∧ a.slots[sl] = .running p := by
  unfold ServedBy
  rw [h.waiting]
  refine or_congr_right ⟨fun ⟨sl, e⟩ => ⟨sl, (h.held sl p).1 (by rw [e]; simp), e⟩, fun ⟨sl, _, e⟩ => ⟨sl, e⟩⟩

/-- A slot that starts to drain serves its pair no more, and every other pair is served as before. -/
theorem drainSlot_serves (h : Agrees s.alloc n) (running : s.alloc.slots[sl] = .running p) (tag x : Nat) :
    Serves (setSlotState sl (.draining p tag x) s) n (fun q => q ≠ p ∧ ServedBy s.alloc q) := by
  refine ⟨h.restate (p := p) (by rw [running]; simp) (by simp), fun q => ?_⟩
  unfold ServedBy
  show (q ∈ s.alloc.waiting ∨ ∃ o : SlotId, (s.alloc.slots.set sl (.draining p tag x))[o] = .running q) ↔ _
  rw [servedBy_set]
  constructor
  · rintro (waits | no | ⟨o, other, e⟩)
    · exact ⟨fun same => h.not_waiting running (same ▸ waits), .inl waits⟩
    · cases no
    · exact ⟨fun same => other (h.one_slot (p := p) (by rw [running]; simp) (by rw [e, same]; simp)), .inr ⟨o, e⟩⟩
  · rintro ⟨other, waits | ⟨o, e⟩⟩
    · exact .inl waits
    · refine .inr (.inr ⟨o, ?_, e⟩)
      rintro rfl
      rw [e] at running
      exact other (SlotState.running.inj running)

/-- A RUNNING slot that is released serves its pair no more (R108). -/
theorem releaseSlot_serves (h : Agrees s.alloc n) (running : s.alloc.slots[sl] = .running p) :
    Serves (releaseSlot sl p s) n (fun q => q ≠ p ∧ ServedBy s.alloc q) := by
  have held : holds s.alloc.slots[sl] p := by rw [running]; simp
  unfold releaseSlot; dsimp only; split
  · split
    · exact freeSlot_serves (s := pushCapture sl p _ _ (raiseTicket sl s)) h held
    · exact drainSlot_serves (s := raiseTicket sl s) h running _ _
  · exact freeSlot_serves (s := raiseTicket sl s) h held

/-- A pair that stops being wanted is served no more (R106). -/
theorem unwantPair_serves (h : Agrees s.alloc n) (p : PairId) :
    Serves (unwantPair p s) n (fun q => q ≠ p ∧ ServedBy s.alloc q) := by
  have unserved : ¬ ServedBy s.alloc p → Serves s n (fun q => q ≠ p ∧ ServedBy s.alloc q) := fun no =>
    ⟨h, fun q => ⟨fun served => ⟨fun same => no (same ▸ served), served⟩, fun served => served.2⟩⟩
  unfold unwantPair
  split
  · next none =>
    refine unserved fun served => ?_
    rcases h.served_iff.1 served with e | ⟨sl, e, -⟩
    · rw [none] at e; cases e
    · rw [none] at e; cases e
  · next waits =>
    refine ⟨h.leave waits, fun q => ?_⟩
    show (q ∈ s.alloc.waiting.filter (· ≠ p) ∨ ∃ o : SlotId, s.alloc.slots[o] = .running q) ↔ _
    rw [List.mem_filter, decide_eq_true_iff]
    constructor
    · rintro (⟨waiting, other⟩ | ⟨o, e⟩)
      · exact ⟨other, .inl waiting⟩
      · exact ⟨fun same => h.not_waiting (same ▸ e) ((h.waiting p).2 waits), .inr ⟨o, e⟩⟩
    · rintro ⟨other, waiting | served⟩
      · exact .inl ⟨waiting, other⟩
      · exact .inr served
  · next sl entry =>
    have held := (h.held sl p).2 entry
    split
    · next q running =>
      rw [running, holds_running] at held
      subst held
      exact releaseSlot_serves h running
    · next tag x draining =>
      refine unserved fun served => ?_
      rcases h.served_iff.1 served with e | ⟨o, e, running⟩
      · rw [entry] at e; cases e
      · rw [entry] at e
        cases e
        rw [draining] at running
        cases running
    · next free =>
      rw [free] at held
      exact absurd held (holds_free p)

/-- The victim is a RUNNING slot of a lingering reference (R113). -/
theorem chooseVictim_some {s : State} {sl : SlotId} {q : PairId} (h : chooseVictim s = some (sl, q)) :
    ∃ x ∈ allSlots.filterMap (victimOf s), x.2 = (sl, q) := by
  have key : ∀ (l : List (Nat × SlotId × PairId)) (best : Option (Nat × SlotId × PairId)) (x),
      l.foldl (fun best x => match best with
        | none => some x
        | some y => if x.1 < y.1 then some x else some y) best = some x → x ∈ l ∨ best = some x := by
    intro l
    induction l with
    | nil => exact fun best x e => .inr e
    | cons y l ih =>
      intro best x e
      rw [List.foldl_cons] at e
      rcases ih _ x e with mem | start
      · exact .inl (List.mem_cons_of_mem _ mem)
      · cases best with
        | none => cases start; exact .inl List.mem_cons_self
        | some z =>
          dsimp only at start
          split at start
          · cases start; exact .inl List.mem_cons_self
          · exact .inr start
  unfold chooseVictim at h
  obtain ⟨x, e, same⟩ := Option.map_eq_some_iff.1 h
  rcases key _ _ x e with mem | no
  · exact ⟨x, mem, same⟩
  · cases no

theorem victimOf_some {s : State} {sl : SlotId} {x : Nat × SlotId × PairId} (h : victimOf s sl = some x) :
    s.alloc.slots[sl] = .running x.2.2 ∧ (handed s (pairRef x.2.2)).1 = .linger ∧
      x = ((handed s (pairRef x.2.2)).2, sl, x.2.2) := by
  unfold victimOf at h
  split at h
  · next p running =>
    split at h
    · next lingers => cases h; exact ⟨running, lingers, rfl⟩
    · cases h
  · cases h
  · cases h

theorem chooseVictim_running {s : State} {sl : SlotId} {q : PairId} (h : chooseVictim s = some (sl, q)) :
    s.alloc.slots[sl] = .running q := by
  obtain ⟨x, mem, same⟩ := chooseVictim_some h
  obtain ⟨o, -, e⟩ := List.mem_filterMap.1 mem
  obtain ⟨running, -, shape⟩ := victimOf_some e
  rw [shape] at same
  cases same
  exact running

theorem captureOrDrop_alloc (sl : SlotId) (p : PairId) (tag : Nat) (s : State) :
    (captureOrDrop sl p tag s).alloc = s.alloc := by
  unfold captureOrDrop
  split
  · split
    · rfl
    · rw [(reportSource_reported .captureDropped s).eq]
  · rfl

/-- A preempted pair waits on, and the slot serves the oldest waiting pair (R113). -/
theorem preemptSlot_serves (h : Agrees s.alloc n) (running : s.alloc.slots[sl] = .running p) :
    Serves (preemptSlot sl p s) n (ServedBy s.alloc) := by
  have held : holds s.alloc.slots[sl] p := by rw [running]; simp
  have small := h.inPool_of_holds held
  have alloc : (raiseTicket sl (captureOrDrop sl p (beamTag (pairBeam p) s) s)).alloc = s.alloc :=
    captureOrDrop_alloc sl p _ s
  unfold preemptSlot
  dsimp only
  generalize raiseTicket sl (captureOrDrop sl p (beamTag (pairBeam p) s) s) = u at alloc
  have freed : Agrees { u.alloc with slots := u.alloc.slots.set sl .free, pairs := u.alloc.pairs.set p .none } n := by
    rw [alloc]
    exact h.free held
  have back : (u.alloc.pairs.set p .none).set p .waiting = u.alloc.pairs.set p .waiting := by simp
  have joined := freed.join (p := p) (by dsimp only; rw [getElem_set_fin, if_pos rfl])
  dsimp only at joined
  rw [back] at joined
  have given := giveToWaiter_serves (sl := sl)
    (s := setWaiting (u.alloc.waiting ++ [p]) (setSlotState sl .free (setPair p .waiting u))) joined
    (by show (u.alloc.slots.set sl .free)[sl] = _; rw [getElem_set_fin, if_pos rfl]) small
  refine given.congr fun q => ?_
  show (q ∈ u.alloc.waiting ++ [p] ∨ ∃ o : SlotId, (u.alloc.slots.set sl .free)[o] = .running q) ↔ _
  rw [servedBy_set, alloc, List.mem_append, List.mem_singleton]
  unfold ServedBy
  by_cases same : q = p
  · subst same
    simp only [or_true, true_or, true_iff]
    exact .inr ⟨sl, running⟩
  · rw [servedBy_others q (by rw [running]; simp [Ne.symm same])]
    simp [same]

/-- A pair that joins the wait list is served, and so is every other as before (R104, R113). -/
theorem joinWait_serves (h : Agrees s.alloc n) (none : s.alloc.pairs[p] = .none) :
    Serves (joinWait p s) n (fun q => q = p ∨ ServedBy s.alloc q) := by
  have joined := h.join none
  have alloc : (reportSource .poolFull (setPair p .waiting (setWaiting (s.alloc.waiting ++ [p]) s))).alloc =
      { s.alloc with pairs := s.alloc.pairs.set p .waiting, waiting := s.alloc.waiting ++ [p] } := by
    rw [(reportSource_reported .poolFull _).eq]
    rfl
  have served : ∀ q, ServedBy { s.alloc with
      pairs := s.alloc.pairs.set p .waiting, waiting := s.alloc.waiting ++ [p] } q ↔ q = p ∨ ServedBy s.alloc q := by
    intro q
    unfold ServedBy
    simp only [List.mem_append, List.mem_singleton]
    tauto
  have waits : Serves (reportSource .poolFull (setPair p .waiting (setWaiting (s.alloc.waiting ++ [p]) s))) n
      (fun q => q = p ∨ ServedBy s.alloc q) := ⟨by rw [alloc]; exact joined, fun q => by rw [alloc]; exact served q⟩
  unfold joinWait
  dsimp only
  generalize reportSource .poolFull (setPair p .waiting (setWaiting (s.alloc.waiting ++ [p]) s)) = u at waits
  split
  · split
    · next o q victim =>
      exact (preemptSlot_serves waits.agrees (chooseVictim_running victim)).congr waits.served
    · exact waits
  · exact waits

theorem lowestFree_some {sl : SlotId} (h : lowestFree s = some sl) :
    sl.val < slotCount s ∧ s.alloc.slots[sl] = .free := by
  have found := List.find?_some h
  simp only [Bool.and_eq_true, decide_eq_true_eq, beq_iff_eq] at found
  exact found

/-- A pair that becomes wanted is served, and so is every other as before (R104). -/
theorem wantPair_serves (h : Agrees s.alloc (slotCount s)) (p : PairId) :
    Serves (wantPair p s) (slotCount s) (fun q => q = p ∨ ServedBy s.alloc q) := by
  have already : ServedBy s.alloc p → Serves s (slotCount s) (fun q => q = p ∨ ServedBy s.alloc q) := fun served =>
    ⟨h, fun q => ⟨.inr, fun e => e.elim (fun same => same ▸ served) id⟩⟩
  unfold wantPair
  split
  · next sl entry =>
    have held := (h.held sl p).2 entry
    split
    · next q tag x draining =>
      rw [draining, holds_draining] at held
      subst held
      refine ⟨h.restate (p := q) (by rw [draining]; simp) (by simp), fun o => ?_⟩
      unfold ServedBy
      show (o ∈ s.alloc.waiting ∨ ∃ i : SlotId, (s.alloc.slots.set sl (.running q))[i] = .running o) ↔ _
      rw [servedBy_set, servedBy_others o (by rw [draining]; simp), SlotState.running.injEq, eq_comm (a := q)]
      tauto
    · next q running =>
      rw [running, holds_running] at held
      subst held
      exact already (.inr ⟨sl, running⟩)
    · next free =>
      rw [free] at held
      exact absurd held (holds_free p)
  · next waits => exact already (.inl ((h.waiting p).2 waits))
  · next none =>
    split
    · next sl found =>
      obtain ⟨small, free⟩ := lowestFree_some found
      exact assignSlot_serves h free small none
    · exact joinWait_serves h none

end Operations

/-! ### Sweeps and events -/

theorem PoolRun.slotCount {s t : State} (run : PoolRun s t) : slotCount t = slotCount s := run.alloc.keeps.slotCount

/-- The pairs picked by `gone` stop being served one by one. -/
theorem unwantPairs_serve (gone : PairId → Bool) (l : List PairId) {s : State} {n : Nat} (h : Agrees s.alloc n) :
    Serves (l.foldl (fun s p => if gone p then unwantPair p s else s) s) n
      (fun q => ¬ (q ∈ l ∧ gone q = true) ∧ ServedBy s.alloc q) := by
  induction l generalizing s with
  | nil => exact ⟨h, fun q => by simp⟩
  | cons p l ih =>
    rw [List.foldl_cons]
    cases picked : gone p with
    | false =>
      rw [if_neg Bool.false_ne_true]
      refine (ih h).congr fun q => and_congr_left fun _ => not_congr ?_
      rw [List.mem_cons]
      constructor
      · exact fun ⟨mem, e⟩ => ⟨.inr mem, e⟩
      · rintro ⟨rfl | mem, e⟩
        · rw [picked] at e; cases e
        · exact ⟨mem, e⟩
    | true =>
      rw [if_pos rfl]
      have one := unwantPair_serves h p
      refine (ih one.agrees).congr fun q => ?_
      rw [one.served, List.mem_cons]
      by_cases same : q = p
      · simp [same, picked]
      · simp [same]

/-- The pairs picked by `come` become served one by one. -/
theorem wantPairs_serve (come : PairId → Bool) (l : List PairId) {s : State} (h : Agrees s.alloc (slotCount s)) :
    Serves (l.foldl (fun s p => if come p then wantPair p s else s) s) (slotCount s)
      (fun q => (q ∈ l ∧ come q = true) ∨ ServedBy s.alloc q) := by
  induction l generalizing s with
  | nil => exact ⟨h, fun q => by simp⟩
  | cons p l ih =>
    rw [List.foldl_cons]
    cases picked : come p with
    | false =>
      rw [if_neg Bool.false_ne_true]
      refine (ih h).congr fun q => or_congr_left ?_
      rw [List.mem_cons]
      constructor
      · exact fun ⟨mem, e⟩ => ⟨.inr mem, e⟩
      · rintro ⟨rfl | mem, e⟩
        · rw [picked] at e; cases e
        · exact ⟨mem, e⟩
    | true =>
      rw [if_pos rfl]
      have one := wantPair_serves h p
      have count : slotCount (wantPair p s) = slotCount s := (wantPair_run p s).keeps.slotCount
      have rest := ih (s := wantPair p s) (by rw [count]; exact one.agrees)
      rw [count] at rest
      refine rest.congr fun q => ?_
      rw [one.served, List.mem_cons]
      by_cases same : q = p
      · simp [same, picked]
      · simp [same]

theorem wantedPairs_get (s : State) (p : PairId) : (wantedPairs s)[p] = wanted s p := getElem_ofFn_fin _ p

/-- An event of the Allocator that starts from the pairs wanted before it ends with exactly the pairs wanted served
(R100, R101). -/
theorem allocEvent_serves {was : Vector Bool 128} {s : State} (h : Agrees s.alloc (slotCount s))
    (served : ∀ p : PairId, ServedBy s.alloc p ↔ was[p] = true) :
    Serves (allocEvent was s) (slotCount s) (fun p => wanted s p = true) := by
  have left := unwantPairs_serve (fun p => was[p] && !(wantedPairs s)[p]) allPairs h
  have run : PoolRun s (allPairs.foldl (fun s' p => if was[p] && !(wantedPairs s)[p] then unwantPair p s' else s') s) :=
    .foldl _ (fun s' p => by
      split
      · exact unwantPair_run p s'
      · exact .refl s') _ s
  have count := run.slotCount
  have come := wantPairs_serve (fun p => !was[p] && (wantedPairs s)[p]) allPairs
    (s := allPairs.foldl (fun s' p => if was[p] && !(wantedPairs s)[p] then unwantPair p s' else s') s)
    (by rw [count]; exact left.agrees)
  rw [count] at come
  refine (Serves.congr (t := allocEvent was s) ⟨come.agrees, come.served⟩ fun q => ?_)
  rw [left.served, served, wantedPairs_get]
  have all : q ∈ allPairs := List.mem_finRange q
  simp only [all, true_and]
  cases was[q] <;> cases wanted s q <;> simp

end Sys2Proof.Machine
end

