-- ==== Sys2Proof/Proofs/Linger.lean ====
section
/-! PROOF. The fill queue after an event of the Allocator, and a linger that expires (O37, R25, R101, R106, R124). -/

namespace Sys2Proof.Machine

/-! ### The requests of an event (R124) -/

theorem flatMap_bySet_sorted (q : List FillReq) (l : List PairId) (sorted : l.Pairwise (· < ·)) :
    ((l.flatMap fun p => q.filter (·.set = p)).map (·.set)).Pairwise (· ≤ ·) := by
  induction l with
  | nil => exact .nil
  | cons p l ih =>
    obtain ⟨least, sorted⟩ := List.pairwise_cons.1 sorted
    rw [List.flatMap_cons, List.map_append, List.pairwise_append]
    have here : ∀ x ∈ (q.filter (·.set = p)).map (·.set), x = p := by
      intro x hx
      obtain ⟨r, hr, rfl⟩ := List.mem_map.1 hx
      exact of_decide_eq_true (List.mem_filter.1 hr).2
    refine ⟨?_, ih sorted, fun x hx y hy => ?_⟩
    · exact List.pairwise_of_forall_mem_list fun x hx y hy => by rw [here x hx, here y hy]
    · obtain ⟨r, hr, rfl⟩ := List.mem_map.1 hy
      obtain ⟨o, ho, hr⟩ := List.mem_flatMap.1 hr
      rw [here x hx, of_decide_eq_true (List.mem_filter.1 hr).2]
      exact (least o ho).le

/-- The requests that an event forms stand behind those that stood before it, in ascending pair index. -/
theorem orderRequests_formed (before : List FillReq) (s : State) :
    let t := orderRequests before s
    let formed := t.store.fills.filter (· ∉ before)
    t.store.fills = t.store.fills.filter (· ∈ before) ++ formed ∧ (formed.map (·.set)).Pairwise (· ≤ ·) := by
  obtain ⟨eq, perm, -⟩ := orderRequests_spec before s
  dsimp only at eq perm ⊢
  have sorted := flatMap_bySet_sorted (s.store.fills.filter (· ∉ before)) allPairs (List.pairwise_lt_finRange 128)
  generalize (allPairs.flatMap fun p => (s.store.fills.filter (· ∉ before)).filter (·.set = p)) = new
    at eq perm sorted
  have fresh : ∀ r ∈ new, r ∉ before := fun r hr =>
    of_decide_eq_true (List.mem_filter.1 (perm.mem_iff.1 hr)).2
  have kept : (s.store.fills.filter (· ∈ before) ++ new).filter (· ∈ before) = s.store.fills.filter (· ∈ before) := by
    have out : new.filter (· ∈ before) = [] := List.filter_eq_nil_iff.2 (by simpa using fresh)
    rw [List.filter_append, List.filter_eq_self.2 (by simp), out, List.append_nil]
  have formed : (s.store.fills.filter (· ∈ before) ++ new).filter (· ∉ before) = new := by
    have all : new.filter (· ∉ before) = new := List.filter_eq_self.2 (by simpa using fresh)
    rw [List.filter_append, List.filter_eq_nil_iff.2 (by simp), all, List.nil_append]
  rw [eq]
  dsimp only [setFills]
  rw [kept, formed]
  exact ⟨rfl, sorted⟩

/-! ### An event of the Allocator after which no more pairs are wanted -/

/-- Where no pair becomes wanted, an event moves the pool alone, without a report (R106). -/
theorem allocEvent_unwanting {was : Vector Bool 128} {s : State} (fewer : ∀ p : PairId, wanted s p = true → was[p] = true) :
    PoolRun s (allocEvent was s) := by
  have none : ∀ p : PairId, (!was[p] && (wantedPairs s)[p]) = false := fun p => by
    rw [wantedPairs_get]
    cases now : wanted s p with
    | false => simp
    | true => simp [fewer p now]
  have left : PoolRun s (allPairs.foldl (fun x p => if was[p] && !(wantedPairs s)[p] then unwantPair p x else x) s) :=
    .foldl _ (fun x p => by
      split
      · exact unwantPair_run p x
      · exact .refl x) _ s
  have changed : changePairs was s =
      allPairs.foldl (fun x p => if was[p] && !(wantedPairs s)[p] then unwantPair p x else x) s := by
    have still : ∀ (l : List PairId) (x : State),
        l.foldl (fun x p => if !was[p] && (wantedPairs s)[p] then wantPair p x else x) x = x := by
      intro l
      induction l with
      | nil => exact fun _ => rfl
      | cons p l ih => exact fun x => by rw [List.foldl_cons, none p, if_neg Bool.false_ne_true, ih]
    exact still _ _
  unfold allocEvent
  rw [changed]
  exact left.trans (PoolMove.fills _ _).run

/-! ### LINGER_EXPIRY (R25) -/

theorem execLingerExpiry_eq (r : RefId) (s : State) :
    exec (.lingerExpiry r) s = upInBlock (whenDue (lingerEnds r) (endLinger r)) s := rfl

theorem lingerEnds_iff (r : RefId) (s : State) : lingerEnds r s = true ↔
    s.cmd.op = .running ∧ s.tracker.refs[r].mode ≠ .off ∧ s.tracker.refs[r].activity = .linger ∧
      s.tracker.refs[r].linger ≤ 1 ∧ s.tracker.refs[r].level < actThreshold s.blk.tuning := by
  simp [lingerEnds, and_assoc]

/-- The part once the reference is SILENT, before the Allocator takes its pairs. -/
def lingerSilent (r : RefId) (s : State) : State :=
  silenceRef r { s with blk := { s.blk with decided := s.blk.decided.set r (.silent, 0) } }

theorem endLinger_eq (r : RefId) (s : State) : endLinger r s = allocEvent (wantedPairs s) (lingerSilent r s) := rfl

theorem lingerSilent_refs (r q : RefId) (s : State) : (lingerSilent r s).tracker.refs[q] =
    if q = r then silenced s.tracker.refs[q] else s.tracker.refs[q] := silenceRef_refs r q _

/-- A pair wanted once the reference is SILENT was wanted before, and is no pair of it. -/
theorem wanted_lingerSilent {r : RefId} {s : State} {p : PairId} (h : wanted (lingerSilent r s) p = true) :
    wanted s p = true ∧ pairRef p ≠ r := by
  have loud : (lingerSilent r s).tracker.refs[pairRef p].activity ≠ .silent := by
    intro silent
    simp only [wanted, silent] at h
    simp at h
  have other : pairRef p ≠ r := fun same => loud (by rw [lingerSilent_refs, if_pos same]; rfl)
  refine ⟨?_, other⟩
  have same := lingerSilent_refs r (pairRef p) s
  rw [if_neg other] at same
  unfold wanted at h ⊢
  rw [same] at h
  exact h

theorem endLinger_moves (r : RefId) (s : State) : PoolMoves (lingerSilent r s) (endLinger r s) := by
  rw [endLinger_eq]
  exact (allocEvent_unwanting fun p now => by
    rw [wantedPairs_get]
    exact (wanted_lingerSilent now).1).moves

/-- No pair of the reference is served once its linger has expired (R106). -/
theorem endLinger_unserved {r : RefId} {s : State} (sound : PoolSound s) {p : PairId} (own : pairRef p = r) :
    ¬ ServedBy (endLinger r s).alloc p := by
  have agrees : Agrees (lingerSilent r s).alloc (slotCount (lingerSilent r s)) := (poolAgrees_iff s).1 sound.agrees
  have event := allocEvent_serves (was := wantedPairs s) agrees fun p => by
    rw [wantedPairs_get]
    exact (sound.served p).symm
  rw [endLinger_eq, event.served]
  exact fun now => (wanted_lingerSilent now).2 own

/-- Settles O37: the reference goes SILENT, which ends the wantedness of its pairs and of no others. -/
theorem lingerExpiry : Obligations.LingerExpiry := by
  unfold Obligations.LingerExpiry
  intro r s at'
  dsimp only
  have cond := lingerEnds_iff r s
  refine ⟨fun due sound => ?_, fun notDue => ?_⟩
  · have moves := endLinger_moves r s
    have tracker : (endLinger r s).tracker = (lingerSilent r s).tracker := by rw [moves]
    have decided : (endLinger r s).blk.decided = (lingerSilent r s).blk.decided := by rw [moves]
    refine ⟨endLinger r s, lingerSilent r s, ?_, ?_, fun q other => ?_, fun p own => ⟨fun waits => ?_, fun sl runs => ?_⟩,
      ?_, moves, orderRequests_formed (lingerSilent r s).store.fills _⟩
    · rw [execLingerExpiry_eq]
      exact upInBlock_due at' ⟨due.1, cond.2 due.2⟩
    · rw [tracker, lingerSilent_refs, if_pos rfl]
      rfl
    · rw [tracker, lingerSilent_refs, if_neg other]
    · exact endLinger_unserved sound own (.inl waits)
    · exact endLinger_unserved sound own (.inr ⟨sl, runs⟩)
    · rw [tracker, decided]
      rfl
  · rw [execLingerExpiry_eq]
    exact upInBlock_notDue at' fun k => notDue ⟨k.1, cond.1 k.2⟩

end Sys2Proof.Machine
end

