-- ==== Sys2Proof/Proofs/Steer.lean ====
section
/-! PROOF. The steer queue's application as zone changes of single slots, one after the other, each of a slot of its
own (O44, R34 to R36, R70, R107, R123, R125). -/

namespace Sys2Proof.Machine

theorem getElem_at {α : Type} {n : Nat} {v : Vector α n} {i j : Fin n} (same : i = j) : v[i] = v[j] := by
  subst same
  rfl

/-! ### The zone change of one slot -/

/-- The zone change of a slot RUNNING for a pair, from one tag to another. -/
structure ZoneTask where
  old : Nat
  new : Nat
  slot : SlotId
  pair : PairId

/-- The capture that a zone change owes: one of an eligible slot, under the old tag (R107, R125). -/
def ZoneTask.owed (s : State) (z : ZoneTask) : Option CaptureRec :=
  if eligible z.slot z.pair s then
    some ⟨z.pair, z.old, quality (pairBeam z.pair) s, headCopy z.slot s, s.blk.count⟩
  else none

/-- The request of the lookup under the new tag, with the ticket raised (R54, R123). -/
def ZoneTask.request (s : State) (z : ZoneTask) : FillReq :=
  ⟨z.slot, s.core.slots[z.slot].ticket + 1, z.pair, z.new, s.blk.count⟩

/-- A slot after its zone change (R70, R123, R125). -/
structure Zoned (s t : State) (z : ZoneTask) : Prop where
  ticket : t.core.slots[z.slot].ticket = s.core.slots[z.slot].ticket + 1
  fills : t.store.fills.filter (·.slot = z.slot) = if lookupHit s z.pair z.new then [z.request s] else []
  kept : lookupHit s z.pair z.new = true ∨ z.slot ∈ s.blk.cold →
    t.ctl.slots[z.slot] = s.ctl.slots[z.slot] ∧ t.core.slots[z.slot].origin = s.core.slots[z.slot].origin
  carried : lookupHit s z.pair z.new = false → z.slot ∉ s.blk.cold →
    t.ctl.slots[z.slot] = { s.ctl.slots[z.slot] with phase := .converging, counter := 0 } ∧
      t.core.slots[z.slot].origin = .carried

/-- A slot that no zone change reaches: it keeps its records and its requests. -/
structure Unzoned (s t : State) (sl : SlotId) : Prop where
  kept : SlotKept s t sl
  fills : t.store.fills.filter (·.slot = sl) = s.store.fills.filter (·.slot = sl)

/-- What zone changes move. -/
def ZoneFrame (s t : State) : Prop :=
  t = { s with
    router := t.router
    cmd := { s.cmd with replies := t.cmd.replies }
    ev := { s.ev with status := t.ev.status }
    core := { s.core with slots := t.core.slots }
    ctl := { s.ctl with slots := t.ctl.slots }
    store := { s.store with fills := t.store.fills, captures := t.store.captures }
    blk := { s.blk with phaseSet := t.blk.phaseSet } }

/-- Zone changes of several slots, in turn. -/
structure ZonesDone (s t : State) (zs : List ZoneTask) : Prop where
  frame : ZoneFrame s t
  captures : t.store.captures =
    s.store.captures ++ (zs.filterMap (·.owed s)).take (8 - s.store.captures.length)
  status : t.ev.status =
    if 8 - s.store.captures.length < (zs.filterMap (·.owed s)).length then s.ev.status ||| 64 else s.ev.status
  zoned : ∀ z ∈ zs, Zoned s t z
  unzoned : ∀ sl : SlotId, (∀ z ∈ zs, z.slot ≠ sl) → Unzoned s t sl

theorem ZoneFrame.refl (s : State) : ZoneFrame s s := rfl

theorem ZoneFrame.trans {s t u : State} (h : ZoneFrame s t) (k : ZoneFrame t u) : ZoneFrame s u := by
  unfold ZoneFrame at *
  rw [k, h]

theorem Unzoned.refl (s : State) (sl : SlotId) : Unzoned s s sl := ⟨.refl s sl, rfl⟩

/-! ### The capture and the ticket -/

/-- The part once the slot has been captured, or its capture dropped, and its ticket raised. -/
def zoneRaised (z : ZoneTask) (s : State) : State := raiseTicket z.slot (captureOrDrop z.slot z.pair z.old s)

/-- A capture that does not wait (R125). -/
structure CapturedNow (s t : State) (c : Option CaptureRec) : Prop where
  eq : t = { s with
    cmd := { s.cmd with replies := t.cmd.replies }
    ev := { s.ev with status := t.ev.status }
    store := { s.store with captures := t.store.captures } }
  captures : t.store.captures = s.store.captures ++ c.toList.take (8 - s.store.captures.length)
  status : t.ev.status = if 8 - s.store.captures.length < c.toList.length then s.ev.status ||| 64 else s.ev.status

theorem captureOrDrop_now (z : ZoneTask) (s : State) :
    CapturedNow s (captureOrDrop z.slot z.pair z.old s) (z.owed s) := by
  unfold captureOrDrop ZoneTask.owed
  split
  · split
    · next room =>
      have small : s.store.captures.length < 8 := of_decide_eq_true room
      refine ⟨rfl, ?_, ?_⟩
      · rw [List.take_of_length_le (by simp only [Option.toList_some, List.length_singleton]; omega)]
        rfl
      · rw [if_neg (by simp only [Option.toList_some, List.length_singleton]; omega)]
        rfl
    · next full =>
      have large : 8 ≤ s.store.captures.length := not_lt.1 fun small => full (decide_eq_true small)
      have none : 8 - s.store.captures.length = 0 := by omega
      have reported := (reportSource_reported .captureDropped s).eq
      refine ⟨?_, ?_, ?_⟩
      · rw [reported]
      · rw [none, List.take_zero, List.append_nil, reported]
      · rw [none, reportSource_status]
        rfl
  · exact ⟨rfl, by simp, by simp⟩

theorem filter_slot_other {q : List FillReq} {sl o : SlotId} (other : o ≠ sl) :
    (q.filter (·.slot ≠ sl)).filter (·.slot = o) = q.filter (·.slot = o) := by
  rw [List.filter_filter]
  refine List.filter_congr fun r _ => ?_
  by_cases same : r.slot = o
  · simp [same, other]
  · simp [same]

theorem filter_slot_own {q : List FillReq} {sl : SlotId} :
    (q.filter (·.slot ≠ sl)).filter (·.slot = sl) = [] := by
  rw [List.filter_filter, List.filter_eq_nil_iff]
  intro r _
  simp

/-- A slot of a zone change with its capture taken and its ticket raised. -/
structure ZoneRaised (z : ZoneTask) (s u : State) : Prop where
  frame : ZoneFrame s u
  captures : u.store.captures = s.store.captures ++ ((z.owed s).toList).take (8 - s.store.captures.length)
  status : u.ev.status =
    if 8 - s.store.captures.length < (z.owed s).toList.length then s.ev.status ||| 64 else s.ev.status
  fills : u.store.fills = s.store.fills.filter (·.slot ≠ z.slot)
  slots : u.core.slots =
    s.core.slots.set z.slot { s.core.slots[z.slot] with ticket := s.core.slots[z.slot].ticket + 1 }
  ctl : u.ctl = s.ctl

theorem zoneRaised_spec (z : ZoneTask) (s : State) : ZoneRaised z s (zoneRaised z s) := by
  have now := captureOrDrop_now z s
  unfold zoneRaised
  generalize captureOrDrop z.slot z.pair z.old s = c at now
  obtain ⟨eq, captures, status⟩ := now
  refine ⟨?_, captures, status, ?_, ?_, ?_⟩
  · unfold ZoneFrame raiseTicket setFills setCoreSlot
    rw [eq]
  · show c.store.fills.filter _ = _
    rw [eq]
  · show c.core.slots.set _ _ = _
    rw [eq]
  · show c.ctl = _
    rw [eq]

theorem ZoneRaised.ticket {z : ZoneTask} {s u : State} (h : ZoneRaised z s u) :
    u.core.slots[z.slot] = { s.core.slots[z.slot] with ticket := s.core.slots[z.slot].ticket + 1 } := by
  rw [h.slots, getElem_set_fin, if_pos rfl]

theorem ZoneFrame.mem {s t : State} (h : ZoneFrame s t) : t.core.mem = s.core.mem := by rw [h]

theorem ZoneFrame.hit {s t : State} (h : ZoneFrame s t) (p : PairId) (tag : Nat) :
    lookupHit t p tag = lookupHit s p tag := by
  rw [h]
  rfl

theorem ZoneRaised.unzoned {z : ZoneTask} {s u : State} (h : ZoneRaised z s u) {sl : SlotId} (other : sl ≠ z.slot) :
    Unzoned s u sl := by
  refine ⟨⟨fun j k hk => by rw [h.frame.mem], ?_, by rw [h.ctl]⟩, ?_⟩
  · rw [h.slots, getElem_set_fin, if_neg other]
  · rw [h.fills, filter_slot_other other]

/-! ### The lookup under the new tag -/

/-- The three outcomes of the lookup of a zone change (R70, R123, R125). -/
theorem zoneLookup_cases (new : Nat) (sl : SlotId) (p : PairId) (u : State) :
    (lookupHit u p new = true ∧ zoneLookup new sl p u = pushFill sl p new u) ∨
      (lookupHit u p new = false ∧ sl ∈ u.blk.cold ∧ zoneLookup new sl p u = u) ∨
      (lookupHit u p new = false ∧ sl ∉ u.blk.cold ∧ zoneLookup new sl p u = setPhaseKeepRun sl .converging
        (setCoreSlot sl { u.core.slots[sl] with origin := .carried } u)) := by
  unfold zoneLookup
  cases hit : lookupHit u p new with
  | true => exact .inl ⟨rfl, if_pos rfl⟩
  | false =>
    rw [if_neg Bool.false_ne_true]
    by_cases cold : sl ∈ u.blk.cold
    · exact .inr (.inl ⟨rfl, cold, if_pos (by simpa using cold)⟩)
    · exact .inr (.inr ⟨rfl, cold, if_neg (by simpa using cold)⟩)

theorem zoneSlot_eq (z : ZoneTask) (s : State) :
    zoneSlot z.old z.new z.slot z.pair s = zoneLookup z.new z.slot z.pair (zoneRaised z s) := rfl

/-- What a zone change's lookup leaves of its ticketed slot. -/
theorem ZoneRaised.done {z : ZoneTask} {s u t : State} (h : ZoneRaised z s u) (frame : ZoneFrame u t)
    (captures : t.store.captures = u.store.captures) (status : t.ev.status = u.ev.status) (zoned : Zoned s t z)
    (others : ∀ sl, sl ≠ z.slot → Unzoned u t sl) : ZonesDone s t [z] := by
  have owed : [z].filterMap (·.owed s) = (z.owed s).toList := by
    rw [List.filterMap_cons, List.filterMap_nil]
    cases z.owed s <;> rfl
  refine ⟨h.frame.trans frame, ?_, ?_, fun y hy => List.mem_singleton.1 hy ▸ zoned, fun sl apart => ?_⟩
  · rw [captures, h.captures, owed]
  · rw [status, h.status, owed]
  · have other : sl ≠ z.slot := (apart z List.mem_cons_self).symm
    have first := h.unzoned other
    have second := others sl other
    have tail : tailLen u = tailLen s := by rw [h.frame]; rfl
    exact ⟨first.kept.trans second.kept tail, second.fills.trans first.fills⟩

theorem zoneSlot_done (z : ZoneTask) (s : State) : ZonesDone s (zoneSlot z.old z.new z.slot z.pair s) [z] := by
  have raised := zoneRaised_spec z s
  have own : (zoneRaised z s).store.fills.filter (·.slot = z.slot) = [] := by rw [raised.fills, filter_slot_own]
  have hit := raised.frame.hit z.pair z.new
  have cold : (zoneRaised z s).blk.cold = s.blk.cold := by rw [raised.frame]
  have count : (zoneRaised z s).blk.count = s.blk.count := by rw [raised.frame]
  rw [zoneSlot_eq]
  generalize zoneRaised z s = u at *
  rcases zoneLookup_cases z.new z.slot z.pair u with ⟨hits, e⟩ | ⟨misses, isCold, e⟩ | ⟨misses, warm, e⟩
  · rw [e]
    rw [hit] at hits
    refine raised.done rfl rfl rfl ⟨?_, ?_, fun _ => ⟨?_, ?_⟩, fun no => ?_⟩ fun sl other => ⟨?_, ?_⟩
    · exact congrArg (·.ticket) raised.ticket
    · show (u.store.fills.filter (fun r : FillReq => r.slot ≠ z.slot) ++ [_]).filter (fun r : FillReq => r.slot = z.slot) = _
      rw [List.filter_append, filter_slot_own, raised.ticket, count, hits, if_pos rfl]
      simp [ZoneTask.request]
    · show u.ctl.slots[z.slot] = _
      rw [raised.ctl]
    · exact congrArg (·.origin) raised.ticket
    · rw [hits] at no; cases no
    · exact ⟨fun _ _ _ => rfl, rfl, rfl⟩
    · show (u.store.fills.filter (fun r : FillReq => r.slot ≠ z.slot) ++ [_]).filter (fun r : FillReq => r.slot = sl) = _
      rw [List.filter_append, filter_slot_other other]
      simp [Ne.symm other]
  · rw [e]
    rw [hit] at misses
    rw [cold] at isCold
    refine raised.done (.refl u) rfl rfl ⟨?_, ?_, fun _ => ⟨?_, ?_⟩, fun _ warm => absurd isCold warm⟩
      fun sl _ => .refl u sl
    · exact congrArg (·.ticket) raised.ticket
    · rw [own, misses]
      rfl
    · rw [raised.ctl]
    · exact congrArg (·.origin) raised.ticket
  · rw [e]
    rw [hit] at misses
    rw [cold] at warm
    have slot : (setPhaseKeepRun z.slot .converging
        (setCoreSlot z.slot { u.core.slots[z.slot] with origin := .carried } u)).core.slots =
        u.core.slots.set z.slot { u.core.slots[z.slot] with origin := .carried } := rfl
    have record : (setPhaseKeepRun z.slot .converging
        (setCoreSlot z.slot { u.core.slots[z.slot] with origin := .carried } u)).ctl.slots =
        u.ctl.slots.set z.slot { u.ctl.slots[z.slot] with phase := .converging, counter := 0 } := rfl
    refine raised.done rfl rfl rfl ⟨?_, ?_, fun no => ?_, fun _ _ => ⟨?_, ?_⟩⟩ fun sl other => ⟨⟨?_, ?_, ?_⟩, rfl⟩
    · rw [slot, getElem_set_fin, if_pos rfl, raised.ticket]
    · show u.store.fills.filter _ = _
      rw [own, misses]
      rfl
    · rcases no with hits | isCold
      · rw [misses] at hits; cases hits
      · exact absurd isCold warm
    · rw [record, getElem_set_fin, if_pos rfl, raised.ctl]
    · rw [slot, getElem_set_fin, if_pos rfl]
    · exact fun _ _ _ => rfl
    · rw [slot, getElem_set_fin, if_neg other]
    · rw [record, getElem_set_fin, if_neg other]

/-! ### Zone changes in turn -/

theorem ZonesDone.none {s : State} {r : Router} : ZonesDone s { s with router := r } [] where
  frame := rfl
  captures := by simp
  status := by simp
  zoned := nofun
  unzoned sl _ := ⟨⟨fun _ _ _ => rfl, rfl, rfl⟩, rfl⟩

/-- A slot that earlier zone changes have not reached owes the capture it owed before them. -/
theorem ZonesDone.owed_same {s u : State} {zs : List ZoneTask} (h : ZonesDone s u zs) {z : ZoneTask}
    (apart : ∀ y ∈ zs, y.slot ≠ z.slot) : z.owed u = z.owed s := by
  have kept := (h.unzoned z.slot apart).kept
  have same : eligible z.slot z.pair u = eligible z.slot z.pair s := by
    unfold eligible
    rw [kept.record, h.frame]
  have quality : quality (pairBeam z.pair) u = quality (pairBeam z.pair) s := by rw [h.frame]; rfl
  have head : headCopy z.slot u = headCopy z.slot s := by rw [h.frame]; rfl
  have count : u.blk.count = s.blk.count := by rw [h.frame]
  unfold ZoneTask.owed
  rw [same, quality, head, count]

/-- Captures taken in two runs fill the area as they would in one. -/
theorem take_append_area {α : Type} (area a b : List α) :
    (area ++ a.take (8 - area.length)) ++ b.take (8 - (area ++ a.take (8 - area.length)).length) =
      area ++ (a ++ b).take (8 - area.length) := by
  rw [List.append_assoc, List.take_append, List.length_append, List.length_take]
  congr 3
  omega

theorem ZonesDone.append {s u t : State} {zs ys : List ZoneTask} (h : ZonesDone s u zs) (k : ZonesDone u t ys)
    (apart : ∀ z ∈ zs, ∀ y ∈ ys, z.slot ≠ y.slot) : ZonesDone s t (zs ++ ys) := by
  have owed : ys.filterMap (·.owed u) = ys.filterMap (·.owed s) :=
    List.filterMap_congr fun y hy => h.owed_same fun z hz => apart z hz y hy
  have tail : tailLen u = tailLen s := by rw [h.frame]; rfl
  refine ⟨h.frame.trans k.frame, ?_, ?_, fun z hz => ?_, fun sl untouched => ?_⟩
  · rw [k.captures, h.captures, owed, List.filterMap_append, take_append_area]
  · rw [k.status, h.status, h.captures, owed, List.filterMap_append, List.length_append, List.length_append,
      List.length_take]
    have twice : s.ev.status ||| 64 ||| 64 = s.ev.status ||| 64 := by rw [BitVec.or_assoc, BitVec.or_self]
    by_cases full : 8 - s.store.captures.length < (zs.filterMap (·.owed s)).length
    · rw [if_pos full, if_pos (Nat.lt_add_right _ full), twice, ite_self]
    · rw [if_neg full]
      refine if_congr ?_ rfl rfl
      omega
  · rcases List.mem_append.1 hz with first | second
    · have done := h.zoned z first
      have after := k.unzoned z.slot fun y hy e => apart z first y hy e.symm
      refine ⟨?_, after.fills.trans done.fills, fun c => ?_, fun c d => ?_⟩
      · rw [after.kept.numeric]; exact done.ticket
      · rw [after.kept.numeric, after.kept.record]; exact done.kept c
      · rw [after.kept.numeric, after.kept.record]; exact done.carried c d
    · have before := h.unzoned z.slot fun y hy => apart y hy z second
      have done := k.zoned z second
      have hit := h.frame.hit z.pair z.new
      have cold : u.blk.cold = s.blk.cold := by rw [h.frame]
      have request : z.request u = z.request s := by
        have count : u.blk.count = s.blk.count := by rw [h.frame]
        unfold ZoneTask.request
        rw [before.kept.numeric, count]
      have numeric := before.kept.numeric
      have record := before.kept.record
      refine ⟨?_, ?_, fun c => ?_, fun c d => ?_⟩
      · rw [done.ticket, numeric]
      · rw [done.fills, hit, request]
      · rw [← record, ← numeric]
        exact done.kept (by rw [hit, cold]; exact c)
      · rw [← record]
        exact done.carried (by rw [hit]; exact c) (by rw [cold]; exact d)
  · have first := h.unzoned sl fun z hz => untouched z (List.mem_append_left _ hz)
    have second := k.unzoned sl fun z hz => untouched z (List.mem_append_right _ hz)
    exact ⟨first.kept.trans second.kept tail, second.fills.trans first.fills⟩

/-! ### The tasks of a record, and of the queue -/

/-- The zone change that a slot has by a record: one of a slot RUNNING for a pair of the record's beam. -/
def zoneTask (s : State) (x : SteerRec) (sl : SlotId) : Option ZoneTask :=
  match s.alloc.slots[sl] with
  | .running p => if pairBeam p = x.beam then some ⟨s.router.beams[x.beam].tag, x.tag, sl, p⟩ else none
  | .free => none
  | .draining _ _ _ => none

/-- The zone changes of a record: none in CONFIG, and none where the beam keeps its tag (R34, R35). -/
def recordTasks (s : State) (x : SteerRec) : List ZoneTask :=
  if x.tag = s.router.beams[x.beam].tag then []
  else match s.cmd.op with
    | .config => []
    | .running => allSlots.filterMap (zoneTask s x)

theorem zoneTask_some {s : State} {x : SteerRec} {sl : SlotId} {z : ZoneTask} (h : zoneTask s x sl = some z) :
    s.alloc.slots[sl] = .running z.pair ∧ pairBeam z.pair = x.beam ∧
      z = ⟨s.router.beams[x.beam].tag, x.tag, sl, z.pair⟩ := by
  unfold zoneTask at h
  split at h
  · next p running =>
    split at h
    · next beam => cases h; exact ⟨running, beam, rfl⟩
    · cases h
  · cases h
  · cases h

theorem zoneTask_of {s : State} {x : SteerRec} {sl : SlotId} {p : PairId} (running : s.alloc.slots[sl] = .running p)
    (beam : pairBeam p = x.beam) : zoneTask s x sl = some ⟨s.router.beams[x.beam].tag, x.tag, sl, p⟩ := by
  unfold zoneTask
  rw [running]
  exact if_pos beam

theorem mem_recordTasks {s : State} {x : SteerRec} {z : ZoneTask} (h : z ∈ recordTasks s x) :
    x.tag ≠ s.router.beams[x.beam].tag ∧ s.alloc.slots[z.slot] = .running z.pair ∧ pairBeam z.pair = x.beam ∧
      z.new = x.tag := by
  unfold recordTasks at h
  split at h
  · cases h
  · next change =>
    split at h
    · cases h
    · obtain ⟨sl, -, e⟩ := List.mem_filterMap.1 h
      obtain ⟨running, beam, shape⟩ := zoneTask_some e
      have slot : z.slot = sl := by rw [shape]
      exact ⟨change, slot ▸ running, beam, by rw [shape]⟩

theorem recordTasks_of {s : State} {x : SteerRec} (op : s.cmd.op = .running)
    (change : x.tag ≠ s.router.beams[x.beam].tag) {sl : SlotId} {p : PairId}
    (running : s.alloc.slots[sl] = .running p) (beam : pairBeam p = x.beam) :
    ⟨s.router.beams[x.beam].tag, x.tag, sl, p⟩ ∈ recordTasks s x := by
  unfold recordTasks
  rw [if_neg change, op]
  exact List.mem_filterMap.2 ⟨sl, List.mem_finRange sl, zoneTask_of running beam⟩

theorem ZoneFrame.alloc {s t : State} (h : ZoneFrame s t) : t.alloc = s.alloc := by rw [h]

theorem ZoneFrame.op {s t : State} (h : ZoneFrame s t) : t.cmd.op = s.cmd.op := by rw [h]

/-- One slot's turn in the zone change of a record's beam. -/
def zoneStep (x : SteerRec) (old : Nat) (s : State) (sl : SlotId) : State :=
  match s.alloc.slots[sl] with
  | .running p => if pairBeam p = x.beam then zoneSlot old x.tag sl p s else s
  | .free => s
  | .draining _ _ _ => s

theorem zoneChange_eq (x : SteerRec) (old : Nat) (s : State) :
    zoneChange x.beam old x.tag s = allSlots.foldl (zoneStep x old) s := rfl

/-- The zone change of a slot from a tag that is given. -/
def zoneTaskFrom (x : SteerRec) (old : Nat) (s : State) (sl : SlotId) : Option ZoneTask :=
  (zoneTask s x sl).map fun z => { z with old := old }

theorem zoneTaskFrom_same {x : SteerRec} {old : Nat} {s u : State} (alloc : u.alloc = s.alloc) :
    zoneTaskFrom x old u = zoneTaskFrom x old s := by
  funext o
  unfold zoneTaskFrom zoneTask
  rw [alloc]
  split
  · split
    · rfl
    · rfl
  · rfl
  · rfl

theorem zoneTaskFrom_own (x : SteerRec) (s : State) : zoneTaskFrom x s.router.beams[x.beam].tag s = zoneTask s x := by
  funext o
  unfold zoneTaskFrom
  cases task : zoneTask s x o with
  | none => rfl
  | some z =>
    have shape := (zoneTask_some task).2.2
    have old : z.old = s.router.beams[x.beam].tag := by rw [shape]
    rw [Option.map_some, ← old]

theorem zoneTaskFrom_slot {x : SteerRec} {old : Nat} {s : State} {sl : SlotId} {z : ZoneTask}
    (h : zoneTaskFrom x old s sl = some z) : z.slot = sl := by
  obtain ⟨w, task, rfl⟩ := Option.map_eq_some_iff.1 h
  show w.slot = sl
  rw [(zoneTask_some task).2.2]

/-- The sweep over the slots of a beam that changes zone. -/
theorem zoneSweep_done (x : SteerRec) (old : Nat) (l : List SlotId) (nodup : l.Nodup) (s : State) :
    ZonesDone s (l.foldl (zoneStep x old) s) (l.filterMap (zoneTaskFrom x old s)) := by
  induction l generalizing s with
  | nil => exact ZonesDone.none (r := s.router)
  | cons sl l ih =>
    obtain ⟨fresh, nodup⟩ := List.nodup_cons.1 nodup
    rw [List.foldl_cons, List.filterMap_cons]
    cases task : zoneTask s x sl with
    | none =>
      have still : zoneStep x old s sl = s := by
        unfold zoneStep
        split
        · next p running =>
          refine if_neg fun beam => ?_
          rw [zoneTask_of running beam] at task
          cases task
        · rfl
        · rfl
      have none : zoneTaskFrom x old s sl = none := by rw [zoneTaskFrom, task]; rfl
      rw [still, none]
      exact ih nodup s
    | some z =>
      obtain ⟨running, beam, shape⟩ := zoneTask_some task
      have step : zoneStep x old s sl = zoneSlot old x.tag sl z.pair s := by
        unfold zoneStep
        rw [running]
        exact if_pos beam
      have some : zoneTaskFrom x old s sl = some ⟨old, x.tag, sl, z.pair⟩ := by
        rw [zoneTaskFrom, task, Option.map_some, shape]
      have one := zoneSlot_done ⟨old, x.tag, sl, z.pair⟩ s
      have rest := ih nodup (zoneSlot old x.tag sl z.pair s)
      rw [zoneTaskFrom_same one.frame.alloc] at rest
      rw [step, some]
      refine one.append rest fun y hy w hw e => ?_
      obtain ⟨o, ho, found⟩ := List.mem_filterMap.1 hw
      rw [List.mem_singleton.1 hy, zoneTaskFrom_slot found] at e
      have same : sl = o := e
      exact fresh (same ▸ ho)

/-- A record applied to its beam: the tag, and in RUNNING the zone changes. -/
theorem applyRecord_done (x : SteerRec) (s : State) : ZonesDone s (applyRecord x s) (recordTasks s x) ∧
    (applyRecord x s).router =
      { s.router with beams := s.router.beams.set x.beam { s.router.beams[x.beam] with tag := x.tag } } := by
  unfold applyRecord recordTasks
  dsimp only
  by_cases same : s.router.beams[x.beam].tag = x.tag
  · rw [if_pos same, if_pos same.symm]
    refine ⟨ZonesDone.none (r := s.router), ?_⟩
    have record : { s.router.beams[x.beam] with tag := x.tag } = s.router.beams[x.beam] := by rw [← same]
    have kept : s.router.beams.set x.beam s.router.beams[x.beam] = s.router.beams := Vector.set_getElem_self _
    rw [record, kept]
  · rw [if_neg same, if_neg (Ne.symm same)]
    have tagged : ∀ y, ZonesDone s (setBeam x.beam y s) [] := fun _ => .none
    split
    · next op =>
      have sweep := zoneSweep_done x s.router.beams[x.beam].tag allSlots (List.nodup_finRange 128)
        (setBeam x.beam { s.router.beams[x.beam] with tag := x.tag } s)
      have router := (zoneChange_run x.beam s.router.beams[x.beam].tag x.tag
        (setBeam x.beam { s.router.beams[x.beam] with tag := x.tag } s)).keeps.frame.router
      refine ⟨?_, router⟩
      rw [zoneTaskFrom_same (setBeam_alloc x.beam _ s), zoneTaskFrom_own, ← zoneChange_eq] at sweep
      rw [op]
      exact (tagged _).append sweep (by simp)
    · next op =>
      rw [op]
      exact ⟨tagged _, rfl⟩

/-! ### The queue (R34 to R36) -/

/-- The records of a queue applied in turn. -/
def applyRecords (q : List SteerRec) (s : State) : State := q.foldl (fun s x => applyRecord x s) s

theorem applySteer_locked {s : State} (locked : s.ports.arrayRx.lock = .locked) :
    applySteer s = applyRecords s.router.queue { s with router := { s.router with queue := [] } } := by
  unfold applySteer
  rw [locked]
  rfl

theorem applySteer_seeking {s : State} (seeking : s.ports.arrayRx.lock = .seeking) : applySteer s = s := by
  unfold applySteer
  rw [seeking]

/-- The tags after records of beams of their own. -/
structure TagsApplied (s t : State) (q : List SteerRec) : Prop where
  queue : t.router.queue = s.router.queue
  named : ∀ x ∈ q, t.router.beams[x.beam] = { s.router.beams[x.beam] with tag := x.tag }
  others : ∀ b : BeamId, (∀ x ∈ q, x.beam ≠ b) → t.router.beams[b] = s.router.beams[b]

theorem recordTasks_same {s u : State} {y : SteerRec} (frame : ZoneFrame s u)
    (beam : u.router.beams[y.beam] = s.router.beams[y.beam]) : recordTasks u y = recordTasks s y := by
  have task : zoneTask u y = zoneTask s y := by
    funext o
    unfold zoneTask
    rw [frame.alloc, beam]
  unfold recordTasks
  rw [beam, frame.op, task]

theorem applyRecords_done (q : List SteerRec) (distinct : (q.map (·.beam)).Nodup) (s : State) :
    ZonesDone s (applyRecords q s) (q.flatMap (recordTasks s)) ∧ TagsApplied s (applyRecords q s) q := by
  induction q generalizing s with
  | nil => exact ⟨ZonesDone.none (r := s.router), rfl, nofun, fun _ _ => rfl⟩
  | cons x q ih =>
    obtain ⟨fresh, distinct⟩ := List.nodup_cons.1 distinct
    have apart : ∀ y ∈ q, y.beam ≠ x.beam := fun y hy e => fresh (List.mem_map.2 ⟨y, hy, e⟩)
    obtain ⟨one, router⟩ := applyRecord_done x s
    obtain ⟨rest, tags⟩ := ih distinct (applyRecord x s)
    have kept : ∀ b : BeamId, b ≠ x.beam → (applyRecord x s).router.beams[b] = s.router.beams[b] := fun b other => by
      rw [router]
      dsimp only
      rw [getElem_set_fin, if_neg other]
    have tasks : q.flatMap (recordTasks (applyRecord x s)) = q.flatMap (recordTasks s) :=
      List.flatMap_congr fun y hy => recordTasks_same one.frame (kept y.beam (apart y hy))
    rw [tasks] at rest
    refine ⟨?_, ?_, fun y hy => ?_, fun b other => ?_⟩
    · rw [List.flatMap_cons]
      refine one.append rest fun z hz w hw e => ?_
      obtain ⟨y, hy, hw⟩ := List.mem_flatMap.1 hw
      obtain ⟨-, running, beam, -⟩ := mem_recordTasks hz
      obtain ⟨-, running', beam', -⟩ := mem_recordTasks hw
      have shared : s.alloc.slots[w.slot] = .running z.pair := (getElem_at e.symm).trans running
      have same : w.pair = z.pair := SlotState.running.inj (running'.symm.trans shared)
      exact apart y hy (by rw [← beam', ← beam, same])
    · exact tags.queue.trans (by rw [router])
    · rcases List.mem_cons.1 hy with rfl | later
      · refine (tags.others y.beam apart).trans ?_
        rw [router]
        dsimp only
        rw [getElem_set_fin, if_pos rfl]
      · have named := tags.named y later
        rw [kept y.beam (apart y later)] at named
        exact named
    · refine (tags.others b fun y hy => other y (List.mem_cons_of_mem _ hy)).trans ?_
      exact kept b (other x List.mem_cons_self).symm

/-- In CONFIG the records move the tags alone (R35). -/
theorem applyRecords_config (q : List SteerRec) {s : State} (config : s.cmd.op = .config) :
    applyRecords q s = { s with router := (applyRecords q s).router } := by
  induction q generalizing s with
  | nil => rfl
  | cons x q ih =>
    have one : applyRecord x s = { s with router := (applyRecord x s).router } := by
      unfold applyRecord
      rw [config]
      dsimp only
      split
      · rfl
      · rfl
    have op : (applyRecord x s).cmd.op = .config := by rw [one]; exact config
    have rest := ih op
    show applyRecords q (applyRecord x s) = { s with router := (applyRecords q (applyRecord x s)).router }
    rw [rest, one]

/-! ### The captures owed -/

theorem eligible_iff (sl : SlotId) (p : PairId) (s : State) : eligible sl p s = true ↔
    s.ctl.slots[sl].phase = .tracking ∧ (captureErle s.blk.tuning : Int) ≤ s.ctl.beams[pairBeam p].erle ∧
      s.store.enabled = true := by
  simp [eligible, and_assoc]

/-- The captures owed by the zone changes of a record are those of the record (R107, R125). -/
theorem recordTasks_owed {s : State} (op : s.cmd.op = .running) (x : SteerRec) :
    (recordTasks s x).filterMap (·.owed s) = steerCaptures s x := by
  unfold recordTasks steerCaptures
  split
  · rfl
  · rw [op]
    dsimp only
    rw [List.filterMap_filterMap]
    refine List.filterMap_congr fun sl _ => ?_
    unfold zoneTask
    cases state : s.alloc.slots[sl] with
    | running p =>
      dsimp only
      by_cases beam : pairBeam p = x.beam
      · rw [if_pos beam]
        show (if eligible sl p s then _ else none) = _
        refine if_congr ?_ ?_ rfl
        · rw [eligible_iff]
          exact ⟨fun e => ⟨beam, e⟩, fun e => e.2⟩
        · show some (CaptureRec.mk p s.router.beams[x.beam].tag _ _ _) = some (captureOf s sl p)
          rw [← getElem_at (v := s.router.beams) beam]
          rfl
      · rw [if_neg beam, if_neg fun e => beam e.1]
        rfl
    | free => rfl
    | draining _ _ _ => rfl

theorem queueTasks_owed {s : State} (q : List SteerRec) :
    (q.flatMap (recordTasks s)).filterMap (·.owed s) = match s.cmd.op with
      | .config => []
      | .running => q.flatMap (steerCaptures s) := by
  rw [List.filterMap_flatMap]
  split
  · next op =>
    rw [List.flatMap_eq_nil_iff]
    intro x _
    have none : recordTasks s x = [] := by
      unfold recordTasks
      rw [op]
      exact ite_self _
    rw [none]
    rfl
  · next op => exact List.flatMap_congr fun x _ => recordTasks_owed op x

theorem ZonesDone.moves {s t : State} {zs : List ZoneTask} (h : ZonesDone s t zs) : PoolMoves { s with
    router := t.router
    cmd := { s.cmd with replies := t.cmd.replies }
    ev := { s.ev with status := t.ev.status } } t := by
  unfold PoolMoves
  rw [h.frame]

/-- A slot of a beam that changes zone stands, after the queue's application, as its zone change says. -/
theorem Zoned.requests {s t : State} {z : ZoneTask} (h : Zoned s t z) :
    (∀ r ∈ t.store.fills, r.slot = z.slot → r = z.request s) ∧
      (lookupHit s z.pair z.new = true ↔ ∃ r ∈ t.store.fills, r.slot = z.slot) := by
  have mem : ∀ r, r ∈ t.store.fills ∧ r.slot = z.slot ↔ r ∈ t.store.fills.filter (·.slot = z.slot) := fun r => by
    rw [List.mem_filter, decide_eq_true_iff]
  rw [h.fills] at mem
  cases hit : lookupHit s z.pair z.new with
  | true =>
    rw [hit, if_pos rfl] at mem
    refine ⟨fun r hr e => List.mem_singleton.1 ((mem r).1 ⟨hr, e⟩), fun _ => ⟨z.request s, ?_⟩, fun _ => rfl⟩
    exact (mem _).2 List.mem_cons_self
  | false =>
    rw [hit, if_neg Bool.false_ne_true] at mem
    exact ⟨fun r hr e => absurd ((mem r).1 ⟨hr, e⟩) List.not_mem_nil, nofun, fun ⟨r, hr⟩ =>
      absurd ((mem r).1 hr) List.not_mem_nil⟩

/-- Settles O44: the records applied in turn, each a zone change of the slots of a beam of its own. -/
theorem steerApplication : Obligations.SteerApplication := by
  unfold Obligations.SteerApplication
  intro s at'
  have row : exec .steerApplication s = .next (applySteer s) := upAtBoundary_at _ at'
  refine ⟨fun seeking => by rw [row, applySteer_seeking seeking], fun locked distinct => ?_⟩
  rw [row, applySteer_locked locked]
  obtain ⟨done, tags⟩ := applyRecords_done s.router.queue distinct { s with router := { s.router with queue := [] } }
  have config := applyRecords_config s.router.queue (s := { s with router := { s.router with queue := [] } })
  have owed := queueTasks_owed (s := { s with router := { s.router with queue := [] } }) s.router.queue
  generalize applyRecords s.router.queue { s with router := { s.router with queue := [] } } = t at done tags config
  have frame := done.frame
  refine ⟨t, _, rfl, tags.queue, tags.named, tags.others, frame.alloc, fun op => config op,
    fun op sl p running x hx beam change => ?_, ?_, ?_, fun sl untouched => ?_, frame.mem, ?_, ?_, ?_, rfl, done.moves⟩
  · have task := recordTasks_of (s := { s with router := { s.router with queue := [] } }) op change running beam.symm
    have zoned := done.zoned _ (List.mem_flatMap.2 ⟨x, hx, task⟩)
    obtain ⟨only, hits⟩ := zoned.requests
    exact ⟨zoned.ticket, only, hits, zoned.kept, zoned.carried⟩
  · rw [done.captures, owed]
    rfl
  · rw [done.status, owed]
    rfl
  · have apart : ∀ z ∈ s.router.queue.flatMap (recordTasks { s with router := { s.router with queue := [] } }),
        z.slot ≠ sl := fun z hz e => ?_
    · have kept := (done.unzoned sl apart).kept
      exact ⟨kept.taps, kept.numeric, kept.record⟩
    obtain ⟨x, hx, hz⟩ := List.mem_flatMap.1 hz
    obtain ⟨change, running, beam, -⟩ := mem_recordTasks hz
    exact change (untouched z.pair (e ▸ running) x hx beam.symm)
  · rw [frame]
  · rw [frame]
  · rw [frame]

end Sys2Proof.Machine
end

