-- ==== Sys2Proof/Proofs/Stop.lean ====
section
/-! PROOF. STOP: the wait list emptied, then the pairs released one after the other (O52, R26, R71, R107, R108, R115,
R126). -/

namespace Sys2Proof.Machine

/-! ### A release with no pair waiting (R108) -/

/-- What a release moves while no pair waits. -/
def StopFrame (s t : State) : Prop :=
  t = { s with
    alloc := { s.alloc with slots := t.alloc.slots, pairs := t.alloc.pairs }
    core := { s.core with slots := t.core.slots }
    store := { s.store with fills := t.store.fills, captures := t.store.captures } }

theorem StopFrame.trans {s t u : State} (h : StopFrame s t) (k : StopFrame t u) : StopFrame s u := by
  unfold StopFrame at *
  rw [k, h]

theorem eligible_iff_eligible (sl : SlotId) (p : PairId) (s : State) : eligible sl p s = true ↔ Eligible s sl p :=
  (eligible_iff sl p s).trans ⟨fun ⟨a, b, c⟩ => ⟨a, b, c⟩, fun ⟨a, b, c⟩ => ⟨a, b, c⟩⟩

theorem StopFrame.eligible {s t : State} (h : StopFrame s t) (sl : SlotId) (p : PairId) :
    eligible sl p t = eligible sl p s := by
  rw [h]
  rfl

theorem StopFrame.captureOf {s t : State} (h : StopFrame s t) (sl : SlotId) (p : PairId) :
    captureOf t sl p = captureOf s sl p := by
  rw [h]
  rfl

theorem StopFrame.waiting {s t : State} (h : StopFrame s t) : t.alloc.waiting = s.alloc.waiting := by rw [h]

theorem giveToWaiter_none (sl : SlotId) {s : State} (none : s.alloc.waiting = []) : giveToWaiter sl s = s := by
  unfold giveToWaiter
  rw [none]

/-- The state that a released slot takes: DRAINING where its capture is owed and finds no room (R108). -/
def releasedState (s : State) (sl : SlotId) (p : PairId) : SlotState :=
  if eligible sl p s && !captureRoom s then
    .draining p s.router.beams[pairBeam p].tag s.ctl.beams[pairBeam p].erle.toNat
  else .free

/-- A release while no pair waits. -/
structure Released (s t : State) (sl : SlotId) (p : PairId) : Prop where
  frame : StopFrame s t
  slots : t.alloc.slots = s.alloc.slots.set sl (releasedState s sl p)
  pairs : t.alloc.pairs = if eligible sl p s && !captureRoom s then s.alloc.pairs else s.alloc.pairs.set p .none
  captures : t.store.captures =
    s.store.captures ++ if eligible sl p s && captureRoom s then [captureOf s sl p] else []
  core : t.core.slots = s.core.slots.set sl { s.core.slots[sl] with ticket := s.core.slots[sl].ticket + 1 }

theorem freeSlot_none {s : State} (sl : SlotId) (p : PairId) (none : s.alloc.waiting = []) :
    freeSlot sl p s = setSlotState sl .free (setPair p .none s) :=
  giveToWaiter_none sl none

theorem releaseSlot_released {s : State} (sl : SlotId) (p : PairId) (none : s.alloc.waiting = []) :
    Released s (releaseSlot sl p s) sl p := by
  unfold releaseSlot
  dsimp only
  cases able : eligible sl p s with
  | true =>
    rw [if_pos rfl]
    cases room : captureRoom s with
    | true =>
      have there : captureRoom s = true := room
      rw [if_pos rfl, freeSlot_none (s := pushCapture sl p _ _ (raiseTicket sl s)) sl p none]
      refine ⟨rfl, ?_, ?_, ?_, rfl⟩
      · rw [releasedState, able, there]; rfl
      · rw [able, there]; rfl
      · rw [able, there]; rfl
    | false =>
      have full : captureRoom s = false := room
      rw [if_neg Bool.false_ne_true]
      refine ⟨rfl, ?_, ?_, ?_, rfl⟩
      · rw [releasedState, able, full]; rfl
      · rw [able, full]; rfl
      · rw [able, full]; exact (List.append_nil _).symm
  | false =>
    rw [if_neg Bool.false_ne_true, freeSlot_none (s := raiseTicket sl s) sl p none]
    refine ⟨rfl, ?_, ?_, ?_, rfl⟩
    · rw [releasedState, able]; rfl
    · rw [able]; rfl
    · rw [able]; exact (List.append_nil _).symm

/-! ### Releases in turn -/

/-- The capture that the release of a pair owes: one of its RUNNING slot, where that is eligible (R107, R108). -/
def owedRelease (s : State) (p : PairId) : Option (SlotId × PairId) :=
  match s.alloc.pairs[p] with
  | .held sl => if s.alloc.slots[sl] = .running p ∧ eligible sl p s then some (sl, p) else none
  | .none => none
  | .waiting => none

/-- The releases of several pairs, in turn. -/
structure PairsReleased (s t : State) (l : List PairId) : Prop where
  frame : StopFrame s t
  captures : t.store.captures = s.store.captures ++
    ((l.filterMap (owedRelease s)).take (8 - s.store.captures.length)).map (fun x => captureOf s x.1 x.2)
  taken : ∀ x ∈ (l.filterMap (owedRelease s)).take (8 - s.store.captures.length),
    t.alloc.slots[x.1] = .free ∧ t.alloc.pairs[x.2] = .none
  drains : ∀ x ∈ (l.filterMap (owedRelease s)).drop (8 - s.store.captures.length),
    t.alloc.slots[x.1] = .draining x.2 s.router.beams[pairBeam x.2].tag s.ctl.beams[pairBeam x.2].erle.toNat ∧
      t.alloc.pairs[x.2] = .held x.1
  freed : ∀ (sl : SlotId), ∀ p ∈ l, s.alloc.slots[sl] = .running p → ¬ Eligible s sl p →
    t.alloc.slots[sl] = .free ∧ t.alloc.pairs[p] = .none
  stopped : ∀ (sl : SlotId), ∀ p ∈ l, s.alloc.slots[sl] = .running p →
    t.core.slots[sl].ticket = s.core.slots[sl].ticket + 1 ∧ ∀ q, t.alloc.slots[sl] ≠ .running q
  others : ∀ sl : SlotId, (∀ p ∈ l, s.alloc.slots[sl] ≠ .running p) →
    t.alloc.slots[sl] = s.alloc.slots[sl] ∧ t.core.slots[sl].ticket = s.core.slots[sl].ticket
  pairs : ∀ p : PairId, p ∉ l → t.alloc.pairs[p] = s.alloc.pairs[p]

section Owed

variable {s : State} {n : Nat}

theorem owedRelease_some {p : PairId} {x : SlotId × PairId} (h : owedRelease s p = some x) :
    x.2 = p ∧ s.alloc.pairs[p] = .held x.1 ∧ s.alloc.slots[x.1] = .running x.2 ∧ Eligible s x.1 x.2 := by
  unfold owedRelease at h
  split at h
  · next entry =>
    split at h
    · next both => cases h; exact ⟨rfl, entry, both.1, (eligible_iff_eligible _ _ s).1 both.2⟩
    · cases h
  · cases h
  · cases h

theorem owedRelease_of {p : PairId} {sl : SlotId} (agrees : Agrees s.alloc n) (running : s.alloc.slots[sl] = .running p)
    (able : Eligible s sl p) : owedRelease s p = some (sl, p) := by
  have entry := (agrees.held sl p).1 (by rw [running]; simp)
  unfold owedRelease
  rw [entry]
  exact if_pos ⟨running, (eligible_iff_eligible sl p s).2 able⟩

theorem owedRelease_none {p : PairId} {sl : SlotId} (agrees : Agrees s.alloc n) (running : s.alloc.slots[sl] = .running p)
    (unable : ¬ Eligible s sl p) : owedRelease s p = none := by
  have entry := (agrees.held sl p).1 (by rw [running]; simp)
  unfold owedRelease
  rw [entry]
  exact if_neg fun both => unable ((eligible_iff_eligible sl p s).1 both.2)

theorem mem_owed {l : List PairId} {x : SlotId × PairId} (h : x ∈ l.filterMap (owedRelease s)) :
    x.2 ∈ l ∧ s.alloc.pairs[x.2] = .held x.1 ∧ s.alloc.slots[x.1] = .running x.2 ∧ Eligible s x.1 x.2 := by
  obtain ⟨p, hp, e⟩ := List.mem_filterMap.1 h
  obtain ⟨same, entry, running, able⟩ := owedRelease_some e
  subst same
  exact ⟨hp, entry, running, able⟩

end Owed

theorem PairsReleased.none {s : State} (l : List PairId) (idle : ∀ p ∈ l, ∀ sl : SlotId, s.alloc.slots[sl] ≠ .running p) :
    PairsReleased s s l := by
  have owed : l.filterMap (owedRelease s) = [] := by
    refine List.eq_nil_iff_forall_not_mem.2 fun x hx => ?_
    obtain ⟨mem, -, running, -⟩ := mem_owed hx
    exact idle x.2 mem x.1 running
  refine ⟨rfl, ?_, ?_, ?_, fun sl p hp running => absurd running (idle p hp sl),
    fun sl p hp running => absurd running (idle p hp sl), fun _ _ => ⟨rfl, rfl⟩, fun _ _ => rfl⟩
  · rw [owed]; simp
  · rw [owed]; simp
  · rw [owed]; simp

theorem Released.done {s t : State} {sl : SlotId} {p : PairId} {n : Nat} (h : Released s t sl p)
    (agrees : Agrees s.alloc n) (running : s.alloc.slots[sl] = .running p) : PairsReleased s t [p] := by
  have entry := (agrees.held sl p).1 (by rw [running]; simp)
  have own : ∀ o : SlotId, s.alloc.slots[o] = .running p → o = sl := fun o e =>
    agrees.one_slot (p := p) (by rw [running]; simp) (by rw [e]; simp)
  have state : t.alloc.slots[sl] = releasedState s sl p := by rw [h.slots, getElem_set_fin, if_pos rfl]
  have quiet : ∀ q, releasedState s sl p ≠ .running q := fun q => by
    unfold releasedState
    split
    · exact nofun
    · exact nofun
  have rest : [p].filterMap (owedRelease s) = (owedRelease s p).toList := by
    rw [List.filterMap_cons, List.filterMap_nil]
    cases owedRelease s p <;> rfl
  have small : captureRoom s = true ↔ s.store.captures.length < 8 := decide_eq_true_iff
  have free : (eligible sl p s && !captureRoom s) = false → t.alloc.slots[sl] = .free ∧ t.alloc.pairs[p] = .none := by
    intro no
    rw [state, releasedState, h.pairs, no]
    exact ⟨rfl, by rw [if_neg Bool.false_ne_true, getElem_set_fin, if_pos rfl]⟩
  have freed : ∀ o : SlotId, ∀ q ∈ [p], s.alloc.slots[o] = .running q → ¬ Eligible s o q →
      t.alloc.slots[o] = .free ∧ t.alloc.pairs[q] = .none := by
    intro o q hq e unable
    rw [List.mem_singleton.1 hq] at e unable ⊢
    rw [own o e] at unable ⊢
    rw [← eligible_iff_eligible, Bool.not_eq_true] at unable
    exact free (by rw [unable]; rfl)
  have stopped : ∀ o : SlotId, ∀ q ∈ [p], s.alloc.slots[o] = .running q →
      t.core.slots[o].ticket = s.core.slots[o].ticket + 1 ∧ ∀ q, t.alloc.slots[o] ≠ .running q := by
    intro o q hq e
    rw [List.mem_singleton.1 hq] at e
    rw [own o e, h.core, getElem_set_fin, if_pos rfl, state]
    exact ⟨rfl, quiet⟩
  have others : ∀ o : SlotId, (∀ q ∈ [p], s.alloc.slots[o] ≠ .running q) →
      t.alloc.slots[o] = s.alloc.slots[o] ∧ t.core.slots[o].ticket = s.core.slots[o].ticket := by
    intro o idle
    have other : o ≠ sl := fun same => idle p List.mem_cons_self (by rw [same]; exact running)
    rw [h.slots, h.core, getElem_set_fin, if_neg other, getElem_set_fin, if_neg other]
    exact ⟨rfl, rfl⟩
  have pairs : ∀ q : PairId, q ∉ [p] → t.alloc.pairs[q] = s.alloc.pairs[q] := by
    intro q other
    rw [h.pairs]
    split
    · rfl
    · rw [getElem_set_fin, if_neg fun same => other (List.mem_singleton.2 same)]
  cases able : eligible sl p s with
  | true =>
    rw [owedRelease_of agrees running ((eligible_iff_eligible sl p s).1 able), Option.toList_some] at rest
    have captures := h.captures
    rw [able] at captures
    by_cases room : s.store.captures.length < 8
    · have one : [(sl, p)].take (8 - s.store.captures.length) = [(sl, p)] :=
        List.take_of_length_le (by simp only [List.length_singleton]; omega)
      have no : [(sl, p)].drop (8 - s.store.captures.length) = [] :=
        List.drop_of_length_le (by simp only [List.length_singleton]; omega)
      rw [small.2 room] at captures
      refine ⟨h.frame, ?_, ?_, ?_, freed, stopped, others, pairs⟩
      · rw [rest, one]; exact captures
      · rw [rest, one]
        intro x hx
        rw [List.mem_singleton.1 hx]
        exact free (by rw [small.2 room]; simp)
      · rw [rest, no]; exact nofun
    · have zero : 8 - s.store.captures.length = 0 := by omega
      have full : captureRoom s = false := Bool.eq_false_iff.2 fun e => room (small.1 e)
      rw [full] at captures
      refine ⟨h.frame, ?_, ?_, ?_, freed, stopped, others, pairs⟩
      · rw [zero]; exact captures
      · rw [zero]; exact nofun
      · rw [rest, zero]
        intro x hx
        rw [List.mem_singleton.1 hx, state, releasedState, h.pairs, able, full]
        exact ⟨rfl, entry⟩
  | false =>
    have unable : ¬ Eligible s sl p := fun e => by rw [(eligible_iff_eligible sl p s).2 e] at able; cases able
    have captures := h.captures
    rw [able] at captures
    rw [owedRelease_none agrees running unable, Option.toList_none] at rest
    refine ⟨h.frame, ?_, ?_, ?_, freed, stopped, others, pairs⟩
    · rw [rest, List.take_nil]; exact captures
    · rw [rest, List.take_nil]; exact nofun
    · rw [rest, List.drop_nil]; exact nofun

/-- A pair that earlier releases have not reached owes what it owed before them. -/
theorem PairsReleased.owed_same {s u : State} {l : List PairId} {n : Nat} (h : PairsReleased s u l)
    (agrees : Agrees s.alloc n) {p : PairId} (apart : p ∉ l) : owedRelease u p = owedRelease s p := by
  unfold owedRelease
  rw [h.pairs p apart]
  cases entry : s.alloc.pairs[p] with
  | none => rfl
  | waiting => rfl
  | held sl =>
    have holds := (agrees.held sl p).2 entry
    have kept := (h.others sl fun q hq e => by
      rw [e, holds_running] at holds
      exact apart (holds ▸ hq)).1
    dsimp only
    rw [kept, h.frame.eligible]

theorem PairsReleased.append {s u t : State} {l k : List PairId} {n : Nat} (h : PairsReleased s u l)
    (g : PairsReleased u t k) (agrees : Agrees s.alloc n) (apart : ∀ p ∈ l, p ∉ k) : PairsReleased s t (l ++ k) := by
  have apart' : ∀ p ∈ k, p ∉ l := fun p hp hl => apart p hl hp
  have owed : k.filterMap (owedRelease u) = k.filterMap (owedRelease s) :=
    List.filterMap_congr fun p hp => h.owed_same agrees (apart' p hp)
  have able : ∀ (sl : SlotId) (p : PairId), Eligible u sl p ↔ Eligible s sl p := fun sl p => by
    rw [← eligible_iff_eligible, ← eligible_iff_eligible, h.frame.eligible]
  have room : 8 - u.store.captures.length =
      8 - s.store.captures.length - (l.filterMap (owedRelease s)).length := by
    rw [h.captures, List.length_append, List.length_map, List.length_take]
    omega
  have same : ∀ x : SlotId × PairId, captureOf u x.1 x.2 = captureOf s x.1 x.2 := fun x => h.frame.captureOf _ _
  have later : ∀ (sl : SlotId), ∀ p ∈ k, s.alloc.slots[sl] = .running p → u.alloc.slots[sl] = .running p :=
    fun sl p hp running => (h.others sl fun q hq e => by
      rw [running] at e
      exact apart q hq (SlotState.running.inj e ▸ hp)).1.trans running
  have settled : ∀ (sl : SlotId), ∀ p ∈ l, s.alloc.slots[sl] = .running p →
      t.alloc.slots[sl] = u.alloc.slots[sl] ∧ t.core.slots[sl].ticket = u.core.slots[sl].ticket :=
    fun sl p hp running => g.others sl fun q _ => (h.stopped sl p hp running).2 q
  have router : u.router = s.router := by rw [h.frame]
  have ctl : u.ctl = s.ctl := by rw [h.frame]
  have split : (l ++ k).filterMap (owedRelease s) = l.filterMap (owedRelease s) ++ k.filterMap (owedRelease u) := by
    rw [List.filterMap_append, owed]
  refine ⟨h.frame.trans g.frame, ?_, fun x hx => ?_, fun x hx => ?_, fun sl p hp running unable => ?_,
    fun sl p hp running => ?_, fun sl idle => ?_, fun p hp => ?_⟩
  · rw [g.captures, room, split, h.captures, List.take_append, List.map_append, List.append_assoc]
    simp only [same]
  · rw [split, List.take_append, List.mem_append] at hx
    rcases hx with first | second
    · obtain ⟨mem, -, running, -⟩ := mem_owed (List.mem_of_mem_take first)
      have done := h.taken x first
      rw [(settled x.1 x.2 mem running).1, g.pairs x.2 (apart x.2 mem)]
      exact done
    · rw [← room] at second
      exact g.taken x second
  · rw [split, List.drop_append, List.mem_append] at hx
    rcases hx with first | second
    · obtain ⟨mem, -, running, -⟩ := mem_owed (List.mem_of_mem_drop first)
      have done := h.drains x first
      rw [(settled x.1 x.2 mem running).1, g.pairs x.2 (apart x.2 mem)]
      exact done
    · rw [← room] at second
      have done := g.drains x second
      rw [router, ctl] at done
      exact done
  · rcases List.mem_append.1 hp with first | second
    · rw [(settled sl p first running).1, g.pairs p (apart p first)]
      exact h.freed sl p first running unable
    · exact g.freed sl p second (later sl p second running) (mt (able sl p).1 unable)
  · rcases List.mem_append.1 hp with first | second
    · obtain ⟨slot, ticket⟩ := settled sl p first running
      rw [slot, ticket]
      exact h.stopped sl p first running
    · have kept := (h.others sl fun q hq e => by
        rw [running] at e
        exact apart q hq (SlotState.running.inj e ▸ second)).2
      have done := g.stopped sl p second (later sl p second running)
      rw [kept] at done
      exact done
  · obtain ⟨slot, ticket⟩ := h.others sl fun p hp => idle p (List.mem_append_left _ hp)
    obtain ⟨slot', ticket'⟩ := g.others sl fun p hp => by rw [slot]; exact idle p (List.mem_append_right _ hp)
    exact ⟨slot'.trans slot, ticket'.trans ticket⟩
  · rw [g.pairs p fun mem => hp (List.mem_append_right _ mem), h.pairs p fun mem => hp (List.mem_append_left _ mem)]

theorem unwantPair_released {s : State} {n : Nat} (agrees : Agrees s.alloc n) (none : s.alloc.waiting = []) (p : PairId) :
    PairsReleased s (unwantPair p s) [p] := by
  have idle : (∀ sl : SlotId, s.alloc.slots[sl] ≠ .running p) → PairsReleased s s [p] := fun no =>
    .none [p] fun q hq => List.mem_singleton.1 hq ▸ no
  unfold unwantPair
  split
  · next entry =>
    refine idle fun sl running => ?_
    rw [(agrees.held sl p).1 (by rw [running]; simp)] at entry
    cases entry
  · next waits =>
    have mem := (agrees.waiting p).2 waits
    rw [none] at mem
    cases mem
  · next sl entry =>
    have holds := (agrees.held sl p).2 entry
    split
    · next q running =>
      rw [running, holds_running] at holds
      subst holds
      exact (releaseSlot_released sl q none).done agrees running
    · next q tag x draining =>
      refine idle fun o running => ?_
      have same : o = sl := agrees.one_slot holds (by rw [running]; simp)
      rw [same, draining] at running
      cases running
    · next free =>
      rw [free] at holds
      exact absurd holds (holds_free p)

theorem unwantPairs_released {n : Nat} (l : List PairId) (nodup : l.Nodup) {s : State} (agrees : Agrees s.alloc n)
    (none : s.alloc.waiting = []) : PairsReleased s (l.foldl (fun s p => unwantPair p s) s) l := by
  induction l generalizing s with
  | nil => exact .none [] nofun
  | cons p l ih =>
    obtain ⟨fresh, nodup⟩ := List.nodup_cons.1 nodup
    have one := unwantPair_released agrees none p
    have next := (unwantPair_serves agrees p).agrees
    have rest := ih nodup next (one.frame.waiting.trans none)
    exact one.append rest agrees fun q hq => List.mem_singleton.1 hq ▸ fresh

/-! ### The wait list emptied (R115) -/

/-- The part with its wait list emptied. -/
def waitEmptied (s : State) : State := setWaiting [] (s.alloc.waiting.foldl (fun s p => setPair p .none s) s)

theorem stopPool_eq (s : State) : stopPool s = allPairs.foldl (fun s p => unwantPair p s) (waitEmptied s) := rfl

theorem setPairs_pairs (l : List PairId) (s : State) (q : PairId) :
    (l.foldl (fun s p => setPair p .none s) s).alloc.pairs[q] = if q ∈ l then .none else s.alloc.pairs[q] := by
  induction l generalizing s with
  | nil => rfl
  | cons p l ih =>
    have one : (setPair p .none s).alloc.pairs[q] = if q = p then .none else s.alloc.pairs[q] :=
      getElem_set_fin _ _ _ _
    rw [List.foldl_cons, ih, one]
    by_cases here : q = p <;> by_cases later : q ∈ l <;> simp [here, later]

theorem setPairs_eq (l : List PairId) (s : State) : l.foldl (fun s p => setPair p .none s) s =
    { s with alloc := { s.alloc with pairs := (l.foldl (fun s p => setPair p .none s) s).alloc.pairs } } := by
  induction l generalizing s with
  | nil => rfl
  | cons p l ih =>
    rw [List.foldl_cons, ih]
    rfl

theorem waitEmptied_eq (s : State) : waitEmptied s =
    { s with alloc := { s.alloc with waiting := [], pairs := (waitEmptied s).alloc.pairs } } := by
  unfold waitEmptied
  rw [setPairs_eq]
  rfl

theorem waitEmptied_pairs (s : State) (q : PairId) :
    (waitEmptied s).alloc.pairs[q] = if q ∈ s.alloc.waiting then .none else s.alloc.pairs[q] :=
  setPairs_pairs _ s q

theorem waitEmptied_agrees {s : State} {n : Nat} (h : Agrees s.alloc n) : Agrees (waitEmptied s).alloc n := by
  have slots : (waitEmptied s).alloc.slots = s.alloc.slots := by rw [waitEmptied_eq]
  have none : (waitEmptied s).alloc.waiting = [] := rfl
  refine ⟨fun sl p => ?_, fun p => ?_, ?_, fun sl => ?_⟩
  · rw [slots, waitEmptied_pairs, h.held]
    split
    · next mem =>
      rw [(h.waiting p).1 mem]
      simp
    · rfl
  · rw [none, waitEmptied_pairs]
    split
    · simp
    · next out => exact ⟨nofun, fun waits => absurd ((h.waiting p).2 waits) out⟩
  · rw [none]; exact .nil
  · rw [slots]; exact h.inPool sl

/-! ### STOP taken (R115, R171) -/

theorem stop_ready {s : State} {rest : List Msg} (ready : Ready s ⟨0x03, []⟩ rest) :
    exec .stop s = .next (done stopRunning ⟨0x03, []⟩ { s with cmd := afterTaking s rest }) :=
  calc exec .stop s = .next (takeIf (kindIs 0x03) runStop s) := upAtBoundary_at _ ready.boundary
    _ = _ := by rw [takeIf_ready _ _ ready rfl]; rfl

/-- The part with STOP's change of operating state and of the references made. -/
def stopSilenced (s : State) (rest : List Msg) : State :=
  silenceAll (setOp .config { s with cmd := afterTaking s rest })

theorem stopSilenced_eq (s : State) (rest : List Msg) : stopSilenced s rest = { s with
    cmd := { afterTaking s rest with op := .config }
    tracker := { s.tracker with refs := (stopSilenced s rest).tracker.refs } } :=
  silenceAll_eq (setOp .config { s with cmd := afterTaking s rest })

theorem stopRunning_running {s : State} (rest : List Msg) (op : s.cmd.op = .running) :
    stopRunning { s with cmd := afterTaking s rest } =
      allPairs.foldl (fun s p => unwantPair p s) (waitEmptied (stopSilenced s rest)) := by
  have same : ({ s with cmd := afterTaking s rest } : State).cmd.op = .running := op
  unfold stopRunning
  rw [same]
  rfl

theorem stop_config {s : State} {rest : List Msg} (ready : Ready s ⟨0x03, []⟩ rest) (config : s.cmd.op = .config) :
    exec .stop s = .next { s with cmd := answered s rest ⟨0x83, [0]⟩ } := by
  have effect : stopRunning { s with cmd := afterTaking s rest } = { s with cmd := afterTaking s rest } := by
    have same : ({ s with cmd := afterTaking s rest } : State).cmd.op = .config := config
    unfold stopRunning
    rw [same]
  exact (stop_ready ready).trans (congrArg _ (done_ready ready effect rfl rfl))

theorem PoolMoves.cmd {s t : State} (h : PoolMoves s t) (c : Command) :
    PoolMoves { s with cmd := c } { t with cmd := c } := by
  unfold PoolMoves at *
  rw [h]

theorem waitEmptied_run (s : State) : PoolRun s (waitEmptied s) :=
  (PoolRun.foldl _ (fun s p => (PoolMove.pair p _ s).run) _ s).trans (PoolMove.waiting [] _).run

theorem stopPool_run (s : State) : PoolRun s (stopPool s) :=
  (waitEmptied_run s).trans (.foldl _ (fun s p => unwantPair_run p s) _ _)

/-- The pool after STOP, by the releases of all pairs (R108, R115). -/
theorem stopPool_released {s : State} {n : Nat} (agrees : Agrees s.alloc n) :
    PairsReleased (waitEmptied s) (stopPool s) allPairs :=
  unwantPairs_released allPairs (List.nodup_finRange 128) (waitEmptied_agrees agrees) rfl

theorem stop_running {s : State} {rest : List Msg} (ready : Ready s ⟨0x03, []⟩ rest) (op : s.cmd.op = .running) :
    exec .stop s = .next { stopPool (stopSilenced s rest) with
      cmd := { answered s rest ⟨0x83, [0]⟩ with op := .config } } := by
  have effect := stopRunning_running rest op
  have cmd : (stopPool (stopSilenced s rest)).cmd = { afterTaking s rest with op := .config } := by
    rw [(stopPool_run _).moves, stopSilenced_eq]
  refine (stop_ready ready).trans (congrArg _ ?_)
  rw [done_ready ready effect (by rw [← stopPool_eq, cmd]) (by rw [← stopPool_eq, cmd]), ← stopPool_eq, cmd]
  rfl

/-- What STOP's start leaves of the blocks that a release reads. -/
structure StopStart (s w : State) : Prop where
  slots : w.alloc.slots = s.alloc.slots
  router : w.router = s.router
  ctl : w.ctl = s.ctl
  core : w.core = s.core
  store : w.store = s.store
  eligible : ∀ (sl : SlotId) (p : PairId), Eligible w sl p ↔ Eligible s sl p
  capture : ∀ (sl : SlotId) (p : PairId), captureOf w sl p = captureOf s sl p

theorem stopStart (s : State) (rest : List Msg) : StopStart s (waitEmptied (stopSilenced s rest)) := by
  rw [waitEmptied_eq, stopSilenced_eq]
  refine ⟨rfl, rfl, rfl, rfl, rfl, fun sl p => ?_, fun sl p => rfl⟩
  rw [← eligible_iff_eligible, ← eligible_iff_eligible]
  rfl

theorem owed_sorted (s : State) : (allPairs.filterMap (owedRelease s)).Pairwise (fun x y => x.2 < y.2) := by
  rw [List.pairwise_filterMap]
  refine (List.pairwise_lt_finRange 128).imp fun {p q} less x hx y hy => ?_
  rw [(owedRelease_some hx).1, (owedRelease_some hy).1]
  exact less

theorem mem_owed_iff {s : State} {n : Nat} (agrees : Agrees s.alloc n) (sl : SlotId) (p : PairId) :
    (sl, p) ∈ allPairs.filterMap (owedRelease s) ↔ s.alloc.slots[sl] = .running p ∧ Eligible s sl p := by
  refine ⟨fun mem => ?_, fun ⟨running, able⟩ => ?_⟩
  · obtain ⟨-, -, running, able⟩ := mem_owed mem
    exact ⟨running, able⟩
  · exact List.mem_filterMap.2 ⟨p, List.mem_finRange p, owedRelease_of agrees running able⟩

/-- Settles O52: in RUNNING the references go SILENT, the wait list empties, and the pairs are released in ascending
order, no freed slot finding a waiter. -/
theorem stopTaken : Obligations.StopTaken := by
  unfold Obligations.StopTaken
  refine fun s rest ready => ⟨fun op sound => ?_, stop_config ready⟩
  have agrees : Agrees (stopSilenced s rest).alloc (slotCount s) := by
    rw [stopSilenced_eq]
    exact (poolAgrees_iff s).1 sound.agrees
  have released := stopPool_released agrees
  have moves := (stopPool_run (stopSilenced s rest)).moves
  have none : (stopPool (stopSilenced s rest)).alloc.waiting = [] := released.frame.waiting
  have refs : (stopPool (stopSilenced s rest)).tracker.refs = (stopSilenced s rest).tracker.refs := by rw [moves]
  have silent : ∀ r : RefId, (stopSilenced s rest).tracker.refs[r] = silenced s.tracker.refs[r] := fun r =>
    silenceAll_refs r (setOp .config { s with cmd := afterTaking s rest })
  have start := stopStart s rest
  have agrees' := waitEmptied_agrees agrees
  have exec := stop_running ready op
  have shape := stopSilenced_eq s rest
  generalize stopPool (stopSilenced s rest) = t at *
  generalize waitEmptied (stopSilenced s rest) = w at *
  generalize stopSilenced s rest = v at *
  have mem : t.core.mem = s.core.mem := by rw [released.frame, start.core]
  have ctl : t.ctl.slots = s.ctl.slots := by rw [released.frame, start.ctl]
  have all : ∀ p : PairId, p ∈ allPairs := List.mem_finRange
  refine ⟨_, { v with cmd := { answered s rest ⟨0x83, [0]⟩ with op := .config } }, allPairs.filterMap (owedRelease w),
    exec, ?_, moves.cmd _, fun r => ?_, none, fun sl p running => ?_, fun sl p running => ?_, owed_sorted w,
    fun sl p => ?_, ?_, ?_, ?_, fun sl p running unable => ?_, fun sl p tag q draining => ?_, ctl, mem⟩
  · rw [shape]
    dsimp only
    rw [refs]
  · dsimp only
    rw [refs, silent]
    rfl
  · by_cases ran : ∃ q : PairId, w.alloc.slots[sl] = .running q
    · obtain ⟨q, ran⟩ := ran
      exact (released.stopped sl q (all q) ran).2 p running
    · have kept := (released.others sl fun q _ e => ran ⟨q, e⟩).1
      exact ran ⟨p, kept ▸ running⟩
  · rw [← start.slots] at running
    rw [← start.core]
    exact (released.stopped sl p (all p) running).1
  · rw [mem_owed_iff agrees', start.slots, start.eligible]
  · have captures := released.captures
    rw [start.store] at captures
    simp only [start.capture] at captures
    exact captures
  · have taken := released.taken
    rw [start.store] at taken
    exact taken
  · have drains := released.drains
    rw [start.store, start.router, start.ctl] at drains
    exact drains
  · rw [← start.slots] at running
    exact released.freed sl p (all p) running (mt (start.eligible sl p).1 unable)
  · have kept := (released.others sl fun p _ e => by
      rw [start.slots, draining] at e
      cases e).1
    rw [start.slots, draining] at kept
    exact kept

end Sys2Proof.Machine
end

