-- ==== Sys2Proof/Proofs/Clearing.lean ====
section
/-! PROOF. The store cleared of the sets of a reference, and a change of bulk delay: what stays of the RUNNING slots,
what is gone of the covered sets, and that the pairs served stay served (R29, R69, R109, R111, R133, R135). -/

namespace Sys2Proof.Machine

/-! ### Slots that an operation does not reach -/

/-- A slot that an operation of the pool does not reach. -/
structure Untouched (s t : State) (o : SlotId) : Prop where
  kept : SlotKept s t o
  state : t.alloc.slots[o] = s.alloc.slots[o]
  tail : tailLen t = tailLen s

theorem Untouched.refl (s : State) (o : SlotId) : Untouched s s o := ⟨.refl s o, rfl, rfl⟩

theorem Untouched.store (x : Store) (s : State) (o : SlotId) : Untouched s { s with store := x } o :=
  ⟨⟨fun _ _ _ => rfl, rfl, rfl⟩, rfl, rfl⟩

theorem Untouched.trans {s t u : State} {o : SlotId} (h : Untouched s t o) (k : Untouched t u o) : Untouched s u o :=
  ⟨h.kept.trans k.kept h.tail, k.state.trans h.state, k.tail.trans h.tail⟩

theorem lookup_untouched (sl o : SlotId) (p : SetId) (tag : Nat) (s : State) : Untouched s (lookup sl p tag s) o := by
  refine ⟨lookup_kept sl o p tag s, by rw [lookup_alloc], ?_⟩
  rw [lookup_moves]
  rfl

theorem coldSlot_alloc (sl : SlotId) (s : State) : (coldSlot sl s).alloc = s.alloc := by
  simp [coldSlot, setPhaseRun, raiseTicket, zeroSlot]

theorem coldSlot_untouched {sl o : SlotId} (other : o ≠ sl) (s : State) : Untouched s (coldSlot sl s) o :=
  ⟨coldSlot_kept other s, by rw [coldSlot_alloc], (coldSlot_taps sl s).tailLen⟩

theorem assignSlot_untouched {sl o : SlotId} (other : o ≠ sl) (p : PairId) (s : State) :
    Untouched s (assignSlot sl p s) o := by
  have assigned : Untouched s (setPair p (.held sl) (setSlotState sl (.running p) s)) o :=
    ⟨⟨fun _ _ _ => rfl, rfl, rfl⟩, (getElem_set_fin _ _ _ _).trans (if_neg other), rfl⟩
  have cold : ∀ u, Untouched u (coldSlot sl u) o := fun u => coldSlot_untouched other u
  have clear : ∀ u, Untouched u (clearClamped sl u) o := fun u =>
    ⟨⟨fun _ _ _ => rfl, (getElem_set_fin _ _ _ _).trans (if_neg other), rfl⟩, rfl, rfl⟩
  have unmark : ∀ u, Untouched u (unmarkReset sl u) o := fun u => ⟨⟨fun _ _ _ => rfl, rfl, rfl⟩, rfl, rfl⟩
  exact (((assigned.trans (cold _)).trans (clear _)).trans (unmark _)).trans (lookup_untouched sl o p _ _)

theorem giveToWaiter_untouched {sl o : SlotId} (other : o ≠ sl) (s : State) : Untouched s (giveToWaiter sl s) o := by
  unfold giveToWaiter
  split
  · exact .refl s o
  · next p rest _ =>
    have left : Untouched s (setWaiting rest s) o := ⟨⟨fun _ _ _ => rfl, rfl, rfl⟩, rfl, rfl⟩
    exact left.trans (assignSlot_untouched other p _)

theorem freeSlot_untouched {sl o : SlotId} (other : o ≠ sl) (p : PairId) (s : State) :
    Untouched s (freeSlot sl p s) o := by
  have freed : Untouched s (setSlotState sl .free (setPair p .none s)) o :=
    ⟨⟨fun _ _ _ => rfl, rfl, rfl⟩, (getElem_set_fin _ _ _ _).trans (if_neg other), rfl⟩
  exact freed.trans (giveToWaiter_untouched other _)

theorem lowestDraining_some {s : State} {sl : SlotId} {p : PairId} {tag q : Nat}
    (h : lowestDraining s = some (sl, p, tag, q)) : s.alloc.slots[sl] = .draining p tag q := by
  obtain ⟨o, _, e⟩ := List.exists_of_findSome?_eq_some h
  split at e
  · next draining => cases e; exact draining
  · cases e
  · cases e

theorem roomReport_untouched {o : SlotId} {p : PairId} {s : State} (running : s.alloc.slots[o] = .running p) :
    Untouched s (roomReport s) o := by
  unfold roomReport
  split
  · next sl q tag x found =>
    have draining := lowestDraining_some found
    have other : o ≠ sl := fun same => by rw [same, draining] at running; cases running
    split
    · have captured : Untouched s (pushCapture sl q tag x s) o := ⟨⟨fun _ _ _ => rfl, rfl, rfl⟩, rfl, rfl⟩
      exact captured.trans (freeSlot_untouched other _ _)
    · exact .refl s o
  · exact .refl s o

/-- A fold of steps that do not reach a RUNNING slot does not reach it. -/
theorem untouched_foldl {α : Type} {f : State → α → State} {o : SlotId} {p : PairId}
    (h : ∀ s x, s.alloc.slots[o] = .running p → Untouched s (f s x) o) (l : List α) {s : State}
    (running : s.alloc.slots[o] = .running p) : Untouched s (l.foldl f s) o := by
  induction l generalizing s with
  | nil => exact .refl s o
  | cons x l ih =>
    have one := h s x running
    exact one.trans (ih (one.state.trans running))

theorem roomReports_untouched {o : SlotId} {p : PairId} (n : Nat) {s : State} (running : s.alloc.slots[o] = .running p) :
    Untouched s (roomReports n s) o :=
  untouched_foldl (fun _ _ running => roomReport_untouched running) _ running

/-- One slot's turn as the DRAINING slots of the covered sets are freed (R111). -/
def freeCovered (which : SetId → Bool) (s : State) (sl : SlotId) : State :=
  match s.alloc.slots[sl] with
  | .draining p _ _ => if which p then freeSlot sl p s else s
  | .free => s
  | .running _ => s

theorem freeDraining_eq (which : SetId → Bool) (s : State) : freeDraining which s = allSlots.foldl (freeCovered which) s :=
  rfl

/-- What the turn of a slot does: it frees a DRAINING slot of a covered set, and nothing otherwise. -/
theorem freeCovered_cases (which : SetId → Bool) (sl : SlotId) (s : State) :
    (∃ p tag q, s.alloc.slots[sl] = .draining p tag q ∧ which p = true ∧ freeCovered which s sl = freeSlot sl p s) ∨
      ((∀ p tag q, s.alloc.slots[sl] = .draining p tag q → which p = false) ∧ freeCovered which s sl = s) := by
  unfold freeCovered
  split
  · next p tag q draining =>
    cases covered : which p with
    | true => exact .inl ⟨p, tag, q, draining, covered, rfl⟩
    | false =>
      refine .inr ⟨fun p' tag' q' e => ?_, rfl⟩
      rw [draining] at e
      cases e
      exact covered
  · next free => exact .inr ⟨fun p tag q e => (by rw [free] at e; cases e), rfl⟩
  · next running => exact .inr ⟨fun p tag q e => (by rw [running] at e; cases e), rfl⟩

theorem freeDraining_untouched {o : SlotId} {p : PairId} (which : SetId → Bool) {s : State}
    (running : s.alloc.slots[o] = .running p) : Untouched s (freeDraining which s) o := by
  refine untouched_foldl (fun s sl running => ?_) allSlots running
  rcases freeCovered_cases which sl s with ⟨q, tag, x, draining, -, e⟩ | ⟨-, e⟩
  · have other : o ≠ sl := fun same => by rw [same, draining] at running; cases running
    show Untouched s (freeCovered which s sl) o
    rw [e]
    exact freeSlot_untouched other q s
  · show Untouched s (freeCovered which s sl) o
    rw [e]
    exact .refl s o

/-! ### A store clear of the covered sets (R133, R135) -/

/-- The store and the slots hold nothing of the sets that `which` picks. -/
structure ClearOf (which : SetId → Bool) (s : State) : Prop where
  entries : ∀ (p : SetId) (w : WayId), which p = true → (entryOf s p w).valid = false
  fills : ∀ x ∈ s.store.fills, which x.set = false
  captures : ∀ x ∈ s.store.captures, which x.set = false
  draining : ∀ (sl : SlotId) (p : PairId) (tag q : Nat), s.alloc.slots[sl] = .draining p tag q → which p = false

theorem lookupHit_invalid {s : State} {p : SetId} (invalid : ∀ w : WayId, (entryOf s p w).valid = false) (tag : Nat) :
    lookupHit s p tag = false := by
  have none : findWay s.store.sets[p] tag = none := by
    unfold findWay
    rw [List.find?_eq_none]
    intro w _
    show ¬ (((entryOf s p w).valid && _) = true)
    rw [invalid w, Bool.false_and]
    exact Bool.false_ne_true
  unfold lookupHit
  rw [none]
  simp

section

variable {which : SetId → Bool} {s : State}

theorem ClearOf.lookup (h : ClearOf which s) (sl : SlotId) (p : SetId) (tag : Nat) :
    ClearOf which (lookup sl p tag s) := by
  unfold Machine.lookup
  split
  · next hit =>
    refine { h with fills := fun x mem => ?_ }
    rcases List.mem_append.1 mem with old | new
    · exact h.fills x (List.mem_of_mem_filter old)
    · rw [List.mem_singleton.1 new]
      refine Bool.eq_false_iff.2 fun covered => ?_
      rw [lookupHit_invalid (fun w => h.entries p w covered)] at hit
      cases hit
  · exact h

/-- A slot that goes to a waiting pair, or that is left FREE, drains no more. -/
theorem ClearOf.reslot (h : ClearOf which s) {t : State} (sets : t.store.sets = s.store.sets)
    (fills : ∀ x ∈ t.store.fills, x ∈ s.store.fills) (captures : t.store.captures = s.store.captures)
    (slots : ∀ (o : SlotId) (p : PairId) (tag q : Nat), t.alloc.slots[o] = .draining p tag q →
      s.alloc.slots[o] = .draining p tag q) : ClearOf which t where
  entries p w := by
    have same : entryOf t p w = entryOf s p w := by unfold entryOf; rw [sets]
    rw [same]
    exact h.entries p w
  fills x mem := h.fills x (fills x mem)
  captures x mem := h.captures x (captures ▸ mem)
  draining o p tag q e := h.draining o p tag q (slots o p tag q e)

/-- A slot's new state that does not drain. -/
theorem slots_set_draining {v : Vector SlotState 128} {sl : SlotId} {st : SlotState}
    (quiet : ∀ p tag q, st ≠ .draining p tag q) (o : SlotId) (p : PairId) (tag q : Nat)
    (h : (v.set sl st)[o] = .draining p tag q) : v[o] = .draining p tag q := by
  rw [getElem_set_fin] at h
  split at h
  · exact absurd h (quiet p tag q)
  · exact h

theorem ClearOf.assignSlot (h : ClearOf which s) (sl : SlotId) (p : PairId) : ClearOf which (assignSlot sl p s) := by
  have assigned : ClearOf which (setPair p (.held sl) (setSlotState sl (.running p) s)) :=
    h.reslot rfl (fun _ => id) rfl fun o => slots_set_draining (by simp) o
  have cold : ∀ u, ClearOf which u → ClearOf which (coldSlot sl u) := fun u k =>
    k.reslot (by simp [coldSlot, setPhaseRun, raiseTicket, zeroSlot])
      (fun x mem => List.mem_of_mem_filter (coldSlot_fills sl u ▸ mem))
      (by simp [coldSlot, setPhaseRun, raiseTicket, zeroSlot]) fun o p tag q e => coldSlot_alloc sl u ▸ e
  have clear : ∀ u, ClearOf which u → ClearOf which (unmarkReset sl (clearClamped sl u)) := fun _ k => { k with }
  exact (clear _ (cold _ assigned)).lookup _ _ _

theorem ClearOf.giveToWaiter (h : ClearOf which s) (sl : SlotId) : ClearOf which (giveToWaiter sl s) := by
  unfold Machine.giveToWaiter
  split
  · exact h
  · next p rest _ =>
    have left : ClearOf which (setWaiting rest s) := { h with }
    exact left.assignSlot sl p

theorem ClearOf.freeSlot (h : ClearOf which s) (sl : SlotId) (p : PairId) : ClearOf which (freeSlot sl p s) := by
  have freed : ClearOf which (setSlotState sl .free (setPair p .none s)) :=
    h.reslot rfl (fun _ => id) rfl fun o => slots_set_draining (by simp) o
  exact freed.giveToWaiter sl

theorem ClearOf.roomReport (h : ClearOf which s) : ClearOf which (roomReport s) := by
  unfold Machine.roomReport
  split
  · next sl p tag q found =>
    split
    · have captured : ClearOf which (pushCapture sl p tag q s) :=
        { h with
          captures := fun x mem => by
            rcases List.mem_append.1 mem with old | new
            · exact h.captures x old
            · rw [List.mem_singleton.1 new]
              exact h.draining sl p tag q (lowestDraining_some found) }
      exact captured.freeSlot sl p
    · exact h
  · exact h

theorem ClearOf.roomReports (h : ClearOf which s) (n : Nat) : ClearOf which (roomReports n s) := by
  unfold Machine.roomReports
  generalize List.range n = l
  induction l generalizing s with
  | nil => exact h
  | cons _ l ih => exact ih h.roomReport

end

/-! ### The DRAINING slots of the covered sets freed (R111) -/

theorem giveToWaiter_draining (sl : SlotId) (s : State) (o : SlotId) (p : PairId) (tag q : Nat)
    (h : (giveToWaiter sl s).alloc.slots[o] = .draining p tag q) : s.alloc.slots[o] = .draining p tag q := by
  unfold giveToWaiter at h
  split at h
  · exact h
  · rw [assignSlot_alloc] at h
    exact slots_set_draining (by simp) o p tag q h

/-- A slot that drains once another has been freed drained before, and is not the slot freed. -/
theorem freeSlot_draining (sl : SlotId) (r : PairId) (s : State) {o : SlotId} {p : PairId} {tag q : Nat}
    (h : (freeSlot sl r s).alloc.slots[o] = .draining p tag q) : o ≠ sl ∧ s.alloc.slots[o] = .draining p tag q := by
  have before := giveToWaiter_draining sl _ o p tag q h
  have other : o ≠ sl := fun same => by
    have free : (setSlotState sl .free (setPair r .none s)).alloc.slots[o] = .free := by
      rw [same]
      exact (getElem_set_fin _ _ _ _).trans (if_pos rfl)
    rw [free] at before
    cases before
  exact ⟨other, slots_set_draining (by simp) o p tag q before⟩

theorem freeCovered_draining (which : SetId → Bool) (sl : SlotId) (s : State) {o : SlotId} {p : PairId} {tag q : Nat}
    (h : (freeCovered which s sl).alloc.slots[o] = .draining p tag q) :
    s.alloc.slots[o] = .draining p tag q ∧ (o = sl → which p = false) := by
  rcases freeCovered_cases which sl s with ⟨r, tag', q', draining, _, e⟩ | ⟨kept, e⟩
  · rw [e] at h
    obtain ⟨other, before⟩ := freeSlot_draining sl r s h
    exact ⟨before, fun same => absurd same other⟩
  · rw [e] at h
    exact ⟨h, fun same => kept p tag q (same ▸ h)⟩

theorem freeSweep_draining (which : SetId → Bool) (l : List SlotId) (s : State) {o : SlotId} {p : PairId} {tag q : Nat}
    (h : (l.foldl (freeCovered which) s).alloc.slots[o] = .draining p tag q) :
    s.alloc.slots[o] = .draining p tag q ∧ (o ∈ l → which p = false) := by
  induction l generalizing s with
  | nil => exact ⟨h, nofun⟩
  | cons sl l ih =>
    obtain ⟨later, rest⟩ := ih _ h
    obtain ⟨before, own⟩ := freeCovered_draining which sl s later
    refine ⟨before, fun mem => ?_⟩
    rcases List.mem_cons.1 mem with here | there
    · exact own here
    · exact rest there

theorem freeDraining_draining (which : SetId → Bool) (s : State) {o : SlotId} {p : PairId} {tag q : Nat}
    (h : (freeDraining which s).alloc.slots[o] = .draining p tag q) : which p = false := by
  rw [freeDraining_eq] at h
  exact (freeSweep_draining which allSlots s h).2 (List.mem_finRange o)

/-! ### The sets invalidated (R135) -/

theorem clearSets_eq (which : SetId → Bool) (s : State) : ∃ x, clearSets which s = setSets x s ∧
    ∀ p : SetId, x[p] = if which p then { setInvalid s.store.sets[p] with lru := 0 } else s.store.sets[p] :=
  ⟨_, rfl, fun p => getElem_ofFn_fin _ p⟩

/-- The store once the covered entries, requests and captures are gone, before the room is reported. -/
def coveredGone (which : SetId → Bool) (s : State) : State :=
  setFills (s.store.fills.filter fun r => !which r.set)
    (setCaptures (s.store.captures.filter fun c => !which c.set) (clearSets which s))

/-- How many captures of the covered sets there are. -/
def capturesGone (which : SetId → Bool) (s : State) : Nat := (s.store.captures.filter fun c => which c.set).length

theorem invalidateSets_eq (which : SetId → Bool) (s : State) : invalidateSets which s = abandonTransfer which
    (roomReports (capturesGone which (freeDraining which s)) (coveredGone which (freeDraining which s))) := by
  unfold invalidateSets coveredGone capturesGone
  generalize freeDraining which s = u
  obtain ⟨x, e, -⟩ := clearSets_eq which u
  rw [e]
  rfl

/-- What goes with the covered sets, and what stays. -/
theorem coveredGone_eq (which : SetId → Bool) (s : State) : coveredGone which s = { s with store := { s.store with
    sets := (coveredGone which s).store.sets
    fills := s.store.fills.filter fun r => !which r.set
    captures := s.store.captures.filter fun c => !which c.set } } := by
  unfold coveredGone
  obtain ⟨x, e, -⟩ := clearSets_eq which s
  rw [e]
  rfl

theorem coveredGone_sets (which : SetId → Bool) (s : State) (p : SetId) : (coveredGone which s).store.sets[p] =
    if which p then { setInvalid s.store.sets[p] with lru := 0 } else s.store.sets[p] := by
  unfold coveredGone
  obtain ⟨x, e, get⟩ := clearSets_eq which s
  rw [e]
  exact get p

theorem coveredGone_clear {which : SetId → Bool} {s : State} (drained : ∀ (sl : SlotId) (p : PairId) (tag q : Nat),
    s.alloc.slots[sl] = .draining p tag q → which p = false) : ClearOf which (coveredGone which s) where
  entries p w covered := by
    show (coveredGone which s).store.sets[p].ways[w].valid = false
    rw [coveredGone_sets, if_pos covered]
    simp [setInvalid]
  fills x mem := by
    rw [coveredGone_eq] at mem
    simpa using (List.mem_filter.1 mem).2
  captures x mem := by
    rw [coveredGone_eq] at mem
    simpa using (List.mem_filter.1 mem).2
  draining := by
    rw [coveredGone_eq]
    exact drained

theorem abandonTransfer_eq (which : SetId → Bool) (s : State) : abandonTransfer which s =
    { s with store := { s.store with port := (abandonTransfer which s).store.port } } := by
  unfold abandonTransfer
  split
  · split
    · rfl
    · rfl
  · rfl

theorem abandonTransfer_port {which : SetId → Bool} {s : State} {x : Transfer}
    (h : (abandonTransfer which s).store.port = some x) (covered : which x.set = true) : x.abandoned = true := by
  unfold abandonTransfer at h
  split at h
  · next t port =>
    split at h
    · cases h; rfl
    · next other =>
      rw [port] at h
      cases h
      exact absurd covered other
  · next none => rw [none] at h; cases h

theorem invalidateSets_clear (which : SetId → Bool) (s : State) : ClearOf which (invalidateSets which s) := by
  have drained := coveredGone_clear (which := which) (s := freeDraining which s) fun _ _ _ _ h =>
    freeDraining_draining which s h
  have clear := drained.roomReports (capturesGone which (freeDraining which s))
  rw [invalidateSets_eq]
  generalize roomReports _ (coveredGone which (freeDraining which s)) = u at clear
  rw [abandonTransfer_eq]
  exact { clear with }

theorem invalidateSets_sets (which : SetId → Bool) (s : State) (p : SetId) : (invalidateSets which s).store.sets[p] =
    if which p then { setInvalid s.store.sets[p] with lru := 0 } else s.store.sets[p] := by
  have kept : (freeDraining which s).store.sets = s.store.sets := by rw [(freeDraining_run which s).moves]
  have gone := coveredGone_sets which (freeDraining which s) p
  rw [kept] at gone
  rw [invalidateSets_eq, abandonTransfer_eq]
  dsimp only
  rw [(roomReports_run _ _).moves]
  exact gone


theorem coveredGone_untouched (which : SetId → Bool) (s : State) (o : SlotId) : Untouched s (coveredGone which s) o := by
  rw [coveredGone_eq]
  exact .store _ s o

theorem invalidateSets_untouched {which : SetId → Bool} {s : State} {o : SlotId} {p : PairId}
    (running : s.alloc.slots[o] = .running p) : Untouched s (invalidateSets which s) o := by
  have here := (freeDraining_untouched which running).trans (coveredGone_untouched which (freeDraining which s) o)
  have reported := here.trans
    (roomReports_untouched (capturesGone which (freeDraining which s)) (here.state.trans running))
  rw [invalidateSets_eq]
  generalize roomReports _ (coveredGone which (freeDraining which s)) = u at reported
  rw [abandonTransfer_eq]
  exact reported.trans (.store _ u o)

/-! ### The pairs served -/

/-- A DRAINING slot that is freed leaves the pairs served as they were (R105, R109, R111). -/
theorem freeSlot_draining_serves {s : State} {n : Nat} {sl : SlotId} {p : PairId} {tag q : Nat}
    (h : Agrees s.alloc n) (draining : s.alloc.slots[sl] = .draining p tag q) :
    Serves (freeSlot sl p s) n (ServedBy s.alloc) := by
  have held : holds s.alloc.slots[sl] p := by rw [draining]; simp
  refine (freeSlot_serves h held).congr fun o => and_iff_right_of_imp fun served same => ?_
  subst same
  rcases served with waits | ⟨i, running⟩
  · have entry := (h.held sl o).1 held
    rw [(h.waiting o).1 waits] at entry
    cases entry
  · have slot : i = sl := h.one_slot held (by rw [running]; simp)
    rw [slot, draining] at running
    cases running

theorem freeCovered_serves (which : SetId → Bool) (sl : SlotId) {s : State} {n : Nat} (h : Agrees s.alloc n) :
    Serves (freeCovered which s sl) n (ServedBy s.alloc) := by
  rcases freeCovered_cases which sl s with ⟨p, tag, q, draining, _, e⟩ | ⟨_, e⟩
  · rw [e]; exact freeSlot_draining_serves h draining
  · rw [e]; exact ⟨h, fun _ => .rfl⟩

theorem roomReport_serves {s : State} {n : Nat} (h : Agrees s.alloc n) : Serves (roomReport s) n (ServedBy s.alloc) := by
  unfold roomReport
  split
  · next sl p tag q found =>
    split
    · exact freeSlot_draining_serves (s := pushCapture sl p tag q s) h (lowestDraining_some found)
    · exact ⟨h, fun _ => .rfl⟩
  · exact ⟨h, fun _ => .rfl⟩

theorem serves_foldl {α : Type} {f : State → α → State} {n : Nat}
    (step : ∀ (s : State) (x : α), Agrees s.alloc n → Serves (f s x) n (ServedBy s.alloc)) (l : List α) {s : State}
    (h : Agrees s.alloc n) : Serves (l.foldl f s) n (ServedBy s.alloc) := by
  induction l generalizing s with
  | nil => exact ⟨h, fun _ => .rfl⟩
  | cons x l ih =>
    have one := step s x h
    exact (ih one.agrees).congr one.served

theorem freeDraining_serves (which : SetId → Bool) {s : State} {n : Nat} (h : Agrees s.alloc n) :
    Serves (freeDraining which s) n (ServedBy s.alloc) := by
  rw [freeDraining_eq]
  exact serves_foldl (fun _ sl h => freeCovered_serves which sl h) allSlots h

theorem roomReports_serves (k : Nat) {s : State} {n : Nat} (h : Agrees s.alloc n) :
    Serves (roomReports k s) n (ServedBy s.alloc) :=
  serves_foldl (fun _ _ h => roomReport_serves h) _ h

theorem invalidateSets_serves (which : SetId → Bool) {s : State} {n : Nat} (h : Agrees s.alloc n) :
    Serves (invalidateSets which s) n (ServedBy s.alloc) := by
  have freed := freeDraining_serves which h
  have same : (coveredGone which (freeDraining which s)).alloc = (freeDraining which s).alloc := by rw [coveredGone_eq]
  have told := roomReports_serves (capturesGone which (freeDraining which s)) (s := coveredGone which (freeDraining which s))
    (by rw [same]; exact freed.agrees)
  rw [same] at told
  rw [invalidateSets_eq]
  generalize roomReports _ (coveredGone which (freeDraining which s)) = u at told
  rw [abandonTransfer_eq]
  exact ⟨told.agrees, fun q => (told.served q).trans (freed.served q)⟩

/-! ### A reference reset (R69) -/

/-- One slot's turn in the reset of a reference. -/
def resetTurn (r : RefId) (s : State) (sl : SlotId) : State :=
  match s.alloc.slots[sl] with
  | .running p => if pairRef p = r then coldSlot sl s else s
  | .free => s
  | .draining _ _ _ => s

theorem resetTurn_cases (r : RefId) (sl : SlotId) (s : State) :
    (∃ p, s.alloc.slots[sl] = .running p ∧ pairRef p = r ∧ resetTurn r s sl = coldSlot sl s) ∨
      ((∀ p, s.alloc.slots[sl] = .running p → pairRef p ≠ r) ∧ resetTurn r s sl = s) := by
  unfold resetTurn
  split
  · next p running =>
    by_cases own : pairRef p = r
    · exact .inl ⟨p, running, own, if_pos own⟩
    · refine .inr ⟨fun q e => ?_, if_neg own⟩
      rw [running] at e
      exact SlotState.running.inj e ▸ own
  · next free => exact .inr ⟨fun p e => (by rw [free] at e; cases e), rfl⟩
  · next draining => exact .inr ⟨fun p e => (by rw [draining] at e; cases e), rfl⟩

theorem resetTurn_alloc (r : RefId) (sl : SlotId) (s : State) : (resetTurn r s sl).alloc = s.alloc := by
  rcases resetTurn_cases r sl s with ⟨p, -, -, e⟩ | ⟨-, e⟩
  · rw [e, coldSlot_alloc]
  · rw [e]

theorem resetTurn_moves (r : RefId) (sl : SlotId) (s : State) : PoolMoves s (resetTurn r s sl) := by
  rcases resetTurn_cases r sl s with ⟨p, -, -, e⟩ | ⟨-, e⟩
  · rw [e]; exact coldSlot_moves sl s
  · rw [e]; exact .refl s

theorem resetReference_moves (r : RefId) (s : State) : PoolMoves s (resetReference r s) :=
  .foldl _ (fun s sl => resetTurn_moves r sl s) _ s

theorem resetTurn_untouched {r : RefId} {sl o : SlotId} (other : o ≠ sl) (s : State) : Untouched s (resetTurn r s sl) o := by
  rcases resetTurn_cases r sl s with ⟨p, -, -, e⟩ | ⟨-, e⟩
  · rw [e]; exact coldSlot_untouched other s
  · rw [e]; exact .refl s o

theorem resetSweep_alloc (r : RefId) (l : List SlotId) (s : State) : (l.foldl (resetTurn r) s).alloc = s.alloc := by
  induction l generalizing s with
  | nil => rfl
  | cons sl l ih => rw [List.foldl_cons, ih, resetTurn_alloc]

theorem resetReference_alloc (r : RefId) (s : State) : (resetReference r s).alloc = s.alloc := resetSweep_alloc r _ s

theorem resetSweep_untouched {r : RefId} (l : List SlotId) (s : State) {o : SlotId}
    (spared : o ∉ l ∨ ∀ p, s.alloc.slots[o] = .running p → pairRef p ≠ r) : Untouched s (l.foldl (resetTurn r) s) o := by
  induction l generalizing s with
  | nil => exact .refl s o
  | cons sl l ih =>
    have one : Untouched s (resetTurn r s sl) o := by
      by_cases same : o = sl
      · subst same
        rcases resetTurn_cases r o s with ⟨p, running, own, -⟩ | ⟨-, e⟩
        · exact absurd own ((spared.resolve_left fun out => out List.mem_cons_self) p running)
        · rw [e]; exact .refl s o
      · exact resetTurn_untouched same s
    refine one.trans (ih _ (spared.imp (fun out mem => out (List.mem_cons_of_mem _ mem)) fun others => ?_))
    rw [resetTurn_alloc]
    exact others

theorem resetSweep_made {r : RefId} {p : PairId} (l : List SlotId) (nodup : l.Nodup) (s : State) {o : SlotId}
    (mem : o ∈ l) (running : s.alloc.slots[o] = .running p) (own : pairRef p = r) :
    MadeCold s (l.foldl (resetTurn r) s) o := by
  induction l generalizing s with
  | nil => cases mem
  | cons sl l ih =>
    obtain ⟨fresh, nodup⟩ := List.nodup_cons.1 nodup
    rcases List.mem_cons.1 mem with same | later
    · subst same
      have turn : resetTurn r s o = coldSlot o s := by
        rcases resetTurn_cases r o s with ⟨_, _, _, e⟩ | ⟨none, _⟩
        · exact e
        · exact absurd own (none p running)
      rw [List.foldl_cons, turn]
      have rest := resetSweep_untouched (r := r) l (coldSlot o s) (o := o) (.inl fresh)
      exact (coldSlot_made o s).kept rest.kept (coldSlot_taps o s).tailLen
    · have other : o ≠ sl := fun same => fresh (same ▸ later)
      have one := resetTurn_untouched (r := r) other s
      have rest := ih nodup (resetTurn r s sl) later (by rw [resetTurn_alloc]; exact running)
      rw [List.foldl_cons]
      refine ⟨fun j k hk => rest.taps j k (one.tail ▸ hk) |> fun e => ?_, ?_, rest.origin, rest.record⟩
      · rw [one.tail] at e; exact e
      · rw [rest.ticket, one.kept.numeric]

end Sys2Proof.Machine
end

