-- ==== Sys2Proof/Proofs/DelayWrites.lean ====
section
/-! PROOF. What a TABLE WRITE brings the other blocks, but for the wants of a single pair (R26, R29, R31, R38, R101,
R124, R133, R135, R176). -/

namespace Sys2Proof.Machine

/-! ### A change of bulk delay (R29, R69) -/

theorem setsOfRef_iff (r : RefId) (p : SetId) : setsOfRef r p = true ↔ pairRef p = r := by simp [setsOfRef]

theorem setsOfRef_false (r : RefId) (p : SetId) : setsOfRef r p = false ↔ pairRef p ≠ r := by simp [setsOfRef]

theorem delayChange_eq (r : RefId) (s : State) : delayChange r s = invalidateSets (setsOfRef r) (resetReference r s) := rfl

theorem delayChange_sets (r : RefId) (s : State) (p : SetId) : (delayChange r s).store.sets[p] =
    if pairRef p = r then { setInvalid s.store.sets[p] with lru := 0 } else s.store.sets[p] := by
  have kept : (resetReference r s).store.sets = s.store.sets := by rw [resetReference_moves]
  rw [delayChange_eq, invalidateSets_sets, kept]
  exact if_congr (setsOfRef_iff r p) rfl rfl

theorem delayChange_port {r : RefId} {s : State} {x : Transfer} (h : (delayChange r s).store.port = some x)
    (own : pairRef x.set = r) : x.abandoned = true := by
  rw [delayChange_eq, invalidateSets_eq] at h
  exact abandonTransfer_port h ((setsOfRef_iff r x.set).2 own)

/-- The reset of the reference as a RUNNING slot meets it. -/
theorem resetReference_running {r : RefId} {s : State} {sl : SlotId} {p : PairId}
    (running : s.alloc.slots[sl] = .running p) : (resetReference r s).alloc.slots[sl] = .running p := by
  rw [resetReference_alloc]
  exact running

theorem delayChange_state {r : RefId} {s : State} {sl : SlotId} {p : PairId}
    (running : s.alloc.slots[sl] = .running p) : (delayChange r s).alloc.slots[sl] = .running p := by
  have left := resetReference_running (r := r) running
  rw [delayChange_eq, (invalidateSets_untouched left).state]
  exact left

theorem PoolFrame.tailLen {s t : State} (h : PoolFrame s t) : tailLen t = tailLen s := by
  unfold Machine.tailLen
  rw [h.core]

theorem PoolFrame.slotCount {s t : State} (h : PoolFrame s t) : slotCount t = slotCount s := by
  unfold Machine.slotCount
  rw [h.tailLen]

theorem delayChange_made {r : RefId} {s : State} {sl : SlotId} {p : PairId}
    (running : s.alloc.slots[sl] = .running p) (own : pairRef p = r) : MadeCold s (delayChange r s) sl := by
  have made : MadeCold s (resetReference r s) sl :=
    resetSweep_made allSlots (List.nodup_finRange 128) s (List.mem_finRange sl) running own
  have kept := (invalidateSets_untouched (which := setsOfRef r) (resetReference_running (r := r) running)).kept
  exact made.kept kept (resetReference_frame r s).tailLen

theorem delayChange_kept {r : RefId} {s : State} {sl : SlotId} {p : PairId}
    (running : s.alloc.slots[sl] = .running p) (other : pairRef p ≠ r) : SlotKept s (delayChange r s) sl := by
  have spared : Untouched s (resetReference r s) sl := resetSweep_untouched allSlots s (.inr fun q e => by
    rw [running] at e
    exact SlotState.running.inj e ▸ other)
  have kept := (invalidateSets_untouched (which := setsOfRef r) (resetReference_running (r := r) running)).kept
  exact spared.kept.trans kept spared.tail

theorem delayChange_serves (r : RefId) {s : State} {n : Nat} (h : Agrees s.alloc n) :
    Serves (delayChange r s) n (ServedBy s.alloc) := by
  have served := invalidateSets_serves (setsOfRef r) (s := resetReference r s)
    (by rw [resetReference_alloc]; exact h)
  rw [resetReference_alloc] at served
  exact served

/-- What a delay change clears, and what it leaves (R29, R69, R133, R135). -/
theorem delayChange_clears (r : RefId) (s : State) :
    let t := delayChange r s
    (∀ p : SetId, pairRef p ≠ r → t.store.sets[p] = s.store.sets[p]) ∧
    (∀ (p : SetId) (w : WayId), pairRef p = r →
      (entryOf t p w).valid = false ∧ t.store.sets[p].lru = 0) ∧
    (∀ x ∈ t.store.fills, pairRef x.set ≠ r) ∧ (∀ x ∈ t.store.captures, pairRef x.set ≠ r) ∧
    (∀ x, t.store.port = some x → pairRef x.set = r → x.abandoned = true) ∧
    (∀ (sl : SlotId) p tag q, t.alloc.slots[sl] = .draining p tag q → pairRef p ≠ r) ∧
    (∀ (sl : SlotId) (p : PairId), s.alloc.slots[sl] = .running p → pairRef p = r →
      t.alloc.slots[sl] = .running p ∧ MadeCold s t sl) ∧
    ∀ (sl : SlotId) (p : PairId), s.alloc.slots[sl] = .running p → pairRef p ≠ r →
      t.alloc.slots[sl] = .running p ∧ SlotKept s t sl := by
  have clear : ClearOf (setsOfRef r) (delayChange r s) := invalidateSets_clear (setsOfRef r) (resetReference r s)
  refine ⟨fun p other => ?_, fun p w own => ⟨clear.entries p w ((setsOfRef_iff r p).2 own), ?_⟩,
    fun x mem => (setsOfRef_false r _).1 (clear.fills x mem), fun x mem => (setsOfRef_false r _).1 (clear.captures x mem),
    fun x => delayChange_port, fun sl p tag q e => (setsOfRef_false r _).1 (clear.draining sl p tag q e),
    fun sl p running own => ⟨delayChange_state running, delayChange_made running own⟩,
    fun sl p running other => ⟨delayChange_state running, delayChange_kept running other⟩⟩
  · rw [delayChange_sets, if_neg other]
  · rw [delayChange_sets, if_pos own]

/-! ### The event of a REFERENCE write (R26, R176) -/

/-- A reference's turn in the delay changes of a REFERENCE write. -/
def delayTurn (before s x : State) (r : RefId) : State :=
  if before.tracker.refs[r].delay = s.tracker.refs[r].delay then x else delayChange r x

/-- A reference's turn as the OFF references go SILENT. -/
def offTurn (s x : State) (r : RefId) : State :=
  match s.tracker.refs[r].mode with
  | .off => silenceRef r x
  | .on => x
  | .onShort => x

theorem referenceEvent_eq (before s : State) : referenceEvent before s =
    allocEvent (wantedPairs before) (allRefs.foldl (offTurn s) (allRefs.foldl (delayTurn before s) s)) := rfl

theorem delayTurns_frame (before s : State) (l : List RefId) (x : State) : PoolFrame x (l.foldl (delayTurn before s) x) := by
  induction l generalizing x with
  | nil => exact .refl x
  | cons r l ih =>
    refine PoolFrame.trans ?_ (ih _)
    unfold delayTurn
    split
    · exact .refl x
    · exact delayChange_frame r x

theorem delayTurns_serve (before s : State) (l : List RefId) {x : State} {n : Nat} (h : Agrees x.alloc n) :
    Serves (l.foldl (delayTurn before s) x) n (ServedBy x.alloc) := by
  refine serves_foldl (fun x r h => ?_) l h
  unfold delayTurn
  split
  · exact ⟨h, fun _ => .rfl⟩
  · exact delayChange_serves r h

/-- What making the OFF references of a list SILENT moves. -/
structure Silences (s x y : State) (l : List RefId) : Prop where
  frame : y = { x with tracker := { x.tracker with refs := y.tracker.refs } }
  refs : ∀ q : RefId, y.tracker.refs[q] =
    if q ∈ l ∧ s.tracker.refs[q].mode = .off then silenced x.tracker.refs[q] else x.tracker.refs[q]

theorem offTurn_silences (s x : State) (r : RefId) : Silences s x (offTurn s x r) [r] := by
  have loud : s.tracker.refs[r].mode ≠ .off → Silences s x x [r] := fun on => ⟨rfl, fun q => (if_neg fun both => by
    rw [List.mem_singleton.1 both.1] at both
    exact on both.2).symm⟩
  unfold offTurn
  split
  · next off =>
    refine ⟨silenceRef_eq r x, fun q => (silenceRef_refs r q x).trans (if_congr ?_ rfl rfl)⟩
    rw [List.mem_singleton]
    exact ⟨fun e => ⟨e, e ▸ off⟩, And.left⟩
  · next on => exact loud (by rw [on]; nofun)
  · next short => exact loud (by rw [short]; nofun)

theorem offTurns_silence (s : State) (l : List RefId) (x : State) : Silences s x (l.foldl (offTurn s) x) l := by
  induction l generalizing x with
  | nil => exact ⟨rfl, fun q => (if_neg (by simp)).symm⟩
  | cons r l ih =>
    have one := offTurn_silences s x r
    have rest := ih (offTurn s x r)
    rw [List.foldl_cons]
    generalize offTurn s x r = y at one rest
    refine ⟨rest.frame.trans (by rw [one.frame]), fun q => ?_⟩
    rw [rest.refs, one.refs]
    by_cases later : q ∈ l ∧ s.tracker.refs[q].mode = .off
    · rw [if_pos later, if_pos (c := q ∈ r :: l ∧ _) ⟨List.mem_cons_of_mem r later.1, later.2⟩]
      split
      · rfl
      · rfl
    · rw [if_neg later]
      refine if_congr ?_ rfl rfl
      rw [List.mem_singleton, List.mem_cons, or_and_right, or_iff_left later]

/-! ### The pairs served after a write (R26, R31, R38, R101) -/

theorem wanted_frame {s t : State} (h : PoolFrame s t) (p : PairId) : wanted t p = wanted s p := by
  have op : t.cmd.op = s.cmd.op := by rw [h.cmd]
  unfold wanted
  rw [op, h.router, h.tracker, h.mask]

theorem TablesWritten.agrees {s t : State} (h : TablesWritten s t) (a : Agrees s.alloc (slotCount s)) :
    Agrees t.alloc (slotCount t) := by
  rw [h]
  exact ⟨a.held, a.waiting, a.once, a.inPool⟩

theorem TablesWritten.served {s t : State} (h : TablesWritten s t) (p : PairId) :
    ServedBy t.alloc p ↔ ServedBy s.alloc p := by
  rw [h]
  rfl

theorem allocEvent_served {was : Vector Bool 128} {s : State} (h : Agrees s.alloc (slotCount s))
    (served : ∀ p : PairId, ServedBy s.alloc p ↔ was[p] = true) : WantedServed (allocEvent was s) := fun p => by
  rw [wanted_frame (allocEvent_frame was s)]
  exact ((allocEvent_serves h served).served p).symm

/-- The pairs wanted before a write are served where the write itself has moved no slot. -/
theorem WantedServed.get {s : State} (h : WantedServed s) (p : PairId) : ServedBy s.alloc p ↔ (wantedPairs s)[p] = true := by
  rw [wantedPairs_get]
  exact (h p).symm

/-- The pool as a REFERENCE write's entries leave it, with the delay changes and the OFF references taken up. -/
theorem referenceEvent_served {before s : State} (agrees : Agrees before.alloc (slotCount before))
    (sound : WantedServed before) (written : TablesWritten before s) : WantedServed (referenceEvent before s) ∧
      ∀ q : RefId, (referenceEvent before s).tracker.refs[q].mode = .off →
        (referenceEvent before s).tracker.refs[q].activity = .silent := by
  have delayed := delayTurns_serve before s allRefs (written.agrees agrees)
  have frame := delayTurns_frame before s allRefs s
  have silent := offTurns_silence s allRefs (allRefs.foldl (delayTurn before s) s)
  rw [referenceEvent_eq]
  generalize allRefs.foldl (delayTurn before s) s = x at *
  generalize allRefs.foldl (offTurn s) x = y at *
  have alloc : y.alloc = x.alloc := by rw [silent.frame]
  have count : slotCount y = slotCount s := by
    rw [silent.frame]
    exact frame.slotCount
  refine ⟨allocEvent_served (by rw [alloc, count]; exact delayed.agrees) fun p => ?_, fun q => ?_⟩
  · rw [alloc, delayed.served, written.served, sound.get]
  · rw [(allocEvent_frame _ y).tracker, silent.refs, frame.tracker]
    split
    · exact fun _ => rfl
    · next on => exact fun off => absurd ⟨List.mem_finRange q, off⟩ on

/-- A write of the BEAM or the PAIRMASK table as the Allocator takes it up. -/
theorem allocEvent_written {before s : State} (agrees : Agrees before.alloc (slotCount before))
    (sound : WantedServed before) (written : TablesWritten before s) :
    WantedServed (allocEvent (wantedPairs before) s) :=
  allocEvent_served (written.agrees agrees) fun p => by rw [written.served, sound.get]

/-! ### TABLE WRITE taken (R174, R175) -/

theorem tableOf_tableId (tb : Table) : tableOf (tableId tb) = some tb := by cases tb <;> rfl

/-- A TABLE WRITE that names a table is refused by its header, or writes entries and brings about their event. -/
theorem runTableWrite_either {tb : Table} {m : Msg} (named : byteAt m.payload 0 = tableId tb) (s : State) :
    (∃ r, runTableWrite m s = completeReply r s) ∨
      ∃ r n i p, runTableWrite m s = completeReply r (tableEvent tb s (writeEntries tb n i p s).1) := by
  unfold runTableWrite
  rw [named, tableOf_tableId]
  split
  · exact .inl ⟨_, rfl⟩
  · dsimp only
    unfold writeTable
    dsimp only
    split
    · exact .inl ⟨_, rfl⟩
    · split
      · exact .inl ⟨_, rfl⟩
      · split
        · exact .inl ⟨_, rfl⟩
        · exact .inr ⟨_, _, _, _, rfl⟩

theorem exec_tableRow (tb : Table) (s : State) :
    exec (tableRow tb) s = upAtBoundary (takeIf (writesTable tb) runTableWrite) s := by cases tb <;> rfl

theorem tableRow_ready {tb : Table} {s : State} {m : Msg} {rest : List Msg} (ready : Ready s m rest)
    (kind : m.kind = 0x10) (named : byteAt m.payload 0 = tableId tb) :
    exec (tableRow tb) s = .next (runTableWrite m { s with cmd := afterTaking s rest }) := by
  have picked : writesTable tb m = true := by
    unfold writesTable
    rw [kind, named, tableOf_tableId]
    simp
  rw [exec_tableRow, upAtBoundary_at _ ready.boundary, takeIf_ready _ _ ready picked]

theorem completeReply_pool (r : Msg) (s : State) :
    (completeReply r s).alloc = s.alloc ∧ (completeReply r s).tracker = s.tracker := by
  unfold completeReply
  split
  · exact ⟨rfl, rfl⟩
  · exact ⟨rfl, rfl⟩

theorem WantedServed.reply {s : State} (h : WantedServed s) (r : Msg) : WantedServed (completeReply r s) := fun p => by
  rw [wanted_frame (completeReply_frame r s), (completeReply_pool r s).1]
  exact h p

/-- A write of the BEAM or the PAIRMASK table leaves the references alone. -/
theorem writeEntries_tracker {tb : Table} (other : tb = .beam ∨ tb = .pairmask) (n i : Nat) (p : List Byte) (s : State) :
    (writeEntries tb n i p s).1.tracker = s.tracker := by
  refine writeEntries_induction tb (fun u => u.tracker = s.tracker) (fun i p u r same e => ?_) n i p s rfl
  rw [← same]
  rcases other with rfl | rfl
  · simp only [writeEntry, writeBeam] at e
    split at e
    · split at e
      · cases e; rfl
      · cases e
    · cases e
  · simp only [writeEntry, writePairmask] at e
    split at e
    · split at e
      · cases e; rfl
      · cases e
    · cases e

/-- After a write of a table that the Allocator takes up, the pairs wanted are served and the OFF references are
SILENT (R26, R31, R38, R101). -/
theorem tableEvent_served {tb : Table} (allocates : tb = .beam ∨ tb = .reference ∨ tb = .pairmask) {s : State}
    (agrees : Agrees s.alloc (slotCount s)) (sound : WantedServed s)
    (silent : ∀ q : RefId, s.tracker.refs[q].mode = .off → s.tracker.refs[q].activity = .silent)
    (n i : Nat) (p : List Byte) :
    WantedServed (tableEvent tb s (writeEntries tb n i p s).1) ∧ ∀ q : RefId,
      (tableEvent tb s (writeEntries tb n i p s).1).tracker.refs[q].mode = .off →
        (tableEvent tb s (writeEntries tb n i p s).1).tracker.refs[q].activity = .silent := by
  have written := writeEntries_tables tb n i p s
  have others : tb = .beam ∨ tb = .pairmask →
      tableEvent tb s (writeEntries tb n i p s).1 = allocEvent (wantedPairs s) (writeEntries tb n i p s).1 := by
    rintro (rfl | rfl)
    · rfl
    · rfl
  have alloc : tb = .beam ∨ tb = .pairmask → WantedServed (tableEvent tb s (writeEntries tb n i p s).1) ∧ ∀ q : RefId,
      (tableEvent tb s (writeEntries tb n i p s).1).tracker.refs[q].mode = .off →
        (tableEvent tb s (writeEntries tb n i p s).1).tracker.refs[q].activity = .silent := by
    intro other
    rw [others other, (allocEvent_frame _ _).tracker, writeEntries_tracker other]
    exact ⟨allocEvent_written agrees sound written, silent⟩
  rcases allocates with rfl | rfl | rfl
  · exact alloc (.inl rfl)
  · exact referenceEvent_served agrees sound written
  · exact alloc (.inr rfl)

theorem tableWrite_served {s : State} {tb : Table} {m : Msg} {rest : List Msg} (ready : Ready s m rest)
    (kind : m.kind = 0x10) (named : m.payload.getD 0 0 = tableId tb)
    (allocates : tb = .beam ∨ tb = .reference ∨ tb = .pairmask) (sound : PoolSound s)
    (silent : ∀ q : RefId, s.tracker.refs[q].mode = .off → s.tracker.refs[q].activity = .silent) :
    ∃ t, exec (tableRow tb) s = .next t ∧ WantedServed t ∧
      ∀ q : RefId, t.tracker.refs[q].mode = .off → t.tracker.refs[q].activity = .silent := by
  refine ⟨_, tableRow_ready ready kind named, ?_⟩
  have taken : WantedServed { s with cmd := afterTaking s rest } := sound.served
  have agrees : Agrees s.alloc (slotCount s) := (poolAgrees_iff s).1 sound.agrees
  rcases runTableWrite_either (tb := tb) named { s with cmd := afterTaking s rest } with ⟨r, e⟩ | ⟨r, n, i, p, e⟩
  · rw [e, (completeReply_pool r _).2]
    exact ⟨taken.reply r, silent⟩
  · have event := tableEvent_served allocates (s := { s with cmd := afterTaking s rest }) agrees taken silent n i p
    rw [e, (completeReply_pool r _).2]
    exact ⟨event.1.reply r, event.2⟩

end Sys2Proof.Machine
end

