-- ==== Sys2Proof/Proofs/TableEvents.lean ====
section
/-! PROOF. A TABLE WRITE of one entry, a change of one bulk delay by it, and the events of the TUNING and the MONITOR
table (R26, R29, R42, R97, R151, R158, R161, R175). -/

namespace Sys2Proof.Machine

/-! ### A write of one entry (R174, R175) -/

/-- The message that writes one entry of a table. -/
def writeOne (tb : Table) (i : Nat) (entry : List Byte) : Msg :=
  ⟨0x10, tableId tb :: BitVec.ofNat 8 i :: 1 :: BitVec.ofNat 8 (writeSize tb) :: entry⟩

theorem tableEntries_le (tb : Table) : tableEntries tb ≤ 128 := by cases tb <;> decide

theorem writeSize_byte (tb : Table) : (BitVec.ofNat 8 (writeSize tb)).toNat = writeSize tb := by cases tb <;> rfl

theorem writeEntries_one {tb : Table} {i : Nat} {p : List Byte} {s t : State}
    (h : writeEntry tb i p s = some (t, false)) : writeEntries tb 1 i p s = (t, false, 0) := by
  unfold writeEntries
  rw [h]
  rfl

theorem writeTable_written {tb : Table} {m : Msg} {s t : State} {first n : Nat} (head : (byteAt m.payload 1).toNat = first)
    (count : resolveCount tb first (byteAt m.payload 2).toNat = n) (size : (byteAt m.payload 3).toNat = writeSize tb)
    (inside : first < tableEntries tb) (length : m.payload.length = 4 + n * writeSize tb)
    (written : writeEntries tb n first (m.payload.drop 4) s = (t, false, 0)) :
    writeTable tb m s = completeReply (writeReply m .ok 0) (tableEvent tb s t) := by
  unfold writeTable
  dsimp only
  rw [head, count, if_neg (not_not.2 size), if_neg (not_le.2 inside), if_neg (not_not.2 length), written]
  rfl

theorem runTableWrite_one {tb : Table} {i : Nat} {entry : List Byte} {s t : State} (inside : i < tableEntries tb)
    (size : entry.length = writeSize tb) (written : writeEntry tb i entry s = some (t, false)) :
    runTableWrite (writeOne tb i entry) s = completeReply ⟨0x90, [0, 0]⟩ (tableEvent tb s t) := by
  have small := tableEntries_le tb
  have first : (BitVec.ofNat 8 i : Byte).toNat = i := by
    rw [BitVec.toNat_ofNat]
    exact Nat.mod_eq_of_lt (by omega)
  have long : ¬ (writeOne tb i entry).payload.length < 4 := by simp [writeOne]
  have named : byteAt (writeOne tb i entry).payload 0 = tableId tb := rfl
  unfold runTableWrite
  rw [if_neg long, named, tableOf_tableId]
  refine (writeTable_written (m := writeOne tb i entry) (n := 1) first rfl (writeSize_byte tb) inside ?_ (writeEntries_one written)).trans rfl
  simp only [writeOne, List.length_cons, size]
  omega

/-! ### Events that change nothing -/

theorem foldl_still {σ α : Type} {f : σ → α → σ} (l : List α) (s : σ) (still : ∀ x ∈ l, f s x = s) :
    l.foldl f s = s := by
  induction l with
  | nil => rfl
  | cons x l ih =>
    rw [List.foldl_cons, still x List.mem_cons_self]
    exact ih fun y hy => still y (List.mem_cons_of_mem _ hy)

/-- A fold in which one element alone has an effect. -/
theorem foldl_single {σ α : Type} {f : σ → α → σ} {l : List α} (nodup : l.Nodup) {a : α} (mem : a ∈ l) (s : σ)
    (others : ∀ s x, x ≠ a → f s x = s) : l.foldl f s = f s a := by
  induction l generalizing s with
  | nil => cases mem
  | cons x l ih =>
    obtain ⟨fresh, nodup⟩ := List.nodup_cons.1 nodup
    rw [List.foldl_cons]
    rcases List.mem_cons.1 mem with rfl | later
    · exact foldl_still l _ fun y hy => others _ y fun same => fresh (same ▸ hy)
    · rw [others s x fun same => fresh (same ▸ later)]
      exact ih nodup later s

theorem orderRequests_same (s : State) : orderRequests s.store.fills s = s := by
  obtain ⟨eq, perm, -⟩ := orderRequests_spec s.store.fills s
  have none : s.store.fills.filter (· ∉ s.store.fills) = [] := List.filter_eq_nil_iff.2 (by simp)
  have all : s.store.fills.filter (· ∈ s.store.fills) = s.store.fills := List.filter_eq_self.2 (by simp)
  rw [none] at eq perm
  rw [eq, perm.eq_nil, all, List.append_nil]
  rfl

/-- An event that finds the pairs wanted as they were changes nothing (R101). -/
theorem allocEvent_same {was : Vector Bool 128} {s : State} (same : ∀ p : PairId, was[p] = wanted s p) :
    allocEvent was s = s := by
  have still : changePairs was s = s := by
    have un : allPairs.foldl (fun x p => if was[p] && !(wantedPairs s)[p] then unwantPair p x else x) s = s :=
      foldl_still _ _ fun p _ => if_neg (by rw [same p, wantedPairs_get]; simp)
    unfold changePairs
    dsimp only
    rw [un]
    exact foldl_still _ _ fun p _ => if_neg (by rw [same p, wantedPairs_get]; simp)
  unfold allocEvent
  rw [still, orderRequests_same]

/-! ### A write that changes one bulk delay (R26, R29) -/

theorem refModeOf_code (m : RefMode) : refModeOf (refModeCode m) = some m := by cases m <;> rfl

theorem meterOf_code (m : Option (Fin 4)) : meterOf (meterCode m) = some m := by
  cases m with
  | none => rfl
  | some i => revert i; decide

/-- The part with one bulk delay written. -/
def delayWritten (r : RefId) (d : Nat) (s : State) : State :=
  { s with tracker := { s.tracker with refs := s.tracker.refs.set r { s.tracker.refs[r] with delay := d } } }

theorem writeReference_delay (r : RefId) {d : Byte} (small : d.toNat ≤ 63) (s : State) :
    writeEntry .reference r.val [refModeCode s.tracker.refs[r].mode, meterCode s.tracker.refs[r].meter, d] s =
      some (delayWritten r d.toNat s, false) := by
  show writeReference _ _ _ = _
  unfold writeReference
  rw [dif_pos r.isLt]
  simp only [byteAt, List.getD_cons_zero, List.getD_cons_succ, refModeOf_code, meterOf_code, clampNat_zero,
    Nat.min_eq_right small, decide_eq_false (Nat.not_lt.2 small)]
  rfl

theorem delayWritten_refs (r q : RefId) (d : Nat) (s : State) : (delayWritten r d s).tracker.refs[q] =
    if q = r then { s.tracker.refs[r] with delay := d } else s.tracker.refs[q] := getElem_set_fin _ _ _ _

theorem delayWritten_same (r q : RefId) (d : Nat) (s : State) :
    (delayWritten r d s).tracker.refs[q].mode = s.tracker.refs[q].mode ∧
      (delayWritten r d s).tracker.refs[q].activity = s.tracker.refs[q].activity ∧
      (delayWritten r d s).tracker.refs[q].linger = s.tracker.refs[q].linger := by
  rw [delayWritten_refs]
  split
  · next e => subst e; exact ⟨rfl, rfl, rfl⟩
  · exact ⟨rfl, rfl, rfl⟩

theorem Silences.same {s x y : State} {l : List RefId} (h : Silences s x y l)
    (quiet : ∀ q : RefId, s.tracker.refs[q].mode = .off → silenced x.tracker.refs[q] = x.tracker.refs[q]) : y = x := by
  have refs : y.tracker.refs = x.tracker.refs := by
    refine Vector.ext fun i hi => ?_
    have at' := h.refs ⟨i, hi⟩
    split at at'
    · next both => exact at'.trans (quiet ⟨i, hi⟩ both.2)
    · exact at'
  rw [h.frame, refs]

theorem referenceEvent_delay (r : RefId) {d : Nat} {s : State} (change : d ≠ s.tracker.refs[r].delay)
    (silent : ∀ q : RefId, s.tracker.refs[q].mode = .off →
      s.tracker.refs[q].activity = .silent ∧ s.tracker.refs[q].linger = 0) :
    referenceEvent s (delayWritten r d s) = delayChange r (delayWritten r d s) := by
  have turns : allRefs.foldl (delayTurn s (delayWritten r d s)) (delayWritten r d s) =
      delayChange r (delayWritten r d s) := by
    refine (foldl_single (List.nodup_finRange 8) (List.mem_finRange r) _ fun x q other => if_pos ?_).trans (if_neg ?_)
    · rw [delayWritten_refs, if_neg other]
    · rw [delayWritten_refs, if_pos rfl]
      exact fun same => change same.symm
  have frame := delayChange_frame r (delayWritten r d s)
  have silences := offTurns_silence (delayWritten r d s) allRefs (delayChange r (delayWritten r d s))
  rw [referenceEvent_eq, turns]
  generalize delayChange r (delayWritten r d s) = t at *
  have same := silences.same fun q off => by
    obtain ⟨mode, activity, linger⟩ := delayWritten_same r q d s
    rw [mode] at off
    obtain ⟨quiet, zero⟩ := silent q off
    rw [frame.tracker]
    rw [← activity] at quiet
    rw [← linger] at zero
    generalize (delayWritten r d s).tracker.refs[q] = x at quiet zero
    rw [silenced, ← quiet, ← zero]
  rw [same]
  refine allocEvent_same fun p => ?_
  rw [wantedPairs_get, wanted_frame frame]
  obtain ⟨mode, activity, -⟩ := delayWritten_same r (pairRef p) d s
  unfold wanted
  rw [mode, activity]
  rfl

/-- A REFERENCE write that changes one bulk delay alone (R29). -/
theorem referenceTableWrite_delay {s : State} {r : RefId} {d : Byte} {rest : List Msg}
    (ready : Ready s ⟨0x10, [2, BitVec.ofNat 8 r.val, 1, 3, refModeCode s.tracker.refs[r].mode,
      meterCode s.tracker.refs[r].meter, d]⟩ rest)
    (small : d.toNat ≤ 63) (change : d.toNat ≠ s.tracker.refs[r].delay)
    (silent : ∀ q : RefId, s.tracker.refs[q].mode = .off →
      s.tracker.refs[q].activity = .silent ∧ s.tracker.refs[q].linger = 0) :
    exec .referenceTableWrite s = .next (completeReply ⟨0x90, [0, 0]⟩
      (delayChange r (delayWritten r d.toNat { s with cmd := afterTaking s rest }))) := by
  have row := tableRow_ready (tb := .reference) ready rfl rfl
  have one := runTableWrite_one (tb := .reference) (i := r.val) r.isLt rfl
    (writeReference_delay r small { s with cmd := afterTaking s rest })
  have event := referenceEvent_delay r (s := { s with cmd := afterTaking s rest }) change silent
  refine row.trans (congrArg _ (one.trans ?_))
  exact congrArg (completeReply _) event

/-! ### The events of the TUNING and the MONITOR table (R42, R97, R151, R158, R161) -/

/-- The beams' records once a degrade code has been written (R97). -/
def watchedBeams (s : State) : Vector CtlBeam 16 :=
  if degradeCode s.cmd.tuning = 0 then
    Vector.ofFn fun b => { s.ctl.beams[b] with degCtr := 0, degraded := false }
  else s.ctl.beams

theorem lowered_eq (s : State) : updateHold (lowerAtt (attMax s.cmd.tuning) s) = { s with
    cmd := { s.cmd with hold := holdAfter s.cmd.hold s.cmd.queue.length (holdTrigger s.cmd.tuning) }
    supp := { s.supp with
      att := Vector.ofFn fun b => Vector.ofFn fun j => min s.supp.att[b][j] (attMax s.cmd.tuning) } } := rfl

theorem tuningEvent_eq (s : State) : tuningEvent s = { s with
    cmd := { s.cmd with hold := holdAfter s.cmd.hold s.cmd.queue.length (holdTrigger s.cmd.tuning) }
    supp := { s.supp with
      att := Vector.ofFn fun b => Vector.ofFn fun j => min s.supp.att[b][j] (attMax s.cmd.tuning) }
    ctl := { s.ctl with beams := watchedBeams s } } := by
  have lowered := lowered_eq s
  unfold tuningEvent watchedBeams
  dsimp only
  by_cases off : degradeCode s.cmd.tuning = 0
  · rw [if_pos off, if_pos off, lowered]
    rfl
  · rw [if_neg off, if_neg off, lowered]

theorem tuningEvent_effects (s : State) :
    let u := s.cmd.tuning
    let t := tuningEvent s
    t = { s with
      cmd := { s.cmd with hold := t.cmd.hold }
      supp := { s.supp with att := t.supp.att }
      ctl := { s.ctl with beams := t.ctl.beams } } ∧
    (holdTrigger u ≤ s.cmd.queue.length → s.cmd.queue ≠ [] → t.cmd.hold = true) ∧
    (s.cmd.queue = [] → 1 ≤ holdTrigger u → t.cmd.hold = false) ∧
    (s.cmd.queue.length < holdTrigger u → s.cmd.queue ≠ [] → t.cmd.hold = s.cmd.hold) ∧
    (∀ (b : BeamId) (j : Fin 32), t.supp.att[b][j] = min s.supp.att[b][j] (attMax u)) ∧
    ∀ b : BeamId, t.ctl.beams[b] = if degradeCode u = 0 then
      { s.ctl.beams[b] with degCtr := 0, degraded := false } else s.ctl.beams[b] := by
  dsimp only
  rw [tuningEvent_eq]
  dsimp only
  refine ⟨rfl, fun full _ => if_pos full, fun empty one => ?_, fun below some => ?_, fun b j => ?_, fun b => ?_⟩
  · rw [empty]
    exact (if_neg (by simp; omega)).trans (if_pos rfl)
  · exact (if_neg (by omega)).trans (if_neg fun zero => some (List.length_eq_zero_iff.1 zero))
  · rw [getElem_ofFn_fin, getElem_ofFn_fin]
  · unfold watchedBeams
    split
    · rw [getElem_ofFn_fin]
    · rfl

/-- The monitor banks as they are handed the points selected (R42). -/
def monitorBanks (s : State) : Vector SynthBank 2 :=
  Vector.ofFn fun t => synthHand s.banks.monSynth[t] (monitorBands s s.out.monitors[t])

theorem handMonitors_eq (s : State) : handMonitors s = { s with
    banks := { s.banks with monSynth := monitorBanks s }
    out := { s.out with current := { s.out.current with
      monitors := Vector.ofFn fun t => synthesise (monitorBanks s)[t]
      repeats := Vector.ofFn fun t => monitorRepeat s.out.monitors[t] } } } := rfl

/-- The band values of a beam's point, with none of a beam that is not CANCEL (R158). -/
theorem monitorBands_eq (s : State) (x : Monitor) :
    let b : BeamId := ⟨x.index.toNat % 16, Nat.mod_lt _ (by decide)⟩
    let r : RefId := ⟨x.index.toNat % 8, Nat.mod_lt _ (by decide)⟩
    let w := s.blk.work[b]
    let cancelled := fun (v : Bands) => if s.blk.beams[b].mode = .cancel then v else zeroBands
    monitorBands s x = match x.kind with
      | .none => zeroBands
      | .reference => s.blk.refBands[r]
      | .beam =>
        if x.point = 0 then w.micBands
        else if x.point = 1 then cancelled w.echoBands
        else if x.point = 2 then cancelled w.errBands
        else w.outBands := by
  dsimp only
  unfold monitorBands
  cases x.kind with
  | none => rfl
  | reference => rfl
  | beam =>
    dsimp only [monitorBeam]
    simp only [beq_iff_eq]
    rfl

theorem monitorRepeat_eq (x : Monitor) : monitorRepeat x =
    if x.kind = .beam ∧ x.point = 3 then some ⟨x.index.toNat % 16, Nat.mod_lt _ (by decide)⟩ else none := by
  unfold monitorRepeat
  cases x.kind with
  | none => simp
  | reference => simp
  | beam => simp [monitorBeam]

theorem rehandMonitors_effects (s : State) :
    let t := rehandMonitors s
    (s.blk.live = false ∨ s.out.current.index ≠ s.blk.count → t = s) ∧
    (s.blk.live = true → s.out.current.index = s.blk.count → t = { s with
      banks := { s.banks with monSynth := t.banks.monSynth }
      out := { s.out with current := { s.out.current with
        monitors := t.out.current.monitors, repeats := t.out.current.repeats } } } ∧
      ∀ k : Fin 2,
      t.banks.monSynth[k].current = monitorBands s s.out.monitors[k] ∧
      t.banks.monSynth[k].previous = s.banks.monSynth[k].previous ∧
      t.out.current.monitors[k] = synthesise t.banks.monSynth[k] ∧
      t.out.current.repeats[k] = monitorRepeat s.out.monitors[k]) := by
  have test : (s.blk.live && s.out.current.index == s.blk.count) = true ↔
      s.blk.live = true ∧ s.out.current.index = s.blk.count := by simp
  refine ⟨fun no => if_neg fun yes => ?_, fun live now => ?_⟩
  · obtain ⟨live, now⟩ := test.1 yes
    rcases no with down | late
    · rw [down] at live; cases live
    · exact late now
  · have handed : rehandMonitors s = handMonitors s := if_pos (test.2 ⟨live, now⟩)
    rw [handed, handMonitors_eq]
    refine ⟨rfl, fun k => ?_⟩
    have bank : (monitorBanks s)[k] = synthHand s.banks.monSynth[k] (monitorBands s s.out.monitors[k]) :=
      getElem_ofFn_fin _ k
    dsimp only
    rw [getElem_ofFn_fin, getElem_ofFn_fin, bank]
    exact ⟨rfl, rfl, rfl, rfl⟩

end Sys2Proof.Machine
end

