-- ==== Sys2Proof/Proofs/MaskWrite.lean ====
section
/-! PROOF. A pair that a PAIRMASK write makes wanted (O56, R104, R113, R124). -/

namespace Sys2Proof.Machine

/-! ### An event that makes one pair wanted (R101, R124) -/

theorem changePairs_wanting {was : Vector Bool 128} {s : State} {p : PairId} (before : was[p] = false)
    (now : wanted s p = true) (others : ∀ q : PairId, q ≠ p → was[q] = wanted s q) : changePairs was s = wantPair p s := by
  have un : allPairs.foldl (fun x q => if was[q] && !(wantedPairs s)[q] then unwantPair q x else x) s = s := by
    refine foldl_still _ _ fun q _ => if_neg ?_
    rw [wantedPairs_get]
    by_cases same : q = p
    · subst same; rw [before]; simp
    · rw [others q same]; simp
  unfold changePairs
  dsimp only
  rw [un]
  refine (foldl_single (List.nodup_finRange 128) (List.mem_finRange p) s fun x q other => if_neg ?_).trans (if_pos ?_)
  · rw [wantedPairs_get, others q other]; simp
  · rw [wantedPairs_get, before, now]; rfl

/-- An event's requests stay in their order where it forms one at most, behind the others (R124). -/
theorem orderRequests_one {before old new : List FillReq} {s : State} (fills : s.store.fills = old ++ new)
    (stood : ∀ r ∈ old, r ∈ before) (few : new.length ≤ 1) : orderRequests before s = s := by
  obtain ⟨eq, perm, -⟩ := orderRequests_spec before s
  have oldIn : old.filter (· ∈ before) = old := List.filter_eq_self.2 (by simpa using stood)
  have oldOut : old.filter (· ∉ before) = [] := List.filter_eq_nil_iff.2 (by simpa using stood)
  have same : s.store.fills.filter (· ∈ before) ++ s.store.fills.filter (· ∉ before) = s.store.fills := by
    rw [fills, List.filter_append, List.filter_append, oldIn, oldOut]
    match new, few with
    | [], _ => simp
    | [r], _ => by_cases mem : r ∈ before <;> simp [mem]
  have formed : (s.store.fills.filter (· ∉ before)).length ≤ 1 := by
    rw [fills, List.filter_append, oldOut, List.nil_append]
    exact (List.length_filter_le _ _).trans few
  have kept : (allPairs.flatMap fun p => (s.store.fills.filter (· ∉ before)).filter (·.set = p)) =
      s.store.fills.filter (· ∉ before) := by
    match e : s.store.fills.filter (· ∉ before), formed with
    | [], _ => rw [e] at perm; exact perm.eq_nil
    | [r], _ => rw [e] at perm; exact List.perm_singleton.1 perm
  rw [eq, kept, same]
  rfl

/-! ### What a pair that becomes wanted finds (R104) -/

section Wants

variable {s : State} {p : PairId}

theorem wantPair_draining {sl : SlotId} {tag q : Nat} (entry : s.alloc.pairs[p] = .held sl)
    (draining : s.alloc.slots[sl] = .draining p tag q) : wantPair p s = setSlotState sl (.running p) s := by
  unfold wantPair
  rw [entry]
  dsimp only
  rw [draining]

theorem freeInPool_iff (o : SlotId) : (decide (o.val < slotCount s) && s.alloc.slots[o] == .free) = true ↔
    o.val < slotCount s ∧ s.alloc.slots[o] = .free := by simp

theorem lowestFree_eq {sl : SlotId} (free : s.alloc.slots[sl] = .free) (small : sl.val < slotCount s)
    (lowest : ∀ lower : SlotId, lower < sl → s.alloc.slots[lower] ≠ .free) : lowestFree s = some sl := by
  unfold lowestFree allSlots
  rw [List.find?_eq_some_iff_getElem]
  refine ⟨(freeInPool_iff sl).2 ⟨small, free⟩, sl.val, by simp, by simp, fun j hj => ?_⟩
  rw [List.getElem_finRange, Bool.not_eq_true', ← Bool.not_eq_true, freeInPool_iff]
  exact fun both => lowest ⟨j, by omega⟩ hj both.2

theorem lowestFree_none (full : ∀ sl : SlotId, sl.val < slotCount s → s.alloc.slots[sl] ≠ .free) :
    lowestFree s = none := by
  unfold lowestFree
  rw [List.find?_eq_none]
  intro sl _
  rw [freeInPool_iff]
  exact fun both => full sl both.1 both.2

theorem wantPair_free {sl : SlotId} (none : s.alloc.pairs[p] = .none) (found : lowestFree s = some sl) :
    wantPair p s = assignSlot sl p s := by
  unfold wantPair
  rw [none]
  dsimp only
  rw [found]

theorem wantPair_full (none : s.alloc.pairs[p] = .none) (found : lowestFree s = Option.none) :
    wantPair p s = joinWait p s := by
  unfold wantPair
  rw [none]
  dsimp only
  rw [found]

end Wants

/-! ### A slot assigned (R67, R104) -/

/-- The part with a slot assigned, cold, before the lookup. -/
def assignedCold (sl : SlotId) (p : PairId) (s : State) : State :=
  unmarkReset sl (clearClamped sl (coldSlot sl (setPair p (.held sl) (setSlotState sl (.running p) s))))

theorem assignSlot_eq (sl : SlotId) (p : PairId) (s : State) :
    assignSlot sl p s = lookup sl p (beamTag (pairBeam p) (assignedCold sl p s)) (assignedCold sl p s) := rfl

theorem assignedCold_run (sl : SlotId) (p : PairId) (s : State) : PoolRun s (assignedCold sl p s) :=
  ((PoolMove.slotState sl _ s).run.trans (PoolMove.pair p _ _).run).trans (PoolMove.assigned sl _).run

theorem assignedCold_made (sl : SlotId) (p : PairId) (s : State) : MadeCold s (assignedCold sl p s) sl := by
  have cold := coldSlot_made sl (setPair p (.held sl) (setSlotState sl (.running p) s))
  unfold assignedCold
  generalize coldSlot sl (setPair p (.held sl) (setSlotState sl (.running p) s)) = u at cold
  have slot : (unmarkReset sl (clearClamped sl u)).core.slots[sl] = { u.core.slots[sl] with clamped := false } :=
    (getElem_set_fin _ _ _ _).trans (if_pos rfl)
  exact ⟨cold.taps, (congrArg (·.ticket) slot).trans cold.ticket, (congrArg (·.origin) slot).trans cold.origin,
    cold.record⟩

theorem assignedCold_fills (sl : SlotId) (p : PairId) (s : State) :
    (assignedCold sl p s).store.fills = s.store.fills.filter (·.slot ≠ sl) :=
  coldSlot_fills sl (setPair p (.held sl) (setSlotState sl (.running p) s))

theorem assignSlot_made (sl : SlotId) (p : PairId) (s : State) : MadeCold s (assignSlot sl p s) sl := by
  rw [assignSlot_eq]
  exact (assignedCold_made sl p s).kept (lookup_kept sl sl p _ _) (assignedCold_run sl p s).taps.tailLen

theorem assignSlot_fills (sl : SlotId) (p : PairId) (s : State) :
    (assignSlot sl p s).store.fills = fillsAfterLookup s sl p s.router.beams[pairBeam p].tag := by
  have made := assignedCold_made sl p s
  have fills := assignedCold_fills sl p s
  have moves := (assignedCold_run sl p s).moves
  rw [assignSlot_eq]
  generalize assignedCold sl p s = u at *
  have tag : beamTag (pairBeam p) u = s.router.beams[pairBeam p].tag := by rw [moves]; rfl
  have hit : lookupHit u p s.router.beams[pairBeam p].tag = lookupHit s p s.router.beams[pairBeam p].tag := by
    rw [moves]; rfl
  have count : u.blk.count = s.blk.count := by rw [moves]
  rw [(lookup_spec _ _ _ _).2, tag, hit, fills, made.ticket, count]
  unfold fillsAfterLookup
  split
  · rw [List.filter_filter]
    simp
  · rw [List.append_nil]

/-- The requests that stand after an assignment are in their order already (R124). -/
theorem assignSlot_ordered (sl : SlotId) (p : PairId) (s : State) :
    orderRequests s.store.fills (assignSlot sl p s) = assignSlot sl p s := by
  refine orderRequests_one (assignSlot_fills sl p s) (fun r mem => List.mem_of_mem_filter mem) ?_
  split
  · exact le_rfl
  · exact Nat.zero_le _

/-! ### The wait list joined, and the victim (R104, R113) -/

/-- The part once a pair has joined the wait list and POOL_FULL is reported. -/
def waitJoined (p : PairId) (s : State) : State :=
  reportSource .poolFull (setPair p .waiting (setWaiting (s.alloc.waiting ++ [p]) s))

/-- A pair joined the wait list (R104). -/
structure WaitJoined (p : PairId) (s u : State) : Prop where
  eq : u = { s with
    alloc := { s.alloc with waiting := s.alloc.waiting ++ [p], pairs := s.alloc.pairs.set p .waiting }
    cmd := { s.cmd with replies := u.cmd.replies }
    ev := { s.ev with status := s.ev.status ||| 16 } }

theorem waitJoined_joined (p : PairId) (s : State) : WaitJoined p s (waitJoined p s) := by
  have reported := (reportSource_reported .poolFull (setPair p .waiting (setWaiting (s.alloc.waiting ++ [p]) s))).eq
  exact ⟨reported⟩

theorem joinWait_cases (p : PairId) (s : State) :
    (poolPolicy s.blk.tuning = 1 ∧ ∃ sl q, chooseVictim (waitJoined p s) = some (sl, q) ∧
        joinWait p s = preemptSlot sl q (waitJoined p s)) ∨
      ((poolPolicy s.blk.tuning = 1 → chooseVictim (waitJoined p s) = none) ∧ joinWait p s = waitJoined p s) := by
  have shape : joinWait p s = if poolPolicy s.blk.tuning = 1 then
      match chooseVictim (waitJoined p s) with
      | some (sl, q) => preemptSlot sl q (waitJoined p s)
      | none => waitJoined p s
    else waitJoined p s := rfl
  rw [shape]
  by_cases policy : poolPolicy s.blk.tuning = 1
  · rw [if_pos policy]
    cases victim : chooseVictim (waitJoined p s) with
    | none => exact .inr ⟨fun _ => rfl, rfl⟩
    | some x => exact .inl ⟨policy, x.1, x.2, rfl, rfl⟩
  · rw [if_neg policy]
    exact .inr ⟨fun on => absurd on policy, rfl⟩

/-- The choice of a victim among the candidates (R113). -/
def bestVictim (best : Option (Nat × SlotId × PairId)) (x : Nat × SlotId × PairId) : Option (Nat × SlotId × PairId) :=
  match best with
  | none => some x
  | some y => if x.1 < y.1 then some x else some y

theorem chooseVictim_eq (s : State) :
    chooseVictim s = ((allSlots.filterMap (victimOf s)).foldl bestVictim none).map (·.2) := rfl

theorem bestVictim_mem (l : List (Nat × SlotId × PairId)) {best x : Option (Nat × SlotId × PairId)}
    (h : l.foldl bestVictim best = x) : x = best ∨ ∃ y ∈ l, x = some y := by
  induction l generalizing best with
  | nil => exact .inl h.symm
  | cons y l ih =>
    rcases ih h with start | ⟨z, mem, e⟩
    · unfold bestVictim at start
      split at start
      · exact .inr ⟨y, List.mem_cons_self, start⟩
      · split at start
        · exact .inr ⟨y, List.mem_cons_self, start⟩
        · exact .inl start
    · exact .inr ⟨z, List.mem_cons_of_mem _ mem, e⟩

theorem bestVictim_keeps (l : List (Nat × SlotId × PairId)) {v : Nat × SlotId × PairId} (least : ∀ y ∈ l, v.1 ≤ y.1) :
    l.foldl bestVictim (some v) = some v :=
  foldl_still l (some v) fun y mem => if_neg (not_lt.2 (least y mem))

/-- The candidate with the smallest counter, and of those the first, is the victim (R113). -/
theorem bestVictim_least {a b : List (Nat × SlotId × PairId)} {v : Nat × SlotId × PairId}
    (before : ∀ y ∈ a, v.1 < y.1) (behind : ∀ y ∈ b, v.1 ≤ y.1) :
    (a ++ v :: b).foldl bestVictim none = some v := by
  have picked : bestVictim (a.foldl bestVictim none) v = some v := by
    rcases bestVictim_mem a (best := none) rfl with start | ⟨y, mem, e⟩
    · rw [start]; rfl
    · rw [e]; exact if_pos (before y mem)
  rw [List.foldl_append, List.foldl_cons, picked, bestVictim_keeps b behind]

theorem victimOf_of {s : State} {sl : SlotId} {q : PairId} (running : s.alloc.slots[sl] = .running q)
    (lingers : (handed s (pairRef q)).1 = .linger) : victimOf s sl = some ((handed s (pairRef q)).2, sl, q) := by
  unfold victimOf
  rw [running]
  exact if_pos lingers

theorem chooseVictim_least {s : State} {sl : SlotId} {q : PairId} (running : s.alloc.slots[sl] = .running q)
    (lingers : (handed s (pairRef q)).1 = .linger)
    (least : ∀ (o : SlotId) (x : PairId), s.alloc.slots[o] = .running x → (handed s (pairRef x)).1 = .linger →
      (handed s (pairRef q)).2 < (handed s (pairRef x)).2 ∨
        ((handed s (pairRef q)).2 = (handed s (pairRef x)).2 ∧ sl ≤ o)) : chooseVictim s = some (sl, q) := by
  obtain ⟨a, b, split⟩ := List.append_of_mem (List.mem_finRange sl)
  have order := List.pairwise_lt_finRange 128
  rw [split, List.pairwise_append] at order
  obtain ⟨-, -, below⟩ := order
  have weak : ∀ (o : SlotId) y, victimOf s o = some y → (handed s (pairRef q)).2 < y.1 ∨
      ((handed s (pairRef q)).2 = y.1 ∧ sl ≤ o) := fun o y e => by
    obtain ⟨on, lingering, shape⟩ := victimOf_some e
    have counter : y.1 = (handed s (pairRef y.2.2)).2 := congrArg (·.1) shape
    rw [counter]
    exact least o y.2.2 on lingering
  have best : (allSlots.filterMap (victimOf s)).foldl bestVictim none = some ((handed s (pairRef q)).2, sl, q) := by
    unfold allSlots
    rw [split, List.filterMap_append, List.filterMap_cons, victimOf_of running lingers]
    refine bestVictim_least (fun y mem => ?_) fun y mem => ?_
    · obtain ⟨o, ho, e⟩ := List.mem_filterMap.1 mem
      rcases weak o y e with less | ⟨-, behind⟩
      · exact less
      · exact absurd (below o ho sl List.mem_cons_self) (not_lt.2 behind)
    · obtain ⟨o, _, e⟩ := List.mem_filterMap.1 mem
      exact (weak o y e).elim le_of_lt fun both => both.1.le
  rw [chooseVictim_eq, best]
  rfl

/-- A slot preempted, and given to the oldest waiting pair (R113). -/
structure Preempted (s t : State) (sl : SlotId) (q w : PairId) (left : List PairId) : Prop where
  waiting : t.alloc.waiting = left
  slots : t.alloc.slots = s.alloc.slots.set sl (.running w)
  pairs : t.alloc.pairs = (s.alloc.pairs.set q .waiting).set w (.held sl)
  ticket : t.core.slots[sl].ticket = s.core.slots[sl].ticket + 2
  origin : t.core.slots[sl].origin = .cold
  record : t.ctl.slots[sl] = ⟨.warmup, 0, 0⟩

/-- The victim's zone task: its capture under the tag of its beam, and its ticket. -/
def victimTask (s : State) (sl : SlotId) (q : PairId) : ZoneTask := ⟨beamTag (pairBeam q) s, 0, sl, q⟩

/-- The part with the victim captured, its slot FREE and its pair waiting. -/
def victimFreed (sl : SlotId) (q : PairId) (s : State) : State :=
  setWaiting ((zoneRaised (victimTask s sl q) s).alloc.waiting ++ [q])
    (setSlotState sl .free (setPair q .waiting (zoneRaised (victimTask s sl q) s)))

theorem preemptSlot_eq (sl : SlotId) (q : PairId) (s : State) : preemptSlot sl q s = giveToWaiter sl (victimFreed sl q s) :=
  rfl

theorem preemptSlot_gives {s : State} {sl : SlotId} {q w : PairId} {left : List PairId}
    (queue : s.alloc.waiting ++ [q] = w :: left) :
    preemptSlot sl q s = assignSlot sl w (setWaiting left (victimFreed sl q s)) := by
  have raised := zoneRaised_spec (victimTask s sl q) s
  have waiting : (victimFreed sl q s).alloc.waiting = w :: left := by
    show (zoneRaised (victimTask s sl q) s).alloc.waiting ++ [q] = _
    rw [raised.frame.alloc, queue]
  rw [preemptSlot_eq]
  unfold giveToWaiter
  rw [waiting]

theorem preemptSlot_preempted {s : State} {sl : SlotId} {q w : PairId} {left : List PairId}
    (queue : s.alloc.waiting ++ [q] = w :: left) : Preempted s (preemptSlot sl q s) sl q w left := by
  have raised := zoneRaised_spec (victimTask s sl q) s
  have made := assignSlot_made sl w (setWaiting left (victimFreed sl q s))
  have alloc := assignSlot_alloc sl w (setWaiting left (victimFreed sl q s))
  have ticket : (setWaiting left (victimFreed sl q s)).core.slots[sl].ticket = s.core.slots[sl].ticket + 1 :=
    congrArg (·.ticket) raised.ticket
  have before : (setWaiting left (victimFreed sl q s)).alloc = { s.alloc with
      waiting := left, slots := s.alloc.slots.set sl .free, pairs := s.alloc.pairs.set q .waiting } := by
    rw [← raised.frame.alloc]
    rfl
  rw [before] at alloc
  rw [preemptSlot_gives queue]
  refine ⟨by rw [alloc], ?_, by rw [alloc], ?_, made.origin, made.record⟩
  · rw [alloc]
    simp
  · rw [made.ticket, ticket, BitVec.add_assoc]
    rfl

theorem assignSlot_captures (sl : SlotId) (p : PairId) (s : State) :
    (assignSlot sl p s).store.captures = s.store.captures := by
  have cold : (assignedCold sl p s).store.captures = s.store.captures := by
    simp [assignedCold, clearClamped, coldSlot, setPhaseRun, raiseTicket, zeroSlot]
  rw [assignSlot_eq, (lookup_spec _ _ _ _).1]
  exact cold

theorem giveToWaiter_captures (sl : SlotId) (s : State) : (giveToWaiter sl s).store.captures = s.store.captures := by
  unfold giveToWaiter
  split
  · rfl
  · rw [assignSlot_captures]
    rfl

/-- What a preemption brings the capture area and the status (R113, R125). -/
theorem preemptSlot_reports {s : State} {sl : SlotId} {q : PairId} :
    (preemptSlot sl q s).store.captures =
        s.store.captures ++ (((victimTask s sl q).owed s).toList).take (8 - s.store.captures.length) ∧
      (preemptSlot sl q s).ev.status =
        if 8 - s.store.captures.length < ((victimTask s sl q).owed s).toList.length then s.ev.status ||| 64
        else s.ev.status := by
  have raised := zoneRaised_spec (victimTask s sl q) s
  have ev : (preemptSlot sl q s).ev = (victimFreed sl q s).ev := by
    rw [preemptSlot_eq, (giveToWaiter_run sl _).moves]
  rw [ev, preemptSlot_eq, giveToWaiter_captures]
  exact ⟨raised.captures, raised.status⟩

/-! ### The write of one mask entry (R38, R104) -/

/-- The part with a pair's mask entry written. -/
def maskWritten (p : PairId) (s : State) : State :=
  { s with alloc := { s.alloc with mask := s.alloc.mask.set p true } }

/-- The pool once the Allocator has taken up the write (R101, R124). -/
def maskTaken (p : PairId) (s : State) : State := orderRequests s.store.fills (wantPair p (maskWritten p s))

theorem completeReply_eq (r : Msg) (s : State) : completeReply r s = { s with cmd := (completeReply r s).cmd } := by
  unfold completeReply
  split
  · rfl
  · rfl

section Mask

variable {s : State} {p : PairId}

theorem maskWritten_wanted_other {q : PairId} (other : q ≠ p) : wanted (maskWritten p s) q = wanted s q := by
  have same : (maskWritten p s).alloc.mask[q] = s.alloc.mask[q] := (getElem_set_fin _ _ _ _).trans (if_neg other)
  unfold wanted
  rw [same]
  rfl

theorem maskWritten_wanted (op : s.cmd.op = .running) (mode : s.router.beams[pairBeam p].mode = .cancel)
    (on : s.tracker.refs[pairRef p].mode ≠ .off) (loud : s.tracker.refs[pairRef p].activity ≠ .silent) :
    wanted (maskWritten p s) p = true := by
  have mask : (maskWritten p s).alloc.mask[p] = true := (getElem_set_fin _ _ _ _).trans (if_pos rfl)
  have same : wanted (maskWritten p s) p = (s.cmd.op == .running && s.router.beams[pairBeam p].mode == .cancel &&
      s.tracker.refs[pairRef p].mode != .off && s.tracker.refs[pairRef p].activity != .silent &&
      (maskWritten p s).alloc.mask[p]) := rfl
  rw [same, mask, op, mode]
  simpa using ⟨on, loud⟩

theorem tableEvent_pairmask (masked : s.alloc.mask[p] = false) (op : s.cmd.op = .running)
    (mode : s.router.beams[pairBeam p].mode = .cancel) (on : s.tracker.refs[pairRef p].mode ≠ .off)
    (loud : s.tracker.refs[pairRef p].activity ≠ .silent) :
    tableEvent .pairmask s (maskWritten p s) = maskTaken p s := by
  have change : changePairs (wantedPairs s) (maskWritten p s) = wantPair p (maskWritten p s) := by
    refine changePairs_wanting ?_ (maskWritten_wanted op mode on loud) fun q other => ?_
    · rw [wantedPairs_get, wanted, masked, Bool.and_false]
    · rw [wantedPairs_get, maskWritten_wanted_other other]
  show allocEvent (wantedPairs s) (maskWritten p s) = _
  unfold allocEvent
  rw [change]
  rfl

theorem pairmaskTableWrite_one {rest : List Msg} (ready : Ready s ⟨0x10, [3, BitVec.ofNat 8 p.val, 1, 1, 1]⟩ rest)
    (masked : s.alloc.mask[p] = false) (op : s.cmd.op = .running)
    (mode : s.router.beams[pairBeam p].mode = .cancel) (on : s.tracker.refs[pairRef p].mode ≠ .off)
    (loud : s.tracker.refs[pairRef p].activity ≠ .silent) :
    exec .pairmaskTableWrite s =
      .next (completeReply ⟨0x90, [0, 0]⟩ (maskTaken p { s with cmd := afterTaking s rest })) := by
  have row := tableRow_ready (tb := .pairmask) ready rfl rfl
  have entry : writeEntry .pairmask p.val [1] { s with cmd := afterTaking s rest } =
      some (maskWritten p { s with cmd := afterTaking s rest }, false) := by
    show writePairmask p.val [1] { s with cmd := afterTaking s rest } = _
    rw [writePairmask_eq _ _ _ _ p.isLt]
    rfl
  have one := runTableWrite_one (tb := .pairmask) (i := p.val) p.isLt rfl entry
  have event := tableEvent_pairmask (s := { s with cmd := afterTaking s rest }) masked op mode on loud
  exact row.trans (congrArg _ (one.trans (congrArg (completeReply _) event)))

/-! ### What the pair finds (R104, R113) -/

theorem maskTaken_mask : (maskTaken p s).alloc.mask = s.alloc.mask.set p true :=
  (wantPair_run p (maskWritten p s)).keeps.frame.mask

theorem maskTaken_draining {sl : SlotId} {tag q : Nat} (entry : s.alloc.pairs[p] = .held sl)
    (draining : s.alloc.slots[sl] = .draining p tag q) :
    maskTaken p s = setSlotState sl (.running p) (maskWritten p s) := by
  unfold maskTaken
  rw [wantPair_draining (s := maskWritten p s) entry draining]
  exact orderRequests_same (setSlotState sl (.running p) (maskWritten p s))

theorem maskTaken_free {sl : SlotId} (none : s.alloc.pairs[p] = .none) (free : s.alloc.slots[sl] = .free)
    (small : sl.val < slotCount s) (lowest : ∀ lower : SlotId, lower < sl → s.alloc.slots[lower] ≠ .free) :
    maskTaken p s = assignSlot sl p (maskWritten p s) := by
  unfold maskTaken
  rw [wantPair_free (s := maskWritten p s) none (lowestFree_eq (s := maskWritten p s) free small lowest)]
  exact assignSlot_ordered sl p (maskWritten p s)

theorem waitJoined_victim {sl : SlotId} {q : PairId} (running : s.alloc.slots[sl] = .running q)
    (lingers : (handed s (pairRef q)).1 = .linger)
    (least : ∀ (o : SlotId) (x : PairId), s.alloc.slots[o] = .running x → (handed s (pairRef x)).1 = .linger →
      (handed s (pairRef q)).2 < (handed s (pairRef x)).2 ∨
        ((handed s (pairRef q)).2 = (handed s (pairRef x)).2 ∧ sl ≤ o)) :
    chooseVictim (waitJoined p (maskWritten p s)) = some (sl, q) := by
  have joined := (waitJoined_joined p (maskWritten p s)).eq
  have slots : (waitJoined p (maskWritten p s)).alloc.slots = s.alloc.slots := by rw [joined]; rfl
  have same : ∀ r, handed (waitJoined p (maskWritten p s)) r = handed s r := fun r => by rw [joined]; rfl
  refine chooseVictim_least (by rw [slots]; exact running) (by rw [same]; exact lingers) fun o x on lingering => ?_
  rw [same, same]
  rw [slots] at on
  rw [same] at lingering
  exact least o x on lingering

variable (none : s.alloc.pairs[p] = .none)
  (full : ∀ sl : SlotId, sl.val < slotCount s → s.alloc.slots[sl] ≠ .free)

include none full

theorem maskTaken_full : maskTaken p s = orderRequests s.store.fills (joinWait p (maskWritten p s)) := by
  unfold maskTaken
  rw [wantPair_full (s := maskWritten p s) none (lowestFree_none (s := maskWritten p s) full)]

theorem maskTaken_waits (kept : joinWait p (maskWritten p s) = waitJoined p (maskWritten p s)) :
    maskTaken p s = waitJoined p (maskWritten p s) := by
  have fills : (waitJoined p (maskWritten p s)).store.fills = s.store.fills := by rw [(waitJoined_joined p _).eq]; rfl
  rw [maskTaken_full none full, kept, ← fills]
  exact orderRequests_same _

theorem maskTaken_status : (maskTaken p s).ev.status = s.ev.status ||| 16 ∨
    (maskTaken p s).ev.status = s.ev.status ||| 16 ||| 64 := by
  have joined : (waitJoined p (maskWritten p s)).ev.status = s.ev.status ||| 16 := by
    rw [(waitJoined_joined p _).eq]
    rfl
  rcases joinWait_cases p (maskWritten p s) with ⟨_, sl, q, _, e⟩ | ⟨_, e⟩
  · have status := (preemptSlot_reports (s := waitJoined p (maskWritten p s)) (sl := sl) (q := q)).2
    rw [joined] at status
    rw [maskTaken_full none full, e]
    show (preemptSlot sl q (waitJoined p (maskWritten p s))).ev.status = _ ∨
      (preemptSlot sl q (waitJoined p (maskWritten p s))).ev.status = _
    rw [status]
    split
    · exact .inr rfl
    · exact .inl rfl
  · rw [maskTaken_waits none full e]
    exact .inl joined

theorem maskTaken_keeps (policy : poolPolicy s.blk.tuning = 0) : maskTaken p s = waitJoined p (maskWritten p s) := by
  rcases joinWait_cases p (maskWritten p s) with ⟨on, _⟩ | ⟨_, e⟩
  · have off : poolPolicy (maskWritten p s).blk.tuning = 0 := policy
    rw [off] at on
    cases on
  · exact maskTaken_waits none full e

theorem maskTaken_preempts {sl : SlotId} {q : PairId} (policy : poolPolicy s.blk.tuning = 1)
    (victim : chooseVictim (waitJoined p (maskWritten p s)) = some (sl, q)) :
    maskTaken p s = orderRequests s.store.fills (preemptSlot sl q (waitJoined p (maskWritten p s))) := by
  rw [maskTaken_full none full]
  rcases joinWait_cases p (maskWritten p s) with ⟨_, o, x, found, e⟩ | ⟨no, _⟩
  · rw [victim] at found
    cases found
    rw [e]
  · rw [no policy] at victim
    cases victim

/-- The pool once the victim's slot has gone to the oldest waiting pair. -/
theorem maskTaken_preempted {sl : SlotId} {q w : PairId} {left : List PairId} (policy : poolPolicy s.blk.tuning = 1)
    (victim : chooseVictim (waitJoined p (maskWritten p s)) = some (sl, q))
    (queue : s.alloc.waiting ++ [p] ++ [q] = w :: left) :
    (maskTaken p s).alloc.waiting = left ∧ (maskTaken p s).alloc.slots = s.alloc.slots.set sl (.running w) ∧
      (maskTaken p s).alloc.pairs = ((s.alloc.pairs.set p .waiting).set q .waiting).set w (.held sl) ∧
      (maskTaken p s).core.slots[sl].ticket = s.core.slots[sl].ticket + 2 ∧
      (maskTaken p s).core.slots[sl].origin = .cold ∧ (maskTaken p s).ctl.slots[sl] = ⟨.warmup, 0, 0⟩ := by
  have joined := (waitJoined_joined p (maskWritten p s)).eq
  have waiting : (waitJoined p (maskWritten p s)).alloc.waiting = s.alloc.waiting ++ [p] := by rw [joined]; rfl
  have slots : (waitJoined p (maskWritten p s)).alloc.slots = s.alloc.slots := by rw [joined]; rfl
  have pairs : (waitJoined p (maskWritten p s)).alloc.pairs = s.alloc.pairs.set p .waiting := by rw [joined]; rfl
  have core : (waitJoined p (maskWritten p s)).core = s.core := by rw [joined]; rfl
  have done := preemptSlot_preempted (s := waitJoined p (maskWritten p s)) (sl := sl) (by rw [waiting]; exact queue)
  rw [maskTaken_preempts none full policy victim]
  generalize preemptSlot sl q (waitJoined p (maskWritten p s)) = u at done
  obtain ⟨after, held, entries, ticket, origin, record⟩ := done
  rw [slots] at held
  rw [pairs] at entries
  rw [core] at ticket
  exact ⟨after, held, entries, ticket, origin, record⟩

/-- The capture of the victim, under its beam's tag (R113, R125). -/
theorem maskTaken_captures {sl : SlotId} {q : PairId} (policy : poolPolicy s.blk.tuning = 1)
    (victim : chooseVictim (waitJoined p (maskWritten p s)) = some (sl, q)) :
    (Eligible s sl q → s.store.captures.length < 8 →
      (maskTaken p s).store.captures = s.store.captures ++ [captureOf s sl q]) ∧
    (Eligible s sl q → 8 ≤ s.store.captures.length →
      (maskTaken p s).store.captures = s.store.captures ∧ (maskTaken p s).ev.status = s.ev.status ||| 16 ||| 64) ∧
    (¬ Eligible s sl q → (maskTaken p s).store.captures = s.store.captures) := by
  have joined := (waitJoined_joined p (maskWritten p s)).eq
  have captures : (waitJoined p (maskWritten p s)).store.captures = s.store.captures := by rw [joined]; rfl
  have status : (waitJoined p (maskWritten p s)).ev.status = s.ev.status ||| 16 := by rw [joined]; rfl
  have owed : (victimTask (waitJoined p (maskWritten p s)) sl q).owed (waitJoined p (maskWritten p s)) =
      if eligible sl q s then some (captureOf s sl q) else Option.none := by rw [joined]; rfl
  have reports := preemptSlot_reports (s := waitJoined p (maskWritten p s)) (sl := sl) (q := q)
  rw [owed, captures, status] at reports
  rw [maskTaken_preempts none full policy victim]
  generalize preemptSlot sl q (waitJoined p (maskWritten p s)) = u at reports
  show (_ → _ → u.store.captures = _) ∧ (_ → _ → u.store.captures = _ ∧ u.ev.status = _) ∧ (_ → u.store.captures = _)
  obtain ⟨area, told⟩ := reports
  refine ⟨fun able room => ?_, fun able noRoom => ⟨?_, ?_⟩, fun unable => ?_⟩
  · rw [area, if_pos ((eligible_iff_eligible sl q s).2 able), Option.toList_some,
      List.take_of_length_le (by rw [List.length_singleton]; omega)]
  · rw [area, show 8 - s.store.captures.length = 0 by omega, List.take_zero, List.append_nil]
  · rw [told, if_pos ((eligible_iff_eligible sl q s).2 able), Option.toList_some, List.length_singleton,
      if_pos (by omega)]
  · rw [area, if_neg (mt (eligible_iff_eligible sl q s).1 unable), Option.toList_none, List.take_nil, List.append_nil]

end Mask

theorem eligible_cmd (c : Command) (s : State) (sl : SlotId) (q : PairId) :
    Eligible { s with cmd := c } sl q ↔ Eligible s sl q := by
  rw [← eligible_iff_eligible, ← eligible_iff_eligible]
  rfl

theorem completeReply_blocks (r : Msg) (s : State) :
    (completeReply r s).alloc = s.alloc ∧ (completeReply r s).core = s.core ∧ (completeReply r s).ctl = s.ctl ∧
      (completeReply r s).store = s.store ∧ (completeReply r s).ev = s.ev := by
  rw [completeReply_eq]
  exact ⟨rfl, rfl, rfl, rfl, rfl⟩

/-- Settles O56: the events of the tables one by one, and the wants of a single pair. -/
theorem delayChanged : Obligations.DelayChanged := by
  unfold Obligations.DelayChanged
  refine ⟨fun r s => delayChange_clears r s, fun s r d rest ready small change silent =>
    referenceTableWrite_delay ready small change silent, fun s tb m rest => tableWrite_served, ?_, fun before s =>
    ⟨⟨rfl, rfl, rfl⟩, tuningEvent_effects s, ?_⟩, fun s p rest ready masked op mode on loud => ?_⟩
  · rintro before s tb (rfl | rfl)
    · exact orderRequests_formed s.store.fills (changePairs (wantedPairs before) s)
    · exact orderRequests_formed s.store.fills (changePairs (wantedPairs before) s)
  · obtain ⟨still, rehands⟩ := rehandMonitors_effects s
    refine ⟨still, fun live now => ?_⟩
    obtain ⟨frame, points⟩ := rehands live now
    refine ⟨frame, fun k => ?_⟩
    obtain ⟨bands, previous, samples, repeats⟩ := points k
    exact ⟨bands.trans (monitorBands_eq s s.out.monitors[k]), previous, samples,
      repeats.trans (monitorRepeat_eq s.out.monitors[k])⟩
  · refine ⟨_, pairmaskTableWrite_one ready masked op mode on loud, ?_⟩
    obtain ⟨alloc, core, ctl, store, ev⟩ :=
      completeReply_blocks ⟨0x90, [0, 0]⟩ (maskTaken p { s with cmd := afterTaking s rest })
    generalize completeReply ⟨0x90, [0, 0]⟩ (maskTaken p { s with cmd := afterTaking s rest }) = t at *
    rw [alloc, core, ctl, store, ev]
    refine ⟨maskTaken_mask, fun sl tag q entry draining => ?_, fun sl none free small lowest => ?_,
      fun none full => maskTaken_status (s := { s with cmd := afterTaking s rest }) none full,
      fun none full policy => ?_, fun sl q none full policy _ running lingers least w left queue => ?_⟩
    · rw [maskTaken_draining (s := { s with cmd := afterTaking s rest }) entry draining]
      exact ⟨rfl, rfl, rfl, rfl, rfl⟩
    · have taken := maskTaken_free (s := { s with cmd := afterTaking s rest }) none free small lowest
      have made := assignSlot_made sl p (maskWritten p { s with cmd := afterTaking s rest })
      rw [taken] at core ctl ⊢
      rw [assignSlot_alloc, assignSlot_fills]
      exact ⟨rfl, rfl, ⟨by rw [core]; exact made.taps, by rw [core]; exact made.ticket,
        by rw [core]; exact made.origin, by rw [ctl]; exact made.record⟩, rfl⟩
    · rw [maskTaken_keeps (s := { s with cmd := afterTaking s rest }) none full policy, (waitJoined_joined p _).eq]
      exact ⟨rfl, rfl, rfl, rfl⟩
    · have victim := waitJoined_victim (s := { s with cmd := afterTaking s rest }) (p := p) running lingers least
      obtain ⟨waiting, slots, pairs, ticket, origin, record⟩ :=
        maskTaken_preempted (s := { s with cmd := afterTaking s rest }) none full policy victim queue
      obtain ⟨room, noRoom, unable⟩ :=
        maskTaken_captures (s := { s with cmd := afterTaking s rest }) none full policy victim
      rw [eligible_cmd] at room noRoom unable
      exact ⟨waiting, slots, pairs, ticket, origin, record, room, noRoom, unable⟩

end Sys2Proof.Machine
end

