-- ==== Sys2Proof/Proofs/Signal.lean ====
section
/-! PROOF. The signal work of a boundary up to the Controller: the banks, the histories, the estimates and the errors
(O33, R23, R24, R40 to R42, R49, R55 to R59). -/

namespace Sys2Proof.Machine

/-! ### The banks take the block (R23, R40, R41) -/

/-- The samples of a reference's analysis bank after the block. -/
def refSamples (s : State) (r : RefId) : List Sample :=
  bankPush s.banks.refHist[r] (lineBlock s.tracker.lines[r] s.tracker.refs[r].delay)

/-- The samples of a beam's analysis bank after the block. -/
def beamSamples (s : State) (b : BeamId) : List Sample :=
  bankPush s.banks.beamHist[b] (lineBlock s.out.bypass[b] 0)

/-- The part once the Core has pushed the block on its histories. -/
def pushed (s : State) : State := pushHistories (decideBlock (analyseBlock (pushLock (snapshotBlock s))))

theorem estimated_eq (s : State) : estimated s = estimateBlock (pushed s) := rfl

section Opened

variable (s : State)

theorem pushed_beamHist (b : BeamId) : (pushed s).banks.beamHist[b] = beamSamples s b := by
  have stage : (pushed s).banks.beamHist = Vector.ofFn (beamSamples s) := rfl
  rw [stage, getElem_ofFn_fin]

theorem pushed_refHist (r : RefId) : (pushed s).banks.refHist[r] = refSamples s r := by
  have stage : (pushed s).banks.refHist = Vector.ofFn (refSamples s) := rfl
  rw [stage, getElem_ofFn_fin]

theorem pushed_refBands (r : RefId) : (pushed s).blk.refBands[r] = analyse (refSamples s r) := by
  have stage : (pushed s).blk.refBands = Vector.ofFn fun r : RefId => analyse (Vector.ofFn (refSamples s))[r] := rfl
  rw [stage, getElem_ofFn_fin, getElem_ofFn_fin]

theorem pushed_micBands (b : BeamId) : (pushed s).blk.work[b].micBands = analyse (beamSamples s b) := by
  have stage : (pushed s).blk.work = Vector.ofFn fun b : BeamId =>
      { (snapshotBlock s).blk.work[b] with micBands := analyse (Vector.ofFn (beamSamples s))[b] } := rfl
  rw [stage, getElem_ofFn_fin]
  dsimp only
  rw [getElem_ofFn_fin]

theorem pushed_level (r : RefId) : (pushed s).tracker.refs[r] =
    { s.tracker.refs[r] with level := lu (blockEnergy (pushed s).blk.refBands[r]) } := by
  have stage : (pushed s).tracker.refs = Vector.ofFn fun r : RefId =>
      { s.tracker.refs[r] with level := lu (blockEnergy (pushed s).blk.refBands[r]) } := rfl
  rw [stage, getElem_ofFn_fin]

theorem pushed_hist (r : RefId) :
    (pushed s).core.hist[r] = ((pushed s).blk.refBands[r] :: s.core.hist[r]).take 384 := by
  have stage : (pushed s).core.hist =
      Vector.ofFn fun r : RefId => pushHistory s.core.hist[r] (pushed s).blk.refBands[r] := rfl
  rw [stage, getElem_ofFn_fin]
  rfl

theorem foldl_add_nat {α : Type} (f : α → Nat) (l : List α) (n : Nat) :
    l.foldl (fun p x => p + f x) n = n + (l.map f).sum := by
  induction l generalizing n with
  | nil => rfl
  | cons x l ih => rw [List.foldl_cons, ih, List.map_cons, List.sum_cons, Nat.add_assoc]

theorem windowPower_sum (T : Nat) (h : List Bands) (j : Fin 32) :
    windowPower T h j = ((h.take T).map fun x => energy x[j]).sum := by
  unfold windowPower
  rw [foldl_add_nat (fun x : Bands => energy x[j]), Nat.zero_add]

theorem pushed_power (r : RefId) (j : Fin 32) : (pushed s).core.power[r][j] =
    (((pushed s).core.hist[r].take (tailLen s)).map fun x => energy x[j]).sum := by
  have stage : (pushed s).core.power = Vector.ofFn fun r : RefId =>
      Vector.ofFn fun j : Fin 32 => windowPower (tailLen s) (pushed s).core.hist[r] j := rfl
  rw [stage, getElem_ofFn_fin, getElem_ofFn_fin, windowPower_sum]

theorem pushed_beamSynth (b : BeamId) : (pushed s).banks.beamSynth[b] = synthAge s.banks.beamSynth[b] := by
  have stage : (pushed s).banks.beamSynth = Vector.ofFn fun b : BeamId => synthAge s.banks.beamSynth[b] := rfl
  rw [stage, getElem_ofFn_fin]

theorem pushed_monSynth (k : Fin 2) : (pushed s).banks.monSynth[k] = synthAge s.banks.monSynth[k] := by
  have stage : (pushed s).banks.monSynth = Vector.ofFn fun k : Fin 2 => synthAge s.banks.monSynth[k] := rfl
  rw [stage, getElem_ofFn_fin]

theorem estimated_work (b : BeamId) :
    (estimated s).blk.work[b] = estimateBeam (pushed s) (slotsOfBlock (pushed s)) b := by
  have stage : (estimated s).blk.work = Vector.ofFn (estimateBeam (pushed s) (slotsOfBlock (pushed s))) := rfl
  rw [stage, getElem_ofFn_fin]

theorem estimated_micLu (b : BeamId) : (estimated s).core.micLu[b] = (estimated s).blk.work[b].mic := by
  have stage : (estimated s).core.micLu = Vector.ofFn fun b : BeamId => (estimated s).blk.work[b].mic := rfl
  rw [stage, getElem_ofFn_fin]

/-- What the Controller hands on of a beam's block keeps the levels and the band values (R78). -/
theorem controlled_work (active : RefId → Bool) (b : BeamId) : (controlled active s b).2 = { s.blk.work[b] with
    far := (controlled active s b).2.far, near := (controlled active s b).2.near
    talk := (controlled active s b).2.talk, erle := (controlled active s b).2.erle
    frozen := s.blk.beams[b].frozen, divCtr := (controlled active s b).2.divCtr
    degCtr := (controlled active s b).2.degCtr, degraded := (controlled active s b).2.degraded } := by
  unfold controlled
  split
  · rfl
  · rfl

end Opened

end Sys2Proof.Machine
end

