-- ==== Sys2Proof/Proofs/Echo.lean ====
section
/-! PROOF. The band values of the analysis banks, and the Core's estimates and errors as the exact sums of the manual
(O33, R40, R41, R57 to R59). -/

namespace Sys2Proof.Machine

/-! ### Analysis (R40, R41) -/

theorem lineBlock_length (line : List Sample) (blocks : Nat) : (lineBlock line blocks).length = 48 := by
  simp [lineBlock]

theorem bankPush_getD (hist line : List Sample) (blocks : Nat) {i : Nat} (small : i < 240) :
    (bankPush hist (lineBlock line blocks)).getD i 0 =
      if i < 48 then line.getD (48 * blocks + i) 0 else hist.getD (i - 48) 0 := by
  have window : (bankPush hist (lineBlock line blocks))[i]? = (lineBlock line blocks ++ hist)[i]? := by
    unfold bankPush
    rw [List.getElem?_take, if_pos (show i < bankWindow from small)]
  rw [List.getD_eq_getElem?_getD, window]
  by_cases new : i < 48
  · rw [List.getElem?_append_left (by rw [lineBlock_length]; exact new), if_pos new]
    simp [lineBlock, new]
  · rw [List.getElem?_append_right (by rw [lineBlock_length]; omega), lineBlock_length, if_neg new,
      List.getD_eq_getElem?_getD]

theorem bankPush_length (hist block : List Sample) : (bankPush hist block).length ≤ 240 := List.length_take_le _ _

theorem sat24_bounds (x : Int) : -8388608 ≤ sat24 x ∧ sat24 x ≤ 8388607 := by
  unfold sat24 saturate
  omega

theorem analyse_bounded (h : List Sample) (j : Fin 32) :
    -8388608 ≤ (analyse h)[j].re ∧ (analyse h)[j].re ≤ 8388607 ∧
      -8388608 ≤ (analyse h)[j].im ∧ (analyse h)[j].im ≤ 8388607 := by
  unfold analyse
  rw [bandsOf_get]
  exact ⟨(sat24_bounds _).1, (sat24_bounds _).2, sat24_bounds _⟩

theorem analyse_silent {h : List Sample} (silent : ∀ x ∈ h, x = 0) (j : Fin 32) : (analyse h)[j] = ⟨0, 0⟩ := by
  have zero : analyse h = zeroBands := if_pos (List.all_eq_true.2 fun x mem => beq_iff_eq.2 (silent x mem))
  rw [zero]
  simp [zeroBands, czero]

/-- Banks whose samples are those of the block, and band values that are theirs, are as the manual has them. -/
theorem banksAnalyse_of {s t : State} (beams : ∀ b : BeamId, t.banks.beamHist[b] = beamSamples s b)
    (refs : ∀ r : RefId, t.banks.refHist[r] = refSamples s r)
    (mic : ∀ b : BeamId, t.blk.work[b].micBands = analyse (beamSamples s b))
    (bands : ∀ r : RefId, t.blk.refBands[r] = analyse (refSamples s r)) : BanksAnalyse s t where
  beams b i small := by
    rw [beams, beamSamples, bankPush_getD _ _ _ small, Nat.mul_zero, Nat.zero_add]
  refs r i small := by rw [refs, refSamples, bankPush_getD _ _ _ small]
  lengths := ⟨fun b => by rw [beams]; exact bankPush_length _ _, fun r => by rw [refs]; exact bankPush_length _ _⟩
  beamBands b := by rw [mic, beams]
  refBands r := by rw [bands, refs]
  bounded := analyse_bounded
  silent _ := analyse_silent

/-! ### Exact sums (R58, R59) -/

theorem foldl_cadd {α : Type} (f : α → Cx) (l : List α) (a : Cx) : l.foldl (fun acc e => cadd acc (f e)) a =
    ⟨a.re + (l.map fun e => (f e).re).sum, a.im + (l.map fun e => (f e).im).sum⟩ := by
  induction l generalizing a with
  | nil => simp
  | cons x l ih =>
    rw [List.foldl_cons, ih]
    simp only [cadd, List.map_cons, List.sum_cons, Int.add_assoc]

/-- A sum over the listed entries is one over so many, where an entry that is not listed adds nothing. -/
theorem sum_zipIdx_take {α : Type} (h : List α) (d : α) (g : α → Nat → Int) (zero : ∀ k, g d k = 0) (T : Nat) :
    ((h.take T).zipIdx.map fun e => g e.1 e.2).sum = ((List.range T).map fun k => g (h.getD k d) k).sum := by
  induction T with
  | zero => rfl
  | succ T ih =>
    rw [List.take_add_one, List.zipIdx_append, List.map_append, List.sum_append, ih, List.range_succ, List.map_append,
      List.sum_append]
    congr 1
    rw [List.map_singleton, List.getD_eq_getElem?_getD]
    cases e : h[T]? with
    | none => simp [zero]
    | some x =>
      have long : T < h.length := (List.getElem?_eq_some_iff.1 e).1
      simp [Nat.min_eq_left long.le]

/-- The exact sum of a slot's estimate in a band, tap by tap (R58). -/
theorem slotSum_eq (mem : TapMem) (T sl : Nat) (h : List Bands) (j : Fin 32) :
    slotSum mem T sl h j =
      ⟨((List.range T).map fun k => (memGet mem (tapAddr T sl j.val k)).re.toInt * (h.getD k zeroBands)[j].re -
          (memGet mem (tapAddr T sl j.val k)).im.toInt * (h.getD k zeroBands)[j].im).sum,
        ((List.range T).map fun k => (memGet mem (tapAddr T sl j.val k)).re.toInt * (h.getD k zeroBands)[j].im +
          (memGet mem (tapAddr T sl j.val k)).im.toInt * (h.getD k zeroBands)[j].re).sum⟩ := by
  have skip : ∀ (acc : Cx) (e : Bands × Nat), (if e.1[j] = czero then acc
      else cadd acc (cmul (tapCx (memGet mem (tapAddr T sl j.val e.2))) e.1[j])) =
        cadd acc (cmul (tapCx (memGet mem (tapAddr T sl j.val e.2))) e.1[j]) := by
    intro acc e
    split
    · next silent => rw [silent]; simp [cadd, cmul, czero]
    · rfl
  have zero : (zeroBands : Bands)[j] = czero := by simp [zeroBands]
  unfold slotSum
  simp only [skip]
  rw [foldl_cadd (fun e : Bands × Nat => cmul (tapCx (memGet mem (tapAddr T sl j.val e.2))) e.1[j])]
  have re := sum_zipIdx_take h zeroBands (fun x k => (cmul (tapCx (memGet mem (tapAddr T sl j.val k))) x[j]).re)
    (fun k => by simp [zero, cmul, czero]) T
  have im := sum_zipIdx_take h zeroBands (fun x k => (cmul (tapCx (memGet mem (tapAddr T sl j.val k))) x[j]).im)
    (fun k => by simp [zero, cmul, czero]) T
  rw [re, im]
  simp [cmul, tapCx, czero]

/-- The sum over the slots of the block that serve a beam, as one over all slots (R57, R59). -/
theorem slotsOfBeam_sum (s : State) (b : BeamId) (g : SlotId → PairId → Int) :
    ((slotsOfBeam (slotsOfBlock s) b).map fun e => g e.1 e.2).sum = (allSlots.map fun sl =>
      match s.alloc.slots[sl] with
      | .running p => if pairBeam p = b then g sl p else 0
      | .free => 0
      | .draining _ _ _ => 0).sum := by
  unfold slotsOfBeam slotsOfBlock
  generalize allSlots = l
  induction l with
  | nil => rfl
  | cons sl l ih =>
    rw [List.filterMap_cons, List.map_cons, List.sum_cons, ← ih]
    cases state : s.alloc.slots[sl] with
    | free => simp
    | draining p tag q => simp
    | running p =>
      dsimp only
      rw [List.filter_cons]
      by_cases own : pairBeam p = b
      · simp [own]
      · simp [own]

/-- A beam's total estimate in a band (R59). -/
theorem beamEstimate_get (mem : TapMem) (T : Nat) (hist : Vector (List Bands) 8) (slots : List (SlotId × PairId))
    (j : Fin 32) : (beamEstimate mem T hist slots)[j] = csat24
      ⟨(slots.map fun e => (slotEstimate mem T e.1.val hist[pairRef e.2] j).re).sum,
        (slots.map fun e => (slotEstimate mem T e.1.val hist[pairRef e.2] j).im).sum⟩ := by
  unfold beamEstimate
  split
  · next none =>
    subst none
    simp [zeroBands, czero, csat24, sat24, saturate]
  · rw [getElem_ofFn_fin, foldl_cadd (fun e : SlotId × PairId => slotEstimate mem T e.1.val hist[pairRef e.2] j)]
    simp [czero]

/-- Work of a beam whose estimate is that of the slots of the block is as the manual has it. -/
theorem echoCancelled_of {s u t : State} {b : BeamId} (mem : u.core.mem = s.core.mem) (tail : tailLen u = tailLen s)
    (alloc : u.alloc.slots = s.alloc.slots) (hist : t.core.hist = u.core.hist)
    (mic : t.blk.work[b].mic = lu (blockEnergy t.blk.work[b].micBands))
    (echo : t.blk.work[b].echo = lu (blockEnergy t.blk.work[b].echoBands))
    (res : t.blk.work[b].res = lu (blockEnergy t.blk.work[b].errBands))
    (total : t.blk.work[b].echoBands =
      beamEstimate u.core.mem (tailLen u) u.core.hist (slotsOfBeam (slotsOfBlock u) b))
    (error : t.blk.work[b].errBands = beamError t.blk.work[b].micBands t.blk.work[b].echoBands) :
    EchoCancelled s t b where
  mic := mic
  echo := echo
  res := res
  estimate j := by
    dsimp only
    rw [total, beamEstimate_get, slotsOfBeam_sum u b fun sl p => (slotEstimate _ _ sl.val u.core.hist[pairRef p] j).re,
      slotsOfBeam_sum u b fun sl p => (slotEstimate _ _ sl.val u.core.hist[pairRef p] j).im, mem, tail, alloc, hist]
    simp only [slotEstimate, slotSum_eq]
    rfl
  error j := by
    dsimp only
    rw [error, beamError, getElem_ofFn_fin]
    rfl

end Sys2Proof.Machine
end

