-- ==== Sys2Proof/Proofs/Update.lean ====
section
/-! PROOF. The coefficient update, tap by tap and slot by slot: every tap of a granted slot moves once, and no tap of
another slot does (O33, R52, R61 to R65). -/

namespace Sys2Proof.Machine

/-! ### One tap (R62 to R64) -/

/-- A tap moved for a reference value, with whether a component of it saturated (R64). -/
def tapMoved (u : UpdateInput) (x : Bands) (j : Fin 32) (old : Tap) : Tap × Bool :=
  updateTap old (tapIncrement (stepOf u.step u.phase j) u.err[j] x[j] (u.power[j] + u.delta))

theorem satCoef_coef (c : BitVec 18) : satCoef c.toInt = c.toInt := by
  have low := BitVec.le_toInt c
  have high := BitVec.toInt_lt (x := c)
  unfold satCoef saturate
  omega

theorem roundDiv_none (d : Nat) : roundDiv 0 d = 0 := by
  unfold roundDiv
  by_cases zero : d = 0
  · subst zero; rfl
  · have small : d / (2 * d) = 0 := Nat.div_eq_of_lt (by omega)
    simp [small]

theorem updateTap_none (t : Tap) : updateTap t czero = (t, false) := by
  simp [updateTap, czero, satCoef_coef]

/-- A reference value of (0, 0) moves no tap. -/
theorem tapMoved_silent {u : UpdateInput} {x : Bands} {j : Fin 32} (silent : x[j] = czero) (old : Tap) :
    tapMoved u x j old = (old, false) := by
  have none : tapIncrement (stepOf u.step u.phase j) u.err[j] x[j] (u.power[j] + u.delta) = czero := by
    rw [silent]
    simp [tapIncrement, czero, cmul, roundDiv_none]
  rw [tapMoved, none, updateTap_none]

/-! ### The taps of a slot -/

/-- A tap to be moved: its reference value with its number, and its band. -/
abbrev TapTask := (Bands × Nat) × Fin 32

/-- The address of a task's tap. -/
def taskAddr (u : UpdateInput) (y : TapTask) : Nat := tapAddr u.tailLen u.slot y.2.val y.1.2

/-- One task's turn in the update of a slot. -/
def moveOne (u : UpdateInput) (acc : TapMem × Bool) (y : TapTask) : TapMem × Bool :=
  updateOne u y.1.2 y.1.1 acc y.2

/-- The taps of a slot that are moved. -/
def tapTasks (u : UpdateInput) : List TapTask := ((u.hist.take u.tailLen).zipIdx).product (List.finRange 32)

theorem updateSlot_eq (u : UpdateInput) (mem : TapMem) : updateSlot u mem = (tapTasks u).foldl (moveOne u) (mem, false) := by
  unfold updateSlot tapTasks List.product
  rw [List.foldl_flatMap]
  simp only [List.foldl_map]
  rfl

theorem mem_tapTasks {u : UpdateInput} {y : TapTask} :
    y ∈ tapTasks u ↔ y.1.2 < u.tailLen ∧ u.hist[y.1.2]? = some y.1.1 := by
  unfold tapTasks
  refine (List.mem_product (a := y.1)).trans ?_
  rw [List.mem_zipIdx_iff_getElem?, List.getElem?_take]
  simp only [List.mem_finRange, and_true]
  split
  · next small => exact ⟨fun e => ⟨small, e⟩, And.right⟩
  · next large => exact ⟨nofun, fun both => absurd both.1 large⟩

theorem tapTasks_nodup (u : UpdateInput) : (tapTasks u).Nodup := by
  refine List.Nodup.product ?_ (List.nodup_finRange 32)
  refine List.Nodup.of_map Prod.snd ?_
  rw [List.zipIdx_map_snd]
  exact List.nodup_range'

theorem taskAddr_inj {u : UpdateInput} {y z : TapTask} (hy : y ∈ tapTasks u) (hz : z ∈ tapTasks u)
    (same : taskAddr u y = taskAddr u z) : y = z := by
  obtain ⟨small, value⟩ := mem_tapTasks.1 hy
  obtain ⟨small', value'⟩ := mem_tapTasks.1 hz
  obtain ⟨-, band, number⟩ := tapAddr_inj small small' same
  rw [number, value'] at value
  exact Prod.ext (Prod.ext (Option.some.inj value).symm number) band

theorem moveOne_get {u : UpdateInput} {acc : TapMem × Bool} (wf : memWf acc.1 = true) (y : TapTask) :
    (∀ a, memGet (moveOne u acc y).1 a =
      if a = taskAddr u y then (tapMoved u y.1.1 y.2 (memGet acc.1 a)).1 else memGet acc.1 a) ∧
    (moveOne u acc y).2 = (acc.2 || (tapMoved u y.1.1 y.2 (memGet acc.1 (taskAddr u y))).2) := by
  unfold moveOne updateOne
  split
  · next silent =>
    refine ⟨fun a => ?_, ?_⟩
    · rw [tapMoved_silent silent, ite_self]
    · rw [tapMoved_silent silent, Bool.or_false]
  · refine ⟨fun a => ?_, rfl⟩
    dsimp only
    rw [memGet_memPut wf]
    split
    · next own => rw [own]; exact (if_pos rfl).symm
    · next other => exact (if_neg other).symm

/-- What moving the taps of tasks with addresses of their own leaves. -/
structure TapsMoved (u : UpdateInput) (acc r : TapMem × Bool) (l : List TapTask) : Prop where
  wf : memWf r.1 = true
  others : ∀ a, (∀ y ∈ l, taskAddr u y ≠ a) → memGet r.1 a = memGet acc.1 a
  moved : ∀ y ∈ l, memGet r.1 (taskAddr u y) = (tapMoved u y.1.1 y.2 (memGet acc.1 (taskAddr u y))).1
  clamped : r.2 = true ↔ acc.2 = true ∨ ∃ y ∈ l, (tapMoved u y.1.1 y.2 (memGet acc.1 (taskAddr u y))).2 = true

theorem moveTaps (u : UpdateInput) (l : List TapTask) (distinct : l.Pairwise fun y z => taskAddr u y ≠ taskAddr u z)
    {acc : TapMem × Bool} (wf : memWf acc.1 = true) : TapsMoved u acc (l.foldl (moveOne u) acc) l := by
  induction l generalizing acc with
  | nil => exact ⟨wf, fun _ _ => rfl, nofun, by simp⟩
  | cons y l ih =>
    obtain ⟨fresh, distinct⟩ := List.pairwise_cons.1 distinct
    obtain ⟨get, flag⟩ := moveOne_get wf y
    have rest := ih distinct (acc := moveOne u acc y) (updateOne_wf u _ _ acc _ wf)
    have same : ∀ z ∈ l, memGet (moveOne u acc y).1 (taskAddr u z) = memGet acc.1 (taskAddr u z) := fun z hz => by
      rw [get, if_neg (fresh z hz).symm]
    refine ⟨rest.wf, fun a apart => ?_, fun z hz => ?_, ?_⟩
    · rw [List.foldl_cons, rest.others a fun z hz => apart z (List.mem_cons_of_mem _ hz), get,
        if_neg (apart y List.mem_cons_self).symm]
    · rw [List.foldl_cons]
      rcases List.mem_cons.1 hz with rfl | later
      · rw [rest.others _ fun w hw => (fresh w hw).symm, get, if_pos rfl]
      · rw [rest.moved z later, same z later]
    · rw [List.foldl_cons, rest.clamped, flag, Bool.or_eq_true, or_assoc]
      refine or_congr_right ?_
      constructor
      · rintro (here | ⟨z, hz, e⟩)
        · exact ⟨y, List.mem_cons_self, here⟩
        · exact ⟨z, List.mem_cons_of_mem _ hz, same z hz ▸ e⟩
      · rintro ⟨z, hz, e⟩
        rcases List.mem_cons.1 hz with rfl | later
        · exact .inl e
        · exact .inr ⟨z, later, (same z later).symm ▸ e⟩

/-- Tap k of band j of a slot after the slot's update (R61, R64). -/
def tapAfter (u : UpdateInput) (mem : TapMem) (j : Fin 32) (k : Nat) : Tap :=
  match u.hist[k]? with
  | some x => (tapMoved u x j (memGet mem (tapAddr u.tailLen u.slot j.val k))).1
  | none => memGet mem (tapAddr u.tailLen u.slot j.val k)

/-- The update of a slot saturates a component of some tap (R64, R65). -/
def Clamps (u : UpdateInput) (mem : TapMem) : Prop :=
  ∃ (j : Fin 32) (k : Nat) (x : Bands), k < u.tailLen ∧ u.hist[k]? = some x ∧
    (tapMoved u x j (memGet mem (tapAddr u.tailLen u.slot j.val k))).2 = true

/-- The update of a slot moves each of its taps that has a reference value, and nothing else (R61, R64, R65). -/
structure SlotMoved (u : UpdateInput) (mem : TapMem) (r : TapMem × Bool) : Prop where
  wf : memWf r.1 = true
  taps : ∀ (j : Fin 32) (k : Nat), k < u.tailLen →
    memGet r.1 (tapAddr u.tailLen u.slot j.val k) = tapAfter u mem j k
  others : ∀ (sl : Nat) (j : Fin 32) (k : Nat), sl ≠ u.slot → k < u.tailLen →
    memGet r.1 (tapAddr u.tailLen sl j.val k) = memGet mem (tapAddr u.tailLen sl j.val k)
  clamped : r.2 = true ↔ Clamps u mem

theorem updateSlot_moved (u : UpdateInput) {mem : TapMem} (wf : memWf mem = true) :
    SlotMoved u mem (updateSlot u mem) := by
  have distinct : (tapTasks u).Pairwise fun y z => taskAddr u y ≠ taskAddr u z :=
    (tapTasks_nodup u).imp_of_mem fun hy hz other same => other (taskAddr_inj hy hz same)
  have moved := moveTaps u (tapTasks u) distinct (acc := (mem, false)) wf
  rw [← updateSlot_eq] at moved
  refine ⟨moved.wf, fun j k small => ?_, fun sl j k other small => ?_, ?_⟩
  · unfold tapAfter
    cases value : u.hist[k]? with
    | some x => exact moved.moved ((x, k), j) (mem_tapTasks.2 ⟨small, value⟩)
    | none =>
      refine moved.others _ fun y hy same => ?_
      obtain ⟨small', value'⟩ := mem_tapTasks.1 hy
      obtain ⟨-, -, number⟩ := tapAddr_inj small' small same
      rw [number, value] at value'
      cases value'
  · refine moved.others _ fun y hy same => ?_
    obtain ⟨slot, -, -⟩ := tapAddr_inj (mem_tapTasks.1 hy).1 small same
    exact other slot.symm
  · rw [moved.clamped]
    constructor
    · rintro (no | ⟨⟨⟨x, k⟩, j⟩, hy, e⟩)
      · cases no
      · obtain ⟨small, value⟩ := mem_tapTasks.1 hy
        exact ⟨j, k, x, small, value, e⟩
    · rintro ⟨j, k, x, small, value, e⟩
      exact .inr ⟨((x, k), j), mem_tapTasks.2 ⟨small, value⟩, e⟩

/-- Two coefficient memories hold the same taps of a slot. -/
def SameTaps (T sl : Nat) (mem mem' : TapMem) : Prop :=
  ∀ (j : Fin 32) (k : Nat), k < T → memGet mem' (tapAddr T sl j.val k) = memGet mem (tapAddr T sl j.val k)

theorem tapAfter_congr {u : UpdateInput} {mem mem' : TapMem} (same : SameTaps u.tailLen u.slot mem mem')
    (j : Fin 32) {k : Nat} (small : k < u.tailLen) : tapAfter u mem' j k = tapAfter u mem j k := by
  unfold tapAfter
  rw [same j k small]

theorem clamps_congr {u : UpdateInput} {mem mem' : TapMem} (same : SameTaps u.tailLen u.slot mem mem') :
    Clamps u mem' ↔ Clamps u mem := by
  refine exists_congr fun j => exists_congr fun k => exists_congr fun x => and_congr_right fun small => ?_
  rw [same j k small]

/-! ### The slots of a block (R61, R65) -/

/-- What the update of slots with numbers of their own leaves: each granted slot moved, and each other kept. -/
structure SlotsMoved (s : State) (mem : TapMem) (r : TapMem × List BlockSlot) : Prop where
  moved : ∀ y ∈ r.2, y.granted = true →
    (∀ (j : Fin 32) (k : Nat), k < tailLen s →
      memGet r.1 (tapAddr (tailLen s) y.slot.val j.val k) = tapAfter (updateInput s y) mem j k) ∧
    (y.clamped = true ↔ Clamps (updateInput s y) mem)
  kept : ∀ sl : SlotId, (∀ y ∈ r.2, y.slot = sl → y.granted = false) → SameTaps (tailLen s) sl.val mem r.1

/-- One slot of the block updated where it is granted. -/
theorem updateGranted_moved (s : State) (x : BlockSlot) {mem : TapMem} (wf : memWf mem = true) :
    let u := if x.granted then updateSlot (updateInput s x) mem else (mem, false)
    memWf u.1 = true ∧
    (x.granted = true → SlotMoved (updateInput s x) mem u) ∧ (x.granted = false → u = (mem, false)) ∧
    ∀ sl : SlotId, sl ≠ x.slot → SameTaps (tailLen s) sl.val mem u.1 := by
  dsimp only
  cases granted : x.granted with
  | false => exact ⟨wf, nofun, fun _ => rfl, fun _ _ _ _ _ => rfl⟩
  | true =>
    have m := updateSlot_moved (updateInput s x) wf
    exact ⟨m.wf, fun _ => m, nofun, fun sl other j k small => m.others sl.val j k (fun e => other (Fin.ext e)) small⟩

theorem updateSlots_moved (s : State) (xs : List BlockSlot) (distinct : (xs.map (·.slot)).Nodup) {mem : TapMem}
    (wf : memWf mem = true) : SlotsMoved s mem (updateSlots s xs mem) := by
  induction xs generalizing mem with
  | nil => exact ⟨nofun, fun _ _ _ _ _ => rfl⟩
  | cons x xs ih =>
    obtain ⟨fresh, distinct⟩ := List.nodup_cons.1 distinct
    obtain ⟨wf', own, off, others⟩ := updateGranted_moved s x wf
    unfold updateSlots
    dsimp only
    generalize (if x.granted then updateSlot (updateInput s x) mem else (mem, false)) = u at wf' own off others ⊢
    have rest := ih distinct wf'
    have apart : ∀ y ∈ (updateSlots s xs u.1).2, y.slot ≠ x.slot := fun y hy same => by
      obtain ⟨z, hz, e⟩ := mem_updateSlots hy
      refine fresh (List.mem_map.2 ⟨z, hz, ?_⟩)
      calc z.slot = y.slot := by rw [e]
        _ = x.slot := same
    have headKept : SameTaps (tailLen s) x.slot.val u.1 (updateSlots s xs u.1).1 :=
      rest.kept x.slot fun y hy same => absurd same (apart y hy)
    refine ⟨fun y hy granted => ?_, fun sl none j k small => ?_⟩
    · rcases List.mem_cons.1 hy with rfl | later
      · have m := own granted
        exact ⟨fun j k small => (headKept j k small).trans (m.taps j k small), m.clamped⟩
      · obtain ⟨taps, clamped⟩ := rest.moved y later granted
        have same : SameTaps (tailLen s) y.slot.val mem u.1 := others y.slot (apart y later)
        exact ⟨fun j k small => (taps j k small).trans (tapAfter_congr (u := updateInput s y) same j small),
          clamped.trans (clamps_congr (u := updateInput s y) same)⟩
    · have tail := rest.kept sl (fun y hy => none y (List.mem_cons_of_mem _ hy)) j k small
      refine tail.trans ?_
      by_cases same : sl = x.slot
      · have not : x.granted = false := none { x with clamped := u.2 } List.mem_cons_self same.symm
        rw [off not]
      · exact others sl same j k small

/-- A slot that is not granted adaptation does not clamp (R53, R64). -/
theorem updateSlots_still {s : State} {xs : List BlockSlot} {mem : TapMem} {y : BlockSlot}
    (hy : y ∈ (updateSlots s xs mem).2) (not : y.granted = false) : y.clamped = false := by
  induction xs generalizing mem with
  | nil => cases hy
  | cons x xs ih =>
    rcases List.mem_cons.1 hy with rfl | later
    · have off : x.granted = false := not
      show (if x.granted then updateSlot (updateInput s x) mem else (mem, false)).2 = false
      rw [off, if_neg Bool.false_ne_true]
    · exact ih later

/-- The flag of a slot of the block, by its record (R65). -/
theorem clampedIn_of_mem {xs : List BlockSlot} (distinct : (xs.map (·.slot)).Nodup) {y : BlockSlot} (mem : y ∈ xs) :
    clampedIn xs y.slot = y.clamped := by
  rw [Bool.eq_iff_iff]
  unfold clampedIn
  rw [List.any_eq_true]
  constructor
  · rintro ⟨z, hz, e⟩
    rw [Bool.and_eq_true, beq_iff_eq] at e
    obtain ⟨same, clamped⟩ := e
    rw [← List.inj_on_of_nodup_map distinct hz mem same]
    exact clamped
  · intro clamped
    exact ⟨y, mem, by simp [clamped]⟩

/-- A slot whose records are all without a clamp has its flag off (R53, R64). -/
theorem clampedIn_none {xs : List BlockSlot} {sl : SlotId} (none : ∀ y ∈ xs, y.slot = sl → y.clamped = false) :
    clampedIn xs sl = false := by
  unfold clampedIn
  rw [List.any_eq_false]
  intro y hy e
  rw [Bool.and_eq_true, beq_iff_eq] at e
  rw [none y hy e.1] at e
  cases e.2

/-! ### The manual's formula (R61 to R65) -/

theorem stepOf_getD (step : Vector Byte 12) (ph : Phase) (j : Fin 32) : stepOf step ph j =
    (step.toList.getD ((match ph with | .warmup => 0 | .converging => 4 | .tracking => 8) + j.val / 8) 0).toNat := by
  have get : ∀ i (small : i < 12), (step[i]).toNat = (step.toList.getD i 0).toNat := fun i small => by
    simp [List.getD_eq_getElem?_getD, small]
  have quarter : j.val / 8 < 4 := by omega
  cases ph with
  | warmup => exact (get _ (by omega)).trans (by rw [Nat.zero_add])
  | converging => exact get _ (by omega)
  | tracking => exact get _ (by omega)

/-- The conjugate product of an increment, by component (R62). -/
theorem tapIncrement_eq (mu : Nat) (e x : Cx) (d : Nat) : tapIncrement mu e x d =
    ⟨roundDiv ((256 * mu : Nat) * (e.re * x.re + e.im * x.im)) d,
      roundDiv ((256 * mu : Nat) * (e.im * x.re - e.re * x.im)) d⟩ := by
  have re : 256 * (mu : Int) * (e.re * x.re - e.im * -x.im) = (256 * mu : Nat) * (e.re * x.re + e.im * x.im) := by
    push_cast; ring
  have im : 256 * (mu : Int) * (e.re * -x.im + e.im * x.re) = (256 * mu : Nat) * (e.im * x.re - e.re * x.im) := by
    push_cast; ring
  unfold tapIncrement cmul
  dsimp only
  rw [re, im]

/-- Coefficients moved as the block's update moves them are as the manual has them. -/
theorem slotUpdated_of {s t : State} {sl : SlotId} {p : PairId} {u : UpdateInput} (tail : u.tailLen = tailLen s)
    (slot : u.slot = sl.val) (step : u.step = s.core.step) (phase : u.phase = s.ctl.slots[sl].phase)
    (delta : u.delta = regDelta (regR s.cmd.tuning)) (err : u.err = t.blk.work[pairBeam p].errBands)
    (hist : u.hist = t.core.hist[pairRef p]) (power : u.power = t.core.power[pairRef p])
    (taps : ∀ (j : Fin 32) (k : Nat), k < tailLen s →
      memGet t.core.mem (tapAddr (tailLen s) sl.val j.val k) = tapAfter u s.core.mem j k)
    (clamped : t.core.slots[sl].clamped = true ↔ Clamps u s.core.mem) : SlotUpdated s t sl p := by
  have regular : regDelta (regR s.cmd.tuning) = 2 ^ 20 * regR s.cmd.tuning := Nat.mul_comm _ _
  constructor
  dsimp only
  refine ⟨fun j k small => ?_, clamped.trans ?_⟩
  · rw [taps j k small, tapAfter, hist]
    unfold tapMoved updateTap
    simp only [tapIncrement_eq, stepOf_getD, tail, slot, step, phase, delta, err, power, regular]
    cases t.core.hist[pairRef p][k]? <;> rfl
  · unfold Clamps
    rw [tail]
    refine exists_congr fun j => exists_congr fun k => exists_congr fun x => and_congr_right fun _ => ?_
    rw [hist]
    refine and_congr_right fun _ => ?_
    unfold tapMoved updateTap
    simp only [tapIncrement_eq, stepOf_getD, slot, step, phase, delta, err, power, regular, Bool.or_eq_true,
      bne_iff_ne]
    rfl

end Sys2Proof.Machine
end

