-- ==== Sys2Proof/Proofs/Suppression.lean ====
section
/-! PROOF. The Suppressor's event of a boundary, and its work in the manual's words (O33, R148 to R154). -/

namespace Sys2Proof.Machine

/-! ### A band (R149 to R154) -/

/-- A band suppressed as the Suppressor does it is as the manual has it. -/
theorem bandSuppressed_of {s t : State} {b : BeamId} {j : Fin 32} (i : SuppressInput) (tuning : i.tuning = s.cmd.tuning)
    (ceiling : i.ceiling = attMax s.cmd.tuning) (beam : i.beam = s.router.beams[b])
    (served : i.served = true ↔ ∃ (sl : SlotId) (p : PairId), s.alloc.slots[sl] = .running p ∧ pairBeam p = b)
    (err : i.work.errBands = t.blk.work[b].errBands) (echo : i.work.echoBands = t.blk.work[b].echoBands)
    (erle : i.work.erle = t.blk.work[b].erle) (talk : i.work.talk = t.blk.work[b].talk)
    (noise : i.noise = t.ctl.beams[b].noise) (old : i.att = s.supp.att[b])
    (draws : i.draws = (drawNoise 64 s.supp.lfsr[b]).1) (att : t.supp.att[b][j] = bandAtt i j)
    (out : t.blk.work[b].outBands[j] = bandOut i j) : BandSuppressed s t b j where
  attenuation := by
    have capped : ∀ n, capTarget s.cmd.tuning t.blk.work[b].talk n =
        if t.blk.work[b].talk = .double ∨ t.blk.work[b].talk = .hangover then min n (doubleCap s.cmd.tuning) else n := by
      intro n
      unfold capTarget
      cases t.blk.work[b].talk <;> simp
    rw [att]
    unfold bandAtt
    simp only [tuning, ceiling, beam, served, err, echo, erle, talk, old, capped]
    rfl
  value := by
    have noisy : ∀ (a : Int) (bit : Bool), a * noiseSign bit = if bit = true then a else -a := by
      intro a bit
      cases bit <;> simp [noiseSign]
    have amp : ((noiseAmp t.ctl.beams[b].noise (cnOffset s.cmd.tuning) : Nat) : Int) =
        2 ^ (max 0 (((t.ctl.beams[b].noise : Int) - cnOffset s.cmd.tuning - 48) / 16)).toNat := by
      unfold noiseAmp
      push_cast
      rfl
    dsimp only
    rw [out, att]
    unfold bandOut
    simp only [tuning, beam, err, noise, draws, noisy, amp]
    rfl

/-! ### The event (R148) -/

/-- The Suppressor has done a block's work, from the state `u`. -/
structure SuppressedFrom (u t : State) : Prop where
  supp : t.supp = (suppressBlock u).supp
  work : t.blk.work = (suppressBlock u).blk.work

theorem SuppressedFrom.att {u t : State} (h : SuppressedFrom u t) (b : BeamId) (j : Fin 32) :
    t.supp.att[b][j] = bandAtt (suppressInput u b) j := by
  rw [h.supp]
  have stage : (suppressBlock u).supp.att =
      Vector.ofFn fun b : BeamId => Vector.ofFn fun j => bandAtt (suppressInput u b) j := rfl
  rw [stage, getElem_ofFn_fin, getElem_ofFn_fin]

theorem SuppressedFrom.lfsr {u t : State} (h : SuppressedFrom u t) (b : BeamId) :
    t.supp.lfsr[b] = (drawNoise 64 u.supp.lfsr[b]).2 := by
  rw [h.supp]
  have stage : (suppressBlock u).supp.lfsr =
      Vector.ofFn fun b : BeamId => (drawNoise noiseDraws u.supp.lfsr[b]).2 := rfl
  rw [stage, getElem_ofFn_fin]
  rfl

theorem SuppressedFrom.out {u t : State} (h : SuppressedFrom u t) (b : BeamId) :
    t.blk.work[b] = { u.blk.work[b] with outBands := Vector.ofFn fun j => bandOut (suppressInput u b) j } := by
  rw [h.work]
  have stage : (suppressBlock u).blk.work = Vector.ofFn fun b : BeamId =>
      { u.blk.work[b] with outBands := Vector.ofFn fun j => bandOut (suppressInput u b) j } := rfl
  rw [stage, getElem_ofFn_fin]

/-- A live boundary's events hold the Suppressor's work once, from a state that the others have left as they do. -/
theorem quietEvents_suppressed {es : List BoundaryEvent} (once : es.Nodup) (mem : .suppress ∈ es) {o : State}
    (live : o.blk.live = true) :
    ∃ u, WorkKept o u ∧ u.supp = o.supp ∧ WorkKept u (quietEvents es o) ∧ SuppressedFrom u (quietEvents es o) := by
  refine quietEvents_once (P := fun u => WorkKept o u ∧ u.supp = o.supp)
    (Q := fun t => ∃ u, WorkKept o u ∧ u.supp = o.supp ∧ WorkKept u t ∧ SuppressedFrom u t) once mem
    ⟨.refl o, rfl⟩ ?_ ?_ ?_
  · rintro e - other u ⟨kept, supp⟩
    exact ⟨kept.trans (quietEvent_work e u), (quietEvent_supp other u).1.trans supp⟩
  · rintro u ⟨kept, supp⟩
    have here : quietEvent .suppress u = suppressBlock u := by
      show whileLive suppressBlock u = _
      unfold whileLive
      rw [if_pos (by rw [kept.blk]; exact live)]
    refine ⟨u, kept, supp, quietEvent_work _ u, ?_⟩
    rw [here]
    exact ⟨rfl, rfl⟩
  · rintro e - other t ⟨u, kept, supp, after, done⟩
    obtain ⟨same, work⟩ := quietEvent_supp other t
    exact ⟨u, kept, supp, after.trans (quietEvent_work e t), same.trans done.supp, work.trans done.work⟩

/-- A live boundary's events report the clamps of the block once (R19). -/
theorem quietEvents_clipping {es : List BoundaryEvent} (once : es.Nodup) (mem : .clipping ∈ es) {o : State}
    (live : o.blk.live = true) : (quietEvents es o).play.clamped = false ∧
      (quietEvents es o).ev.status.getLsbD 7 = (o.ev.status.getLsbD 7 || o.play.clamped) := by
  refine quietEvents_once (P := fun u => WorkKept o u ∧ u.play = o.play ∧
      u.ev.status.getLsbD 7 = o.ev.status.getLsbD 7)
    (Q := fun t => t.play.clamped = false ∧ t.ev.status.getLsbD 7 = (o.ev.status.getLsbD 7 || o.play.clamped))
    once mem ⟨.refl o, rfl, rfl⟩ ?_ ?_ ?_
  · rintro e - other u ⟨kept, play, status⟩
    obtain ⟨play', status'⟩ := quietEvent_play other u
    exact ⟨kept.trans (quietEvent_work e u), play'.trans play, status'.trans status⟩
  · rintro u ⟨kept, play, status⟩
    have here : quietEvent .clipping u = clippingEvent u := by
      show whileLive clippingEvent u = _
      unfold whileLive
      rw [if_pos (by rw [kept.blk]; exact live)]
    rw [here, ← play, ← status]
    unfold clippingEvent
    cases clamped : u.play.clamped with
    | false => exact ⟨clamped, (Bool.or_false _).symm⟩
    | true =>
      rw [if_pos rfl, (reportSource_reported .clipping _).eq, Bool.or_true]
      exact ⟨rfl, setInsert_self _ (by decide)⟩
  · rintro e - other t ⟨clamped, status⟩
    obtain ⟨play, same⟩ := quietEvent_play other t
    exact ⟨by rw [play]; exact clamped, same.trans status⟩

end Sys2Proof.Machine
end

