-- ==== Sys2Proof/Proofs/Warm.lean ====
section
/-! PROOF. The coefficients of the slots that no event of a boundary has made cold (O33, O34, R61, R67, R69). -/

namespace Sys2Proof.Machine

/-- What the events of a boundary other than the store port's leave of the coefficients and the clamped flags: those
of every slot that is not cold. -/
structure WarmKept (s t : State) : Prop where
  tail : t.core.tail = s.core.tail
  warm : ∀ sl : SlotId, sl ∉ t.blk.cold → sl ∉ s.blk.cold ∧
    t.core.slots[sl].clamped = s.core.slots[sl].clamped ∧ SameTaps (tailLen s) sl.val s.core.mem t.core.mem

theorem WarmKept.refl (s : State) : WarmKept s s := ⟨rfl, fun _ h => ⟨h, rfl, fun _ _ _ => rfl⟩⟩

theorem WarmKept.tailLen {s t : State} (h : WarmKept s t) : tailLen t = tailLen s := by
  unfold Machine.tailLen
  rw [h.tail]

theorem WarmKept.trans {s t u : State} (h : WarmKept s t) (k : WarmKept t u) : WarmKept s u where
  tail := k.tail.trans h.tail
  warm sl warm := by
    obtain ⟨warm, clamped, taps⟩ := k.warm sl warm
    obtain ⟨warm, clamped', taps'⟩ := h.warm sl warm
    rw [h.tailLen] at taps
    exact ⟨warm, clamped.trans clamped', fun j i hi => (taps j i hi).trans (taps' j i hi)⟩

theorem WarmKept.foldl {α : Type} (f : State → α → State) (h : ∀ s x, WarmKept s (f s x)) (l : List α) (s : State) :
    WarmKept s (l.foldl f s) := by
  induction l generalizing s with
  | nil => exact .refl s
  | cons x l ih => exact (h s x).trans (ih _)

theorem TapsKept.warmKept {s t : State} (h : TapsKept s t) : WarmKept s t := ⟨h.tail, h.warm⟩

/-- A move that leaves the Core and the notes of cold slots. -/
theorem WarmKept.of_core {s t : State} (core : t.core = s.core) (cold : t.blk.cold = s.blk.cold) : WarmKept s t where
  tail := by rw [core]
  warm sl warm := by
    rw [cold] at warm
    rw [core]
    exact ⟨warm, rfl, fun _ _ _ => rfl⟩

/-- A move that leaves the Core, the slots' records and the notes of cold slots. -/
theorem TapsKept.of_core {s t : State} (core : t.core = s.core) (slots : t.ctl.slots = s.ctl.slots)
    (cold : t.blk.cold = s.blk.cold) : TapsKept s t :=
  .of_same (by rw [core]) (by rw [core]) (fun _ => by rw [core]) slots cold

/-! ### The events other than the counting and the resets -/

theorem Reported.taps {src : Source} {s t : State} (r : Reported src s t) : TapsKept s t := by
  rw [r.eq]
  exact .of_core rfl rfl rfl

theorem reportDiverged_taps (b : BeamId) (s : State) : TapsKept s (reportDiverged b s) := by
  have noted : TapsKept s { s with ev := { s.ev with diverged := setInsert s.ev.diverged b.val } } := .of_core rfl rfl rfl
  exact noted.trans (reportSource_reported .diverged _).taps

theorem reportDegraded_taps (b : BeamId) (s : State) : TapsKept s (reportDegraded b s) := by
  have noted : TapsKept s { s with ev := { s.ev with degraded := setInsert s.ev.degraded b.val } } := .of_core rfl rfl rfl
  exact noted.trans (reportSource_reported .degraded _).taps

theorem setCtlBeam_taps (b : BeamId) (x : CtlBeam) (s : State) : TapsKept s (setCtlBeam b x s) := .of_core rfl rfl rfl

theorem degradeBeam_taps (limit : Nat) (s : State) (b : BeamId) : TapsKept s (degradeBeam limit s b) := by
  have record : ∀ {c : Prop} [Decidable c] {x : CtlBeam}, TapsKept s (if c then s else setCtlBeam b x s) := by
    intro c _ x
    split
    · exact .refl s
    · exact setCtlBeam_taps b x s
  unfold degradeBeam; dsimp only; split
  · split
    · exact record.trans (reportDegraded_taps b _)
    · exact record
  · exact .refl s

theorem degradeEvent_taps (s : State) : TapsKept s (degradeEvent s) := by
  unfold degradeEvent; split
  · exact .refl s
  · exact .foldl _ (degradeBeam_taps _) _ s

theorem clippingEvent_taps (s : State) : TapsKept s (clippingEvent s) := by
  unfold clippingEvent; split
  · have cleared : TapsKept s { s with play := { s.play with clamped := false } } := .of_core rfl rfl rfl
    exact cleared.trans (reportSource_reported .clipping _).taps
  · exact .refl s

theorem applyRecord_taps (r : SteerRec) (s : State) : TapsKept s (applyRecord r s) := by
  unfold applyRecord; dsimp only; split
  · exact .refl s
  · have tagged : TapsKept s (setBeam r.beam { s.router.beams[r.beam] with tag := r.tag } s) := .of_core rfl rfl rfl
    split
    · exact tagged.trans (zoneChange_run _ _ _ _).taps
    · exact tagged

theorem applySteer_taps (s : State) : TapsKept s (applySteer s) := by
  have emptied : ∀ q, TapsKept s { s with router := { s.router with queue := q } } := fun _ => .of_core rfl rfl rfl
  unfold applySteer; split
  · exact .refl s
  · exact (emptied _).trans (.foldl _ (fun s r => applyRecord_taps r s) _ _)

theorem activityEvent_taps (s : State) : TapsKept s (activityEvent s) := by
  have decided : TapsKept s (applyDecided s) := .of_core rfl rfl rfl
  exact decided.trans (allocEvent_run _ _).taps

/-- No event but the counting, the resets and the store port's moves a slot's coefficients or a cold slot's record but
by making the slot cold. -/
theorem quietEvent_taps {e : BoundaryEvent} (other : e ∉ [.counting, .resets, .complete, .grant]) (s : State) :
    TapsKept s (quietEvent e s) := by
  have live : ∀ {f : State → State}, TapsKept s (f s) → TapsKept s (whileLive f s) := fun k =>
    whileLive_of (P := TapsKept s) (.refl s) k
  cases e with
  | activity => exact live (activityEvent_taps s)
  | clipping => exact live (clippingEvent_taps s)
  | degrade => exact live (degradeEvent_taps s)
  | suppress => exact live (.of_core rfl rfl rfl)
  | view => exact .refl s
  | steer => exact applySteer_taps s
  | command => exact .of_core rfl rfl rfl
  | reply => exact .refl s
  | counting => exact absurd (by decide) other
  | resets => exact absurd (by decide) other
  | complete => exact absurd (by decide) other
  | grant => exact absurd (by decide) other

/-! ### The counting and the resets -/

theorem countSlot_warm (s : State) (x : BlockSlot) : WarmKept s (countSlot s x) := by
  unfold countSlot; split
  · exact .of_core rfl rfl
  · exact .refl s

theorem countBeam_warm (s : State) (b : BeamId) : WarmKept s (countBeam s b) := by
  unfold countBeam; split
  · exact (setCtlBeam_taps b _ s).warmKept
  · exact .refl s

theorem notes_taps (s : State) (counted : Bool) (runDone : List SlotId) (clampDone : List (SlotId × PairId))
    (divDone : List BeamId) : TapsKept s { s with blk := { s.blk with
      counted := counted, runDone := runDone, clampDone := clampDone, divDone := divDone } } := .of_core rfl rfl rfl

theorem countBlock_warm (s : State) : WarmKept s (countBlock s) := by
  unfold countBlock; split
  · exact .refl s
  · exact ((WarmKept.foldl _ countSlot_warm _ s).trans (.foldl _ countBeam_warm _ _)).trans
      (notes_taps _ _ _ _ _).warmKept

theorem clampBeam_taps (b : BeamId) (s : State) : TapsKept s (clampBeam b s) :=
  (setCtlBeam_taps b _ s).trans (reportDiverged_taps b _)

theorem divergeBeam_taps (b : BeamId) (s : State) : TapsKept s (divergeBeam b s) := by
  have marked : ∀ x, TapsKept x (markDiverged b x) := fun _ => .of_core rfl rfl rfl
  exact ((setCtlBeam_taps b _ s).trans (marked _)).trans (reportDiverged_taps b _)

theorem markReset_taps (sl : SlotId) (s : State) : TapsKept s (markReset sl s) := .of_core rfl rfl rfl

theorem resetSlot_taps (sl : SlotId) (p : PairId) (s : State) : TapsKept s (resetSlot sl p s) := by
  unfold resetSlot; split
  · exact .refl s
  · exact ((coldSlot_taps sl s).trans (markReset_taps sl _)).trans (lookup_run sl p _ _).taps

/-- The sweep's step at a slot. -/
def resetStep (which : SlotId → PairId → Bool) (s : State) (sl : SlotId) : State :=
  match s.alloc.slots[sl] with
  | .running p => if which sl p then resetSlot sl p s else s
  | .free => s
  | .draining _ _ _ => s

theorem resetSlots_eq (which : SlotId → PairId → Bool) (s : State) :
    resetSlots which s = allSlots.foldl (resetStep which) s := rfl

theorem resetStep_taps (which : SlotId → PairId → Bool) (s : State) (sl : SlotId) :
    TapsKept s (resetStep which s sl) := by
  unfold resetStep
  split
  · split
    · exact resetSlot_taps _ _ s
    · exact .refl s
  · exact .refl s
  · exact .refl s

/-- The resets once the block has been counted. -/
theorem resetCounted_taps (c : State) : TapsKept c (resetCounted c) := by
  have swept : TapsKept c (resetSlots (fun sl p =>
      c.blk.clampDone.contains (sl, p) || c.blk.divDone.contains (pairBeam p)) c) :=
    .foldl _ (resetStep_taps _) _ c
  have clamp : ∀ u, TapsKept u (c.blk.clampDone.foldl (fun s x => clampBeam (pairBeam x.2) s) u) :=
    .foldl (fun s (x : SlotId × PairId) => clampBeam (pairBeam x.2) s) (fun s x => clampBeam_taps (pairBeam x.2) s) _
  have diverge : ∀ u, TapsKept u (c.blk.divDone.foldl (fun s b => divergeBeam b s) u) :=
    .foldl (fun s b => divergeBeam b s) (fun s b => divergeBeam_taps b s) _
  unfold resetCounted
  exact (swept.trans (clamp _)).trans (diverge _)

/-- The state that the resets of a counted block leave, but for the notes that they have come. -/
theorem resetEvent_eq (s : State) : resetEvent s = { resetCounted (countBlock s) with
    blk := { (resetCounted (countBlock s)).blk with
      runDone := (countBlock s).blk.clampDone.map (·.1) ++ (resetCounted (countBlock s)).blk.runDone
      clampDone := [], divDone := [] } } := rfl

theorem resetEvent_warm (s : State) : WarmKept s (resetEvent s) := by
  have reset := (countBlock_warm s).trans (resetCounted_taps (countBlock s)).warmKept
  rw [resetEvent_eq]
  generalize resetCounted (countBlock s) = c at reset ⊢
  exact reset.trans (notes_taps c c.blk.counted _ _ _).warmKept

/-- No event other than the store port's moves a slot's coefficients but by making the slot cold. -/
theorem quietEvent_warm {e : BoundaryEvent} (complete : e ≠ .complete) (grant : e ≠ .grant) (s : State) :
    WarmKept s (quietEvent e s) := by
  by_cases counts : e ∈ [BoundaryEvent.counting, .resets, .complete, .grant]
  · cases e with
    | counting => exact whileLive_of (P := WarmKept s) (.refl s) (countBlock_warm s)
    | resets => exact whileLive_of (P := WarmKept s) (.refl s) (resetEvent_warm s)
    | complete => exact absurd rfl complete
    | grant => exact absurd rfl grant
    | _ => exact absurd counts (by decide)
  · exact (quietEvent_taps counts s).warmKept

theorem worked_warm {order : List BoundaryEvent} (complete : .complete ∉ order) (grant : .grant ∉ order) (s : State) :
    WarmKept (opened order s) (worked order s) := by
  refine quietEvents_keep (P := WarmKept (opened order s)) (.refl _) fun e mem x kept => kept.trans ?_
  refine quietEvent_warm (fun same => ?_) (fun same => ?_) x
  · exact (mem_eventOrder mem).elim (same ▸ complete) (by rw [same]; decide)
  · exact (mem_eventOrder mem).elim (same ▸ grant) (by rw [same]; decide)

end Sys2Proof.Machine
end

