-- ==== Sys2Proof/Proofs/OpenedBlock.lean ====
section
/-! PROOF. The block as the opening of a boundary hands it to the events: the banks, the histories, the band values and
levels, and the slots updated (O33, O34). -/

namespace Sys2Proof.Machine

/-! ### The slots of the block (R57) -/

/-- What a slot of the block holds of the part before the boundary. -/
theorem mem_slotsOfBlock {s : State} {x : BlockSlot} : x ∈ slotsOfBlock s ↔ s.alloc.slots[x.slot] = .running x.pair ∧
    x = ⟨x.slot, x.pair, false, s.ctl.slots[x.slot].phase, s.ctl.slots[x.slot].counter, s.ctl.slots[x.slot].run,
      false⟩ := by
  unfold slotsOfBlock
  rw [List.mem_filterMap]
  constructor
  · rintro ⟨sl, -, e⟩
    cases state : s.alloc.slots[sl] with
    | free => simp [state] at e
    | draining p tag q => simp [state] at e
    | running p =>
      simp only [state, Option.some.injEq] at e
      subst e
      exact ⟨state, rfl⟩
  · rintro ⟨running, e⟩
    refine ⟨x.slot, List.mem_finRange _, ?_⟩
    rw [running]
    exact congrArg some e.symm

theorem slotsOfBlock_slots (s : State) : (slotsOfBlock s).map (·.slot) = allSlots.filter fun sl =>
    match s.alloc.slots[sl] with
    | .running _ => true
    | .free => false
    | .draining _ _ _ => false := by
  unfold slotsOfBlock
  generalize allSlots = l
  induction l with
  | nil => rfl
  | cons sl l ih =>
    rw [List.filterMap_cons, List.filter_cons, ← ih]
    cases s.alloc.slots[sl] <;> rfl

theorem slotsOfBlock_nodup (s : State) : ((slotsOfBlock s).map (·.slot)).Nodup := by
  rw [slotsOfBlock_slots]
  exact (List.nodup_finRange 128).filter _

theorem openBlock_slotNumbers (sees : RefId → Bool) (s : State) :
    (openBlock sees s).blk.slots.map (·.slot) = (slotsOfBlock s).map (·.slot) := by
  have numbers : ∀ xs : List BlockSlot, xs.map (·.slot) = (xs.map fun x => { x with clamped := false }).map (·.slot) :=
    fun xs => by rw [List.map_map]; rfl
  rw [openBlock_slots, numbers, updateSlots_records, ← numbers, granting_slots]
  generalize controlBlock (seen sees s) (estimated s) = c
  rw [List.map_map]
  rfl

/-! ### What the opening hands on -/

/-- The levels and band values of a beam's block, as the Core estimates them (R49, R58, R59). -/
structure SignalOf (y : Bands) (d : Bands) (w : BlockBeam) : Prop where
  micBands : w.micBands = d
  echoBands : w.echoBands = y
  error : w.errBands = beamError w.micBands w.echoBands
  mic : w.mic = lu (blockEnergy w.micBands)
  echo : w.echo = lu (blockEnergy w.echoBands)
  res : w.res = lu (blockEnergy w.errBands)

/-- The signal work of a boundary up to its events. -/
structure Opening (s o : State) : Prop where
  beamHist : ∀ b : BeamId, o.banks.beamHist[b] = beamSamples s b
  refHist : ∀ r : RefId, o.banks.refHist[r] = refSamples s r
  beamSynth : ∀ b : BeamId, o.banks.beamSynth[b] = synthAge s.banks.beamSynth[b]
  monSynth : ∀ k : Fin 2, o.banks.monSynth[k] = synthAge s.banks.monSynth[k]
  refBands : ∀ r : RefId, o.blk.refBands[r] = analyse (refSamples s r)
  refs : ∀ r : RefId, o.tracker.refs[r] = { s.tracker.refs[r] with level := lu (blockEnergy o.blk.refBands[r]) }
  hist : ∀ r : RefId, o.core.hist[r] = (o.blk.refBands[r] :: s.core.hist[r]).take 384
  power : ∀ (r : RefId) (j : Fin 32),
    o.core.power[r][j] = ((o.core.hist[r].take (tailLen s)).map fun x => energy x[j]).sum
  tail : o.core.tail = s.core.tail
  step : o.core.step = s.core.step
  micLu : ∀ b : BeamId, o.core.micLu[b] = o.blk.work[b].mic
  signal : ∀ b : BeamId, SignalOf (beamEstimate s.core.mem (tailLen s) o.core.hist (slotsOfBeam (slotsOfBlock s) b))
    (analyse (beamSamples s b)) o.blk.work[b]
  thresholds : o.ctl.thresholds = s.ctl.thresholds
  alloc : o.alloc = s.alloc
  lines : o.tracker.lines = s.tracker.lines
  bypass : o.out.bypass = s.out.bypass
  current : o.out.current = s.out.current
  beams : o.blk.beams = s.router.beams
  op : o.blk.op = s.cmd.op
  cold : o.blk.cold = []
  counted : o.blk.counted = false
  clampDone : o.blk.clampDone = []
  divDone : o.blk.divDone = []
  diverged : o.blk.diverged = []
  resets : o.blk.resets = []
  frozen : ∀ b : BeamId, o.blk.work[b].frozen = s.router.beams[b].frozen
  resetn : o.resetn = s.resetn
  ports : o.ports = s.ports
  play : o.play = s.play
  router : o.router = s.router
  supp : o.supp = s.supp
  ev : o.ev = s.ev
  records : o.ctl.slots = s.ctl.slots
  monitors : o.out.monitors = s.out.monitors
  opState : o.cmd.op = s.cmd.op
  tuning : o.cmd.tuning = s.cmd.tuning
  loadTaps : o.cmd.loadTaps = s.cmd.loadTaps
  count : o.blk.count = s.blk.count + 1
  live : o.blk.live = true
  blkTuning : o.blk.tuning = s.cmd.tuning
  blkThresholds : o.blk.thresholds = s.ctl.thresholds

theorem openBlock_banks (sees : RefId → Bool) (s : State) : (openBlock sees s).banks = (pushed s).banks := rfl

theorem openBlock_refBands (sees : RefId → Bool) (s : State) :
    (openBlock sees s).blk.refBands = (pushed s).blk.refBands := rfl

theorem openBlock_tracker (sees : RefId → Bool) (s : State) : (openBlock sees s).tracker = (pushed s).tracker := rfl

theorem openBlock_hist (sees : RefId → Bool) (s : State) : (openBlock sees s).core.hist = (pushed s).core.hist := rfl

theorem openBlock_power (sees : RefId → Bool) (s : State) :
    (openBlock sees s).core.power = (pushed s).core.power := rfl

theorem openBlock_micLu (sees : RefId → Bool) (s : State) :
    (openBlock sees s).core.micLu = (estimated s).core.micLu := rfl

theorem openBlock_workOf (sees : RefId → Bool) (s : State) (b : BeamId) :
    (openBlock sees s).blk.work[b] = (controlled (seen sees s) (estimated s) b).2 := by
  rw [openBlock_work, controlBlock_work]

theorem estimateBeam_signal (s : State) (slots : List BlockSlot) (b : BeamId) :
    SignalOf (beamEstimate s.core.mem (tailLen s) s.core.hist (slotsOfBeam slots b)) s.blk.work[b].micBands
      (estimateBeam s slots b) := by
  unfold estimateBeam
  generalize beamEstimate s.core.mem (tailLen s) s.core.hist (slotsOfBeam slots b) = y
  constructor <;> dsimp only

theorem controlled_signal {y d : Bands} {s : State} {b : BeamId} (h : SignalOf y d s.blk.work[b])
    (active : RefId → Bool) : SignalOf y d (controlled active s b).2 := by
  rw [controlled_work]
  exact ⟨h.micBands, h.echoBands, h.error, h.mic, h.echo, h.res⟩

theorem pushed_mem (s : State) : (pushed s).core.mem = s.core.mem := rfl

theorem pushed_tailLen (s : State) : tailLen (pushed s) = tailLen s := rfl

theorem openBlock_signal (sees : RefId → Bool) (s : State) (b : BeamId) :
    SignalOf (beamEstimate s.core.mem (tailLen s) (pushed s).core.hist (slotsOfBeam (slotsOfBlock s) b))
      (analyse (beamSamples s b)) (openBlock sees s).blk.work[b] := by
  have slots : slotsOfBlock (pushed s) = slotsOfBlock s := slotsOfBlock_same rfl rfl
  have estimate := estimateBeam_signal (pushed s) (slotsOfBlock (pushed s)) b
  rw [← estimated_work, slots, pushed_mem, pushed_tailLen, pushed_micBands] at estimate
  rw [openBlock_workOf]
  exact controlled_signal estimate _

theorem openBlock_micLu_mic (sees : RefId → Bool) (s : State) (b : BeamId) :
    (openBlock sees s).core.micLu[b] = (openBlock sees s).blk.work[b].mic := by
  rw [openBlock_micLu, openBlock_workOf, controlled_work, estimated_micLu]

theorem openBlock_alloc (sees : RefId → Bool) (s : State) : (openBlock sees s).alloc = s.alloc := by
  have update : ∀ g : State, (updateBlock g).alloc = g.alloc := fun _ => rfl
  have grant : ∀ c : State, (grantBlock c).alloc = c.alloc := fun _ => rfl
  have control : ∀ (active : RefId → Bool) (e : State), (controlBlock active e).alloc = e.alloc := fun _ _ => rfl
  have estimate : ∀ p : State, (estimateBlock p).alloc = p.alloc := fun _ => rfl
  rw [openBlock_eq, update, granting, grant, control, estimated_eq, estimate]
  rfl

theorem openBlock_kept (sees : RefId → Bool) (s : State) :
    (openBlock sees s).core.tail = s.core.tail ∧ (openBlock sees s).core.step = s.core.step ∧
    (openBlock sees s).ctl.thresholds = s.ctl.thresholds ∧ (openBlock sees s).tracker.lines = s.tracker.lines ∧ (openBlock sees s).out.bypass = s.out.bypass ∧
    (openBlock sees s).out.current = s.out.current ∧ (openBlock sees s).blk.beams = s.router.beams ∧
    (openBlock sees s).blk.op = s.cmd.op ∧ (openBlock sees s).blk.thresholds = s.ctl.thresholds ∧
    (openBlock sees s).blk.cold = [] :=
  ⟨rfl, rfl, rfl, rfl, rfl, rfl, rfl, rfl, rfl, rfl⟩

/-- The notes of a block that has just been opened. -/
theorem openBlock_notes (sees : RefId → Bool) (s : State) :
    (openBlock sees s).blk.counted = false ∧ (openBlock sees s).blk.clampDone = [] ∧
    (openBlock sees s).blk.divDone = [] ∧ (openBlock sees s).blk.diverged = [] ∧ (openBlock sees s).blk.resets = [] :=
  ⟨rfl, rfl, rfl, rfl, rfl⟩

theorem openBlock_frozen (sees : RefId → Bool) (s : State) (b : BeamId) :
    (openBlock sees s).blk.work[b].frozen = s.router.beams[b].frozen := by
  have beams : (estimated s).blk.beams = s.router.beams := rfl
  rw [openBlock_workOf, controlled_work, beams]

theorem openBlock_opening (sees : RefId → Bool) (s : State) : Opening s (openBlock sees s) := by
  obtain ⟨tail, step, thresholds, lines, bypass, current, beams, op, blkThresholds, cold⟩ := openBlock_kept sees s
  obtain ⟨counted, clampDone, divDone, diverged, resets⟩ := openBlock_notes sees s
  have frame := openBlock_open sees s
  exact
    { beamHist := fun b => by rw [openBlock_banks, pushed_beamHist]
      refHist := fun r => by rw [openBlock_banks, pushed_refHist]
      beamSynth := fun b => by rw [openBlock_banks, pushed_beamSynth]
      monSynth := fun k => by rw [openBlock_banks, pushed_monSynth]
      refBands := fun r => by rw [openBlock_refBands, pushed_refBands]
      refs := fun r => by rw [openBlock_tracker, openBlock_refBands, pushed_level]
      hist := fun r => by rw [openBlock_hist, openBlock_refBands, pushed_hist]
      power := fun r j => by rw [openBlock_power, openBlock_hist, pushed_power]
      micLu := openBlock_micLu_mic sees s
      signal := fun b => by rw [openBlock_hist]; exact openBlock_signal sees s b
      alloc := openBlock_alloc sees s
      resetn := frame.resetn, ports := frame.ports, play := frame.play, router := frame.router, supp := frame.supp
      ev := frame.ev, records := frame.slots, monitors := frame.monitors, opState := congrArg (·.op) frame.cmd
      tuning := congrArg (·.tuning) frame.cmd, loadTaps := congrArg (·.loadTaps) frame.cmd, count := frame.count
      live := frame.live, counted, clampDone, divDone, diverged, resets, frozen := openBlock_frozen sees s, blkTuning := frame.tuning, blkThresholds
      tail, step, thresholds, lines, bypass, current, beams, op, cold }

/-! ### The slots updated (R61 to R65) -/

/-- What the update of a slot of the block needs, by the part before the boundary and the signal work. -/
def blockInput (s o : State) (y : BlockSlot) : UpdateInput :=
  { tailLen := tailLen s, slot := y.slot.val, step := s.core.step, phase := y.phase
    delta := regDelta (regR s.cmd.tuning), err := o.blk.work[pairBeam y.pair].errBands
    hist := o.core.hist[pairRef y.pair], power := o.core.power[pairRef y.pair] }

/-- The slots of the block, each with its clamped flag, and the coefficients after the update. -/
structure SlotsOpened (s o : State) : Prop where
  record : ∀ y ∈ o.blk.slots, ∃ x ∈ slotsOfBlock s, y = { x with granted := y.granted, clamped := y.clamped }
  numbers : o.blk.slots.map (·.slot) = (slotsOfBlock s).map (·.slot)
  flags : ∀ sl : SlotId, o.core.slots[sl].clamped = clampedIn o.blk.slots sl
  still : ∀ y ∈ o.blk.slots, y.granted = false → y.clamped = false
  moved : memWf s.core.mem = true → ∀ y ∈ o.blk.slots, y.granted = true →
    (∀ (j : Fin 32) (k : Nat), k < tailLen s →
      memGet o.core.mem (tapAddr (tailLen s) y.slot.val j.val k) = tapAfter (blockInput s o y) s.core.mem j k) ∧
    (y.clamped = true ↔ Clamps (blockInput s o y) s.core.mem)
  kept : memWf s.core.mem = true → ∀ sl : SlotId, (∀ y ∈ o.blk.slots, y.slot = sl → y.granted = false) →
    SameTaps (tailLen s) sl.val s.core.mem o.core.mem

theorem SlotsOpened.nodup {s o : State} (h : SlotsOpened s o) : (o.blk.slots.map (·.slot)).Nodup := by
  rw [h.numbers]
  exact slotsOfBlock_nodup s

/-- A slot of the block is RUNNING for its pair before the boundary, with the counts that its record holds. -/
theorem SlotsOpened.of_mem {s o : State} (h : SlotsOpened s o) {y : BlockSlot} (hy : y ∈ o.blk.slots) :
    s.alloc.slots[y.slot] = .running y.pair ∧ y.phase = s.ctl.slots[y.slot].phase ∧
      y.counter = s.ctl.slots[y.slot].counter ∧ y.run = s.ctl.slots[y.slot].run := by
  obtain ⟨x, hx, e⟩ := h.record y hy
  obtain ⟨running, record⟩ := mem_slotsOfBlock.1 hx
  generalize y.granted = g, y.clamped = c at e
  subst e
  exact ⟨running, congrArg (·.phase) record, congrArg (·.counter) record, congrArg (·.run) record⟩

/-- The slots of the block are those RUNNING before the boundary (R57). -/
theorem SlotsOpened.running_iff {s o : State} (h : SlotsOpened s o) {sl : SlotId} {p : PairId} :
    s.alloc.slots[sl] = .running p ↔ ∃ y ∈ o.blk.slots, y.slot = sl ∧ y.pair = p := by
  constructor
  · intro running
    have listed : sl ∈ (slotsOfBlock s).map (·.slot) := by
      rw [slotsOfBlock_slots]
      exact List.mem_filter.2 ⟨List.mem_finRange _, by rw [running]⟩
    rw [← h.numbers] at listed
    obtain ⟨y, hy, rfl⟩ := List.mem_map.1 listed
    have own := (h.of_mem hy).1
    rw [running] at own
    exact ⟨y, hy, rfl, (SlotState.running.inj own).symm⟩
  · rintro ⟨y, hy, rfl, rfl⟩
    exact (h.of_mem hy).1

/-- The flag of a slot of the block stands in its record. -/
theorem SlotsOpened.flag {s o : State} (h : SlotsOpened s o) {y : BlockSlot} (hy : y ∈ o.blk.slots) :
    o.core.slots[y.slot].clamped = y.clamped := by
  rw [h.flags, clampedIn_of_mem h.nodup hy]

theorem openBlock_flags (sees : RefId → Bool) (s : State) (sl : SlotId) :
    (openBlock sees s).core.slots[sl].clamped = clampedIn (openBlock sees s).blk.slots sl := by
  have stage : ∀ g : State, (updateBlock g).core.slots = Vector.ofFn fun sl : SlotId =>
      { g.core.slots[sl] with clamped := clampedIn (updateBlock g).blk.slots sl } := fun _ => rfl
  rw [openBlock_eq, stage, getElem_ofFn_fin]

theorem openBlock_mem (sees : RefId → Bool) (s : State) : (openBlock sees s).core.mem =
    (updateSlots (granting sees s) (granting sees s).blk.slots (granting sees s).core.mem).1 := rfl

theorem granting_core (sees : RefId → Bool) (s : State) : (granting sees s).core.mem = s.core.mem := rfl

theorem granting_tailLen (sees : RefId → Bool) (s : State) : tailLen (granting sees s) = tailLen s := by
  have tail : (granting sees s).core.tail = s.core.tail := rfl
  unfold tailLen
  rw [tail]

theorem granting_input (sees : RefId → Bool) (s : State) (y : BlockSlot) :
    updateInput (granting sees s) y = blockInput s (openBlock sees s) y := by
  have step : (granting sees s).blk.step = s.core.step := rfl
  have tuning : (granting sees s).blk.tuning = s.cmd.tuning := rfl
  have hist : (granting sees s).core.hist = (openBlock sees s).core.hist := rfl
  have power : (granting sees s).core.power = (openBlock sees s).core.power := rfl
  have work : (granting sees s).blk.work = (openBlock sees s).blk.work := rfl
  unfold updateInput blockInput
  rw [granting_tailLen, step, tuning, hist, power, work]

theorem openBlock_slotsOpened (sees : RefId → Bool) (s : State) : SlotsOpened s (openBlock sees s) := by
  have distinct : ((granting sees s).blk.slots.map (·.slot)).Nodup := by
    rw [granting_slots, List.map_map]
    exact slotsOfBlock_nodup s
  have moved := fun wf => updateSlots_moved (granting sees s) (granting sees s).blk.slots distinct
    (mem := (granting sees s).core.mem) (by rw [granting_core]; exact wf)
  refine ⟨fun y hy => ?_, openBlock_slotNumbers sees s, openBlock_flags sees s, fun y hy not => ?_,
    fun wf y hy yes => ?_, fun wf sl none => ?_⟩
  · obtain ⟨x, hx, e⟩ := opened_slot hy
    refine ⟨x, hx, ?_⟩
    generalize granted (controlBlock (seen sees s) (estimated s)) x = g at e
    rw [e]
  · rw [openBlock_slots] at hy
    exact updateSlots_still hy not
  · have m := (moved wf).moved y (by rw [← openBlock_slots]; exact hy) yes
    rw [← openBlock_mem, granting_input, granting_tailLen, granting_core] at m
    exact m
  · have k := (moved wf).kept sl (by rw [← openBlock_slots]; exact none)
    rw [← openBlock_mem, granting_tailLen, granting_core] at k
    exact k

theorem SlotsOpened.of_held {s o : State} {st : UnitState} {rs : List Msg}
    (h : SlotsOpened { s with cmd := { s.cmd with state := st, replies := rs } } o) : SlotsOpened s o :=
  ⟨h.record, h.numbers, h.flags, h.still, h.moved, h.kept⟩

theorem opened_slotsOpened (order : List BoundaryEvent) (s : State) : SlotsOpened s (opened order s) := by
  have start : SlotsOpened (appendHeld s) (opened order s) := openBlock_slotsOpened _ _
  generalize opened order s = o at start ⊢
  rw [appendHeld_same] at start
  exact start.of_held

/-- A held reply that takes a place changes nothing that the opening works on. -/
theorem Opening.of_held {s o : State} {st : UnitState} {rs : List Msg}
    (h : Opening { s with cmd := { s.cmd with state := st, replies := rs } } o) : Opening s o :=
  ⟨h.beamHist, h.refHist, h.beamSynth, h.monSynth, h.refBands, h.refs, h.hist, h.power, h.tail, h.step, h.micLu,
    h.signal, h.thresholds, h.alloc, h.lines, h.bypass, h.current, h.beams, h.op, h.cold, h.counted,
    h.clampDone, h.divDone, h.diverged, h.resets, h.frozen,
    h.resetn, h.ports, h.play, h.router, h.supp, h.ev, h.records, h.monitors, h.opState, h.tuning, h.loadTaps, h.count,
    h.live, h.blkTuning, h.blkThresholds⟩

theorem opened_opening (order : List BoundaryEvent) (s : State) : Opening s (opened order s) := by
  have start : Opening (appendHeld s) (opened order s) := openBlock_opening _ _
  generalize opened order s = o at start ⊢
  rw [appendHeld_same] at start
  exact start.of_held

end Sys2Proof.Machine
end

