-- ==== Sys2Proof/Proofs/Outputs.lean ====
section
/-! PROOF. Output assembly: the synthesis banks, the monitors and the samples of the next block (O33, R42, R152, R159). -/

namespace Sys2Proof.Machine

theorem assembleOutput_frame (s : State) : assembleOutput s = { s with
    banks := { s.banks with
      beamSynth := (assembleOutput s).banks.beamSynth, monSynth := (assembleOutput s).banks.monSynth }
    out := { s.out with earlier := s.out.current, current := (assembleOutput s).out.current } } := rfl

theorem assembleOutput_core (s : State) : (assembleOutput s).core = s.core := rfl

theorem assembleOutput_ctl (s : State) : (assembleOutput s).ctl = s.ctl := rfl

theorem assembleOutput_alloc (s : State) : (assembleOutput s).alloc = s.alloc := rfl

theorem assembleOutput_cmd (s : State) : (assembleOutput s).cmd = s.cmd := rfl

theorem assembleOutput_ev (s : State) : (assembleOutput s).ev = s.ev := rfl

theorem assembleOutput_play (s : State) : (assembleOutput s).play = s.play := rfl

theorem assembleOutput_tracker (s : State) : (assembleOutput s).tracker = s.tracker := rfl

theorem assembleOutput_ports (s : State) : (assembleOutput s).ports = s.ports := rfl

theorem assembleOutput_router (s : State) : (assembleOutput s).router = s.router := rfl

theorem assembleOutput_blk (s : State) : (assembleOutput s).blk = s.blk := rfl

theorem assembleOutput_bypass (s : State) : (assembleOutput s).out.bypass = s.out.bypass := rfl

theorem assembleOutput_records (s : State) : (assembleOutput s).out.monitors = s.out.monitors := rfl

theorem assembleOutput_beamSynth (s : State) (b : BeamId) :
    (assembleOutput s).banks.beamSynth[b] = synthHand s.banks.beamSynth[b] s.blk.work[b].outBands := by
  have stage : (assembleOutput s).banks.beamSynth =
      Vector.ofFn fun b : BeamId => synthHand s.banks.beamSynth[b] s.blk.work[b].outBands := rfl
  rw [stage, getElem_ofFn_fin]

theorem assembleOutput_monSynth (s : State) (k : Fin 2) :
    (assembleOutput s).banks.monSynth[k] = synthHand s.banks.monSynth[k] (monitorBands s s.out.monitors[k]) := by
  have stage : (assembleOutput s).banks.monSynth =
      Vector.ofFn fun k : Fin 2 => synthHand s.banks.monSynth[k] (monitorBands s s.out.monitors[k]) := rfl
  rw [stage, getElem_ofFn_fin]

theorem assembleOutput_samples (s : State) (b : BeamId) :
    (assembleOutput s).out.current.samples[b] = synthesise (assembleOutput s).banks.beamSynth[b] := by
  have stage : (assembleOutput s).out.current.samples =
      Vector.ofFn fun b : BeamId => synthesise (assembleOutput s).banks.beamSynth[b] := rfl
  rw [stage, getElem_ofFn_fin]

theorem assembleOutput_monitors (s : State) (k : Fin 2) :
    (assembleOutput s).out.current.monitors[k] = synthesise (assembleOutput s).banks.monSynth[k] := by
  have stage : (assembleOutput s).out.current.monitors =
      Vector.ofFn fun k : Fin 2 => synthesise (assembleOutput s).banks.monSynth[k] := rfl
  rw [stage, getElem_ofFn_fin]

theorem assembleOutput_repeats (s : State) (k : Fin 2) :
    (assembleOutput s).out.current.repeats[k] = monitorRepeat s.out.monitors[k] := by
  have stage : (assembleOutput s).out.current.repeats = Vector.ofFn fun k : Fin 2 => monitorRepeat s.out.monitors[k] :=
    rfl
  rw [stage, getElem_ofFn_fin]

theorem assembleOutput_index (s : State) : (assembleOutput s).out.current.index = s.blk.count := rfl

/-- The beam that a record's index names. -/
theorem monitorBeam_of {x : Monitor} {b : BeamId} (names : x.index.toNat = b.val) : monitorBeam x = b := by
  apply Fin.ext
  show x.index.toNat % 16 = b.val
  omega

/-- The reference that a record's index names. -/
theorem monitorRef_of {x : Monitor} {r : RefId} (names : x.index.toNat = r.val) : monitorRef x = r := by
  apply Fin.ext
  show x.index.toNat % 8 = r.val
  omega

/-- The point of a beam's record, in the manual's words (R159). -/
theorem monitorBands_beam {s : State} {x : Monitor} {b : BeamId} (kind : x.kind = .beam)
    (names : x.index.toNat = b.val) :
    let cancelled := fun (v : Bands) => if s.blk.beams[b].mode = .cancel then v else zeroBands
    (x.point = 0 → monitorBands s x = s.blk.work[b].micBands) ∧
    (x.point = 1 → monitorBands s x = cancelled s.blk.work[b].echoBands) ∧
    (x.point = 2 → monitorBands s x = cancelled s.blk.work[b].errBands) ∧
    (x.point = 3 → monitorBands s x = s.blk.work[b].outBands) := by
  have bands : monitorBands s x = if x.point = 0 then s.blk.work[b].micBands
      else if x.point = 1 then (if s.blk.beams[b].mode = .cancel then s.blk.work[b].echoBands else zeroBands)
      else if x.point = 2 then (if s.blk.beams[b].mode = .cancel then s.blk.work[b].errBands else zeroBands)
      else s.blk.work[b].outBands := by
    obtain rfl := monitorBeam_of names
    unfold monitorBands
    rw [kind]
    simp only [beq_iff_eq]
  dsimp only
  rw [bands]
  refine ⟨fun p => ?_, fun p => ?_, fun p => ?_, fun p => ?_⟩ <;> rw [p] <;> rfl

theorem monitorRepeat_beam {x : Monitor} {b : BeamId} (kind : x.kind = .beam) (names : x.index.toNat = b.val) :
    (x.point = 3 → monitorRepeat x = some b) ∧ (x.point.toNat < 3 → monitorRepeat x = none) := by
  unfold monitorRepeat
  rw [kind, monitorBeam_of names]
  refine ⟨fun p => if_pos p, fun low => if_neg fun p => ?_⟩
  rw [p] at low
  exact absurd low (by decide)

theorem monitorRepeat_other {x : Monitor} (kind : x.kind ≠ .beam) : monitorRepeat x = none := by
  unfold monitorRepeat
  cases e : x.kind with
  | beam => exact absurd e kind
  | none => rfl
  | reference => rfl

/-- Output assembly over the block's work is as the manual has it. -/
theorem banksSynthesise_of {s w : State} (beamSynth : ∀ b : BeamId, w.banks.beamSynth[b] = synthAge s.banks.beamSynth[b])
    (monSynth : ∀ k : Fin 2, w.banks.monSynth[k] = synthAge s.banks.monSynth[k])
    (monitors : w.out.monitors = s.out.monitors) (current : w.out.current = s.out.current)
    (beams : w.blk.beams = s.router.beams) : BanksSynthesise s (assembleOutput w) where
  beams b := by
    rw [assembleOutput_beamSynth, beamSynth]
    rfl
  monitors k := by
    have handed := assembleOutput_monSynth w k
    have repeated := assembleOutput_repeats w k
    rw [monSynth, monitors] at handed
    rw [monitors] at repeated
    refine ⟨monitorBands w s.out.monitors[k], handed, fun kind => ?_, fun b kind names => ?_, fun r kind names => ?_,
      fun kind => ?_⟩
    · unfold monitorBands
      rw [kind]
      rfl
    · obtain ⟨mic, echo, err, out⟩ := monitorBands_beam (s := w) kind names
      obtain ⟨own, low⟩ := monitorRepeat_beam kind names
      dsimp only at echo err
      rw [beams] at echo err
      exact ⟨mic, echo, err, fun p => ⟨out p, repeated.trans (own p)⟩, fun p => repeated.trans (low p)⟩
    · obtain rfl := monitorRef_of names
      unfold monitorBands
      rw [kind]
      rfl
    · exact repeated.trans (monitorRepeat_other kind)
  emitted := by
    refine ⟨assembleOutput_index w, ?_, assembleOutput_samples w, assembleOutput_monitors w⟩
    rw [assembleOutput_frame]
    exact current

end Sys2Proof.Machine
end

