-- ==== Sys2Proof/Proofs/BlockTaken.lean ====
section
/-! PROOF. A boundary that takes no command: the whole of its signal work (O33). -/

namespace Sys2Proof.Machine

section Worked

variable (order : List BoundaryEvent) (s : State)

/-- What the events leave of a beam's block is what the opening handed them, but for the suppressed band values. -/
theorem worked_workOf (b : BeamId) : (worked order s).blk.work[b] =
    { (opened order s).blk.work[b] with outBands := (worked order s).blk.work[b].outBands } :=
  (worked_work order s).work b

theorem worked_core : (worked order s).core =
    { (opened order s).core with mem := (worked order s).core.mem, slots := (worked order s).core.slots } :=
  (worked_work order s).core

theorem worked_slots : (worked order s).blk.slots = (opened order s).blk.slots := by rw [(worked_work order s).blk]

theorem worked_banksAnalyse : BanksAnalyse s (assembleOutput (worked order s)) := by
  have o := opened_opening order s
  have k := worked_work order s
  refine banksAnalyse_of (fun b => ?_) (fun r => ?_) (fun b => ?_) (fun r => ?_)
  · show (worked order s).banks.beamHist[b] = _
    rw [k.banks]
    exact o.beamHist b
  · show (worked order s).banks.refHist[r] = _
    rw [k.banks]
    exact o.refHist r
  · show (worked order s).blk.work[b].micBands = _
    rw [k.work b]
    exact (o.signal b).micBands
  · show (worked order s).blk.refBands[r] = _
    rw [k.blk]
    exact o.refBands r

theorem worked_banksSynthesise : BanksSynthesise s (assembleOutput (worked order s)) := by
  have o := opened_opening order s
  have k := worked_work order s
  refine banksSynthesise_of (fun b => ?_) (fun i => ?_) ?_ ?_ ?_
  · rw [k.banks]
    exact o.beamSynth b
  · rw [k.banks]
    exact o.monSynth i
  · rw [k.out]
    exact o.monitors
  · rw [k.out]
    exact o.current
  · rw [k.blk]
    exact o.beams

theorem worked_echoCancelled (b : BeamId) : EchoCancelled s (assembleOutput (worked order s)) b := by
  obtain ⟨-, echoBands, error, mic, echo, res⟩ := (opened_opening order s).signal b
  have hist : (worked order s).core.hist = (opened order s).core.hist := by rw [worked_core]
  have work := worked_workOf order s b
  generalize opened order s = o at *
  generalize worked order s = w at *
  refine echoCancelled_of (u := { s with core := { s.core with hist := o.core.hist } }) rfl rfl rfl hist ?_ ?_ ?_ ?_ ?_
  · show w.blk.work[b].mic = lu (blockEnergy w.blk.work[b].micBands)
    rw [work]; exact mic
  · show w.blk.work[b].echo = lu (blockEnergy w.blk.work[b].echoBands)
    rw [work]; exact echo
  · show w.blk.work[b].res = lu (blockEnergy w.blk.work[b].errBands)
    rw [work]; exact res
  · show w.blk.work[b].echoBands = _
    rw [work]; exact echoBands
  · show w.blk.work[b].errBands = beamError w.blk.work[b].micBands w.blk.work[b].echoBands
    rw [work]; exact error

theorem worked_bandSuppressed (b : BeamId) (j : Fin 32) : BandSuppressed s (assembleOutput (worked order s)) b j := by
  have o := opened_opening order s
  have so := opened_slotsOpened order s
  obtain ⟨u, before, supp, after, done⟩ :=
    quietEvents_suppressed (eventOrder_nodup order) (ownWork_mem_eventOrder order (e := .suppress) (by decide)) o.live
  change WorkKept u (worked order s) at after
  change SuppressedFrom u (worked order s) at done
  have blk := before.blk
  have tuning : u.blk.tuning = s.cmd.tuning := by rw [blk]; exact o.blkTuning
  have command : u.cmd.tuning = s.cmd.tuning := by rw [before.cmd]; exact o.tuning
  have beams : u.blk.beams = s.router.beams := by rw [blk]; exact o.beams
  have slots : u.blk.slots = (opened order s).blk.slots := by rw [blk]
  have work := after.work b
  have beam := after.beams b
  refine bandSuppressed_of (suppressInput u b) tuning ?_ (congrArg (·[b]) beams) ?_ ?_ ?_ ?_ ?_ ?_ ?_ ?_ (done.att b j) ?_
  · show min (attMax u.cmd.tuning) (attMax u.blk.tuning) = _
    rw [tuning, command, Nat.min_self]
  · show (u.blk.slots.any fun x => pairBeam x.pair == b) = true ↔ _
    rw [slots, List.any_eq_true]
    simp only [so.running_iff, beq_iff_eq]
    exact ⟨fun ⟨y, hy, e⟩ => ⟨y.slot, y.pair, ⟨y, hy, rfl, rfl⟩, e⟩,
      fun ⟨_, _, ⟨y, hy, _, pair⟩, e⟩ => ⟨y, hy, pair ▸ e⟩⟩
  · exact (congrArg (·.errBands) work).symm
  · exact (congrArg (·.echoBands) work).symm
  · exact (congrArg (·.erle) work).symm
  · exact (congrArg (·.talk) work).symm
  · exact (congrArg (·.noise) beam).symm
  · show u.supp.att[b] = s.supp.att[b]
    rw [supp, o.supp]
  · show (drawNoise noiseDraws u.supp.lfsr[b]).1 = _
    rw [supp, o.supp]
    rfl
  · show (worked order s).blk.work[b].outBands[j] = _
    rw [done.out b]
    exact getElem_ofFn_fin _ j

/-- Each generator takes 64 steps (R154). -/
theorem worked_lfsr (b : BeamId) : (worked order s).supp.lfsr[b] = (drawNoise 64 s.supp.lfsr[b]).2 := by
  have o := opened_opening order s
  obtain ⟨u, -, supp, -, done⟩ :=
    quietEvents_suppressed (eventOrder_nodup order) (ownWork_mem_eventOrder order (e := .suppress) (by decide)) o.live
  change SuppressedFrom u (worked order s) at done
  rw [done.lfsr, supp, o.supp]

/-- The settings that no event of a boundary writes. -/
theorem worked_settings : (worked order s).core.tail = s.core.tail ∧ (worked order s).core.step = s.core.step ∧
    (worked order s).cmd.op = s.cmd.op ∧ (worked order s).cmd.tuning = s.cmd.tuning ∧
    (worked order s).cmd.loadTaps = s.cmd.loadTaps ∧ (worked order s).play.meters = s.play.meters ∧
    (worked order s).play.speaker = s.play.speaker ∧
    ∀ r : RefId, (worked order s).tracker.refs[r].mode = s.tracker.refs[r].mode ∧
      (worked order s).tracker.refs[r].meter = s.tracker.refs[r].meter ∧
      (worked order s).tracker.refs[r].delay = s.tracker.refs[r].delay := by
  have o := opened_opening order s
  have k := worked_work order s
  refine ⟨?_, ?_, ?_, ?_, ?_, ?_, ?_, fun r => ?_⟩
  · rw [k.core]; exact o.tail
  · rw [k.core]; exact o.step
  · rw [k.cmd]; exact o.opState
  · rw [k.cmd]; exact o.tuning
  · rw [k.cmd]; exact o.loadTaps
  · rw [k.play, o.play]
  · rw [k.play, o.play]
  · rw [k.refs r, o.refs r]
    exact ⟨rfl, rfl, rfl⟩

variable {order s}

/-- The coefficients and the flag of a slot that the boundary has not made cold are those of the update. -/
theorem worked_warm_slot (complete : .complete ∉ order) (grant : .grant ∉ order) {sl : SlotId}
    (warm : sl ∉ (worked order s).blk.cold) :
    (worked order s).core.slots[sl].clamped = (opened order s).core.slots[sl].clamped ∧
      SameTaps (tailLen s) sl.val (opened order s).core.mem (worked order s).core.mem := by
  obtain ⟨-, clamped, taps⟩ := (worked_warm complete grant s).warm sl warm
  have tail : tailLen (opened order s) = tailLen s := by
    unfold tailLen
    rw [(opened_opening order s).tail]
  rw [tail] at taps
  exact ⟨clamped, taps⟩

/-- A slot that was RUNNING and granted adaptation, and is not cold, has been updated (R61 to R65). -/
theorem worked_slotUpdated (wf : memWf s.core.mem = true) (complete : .complete ∉ order) (grant : .grant ∉ order)
    {sl : SlotId} (warm : sl ∉ (worked order s).blk.cold) {p : PairId} (running : s.alloc.slots[sl] = .running p)
    (granted : ∃ x ∈ (worked order s).blk.slots, x.slot = sl ∧ x.granted = true) :
    SlotUpdated s (assembleOutput (worked order s)) sl p := by
  have o := opened_opening order s
  have so := opened_slotsOpened order s
  obtain ⟨clamped, same⟩ := worked_warm_slot complete grant warm
  have core := worked_core order s
  have work : ∀ b : BeamId, (worked order s).blk.work[b].errBands = (opened order s).blk.work[b].errBands := fun b => by
    rw [worked_workOf]
  rw [worked_slots] at granted
  obtain ⟨y, hy, rfl, yes⟩ := granted
  obtain ⟨own, phase, -, -⟩ := so.of_mem hy
  obtain rfl : p = y.pair := SlotState.running.inj (running.symm.trans own)
  obtain ⟨taps, flag⟩ := so.moved wf y hy yes
  refine slotUpdated_of (u := blockInput s (opened order s) y) rfl rfl rfl phase rfl (work _).symm ?_ ?_
    (fun j k small => (same j k small).trans (taps j k small)) ?_
  · show (opened order s).core.hist[pairRef y.pair] = (worked order s).core.hist[pairRef y.pair]
    rw [core]
  · show (opened order s).core.power[pairRef y.pair] = (worked order s).core.power[pairRef y.pair]
    rw [core]
  · show (worked order s).core.slots[y.slot].clamped = true ↔ _
    rw [clamped, so.flag hy]
    exact flag

/-- A slot that was not granted adaptation, and is not cold, keeps its coefficients and has not clamped (R53, R64). -/
theorem worked_slotKept (wf : memWf s.core.mem = true) (complete : .complete ∉ order) (grant : .grant ∉ order)
    {sl : SlotId} (warm : sl ∉ (worked order s).blk.cold)
    (none : ∀ x ∈ (worked order s).blk.slots, x.slot = sl → x.granted = false) :
    (worked order s).core.slots[sl].clamped = false ∧
      SameTaps (tailLen s) sl.val s.core.mem (worked order s).core.mem := by
  have so := opened_slotsOpened order s
  obtain ⟨clamped, same⟩ := worked_warm_slot complete grant warm
  rw [worked_slots] at none
  refine ⟨?_, fun j k small => (same j k small).trans (so.kept wf sl none j k small)⟩
  rw [clamped, so.flags]
  exact clampedIn_none fun y hy number => so.still y hy (none y hy number)

theorem worked_router (steer : .steer ∉ order) : (worked order s).router = s.router := by
  refine quietEvents_keep (P := (·.router = s.router)) (opened_opening order s).router fun e mem x same => ?_
  refine (quietEvent_router (fun steers => ?_) x).trans same
  exact (mem_eventOrder mem).elim (steers ▸ steer) (by rw [steers]; decide)

end Worked

/-- Settles O33: the opening's signal work, which no event moves but the Suppressor's, and the output assembly. -/
theorem boundaryTakesBlock : Obligations.BoundaryTakesBlock := by
  unfold Obligations.BoundaryTakesBlock
  refine ⟨fun order s reset early => execBlockBoundary_early order reset early, fun order s due none => ?_⟩
  have o := opened_opening order s
  have k := worked_work order s
  have core := worked_core order s
  obtain ⟨clamped, clipping⟩ :=
    quietEvents_clipping (eventOrder_nodup order) (ownWork_mem_eventOrder order (e := .clipping) (by decide)) o.live
  refine ⟨_, blockBoundary_untaken due none, k.resetn.trans (o.resetn.trans due.resetn), ?_, worked_banksAnalyse order s,
    worked_banksSynthesise order s, fun r => ?_, clamped, ?_, fun r => ?_, fun b => ?_, ?_⟩
  · show (worked order s).blk.count = _
    rw [k.blk]
    exact o.count
  · show (worked order s).tracker.refs[r].level = lu (blockEnergy (worked order s).blk.refBands[r])
    rw [k.refs r, k.blk, o.refs r]
  · show (worked order s).ev.status.getLsbD 7 = _
    rw [← o.ev, ← o.play]
    exact clipping
  · show (worked order s).core.hist[r] = ((worked order s).blk.refBands[r] :: s.core.hist[r]).take 384 ∧
      ∀ j : Fin 32, (worked order s).core.power[r][j] =
        (((worked order s).core.hist[r].take (tailLen s)).map fun x => energy x[j]).sum
    rw [core, k.blk]
    exact ⟨o.hist r, o.power r⟩
  · refine ⟨?_, worked_echoCancelled order s b, worked_bandSuppressed order s b, worked_lfsr order s b⟩
    show (worked order s).core.micLu[b] = lu (blockEnergy (worked order s).blk.work[b].micBands)
    rw [core, k.work b]
    exact (o.micLu b).trans (o.signal b).mic
  rw [assembleOutput_core, assembleOutput_ctl, assembleOutput_alloc, assembleOutput_cmd, assembleOutput_ev,
    assembleOutput_play, assembleOutput_tracker, assembleOutput_ports, assembleOutput_router, assembleOutput_blk,
    assembleOutput_bypass, assembleOutput_records]
  obtain ⟨tail, step, op, tuning, loadTaps, meters, speaker, refs⟩ := worked_settings order s
  exact ⟨tail, step, k.thresholds.trans o.thresholds, k.mask.trans (congrArg (·.mask) o.alloc), op, tuning, loadTaps,
    k.evMask.trans (congrArg (·.mask) o.ev), k.evMode.trans (congrArg (·.mode) o.ev), meters, speaker,
    k.lines.trans o.lines, (congrArg (·.bypass) k.out).trans o.bypass, (congrArg (·.monitors) k.out).trans o.monitors,
    k.ports.trans o.ports, refs, fun steer => congrArg (·.beams) (worked_router steer),
    fun wf complete grant sl warm =>
      ⟨fun _ running granted => worked_slotUpdated wf complete grant warm running granted,
        worked_slotKept wf complete grant warm⟩⟩

end Sys2Proof.Machine
end

