-- ==== Sys2Proof/Proofs/Tally.lean ====
section
/-! PROOF. The counting of a block and what its events leave of the counts (O34, R86 to R97). -/

namespace Sys2Proof.Machine

/-! ### Steps that each see to one thing -/

/-- Steps for things apart from one another, each of which sees to its own thing and leaves the others alone. -/
theorem foldl_each {α σ : Type} {f : σ → α → σ} {apart : α → α → Prop} {inv : σ → Prop} {before after : α → σ → Prop}
    (keep : ∀ s x, inv s → inv (f s x)) (here : ∀ s x, inv s → before x s → after x (f s x))
    (wait : ∀ s x y, inv s → apart x y → before y s → before y (f s x))
    (stay : ∀ s x y, inv s → apart x y → after x s → after x (f s y)) {l : List α} (distinct : l.Pairwise apart) {s : σ}
    (start : inv s) (all : ∀ x ∈ l, before x s) : inv (l.foldl f s) ∧ ∀ x ∈ l, after x (l.foldl f s) := by
  have rest : ∀ (x : α) (l : List α) (s : σ), (∀ y ∈ l, apart x y) → inv s → after x s → after x (l.foldl f s) := by
    intro x l
    induction l with
    | nil => exact fun _ _ _ done => done
    | cons y l ih =>
      intro s others start done
      exact ih _ (fun z hz => others z (List.mem_cons_of_mem _ hz)) (keep s y start)
        (stay s x y start (others y List.mem_cons_self) done)
  induction l generalizing s with
  | nil => exact ⟨start, nofun⟩
  | cons x l ih =>
    obtain ⟨others, distinct⟩ := List.pairwise_cons.1 distinct
    obtain ⟨inv', done⟩ := ih distinct (keep s x start) fun y hy =>
      wait s x y start (others y hy) (all y (List.mem_cons_of_mem _ hy))
    refine ⟨inv', fun y hy => ?_⟩
    rcases List.mem_cons.1 hy with rfl | later
    · exact rest y l _ others (keep s y start) (here s y start (all y List.mem_cons_self))
    · exact done y later

/-! ### What the events other than the counting and the resets leave -/

/-- What moves other than the counting's leave of the counts of the block, its slots and its beams. -/
structure TallyMoved (s t : State) : Prop where
  beams : ∀ b : BeamId, t.ctl.beams[b] = { s.ctl.beams[b] with
    degCtr := t.ctl.beams[b].degCtr, degraded := t.ctl.beams[b].degraded }
  counted : t.blk.counted = s.blk.counted
  clampDone : t.blk.clampDone = s.blk.clampDone
  divDone : t.blk.divDone = s.blk.divDone
  diverged : t.blk.diverged = s.blk.diverged
  evDiverged : t.ev.diverged = s.ev.diverged
  frozen : ∀ b : BeamId, t.router.beams[b].frozen = s.router.beams[b].frozen
  phases : ∀ sl : SlotId, sl ∉ t.blk.phaseSet → sl ∉ s.blk.phaseSet ∧
    t.ctl.slots[sl].phase = s.ctl.slots[sl].phase ∧ t.ctl.slots[sl].counter = s.ctl.slots[sl].counter
  runs : ∀ sl : SlotId, sl ∉ t.blk.runSet → sl ∉ s.blk.runSet ∧ t.ctl.slots[sl].run = s.ctl.slots[sl].run

/-- What the events other than the counting and the resets leave. -/
structure TallyKept (s t : State) : Prop extends TallyMoved s t where
  resets : s.blk.resets = [] → t.blk.resets = []

theorem TallyMoved.refl (s : State) : TallyMoved s s :=
  ⟨fun _ => rfl, rfl, rfl, rfl, rfl, rfl, fun _ => rfl, fun _ h => ⟨h, rfl, rfl⟩, fun _ h => ⟨h, rfl⟩⟩

theorem TallyMoved.trans {s t u : State} (h : TallyMoved s t) (k : TallyMoved t u) : TallyMoved s u where
  beams b := by rw [k.beams b, h.beams b]
  counted := k.counted.trans h.counted
  clampDone := k.clampDone.trans h.clampDone
  divDone := k.divDone.trans h.divDone
  diverged := k.diverged.trans h.diverged
  evDiverged := k.evDiverged.trans h.evDiverged
  frozen b := (k.frozen b).trans (h.frozen b)
  phases sl free := by
    obtain ⟨free, phase, counter⟩ := k.phases sl free
    obtain ⟨free, phase', counter'⟩ := h.phases sl free
    exact ⟨free, phase.trans phase', counter.trans counter'⟩
  runs sl free := by
    obtain ⟨free, run⟩ := k.runs sl free
    obtain ⟨free, run'⟩ := h.runs sl free
    exact ⟨free, run.trans run'⟩

theorem TallyMoved.foldl {α : Type} (f : State → α → State) (h : ∀ s x, TallyMoved s (f s x)) (l : List α)
    (s : State) : TallyMoved s (l.foldl f s) := by
  induction l generalizing s with
  | nil => exact .refl s
  | cons x l ih => exact (h s x).trans (ih _)

theorem TallyKept.refl (s : State) : TallyKept s s := ⟨.refl s, id⟩

theorem TallyKept.trans {s t u : State} (h : TallyKept s t) (k : TallyKept t u) : TallyKept s u :=
  ⟨h.toTallyMoved.trans k.toTallyMoved, fun e => k.resets (h.resets e)⟩

theorem TallyKept.foldl {α : Type} (f : State → α → State) (h : ∀ s x, TallyKept s (f s x)) (l : List α) (s : State) :
    TallyKept s (l.foldl f s) := by
  induction l generalizing s with
  | nil => exact .refl s
  | cons x l ih => exact (h s x).trans (ih _)

/-- The moves of the pool and of the store port count nothing. -/
theorem StoreKeeps.tally {s t : State} (k : StoreKeeps s t) : TallyKept s t where
  beams b := by rw [k.beams]
  counted := by rw [k.frame.blk]
  clampDone := by rw [k.frame.blk]
  divDone := by rw [k.frame.blk]
  diverged := k.diverged
  resets := k.resets
  evDiverged := k.evDiverged
  frozen b := by rw [k.frame.router]
  phases := k.phases
  runs := k.runs

/-- A step that leaves the Controller's records, the notes of the block and the beams diverged. -/
theorem TallyKept.of_same {s t : State} (ctl : t.ctl = s.ctl) (notes : t.blk = { s.blk with work := t.blk.work })
    (ev : t.ev.diverged = s.ev.diverged)
    (frozen : ∀ b : BeamId, t.router.beams[b].frozen = s.router.beams[b].frozen) : TallyKept s t where
  beams b := by rw [ctl]
  counted := by rw [notes]
  clampDone := by rw [notes]
  divDone := by rw [notes]
  diverged := by rw [notes]
  resets e := by rw [notes]; exact e
  evDiverged := ev
  frozen := frozen
  phases sl free := by rw [notes] at free; rw [ctl]; exact ⟨free, rfl, rfl⟩
  runs sl free := by rw [notes] at free; rw [ctl]; exact ⟨free, rfl⟩

theorem reportDegraded_tally (b : BeamId) (s : State) : TallyKept s (reportDegraded b s) := by
  rw [reportDegraded, (reportSource_reported .degraded _).eq]
  exact .of_same rfl rfl rfl fun _ => rfl

theorem setDegrade_tally (b : BeamId) (n : Nat) (f : Bool) (s : State) :
    TallyKept s (setCtlBeam b { s.ctl.beams[b] with degCtr := n, degraded := f } s) :=
  { TallyKept.refl s with
    beams := fun o => by
      rw [setCtlBeam_ctl]
      dsimp only
      rw [getElem_set_fin]
      split
      · next e => subst e; rfl
      · rfl }

theorem degradeBeam_tally (limit : Nat) (s : State) (b : BeamId) : TallyKept s (degradeBeam limit s b) := by
  have record : ∀ {c : Prop} [Decidable c] {n : Nat} {f : Bool}, TallyKept s
      (if c then s else setCtlBeam b { s.ctl.beams[b] with degCtr := n, degraded := f } s) := by
    intro c _ n f
    split
    · exact .refl s
    · exact setDegrade_tally b n f s
  unfold degradeBeam; dsimp only; split
  · split
    · exact record.trans (reportDegraded_tally b _)
    · exact record
  · exact .refl s

theorem degradeEvent_tally (s : State) : TallyKept s (degradeEvent s) := by
  unfold degradeEvent; split
  · exact .refl s
  · exact .foldl _ (degradeBeam_tally _) _ s

theorem clippingEvent_tally (s : State) : TallyKept s (clippingEvent s) := by
  unfold clippingEvent; split
  · rw [(reportSource_reported .clipping _).eq]
    exact .of_same rfl rfl rfl fun _ => rfl
  · exact .refl s

theorem setTag_frozen (b : BeamId) (tag : Nat) (s : State) (o : BeamId) :
    (setBeam b { s.router.beams[b] with tag := tag } s).router.beams[o].frozen = s.router.beams[o].frozen := by
  have stage : (setBeam b { s.router.beams[b] with tag := tag } s).router.beams =
      s.router.beams.set b { s.router.beams[b] with tag := tag } := rfl
  rw [stage, getElem_set_fin]
  split
  · next e => subst e; rfl
  · rfl

theorem applyRecord_tally (r : SteerRec) (s : State) : TallyKept s (applyRecord r s) := by
  unfold applyRecord; dsimp only; split
  · exact .refl s
  · have tagged : TallyKept s (setBeam r.beam { s.router.beams[r.beam] with tag := r.tag } s) :=
      .of_same rfl rfl rfl (setTag_frozen _ _ s)
    split
    · exact tagged.trans (zoneChange_run _ _ _ _).keeps.tally
    · exact tagged

theorem applySteer_tally (s : State) : TallyKept s (applySteer s) := by
  have emptied : ∀ q, TallyKept s { s with router := { s.router with queue := q } } := fun _ =>
    .of_same rfl rfl rfl fun _ => rfl
  unfold applySteer; split
  · exact .refl s
  · exact (emptied _).trans (.foldl _ (fun s r => applyRecord_tally r s) _ _)

theorem activityEvent_tally (s : State) : TallyKept s (activityEvent s) := by
  have decided : TallyKept s (applyDecided s) := .of_same rfl rfl rfl fun _ => rfl
  exact decided.trans (allocEvent_run _ _).keeps.tally

/-- The counting and the resets apart, no event counts. -/
theorem quietEvent_tally {e : BoundaryEvent} (counting : e ≠ .counting) (resets : e ≠ .resets) (s : State) :
    TallyKept s (quietEvent e s) := by
  have live : ∀ {f : State → State}, TallyKept s (f s) → TallyKept s (whileLive f s) := fun k =>
    whileLive_of (P := TallyKept s) (.refl s) k
  cases e with
  | activity => exact live (activityEvent_tally s)
  | clipping => exact live (clippingEvent_tally s)
  | counting => exact absurd rfl counting
  | resets => exact absurd rfl resets
  | degrade => exact live (degradeEvent_tally s)
  | suppress => exact live (.of_same rfl rfl rfl fun _ => rfl)
  | view => exact .refl s
  | steer => exact applySteer_tally s
  | complete => exact (completeDue_run s).keeps.tally
  | grant => exact (grantDue_run s).keeps.tally
  | command => exact .of_same rfl rfl rfl fun _ => rfl
  | reply => exact .refl s

end Sys2Proof.Machine
end

