-- ==== Sys2Proof/Proofs/Counting.lean ====
section
/-! PROOF. The counting of a block and its resets: what they bring the slots and the beams, in whatever order the events
of the boundary stand (O34, R86 to R94). -/

namespace Sys2Proof.Machine

/-! ### What is counted -/

/-- The phase and phase counter that the block brings a slot (R87 to R89). -/
def countedPhase (o : State) (y : BlockSlot) : Phase × Nat :=
  if y.granted then countPhase o.blk.tuning o.blk.work[pairBeam y.pair].erle y.phase y.counter else (y.phase, y.counter)

/-- The clamp run that the block brings a slot (R91). -/
def countedRun (y : BlockSlot) : Nat := if y.granted then countRun y.run y.clamped else y.run

/-- The divergence counter that the block brings a beam, before a reset (R92). -/
def countedCtr (o : State) (b : BeamId) : Nat :=
  if divergenceCounted o.blk.work[b] then divergenceCtr o b else o.ctl.beams[b].divCtr

/-- The slots whose clamp runs the block completes, with their pairs (R91). -/
def runsDone (o : State) : List (SlotId × PairId) := (o.blk.slots.filter (runComplete o)).map fun y => (y.slot, y.pair)

/-- The beams whose divergence counters the block takes to the limit (R93). -/
def divsDone (o : State) : List BeamId := allBeams.filter (divergenceReached o)

/-- The record of a slot as the counting leaves it, where no other block's event has set it (R86). -/
structure Recorded (x : State) (y : BlockSlot) (phase : Phase × Nat) (run : Nat) : Prop where
  phase : y.slot ∉ x.blk.phaseSet →
    x.ctl.slots[y.slot].phase = phase.1 ∧ x.ctl.slots[y.slot].counter = phase.2
  run : y.slot ∉ x.blk.runSet → x.ctl.slots[y.slot].run = run

theorem Recorded.kept {x z : State} {y : BlockSlot} {ph : Phase × Nat} {run : Nat} (h : Recorded x y ph run)
    (k : TallyMoved x z) : Recorded z y ph run where
  phase free := by
    obtain ⟨free, phase, counter⟩ := k.phases y.slot free
    obtain ⟨phase', counter'⟩ := h.phase free
    exact ⟨phase.trans phase', counter.trans counter'⟩
  run free := by
    obtain ⟨free, run⟩ := k.runs y.slot free
    exact run.trans (h.run free)

theorem Recorded.of_same {x z : State} {y : BlockSlot} {ph : Phase × Nat} {run : Nat} (h : Recorded x y ph run)
    (record : z.ctl.slots[y.slot] = x.ctl.slots[y.slot]) (phaseSet : z.blk.phaseSet = x.blk.phaseSet)
    (runSet : z.blk.runSet = x.blk.runSet) : Recorded z y ph run where
  phase free := by rw [record]; exact h.phase (phaseSet ▸ free)
  run free := by rw [record]; exact h.run (runSet ▸ free)

/-- A beam's estimate, divergence counter and divergence count. -/
def beamTally (x : State) (b : BeamId) : Int × Nat × Nat :=
  (x.ctl.beams[b].erle, x.ctl.beams[b].divCtr, x.ctl.beams[b].divCount)

theorem TallyMoved.beamTally {x z : State} (k : TallyMoved x z) (b : BeamId) :
    beamTally z b = Machine.beamTally x b := by
  unfold Machine.beamTally
  rw [k.beams b]

/-- A divergence is reported of a beam (R184). -/
def DivergenceTold (x : State) (b : BeamId) : Prop :=
  x.ev.diverged.getLsbD b.val = true ∧ x.ev.status.getLsbD 2 = true

/-! ### The counting of the slots -/

theorem countSlot_frame (s : State) (y : BlockSlot) :
    countSlot s y = { s with ctl := { s.ctl with slots := (countSlot s y).ctl.slots } } := by
  unfold countSlot
  split
  · rfl
  · rfl

theorem countSlot_other {s : State} {y : BlockSlot} {sl : SlotId} (other : sl ≠ y.slot) :
    (countSlot s y).ctl.slots[sl] = s.ctl.slots[sl] := by
  unfold countSlot
  split
  · show (s.ctl.slots.set y.slot _)[sl] = _
    rw [getElem_set_fin, if_neg other]
  · rfl

/-- A slot's own counting (R86 to R91). -/
theorem countSlot_own {s : State} {y : BlockSlot} (h : Recorded s y (y.phase, y.counter) y.run) :
    Recorded (countSlot s y) y (countedPhase s y) (countedRun y) := by
  unfold countSlot countedPhase countedRun
  cases y.granted with
  | false => exact h
  | true =>
    simp only [if_true]
    constructor
    · intro free
      replace free : y.slot ∉ s.blk.phaseSet := free
      show ((s.ctl.slots.set y.slot _)[y.slot]).phase = _ ∧ ((s.ctl.slots.set y.slot _)[y.slot]).counter = _
      rw [getElem_set_fin, if_pos rfl]
      by_cases set : y.slot ∈ s.blk.runSet <;> simp [free, set]
    · intro free
      replace free : y.slot ∉ s.blk.runSet := free
      show ((s.ctl.slots.set y.slot _)[y.slot]).run = _
      rw [getElem_set_fin, if_pos rfl]
      simp [free]

/-- What the counting of slots leaves beside their records. -/
theorem countSlots_frame (l : List BlockSlot) (s : State) :
    l.foldl countSlot s = { s with ctl := { s.ctl with slots := (l.foldl countSlot s).ctl.slots } } := by
  induction l generalizing s with
  | nil => rfl
  | cons y l ih =>
    rw [List.foldl_cons, ih, countSlot_frame s y]

theorem countedPhase_kept {o x : State} (k : WorkKept o x) (y : BlockSlot) : countedPhase x y = countedPhase o y := by
  have tuning : x.blk.tuning = o.blk.tuning := by rw [k.blk]
  unfold countedPhase
  rw [tuning, k.work]

theorem countSlots_recorded {o s : State} {l : List BlockSlot} (distinct : (l.map (·.slot)).Nodup) (work : WorkKept o s)
    (start : ∀ y ∈ l, Recorded s y (y.phase, y.counter) y.run) :
    ∀ y ∈ l, Recorded (l.foldl countSlot s) y (countedPhase o y) (countedRun y) := by
  refine (foldl_each (f := countSlot) (apart := fun y z => y.slot ≠ z.slot) (inv := WorkKept o)
    (before := fun y x => Recorded x y (y.phase, y.counter) y.run)
    (after := fun y x => Recorded x y (countedPhase o y) (countedRun y))
    (fun x y k => k.trans (countSlot_work x y)) (fun x y k h => ?_) (fun x y z _ apart h => ?_)
    (fun x y z _ apart h => ?_) (List.pairwise_map.1 distinct) work start).2
  · rw [← countedPhase_kept k]
    exact countSlot_own h
  · exact h.of_same (countSlot_other apart.symm) (by rw [countSlot_frame]) (by rw [countSlot_frame])
  · exact h.of_same (countSlot_other apart) (by rw [countSlot_frame]) (by rw [countSlot_frame])

/-! ### The counting of the beams -/

theorem countBeam_frame (s : State) (b : BeamId) :
    countBeam s b = { s with ctl := { s.ctl with beams := (countBeam s b).ctl.beams } } := by
  unfold countBeam
  split
  · rfl
  · rfl

theorem countBeams_frame (l : List BeamId) (s : State) :
    l.foldl countBeam s = { s with ctl := { s.ctl with beams := (l.foldl countBeam s).ctl.beams } } := by
  induction l generalizing s with
  | nil => rfl
  | cons y l ih => rw [List.foldl_cons, ih, countBeam_frame s y]

theorem countBeam_other {s : State} {b o : BeamId} (other : o ≠ b) :
    (countBeam s b).ctl.beams[o] = s.ctl.beams[o] := by
  unfold countBeam
  split
  · show (s.ctl.beams.set b _)[o] = _
    rw [getElem_set_fin, if_neg other]
  · rfl

/-- The frozen flags stand as the block's work was handed them. -/
structure Standing (o x : State) : Prop where
  work : WorkKept o x
  frozen : ∀ b : BeamId, x.router.beams[b].frozen = o.blk.work[b].frozen

theorem Standing.kept {o x z : State} (h : Standing o x) (k : WorkKept x z)
    (frozen : ∀ b : BeamId, z.router.beams[b].frozen = x.router.beams[b].frozen) : Standing o z :=
  ⟨h.work.trans k, fun b => (frozen b).trans (h.frozen b)⟩

theorem divergenceCounted_kept {o x : State} (k : WorkKept o x) (b : BeamId) :
    divergenceCounted x.blk.work[b] = divergenceCounted o.blk.work[b] := by rw [k.work b]; rfl

theorem divergenceCtr_kept {o x : State} (k : WorkKept o x) (b : BeamId) : divergenceCtr x b = divergenceCtr o b := by
  have tuning : x.blk.tuning = o.blk.tuning := by rw [k.blk]
  unfold divergenceCtr
  rw [tuning, k.work b]

/-- A beam's own counting (R92). -/
theorem countBeam_own {o s : State} (standing : Standing o s) {b : BeamId} (start : beamTally s b = beamTally o b) :
    beamTally (countBeam s b) b = (o.ctl.beams[b].erle, countedCtr o b, o.ctl.beams[b].divCount) := by
  have counted := divergenceCounted_kept standing.work b
  obtain ⟨erle, ctr, count⟩ := Prod.ext_iff.1 start |>.imp_right Prod.ext_iff.1
  unfold countBeam countedCtr
  rw [counted, divergenceCtr_kept standing.work, standing.frozen b]
  split
  · next yes =>
    have thawed : o.blk.work[b].frozen = false := by
      rw [divergenceCounted, Bool.and_eq_true, Bool.not_eq_true'] at yes
      exact yes.2
    unfold beamTally
    show (((s.ctl.beams.set b _)[b]).erle, ((s.ctl.beams.set b _)[b]).divCtr, ((s.ctl.beams.set b _)[b]).divCount) = _
    rw [getElem_set_fin, if_pos rfl, thawed]
    exact Prod.ext erle (Prod.ext rfl count)
  · exact Prod.ext erle (Prod.ext ctr count)

theorem countBeams_tally {o s : State} (standing : Standing o s) (start : ∀ b, beamTally s b = beamTally o b)
    (b : BeamId) : beamTally (allBeams.foldl countBeam s) b =
      (o.ctl.beams[b].erle, countedCtr o b, o.ctl.beams[b].divCount) := by
  refine (foldl_each (f := countBeam) (apart := fun b o => b ≠ o) (inv := Standing o)
    (before := fun b x => beamTally x b = beamTally o b)
    (after := fun b x => beamTally x b = (o.ctl.beams[b].erle, countedCtr o b, o.ctl.beams[b].divCount))
    (fun x b k => k.kept (countBeam_work x b) fun _ => by rw [countBeam_frame]) (fun x b k h => countBeam_own k h)
    (fun x b c _ apart h => ?_) (fun x b c _ apart h => ?_) (List.nodup_finRange 16) standing
    (fun b _ => start b)).2 b (List.mem_finRange b)
  · rw [← h]
    unfold beamTally
    rw [countBeam_other apart.symm]
  · rw [← h]
    unfold beamTally
    rw [countBeam_other apart]

end Sys2Proof.Machine
end

