-- ==== Sys2Proof/Proofs/CountResets.lean ====
section
/-! PROOF. The resets that the counting of a block calls for, and the counts of the beams after a boundary (O34, R91,
R93, R94). -/

namespace Sys2Proof.Machine

/-! ### What the resets tell the beams -/

/-- What telling the beams leaves beside their records. -/
structure BeamsTold (s t : State) : Prop where
  slots : t.ctl.slots = s.ctl.slots
  blk : t.blk = { s.blk with diverged := t.blk.diverged }
  router : t.router = s.router
  told : ∀ b : BeamId, DivergenceTold s b → DivergenceTold t b

theorem BeamsTold.refl (s : State) : BeamsTold s s := ⟨rfl, rfl, rfl, fun _ => id⟩

theorem BeamsTold.trans {s t u : State} (h : BeamsTold s t) (k : BeamsTold t u) : BeamsTold s u where
  slots := k.slots.trans h.slots
  blk := by rw [k.blk, h.blk]
  router := k.router.trans h.router
  told b e := k.told b (h.told b e)

theorem reportDiverged_told (b : BeamId) (s : State) :
    BeamsTold s (reportDiverged b s) ∧ DivergenceTold (reportDiverged b s) b ∧ (reportDiverged b s).ctl = s.ctl ∧
      (reportDiverged b s).blk = s.blk := by
  rw [reportDiverged, (reportSource_reported .diverged _).eq]
  exact ⟨⟨rfl, rfl, rfl, fun _ => And.imp (setInsert_mono _ _) (setInsert_mono _ _)⟩,
    ⟨setInsert_self _ b.isLt, setInsert_self _ (by decide)⟩, rfl, rfl⟩

theorem setCtlBeam_told (b : BeamId) (x : CtlBeam) (s : State) : BeamsTold s (setCtlBeam b x s) :=
  ⟨rfl, rfl, rfl, fun _ => id⟩

theorem setCtlBeam_tally (b o : BeamId) (x : CtlBeam) (s : State) : beamTally (setCtlBeam b x s) o =
    if o = b then (x.erle, x.divCtr, x.divCount) else beamTally s o := by
  unfold beamTally
  rw [setCtlBeam_ctl]
  dsimp only
  rw [getElem_set_fin]
  split <;> rfl

theorem beamTally_of_ctl {s t : State} (ctl : t.ctl = s.ctl) (b : BeamId) : beamTally t b = beamTally s b := by
  unfold beamTally
  rw [ctl]

theorem clampBeam_told (b : BeamId) (s : State) : BeamsTold s (clampBeam b s) ∧ DivergenceTold (clampBeam b s) b ∧
    (clampBeam b s).blk = s.blk ∧ ∀ o, beamTally (clampBeam b s) o = if o = b then
      (s.ctl.beams[b].erle, s.ctl.beams[b].divCtr, countUp255 s.ctl.beams[b].divCount) else beamTally s o := by
  obtain ⟨told, own, ctl, blk⟩ := reportDiverged_told b
    (setCtlBeam b { s.ctl.beams[b] with divCount := countUp255 s.ctl.beams[b].divCount } s)
  exact ⟨(setCtlBeam_told b _ s).trans told, own, blk, fun o =>
    (beamTally_of_ctl ctl o).trans (setCtlBeam_tally b o _ s)⟩

theorem divergeBeam_told (b : BeamId) (s : State) : BeamsTold s (divergeBeam b s) ∧
    DivergenceTold (divergeBeam b s) b ∧ (divergeBeam b s).blk.diverged = b :: s.blk.diverged ∧
    ∀ o, beamTally (divergeBeam b s) o = if o = b then (0, 0, countUp255 s.ctl.beams[b].divCount) else beamTally s o := by
  have marked : ∀ x, BeamsTold x (markDiverged b x) := fun _ => ⟨rfl, rfl, rfl, fun _ => id⟩
  obtain ⟨told, own, ctl, blk⟩ := reportDiverged_told b (markDiverged b (setCtlBeam b { s.ctl.beams[b] with
    erle := 0, divCtr := 0, divCount := countUp255 s.ctl.beams[b].divCount } s))
  exact ⟨((setCtlBeam_told b _ s).trans (marked _)).trans told, own, congrArg (·.diverged) blk, fun o =>
    (beamTally_of_ctl ctl o).trans (setCtlBeam_tally b o _ s)⟩

theorem clampBeams_told (l : List (SlotId × PairId)) (s : State) :
    BeamsTold s (l.foldl (fun s x => clampBeam (pairBeam x.2) s) s) := by
  induction l generalizing s with
  | nil => exact .refl s
  | cons x l ih =>
    have one := (clampBeam_told (pairBeam x.2) s).1
    exact one.trans (ih _)

theorem divergeBeams_told (l : List BeamId) (s : State) : BeamsTold s (l.foldl (fun s b => divergeBeam b s) s) := by
  induction l generalizing s with
  | nil => exact .refl s
  | cons b l ih =>
    have one := (divergeBeam_told b s).1
    exact one.trans (ih _)

/-- A count that has risen so often, saturating at 255 (R91, R93). -/
def bump (c n : Nat) : Nat := if n = 0 then c else min 255 (c + n)

theorem bump_countUp (c n : Nat) : bump (countUp255 c) n = bump c (n + 1) := by
  unfold bump countUp255
  split <;> simp <;> omega

theorem countUp_bump (c n : Nat) : countUp255 (bump c n) = bump c (n + 1) := by
  unfold bump countUp255
  split <;> simp <;> omega

/-- Each completed clamp run adds 1 to the count of its beam (R91). -/
theorem clampBeams_tally (l : List (SlotId × PairId)) (s : State) (b : BeamId) :
    let n := (l.filter fun x => pairBeam x.2 == b).length
    let t := l.foldl (fun s x => clampBeam (pairBeam x.2) s) s
    beamTally t b = (s.ctl.beams[b].erle, s.ctl.beams[b].divCtr, bump s.ctl.beams[b].divCount n) ∧
      (0 < n → DivergenceTold t b) ∧ t.blk = s.blk := by
  induction l generalizing s with
  | nil => exact ⟨rfl, nofun, rfl⟩
  | cons x l ih =>
    obtain ⟨-, own, blk, tally⟩ := clampBeam_told (pairBeam x.2) s
    obtain ⟨rest, told, blk'⟩ := ih (clampBeam (pairBeam x.2) s)
    have later := (clampBeams_told l (clampBeam (pairBeam x.2) s)).told b
    dsimp only at rest told blk' ⊢
    rw [List.foldl_cons, List.filter_cons]
    refine ⟨rest.trans ?_, fun some => ?_, blk'.trans blk⟩
    · obtain ⟨erle, ctr, count⟩ := Prod.ext_iff.1 (tally b) |>.imp_right Prod.ext_iff.1
      by_cases same : b = pairBeam x.2
      · subst same
        rw [if_pos rfl] at erle ctr count
        rw [if_pos (beq_self_eq_true _), List.length_cons, ← bump_countUp]
        exact Prod.ext erle (Prod.ext ctr (congrArg (bump · _) count))
      · rw [if_neg same] at erle ctr count
        rw [if_neg (by simpa using fun e => same e.symm)]
        exact Prod.ext erle (Prod.ext ctr (congrArg (bump · _) count))
    · by_cases same : b = pairBeam x.2
      · subst same
        exact later own
      · rw [if_neg (by simpa using fun e => same e.symm)] at some
        exact told some

/-- Each divergence sets the estimate and the counter of its beam to 0 and adds 1 to its count (R93). -/
theorem divergeBeams_tally {l : List BeamId} (distinct : l.Nodup) (s : State) (b : BeamId) :
    let t := l.foldl (fun s b => divergeBeam b s) s
    beamTally t b = (if b ∈ l then (0, 0, countUp255 s.ctl.beams[b].divCount) else beamTally s b) ∧
      (b ∈ l → DivergenceTold t b) ∧ (b ∈ t.blk.diverged ↔ b ∈ l ∨ b ∈ s.blk.diverged) := by
  induction l generalizing s with
  | nil => exact ⟨(if_neg List.not_mem_nil).symm, nofun, by simp⟩
  | cons x l ih =>
    obtain ⟨fresh, distinct⟩ := List.nodup_cons.1 distinct
    obtain ⟨-, own, marked, tally⟩ := divergeBeam_told x s
    obtain ⟨rest, told, listed⟩ := ih distinct (divergeBeam x s)
    have later := (divergeBeams_told l (divergeBeam x s)).told b
    dsimp only at rest told listed ⊢
    rw [List.foldl_cons]
    refine ⟨rest.trans ?_, fun some => ?_, listed.trans ?_⟩
    · by_cases same : b = x
      · subst same
        rw [if_neg fresh, if_pos List.mem_cons_self, tally b, if_pos rfl]
      · have count : (divergeBeam x s).ctl.beams[b].divCount = s.ctl.beams[b].divCount := by
          have e := tally b
          rw [if_neg same] at e
          exact congrArg (fun y => y.2.2) e
        rw [count, tally b, if_neg same]
        simp [same]
    · rcases List.mem_cons.1 some with rfl | later'
      · exact later own
      · exact told later'
    · rw [marked]
      simp only [List.mem_cons]
      tauto

/-! ### The sweep of the slots -/

theorem coldSlot_tally (sl : SlotId) (s : State) : TallyMoved s (coldSlot sl s) := (coldSlot_keeps sl s).tally.toTallyMoved

theorem resetSlots_tally (which : SlotId → PairId → Bool) (s : State) : TallyMoved s (resetSlots which s) := by
  have marked : ∀ sl x, TallyMoved x (markReset sl x) := fun _ x => { TallyMoved.refl x with }
  have one : ∀ sl p x, TallyMoved x (resetSlot sl p x) := fun sl p x => by
    unfold resetSlot; split
    · exact .refl x
    · exact ((coldSlot_tally sl x).trans (marked sl _)).trans (lookup_run sl p _ _).keeps.tally.toTallyMoved
  refine .foldl _ (fun s sl => ?_) _ s
  split
  · split
    · exact one _ _ s
    · exact .refl s
  · exact .refl s
  · exact .refl s

/-! ### The three stages of the counting -/

/-- The block has not been counted. -/
structure Uncounted (o x : State) : Prop extends Standing o x where
  counted : x.blk.counted = false
  clampDone : x.blk.clampDone = []
  divDone : x.blk.divDone = []
  diverged : x.blk.diverged = []
  resets : x.blk.resets = []
  slots : ∀ y ∈ o.blk.slots, Recorded x y (y.phase, y.counter) y.run
  beams : ∀ b : BeamId, beamTally x b = beamTally o b

/-- The block has been counted, and its resets are owed. -/
structure Counted (o x : State) : Prop extends Standing o x where
  counted : x.blk.counted = true
  clampDone : x.blk.clampDone = runsDone o
  divDone : x.blk.divDone = divsDone o
  diverged : x.blk.diverged = []
  resets : x.blk.resets = []
  slots : ∀ y ∈ o.blk.slots, Recorded x y (countedPhase o y) (countedRun y)
  beams : ∀ b : BeamId, beamTally x b = (o.ctl.beams[b].erle, countedCtr o b, o.ctl.beams[b].divCount)

/-- The number of clamp runs of a beam that the block completes. -/
def runsOf (o : State) (b : BeamId) : Nat := ((runsDone o).filter fun x => pairBeam x.2 == b).length

/-- The block's resets have come. -/
structure ResetsCome (o x : State) : Prop extends Standing o x where
  counted : x.blk.counted = true
  clampDone : x.blk.clampDone = []
  divDone : x.blk.divDone = []
  slots : ∀ y ∈ o.blk.slots, Recorded x y (countedPhase o y) (countedRun y)
  diverged : ∀ b : BeamId, b ∈ x.blk.diverged ↔ b ∈ divsDone o
  beams : ∀ b : BeamId, beamTally x b = if b ∈ divsDone o
    then (0, 0, bump o.ctl.beams[b].divCount (runsOf o b + 1))
    else (o.ctl.beams[b].erle, countedCtr o b, bump o.ctl.beams[b].divCount (runsOf o b))
  told : ∀ b : BeamId, b ∈ divsDone o ∨ 0 < runsOf o b → DivergenceTold x b

theorem Uncounted.kept {o x z : State} (h : Uncounted o x) (work : WorkKept x z) (k : TallyKept x z) :
    Uncounted o z where
  toStanding := h.toStanding.kept work k.frozen
  counted := k.counted.trans h.counted
  clampDone := k.clampDone.trans h.clampDone
  divDone := k.divDone.trans h.divDone
  diverged := k.diverged.trans h.diverged
  resets := k.resets h.resets
  slots y hy := (h.slots y hy).kept k.toTallyMoved
  beams b := (k.beamTally b).trans (h.beams b)

theorem Counted.kept {o x z : State} (h : Counted o x) (work : WorkKept x z) (k : TallyKept x z) : Counted o z where
  toStanding := h.toStanding.kept work k.frozen
  counted := k.counted.trans h.counted
  clampDone := k.clampDone.trans h.clampDone
  divDone := k.divDone.trans h.divDone
  diverged := k.diverged.trans h.diverged
  resets := k.resets h.resets
  slots y hy := (h.slots y hy).kept k.toTallyMoved
  beams b := (k.beamTally b).trans (h.beams b)

theorem ResetsCome.kept {o x z : State} (h : ResetsCome o x) (work : WorkKept x z) (k : TallyKept x z) :
    ResetsCome o z where
  toStanding := h.toStanding.kept work k.frozen
  counted := k.counted.trans h.counted
  clampDone := k.clampDone.trans h.clampDone
  divDone := k.divDone.trans h.divDone
  slots y hy := (h.slots y hy).kept k.toTallyMoved
  diverged b := by rw [k.diverged]; exact h.diverged b
  beams b := (k.beamTally b).trans (h.beams b)
  told b e := by
    obtain ⟨set, status⟩ := h.told b e
    exact ⟨by rw [k.evDiverged]; exact set, work.status 2 status⟩

theorem runComplete_kept {o x : State} (k : WorkKept o x) : runComplete x = runComplete o := by
  have tuning : x.blk.tuning = o.blk.tuning := by rw [k.blk]
  funext y
  unfold runComplete
  rw [tuning]

theorem divergenceReached_kept {o x : State} (k : WorkKept o x) : divergenceReached x = divergenceReached o := by
  have tuning : x.blk.tuning = o.blk.tuning := by rw [k.blk]
  funext b
  unfold divergenceReached
  rw [tuning, divergenceCounted_kept k, divergenceCtr_kept k]

/-- The counting of the block (R78, R87 to R92). -/
theorem Uncounted.count {o x : State} (h : Uncounted o x) (distinct : (o.blk.slots.map (·.slot)).Nodup) :
    Counted o (countBlock x) := by
  have slots : x.blk.slots = o.blk.slots := by rw [h.work.blk]
  have recorded := countSlots_recorded distinct h.work h.slots
  have standing : Standing o (o.blk.slots.foldl countSlot x) :=
    h.toStanding.kept (.foldl _ countSlot_work _ x) fun _ => by rw [countSlots_frame]
  have tally := countBeams_tally standing fun b => by
    rw [← h.beams b]
    unfold beamTally
    rw [countSlots_frame]
  have first := countBlock_first h.counted
  rw [runComplete_kept h.work, divergenceReached_kept h.work, tallied, slots] at first
  have work := countBlock_work x
  have records : (allBeams.foldl countBeam (o.blk.slots.foldl countSlot x)).ctl.slots =
      (o.blk.slots.foldl countSlot x).ctl.slots := by rw [countBeams_frame]
  have blk : (allBeams.foldl countBeam (o.blk.slots.foldl countSlot x)).blk = x.blk := by
    rw [countBeams_frame, countSlots_frame]
  have slotsBlk : (o.blk.slots.foldl countSlot x).blk = x.blk := by rw [countSlots_frame]
  have router : (allBeams.foldl countBeam (o.blk.slots.foldl countSlot x)).router = x.router := by
    rw [countBeams_frame, countSlots_frame]
  rw [first] at work ⊢
  generalize allBeams.foldl countBeam (o.blk.slots.foldl countSlot x) = u at *
  generalize o.blk.slots.foldl countSlot x = v at *
  exact
    { work := h.work.trans work
      frozen := fun b => by
        show u.router.beams[b].frozen = _
        rw [router]
        exact h.frozen b
      counted := rfl
      clampDone := rfl
      divDone := rfl
      diverged := (congrArg (·.diverged) blk).trans h.diverged
      resets := (congrArg (·.resets) blk).trans h.resets
      slots := fun y hy => (recorded y hy).of_same (congrArg (·[y.slot]) records)
        (congrArg (·.phaseSet) (blk.trans slotsBlk.symm)) (congrArg (·.runSet) (blk.trans slotsBlk.symm))
      beams := tally }

/-! ### The resets -/

theorem divsDone_nodup (o : State) : (divsDone o).Nodup := (List.nodup_finRange 16).filter _

/-- The resets that the counting calls for, and what they tell the beams (R91, R93). -/
theorem Counted.reset {o c x : State} (h : Counted o c) (count : countBlock x = c) (start : Standing o x) :
    ResetsCome o (resetEvent x) := by
  have swept := resetSlots_tally (fun sl p => c.blk.clampDone.contains (sl, p) || c.blk.divDone.contains (pairBeam p)) c
  have frame := resetSlots_resetFrame
    (fun sl p => c.blk.clampDone.contains (sl, p) || c.blk.divDone.contains (pairBeam p)) c
  have router := (resetEvent_still x).router
  have work := resetEvent_work x
  rw [resetEvent_eq, count] at router work ⊢
  unfold resetCounted at router work ⊢
  rw [h.clampDone, h.divDone] at swept frame router work ⊢
  generalize resetSlots (fun sl p => (runsDone o).contains (sl, p) || (divsDone o).contains (pairBeam p)) c = u at *
  have clampTold := clampBeams_told (runsDone o) u
  have clampTally := clampBeams_tally (runsDone o) u
  generalize (runsDone o).foldl (fun s x => clampBeam (pairBeam x.2) s) u = v at *
  have divTold := divergeBeams_told (divsDone o) v
  have divTally := divergeBeams_tally (divsDone_nodup o) v
  generalize (divsDone o).foldl (fun s b => divergeBeam b s) v = w at *
  have told := clampTold.trans divTold
  have tally : ∀ b, (u.ctl.beams[b].erle, u.ctl.beams[b].divCtr, u.ctl.beams[b].divCount) =
      (o.ctl.beams[b].erle, countedCtr o b, o.ctl.beams[b].divCount) := fun b => (swept.beamTally b).trans (h.beams b)
  have clamped : ∀ b, beamTally v b = (o.ctl.beams[b].erle, countedCtr o b, bump o.ctl.beams[b].divCount (runsOf o b)) :=
    fun b => by
      obtain ⟨erle, ctr, count⟩ := Prod.ext_iff.1 (tally b) |>.imp_right Prod.ext_iff.1
      rw [(clampTally b).1]
      exact Prod.ext erle (Prod.ext ctr (congrArg (bump · _) count))
  exact
    { work := start.work.trans work
      frozen := fun b => (congrArg (·.beams[b].frozen) router).trans (start.frozen b)
      counted := (congrArg (·.counted) told.blk).trans (swept.counted.trans h.counted)
      clampDone := rfl
      divDone := rfl
      slots := fun y hy => ((h.slots y hy).kept swept).of_same (congrArg (·[y.slot]) told.slots)
        (congrArg (·.phaseSet) told.blk) (congrArg (·.runSet) told.blk)
      diverged := fun b => by
        have none : b ∉ v.blk.diverged := by
          rw [(clampTally b).2.2, swept.diverged, h.diverged]
          exact List.not_mem_nil
        exact (divTally b).2.2.trans (or_iff_left none)
      beams := fun b => by
        refine (divTally b).1.trans ?_
        split
        · have count : v.ctl.beams[b].divCount = _ := congrArg (·.2.2) (clamped b)
          rw [count, countUp_bump]
        · exact clamped b
      told := fun b some => some.elim (divTally b).2.1 fun runs => divTold.told b ((clampTally b).2.1 runs) }

/-! ### The events of a boundary -/

/-- The counts of a block that has been opened. -/
theorem uncounted_opened (order : List BoundaryEvent) (s : State) : Uncounted (opened order s) (opened order s) := by
  have o := opened_opening order s
  have so := opened_slotsOpened order s
  exact
    { work := .refl _
      frozen := fun b => by rw [o.frozen b, o.router]
      counted := o.counted, clampDone := o.clampDone, divDone := o.divDone, diverged := o.diverged, resets := o.resets
      slots := fun y hy => by
        obtain ⟨-, phase, counter, run⟩ := so.of_mem hy
        constructor
        · intro
          rw [o.records]
          exact ⟨phase.symm, counter.symm⟩
        · intro
          rw [o.records]
          exact run.symm
      beams := fun _ => rfl }

theorem whileLive_live {f : State → State} {s : State} (live : s.blk.live = true) : whileLive f s = f s := if_pos live

/-- An event before the resets leaves the block counted or not counted. -/
theorem quietEvent_counting {o x : State} (live : o.blk.live = true) (distinct : (o.blk.slots.map (·.slot)).Nodup)
    {e : BoundaryEvent} (other : e ≠ .resets) (h : Uncounted o x ∨ Counted o x) :
    Uncounted o (quietEvent e x) ∨ Counted o (quietEvent e x) := by
  by_cases counting : e = .counting
  · subst counting
    have here : x.blk.live = true → quietEvent .counting x = countBlock x := whileLive_live
    right
    rcases h with h | h
    · rw [here (by rw [h.work.blk]; exact live)]
      exact h.count distinct
    · rw [here (by rw [h.work.blk]; exact live), countBlock_again h.counted]
      exact h
  · have work := quietEvent_work e x
    have tally := quietEvent_tally counting other x
    exact h.imp (·.kept work tally) (·.kept work tally)

theorem quietEvent_resets {o x : State} (live : o.blk.live = true) (distinct : (o.blk.slots.map (·.slot)).Nodup)
    (h : Uncounted o x ∨ Counted o x) : ResetsCome o (quietEvent .resets x) := by
  have here : x.blk.live = true → quietEvent .resets x = resetEvent x := whileLive_live
  rcases h with h | h
  · rw [here (by rw [h.work.blk]; exact live)]
    exact (h.count distinct).reset rfl h.toStanding
  · rw [here (by rw [h.work.blk]; exact live)]
    exact h.reset (countBlock_again h.counted) h.toStanding

/-- An event after the resets leaves the counts. -/
theorem quietEvent_counts {o x : State} {e : BoundaryEvent} (other : e ≠ .resets) (h : ResetsCome o x) :
    ResetsCome o (quietEvent e x) := by
  by_cases counting : e = .counting
  · subst counting
    exact whileLive_of (P := ResetsCome o) h (by rw [countBlock_again h.counted]; exact h)
  · exact h.kept (quietEvent_work e x) (quietEvent_tally counting other x)

/-- The counts that the events of a boundary leave. -/
theorem worked_resets (order : List BoundaryEvent) (s : State) : ResetsCome (opened order s) (worked order s) := by
  have live := (opened_opening order s).live
  have distinct := (opened_slotsOpened order s).nodup
  exact quietEvents_once (P := fun x => Uncounted (opened order s) x ∨ Counted (opened order s) x)
    (Q := ResetsCome (opened order s)) (eventOrder_nodup order)
    (ownWork_mem_eventOrder order (e := .resets) (by decide)) (.inl (uncounted_opened order s))
    (fun e _ other x h => quietEvent_counting live distinct other h) (fun x h => quietEvent_resets live distinct h)
    fun e _ other x h => quietEvent_counts other h

end Sys2Proof.Machine
end

