-- ==== Sys2Proof/Proofs/DegradeWatch.lean ====
section
/-! PROOF. The degrade watch of a block, once in the events of its boundary (O34, R96, R97). -/

namespace Sys2Proof.Machine

/-! ### What the other events leave of the watch -/

/-- A beam's degrade counter and flag. -/
def degradeRecord (x : State) (b : BeamId) : Nat × Bool := (x.ctl.beams[b].degCtr, x.ctl.beams[b].degraded)

/-- What every event but the degrade watch's leaves of it. -/
structure WatchKept (s t : State) : Prop where
  records : ∀ b : BeamId, degradeRecord t b = degradeRecord s b
  ev : t.ev.degraded = s.ev.degraded

theorem WatchKept.refl (s : State) : WatchKept s s := ⟨fun _ => rfl, rfl⟩

theorem WatchKept.trans {s t u : State} (h : WatchKept s t) (k : WatchKept t u) : WatchKept s u :=
  ⟨fun b => (k.records b).trans (h.records b), k.ev.trans h.ev⟩

theorem WatchKept.foldl {α : Type} (f : State → α → State) (h : ∀ s x, WatchKept s (f s x)) (l : List α) (s : State) :
    WatchKept s (l.foldl f s) := by
  induction l generalizing s with
  | nil => exact .refl s
  | cons x l ih => exact (h s x).trans (ih _)

theorem WatchKept.of_same {s t : State} (beams : t.ctl.beams = s.ctl.beams) (ev : t.ev.degraded = s.ev.degraded) :
    WatchKept s t := ⟨fun b => by unfold degradeRecord; rw [beams], ev⟩

theorem StoreKeeps.watch {s t : State} (k : StoreKeeps s t) : WatchKept s t := .of_same k.beams k.evDegraded

theorem Reported.watch {src : Source} {s t : State} (r : Reported src s t) : WatchKept s t := by
  rw [r.eq]
  exact .of_same rfl rfl

/-- A beam's record changes in what the counting and the resets write. -/
theorem setCtlBeam_watch (b : BeamId) (e : Int) (n c : Nat) (s : State) :
    WatchKept s (setCtlBeam b { s.ctl.beams[b] with erle := e, divCtr := n, divCount := c } s) where
  records o := by
    unfold degradeRecord
    rw [setCtlBeam_ctl]
    dsimp only
    rw [getElem_set_fin]
    split
    · next e => subst e; rfl
    · rfl
  ev := rfl

theorem reportDiverged_watch (b : BeamId) (s : State) : WatchKept s (reportDiverged b s) := by
  have noted : WatchKept s { s with ev := { s.ev with diverged := setInsert s.ev.diverged b.val } } := .of_same rfl rfl
  exact noted.trans (reportSource_reported .diverged _).watch

theorem clampBeam_watch (b : BeamId) (s : State) : WatchKept s (clampBeam b s) :=
  (setCtlBeam_watch b s.ctl.beams[b].erle s.ctl.beams[b].divCtr _ s).trans (reportDiverged_watch b _)

theorem divergeBeam_watch (b : BeamId) (s : State) : WatchKept s (divergeBeam b s) := by
  have marked : ∀ x, WatchKept x (markDiverged b x) := fun _ => .of_same rfl rfl
  exact ((setCtlBeam_watch b 0 0 _ s).trans (marked _)).trans (reportDiverged_watch b _)

theorem countSlot_watch (s : State) (x : BlockSlot) : WatchKept s (countSlot s x) := by
  rw [countSlot_frame]
  exact .of_same rfl rfl

theorem countBeam_watch (s : State) (b : BeamId) : WatchKept s (countBeam s b) := by
  unfold countBeam; split
  · exact setCtlBeam_watch b s.ctl.beams[b].erle _ s.ctl.beams[b].divCount s
  · exact .refl s

theorem notes_watch (s : State) (counted : Bool) (runDone : List SlotId) (clampDone : List (SlotId × PairId))
    (divDone : List BeamId) : WatchKept s { s with blk := { s.blk with
      counted := counted, runDone := runDone, clampDone := clampDone, divDone := divDone } } := .of_same rfl rfl

theorem countBlock_watch (s : State) : WatchKept s (countBlock s) := by
  unfold countBlock; split
  · exact .refl s
  · exact ((WatchKept.foldl _ countSlot_watch _ s).trans (.foldl _ countBeam_watch _ _)).trans (notes_watch _ _ _ _ _)

theorem resetSlots_watch (which : SlotId → PairId → Bool) (s : State) : WatchKept s (resetSlots which s) := by
  rw [resetSlots_resetFrame which s]
  exact .of_same rfl rfl

theorem resetEvent_watch (s : State) : WatchKept s (resetEvent s) := by
  have swept := (countBlock_watch s).trans (resetSlots_watch (fun sl p =>
    (countBlock s).blk.clampDone.contains (sl, p) || (countBlock s).blk.divDone.contains (pairBeam p)) _)
  have told := (swept.trans (.foldl _ (fun s x => clampBeam_watch (pairBeam x.2) s) (countBlock s).blk.clampDone _)).trans
    (.foldl _ (fun s b => divergeBeam_watch b s) (countBlock s).blk.divDone _)
  exact told.trans (notes_watch _ _ _ _ _)

theorem clippingEvent_watch (s : State) : WatchKept s (clippingEvent s) := by
  unfold clippingEvent; split
  · have cleared : WatchKept s { s with play := { s.play with clamped := false } } := .of_same rfl rfl
    exact cleared.trans (reportSource_reported .clipping _).watch
  · exact .refl s

theorem applyRecord_watch (r : SteerRec) (s : State) : WatchKept s (applyRecord r s) := by
  unfold applyRecord; dsimp only; split
  · exact .refl s
  · have tagged : WatchKept s (setBeam r.beam { s.router.beams[r.beam] with tag := r.tag } s) := .of_same rfl rfl
    split
    · exact tagged.trans (zoneChange_run _ _ _ _).keeps.watch
    · exact tagged

theorem applySteer_watch (s : State) : WatchKept s (applySteer s) := by
  have emptied : ∀ q, WatchKept s { s with router := { s.router with queue := q } } := fun _ => .of_same rfl rfl
  unfold applySteer; split
  · exact .refl s
  · exact (emptied _).trans (.foldl _ (fun s r => applyRecord_watch r s) _ _)

theorem activityEvent_watch (s : State) : WatchKept s (activityEvent s) := by
  have decided : WatchKept s (applyDecided s) := .of_same rfl rfl
  exact decided.trans (allocEvent_run _ _).keeps.watch

theorem quietEvent_watch {e : BoundaryEvent} (other : e ≠ .degrade) (s : State) : WatchKept s (quietEvent e s) := by
  have live : ∀ {f : State → State}, WatchKept s (f s) → WatchKept s (whileLive f s) := fun k =>
    whileLive_of (P := WatchKept s) (.refl s) k
  cases e with
  | activity => exact live (activityEvent_watch s)
  | clipping => exact live (clippingEvent_watch s)
  | counting => exact live (countBlock_watch s)
  | resets => exact live (resetEvent_watch s)
  | degrade => exact absurd rfl other
  | suppress => exact live (.of_same rfl rfl)
  | view => exact .refl s
  | steer => exact applySteer_watch s
  | complete => exact (completeDue_run s).keeps.watch
  | grant => exact (grantDue_run s).keeps.watch
  | command => exact .of_same rfl rfl
  | reply => exact .refl s

/-! ### The watch -/

/-- What the watch of a block makes of a beam's counter and flag, and whether DEGRADED is reported (R96). -/
def watched (o : State) (b : BeamId) : Nat × Bool × Bool :=
  match degradeTime (degradeCode o.blk.tuning) with
  | none => (o.ctl.beams[b].degCtr, o.ctl.beams[b].degraded, false)
  | some limit =>
    if o.blk.work[b].talk == .far then countDegrade limit o.blk.work[b].erle o.blk.thresholds[b.val].toNat
      o.blk.work[b].degCtr o.blk.work[b].degraded
    else (o.ctl.beams[b].degCtr, o.ctl.beams[b].degraded, false)

/-- The watch has come: the beam's record is that of the watch, and a report is made. -/
structure Watched (o x : State) (b : BeamId) : Prop where
  record : degradeRecord x b = ((watched o b).1, (watched o b).2.1)
  told : (watched o b).2.2 = true → x.ev.degraded.getLsbD b.val = true ∧ x.ev.status.getLsbD 5 = true

theorem Watched.kept {o x z : State} {b : BeamId} (h : Watched o x b) (work : WorkKept x z) (k : WatchKept x z) :
    Watched o z b where
  record := (k.records b).trans h.record
  told e := by
    obtain ⟨set, status⟩ := h.told e
    exact ⟨by rw [k.ev]; exact set, work.status 5 status⟩

theorem reportDegraded_told (b : BeamId) (s : State) :
    (reportDegraded b s).ev.degraded.getLsbD b.val = true ∧ (reportDegraded b s).ev.status.getLsbD 5 = true ∧
      (reportDegraded b s).ctl = s.ctl ∧
      ∀ i, s.ev.degraded.getLsbD i = true → (reportDegraded b s).ev.degraded.getLsbD i = true := by
  rw [reportDegraded, (reportSource_reported .degraded _).eq]
  exact ⟨setInsert_self _ b.isLt, setInsert_self _ (by decide), rfl, fun i => setInsert_mono _ _⟩

theorem setCtlBeam_degrade (b o : BeamId) (n : Nat) (f : Bool) (s : State) :
    degradeRecord (setCtlBeam b { s.ctl.beams[b] with degCtr := n, degraded := f } s) o =
      if o = b then (n, f) else degradeRecord s o := by
  unfold degradeRecord
  rw [setCtlBeam_ctl]
  dsimp only
  rw [getElem_set_fin]
  split <;> rfl

/-- The watch of one beam, while the code is not 0 (R96). -/
theorem degradeBeam_spec {limit : Nat} {s : State} (code : degradeCode s.cmd.tuning ≠ 0) (b : BeamId) :
    let w := s.blk.work[b]
    let r := countDegrade limit w.erle s.blk.thresholds[b.val].toNat w.degCtr w.degraded
    let t := degradeBeam limit s b
    (∀ o, degradeRecord t o = if o = b ∧ w.talk = .far then (r.1, r.2.1) else degradeRecord s o) ∧
    (w.talk = .far → r.2.2 = true → t.ev.degraded.getLsbD b.val = true ∧ t.ev.status.getLsbD 5 = true) ∧
    ∀ i, s.ev.degraded.getLsbD i = true → t.ev.degraded.getLsbD i = true := by
  unfold degradeBeam
  dsimp only
  generalize countDegrade limit s.blk.work[b].erle s.blk.thresholds[b.val].toNat s.blk.work[b].degCtr
    s.blk.work[b].degraded = r
  by_cases far : s.blk.work[b].talk = .far
  · rw [if_pos (by simpa using far), if_neg code]
    have record := setCtlBeam_degrade b (s := s) (n := r.1) (f := r.2.1)
    simp only [far, and_true, true_imp_iff]
    obtain ⟨set, status, ctl, mono⟩ :=
      reportDegraded_told b (setCtlBeam b { s.ctl.beams[b] with degCtr := r.1, degraded := r.2.1 } s)
    cases reported : r.2.2 with
    | false => exact ⟨record, nofun, fun _ => id⟩
    | true =>
      refine ⟨fun o => ?_, fun _ => ⟨set, status⟩, mono⟩
      rw [← record]
      unfold degradeRecord
      rw [if_pos rfl, ctl]
  · rw [if_neg (by simpa using far)]
    exact ⟨fun o => by rw [if_neg (fun e => far e.2)], fun e => absurd e far, fun _ => id⟩

theorem code_of_degradeTime {code limit : Nat} (h : degradeTime code = some limit) : code ≠ 0 := by
  rintro rfl
  cases h

/-- The watch of the block (R96). -/
theorem degradeEvent_watched {o x : State} (work : WorkKept o x) (tuning : o.cmd.tuning = o.blk.tuning)
    (start : ∀ b, degradeRecord x b = degradeRecord o b) (b : BeamId) : Watched o (degradeEvent x) b := by
  have settings : x.blk.tuning = o.blk.tuning := by rw [work.blk]
  unfold degradeEvent
  rw [settings]
  cases time : degradeTime (degradeCode o.blk.tuning) with
  | none =>
    have idle : watched o b = (o.ctl.beams[b].degCtr, o.ctl.beams[b].degraded, false) := by
      unfold watched
      rw [time]
    exact ⟨by rw [idle]; exact start b, fun e => by rw [idle] at e; cases e⟩
  | some limit =>
    have watch : ∀ b, watched o b = if o.blk.work[b].talk == .far then
        countDegrade limit o.blk.work[b].erle o.blk.thresholds[b.val].toNat o.blk.work[b].degCtr
          o.blk.work[b].degraded
        else (o.ctl.beams[b].degCtr, o.ctl.beams[b].degraded, false) := fun b => by
      unfold watched
      rw [time]
    refine (foldl_each (f := degradeBeam limit) (apart := fun b c => b ≠ c) (inv := WorkKept o)
      (before := fun b u => degradeRecord u b = degradeRecord o b) (after := fun b u => Watched o u b)
      (fun u b k => k.trans (degradeBeam_work limit u b)) (fun u b k h => ?_) (fun u b c k apart h => ?_)
      (fun u b c k apart h => ?_) (List.nodup_finRange 16) work (fun b _ => start b)).2 b (List.mem_finRange b)
    all_goals
      have code : degradeCode u.cmd.tuning ≠ 0 := by
        rw [k.cmd, tuning]
        exact code_of_degradeTime time
    · obtain ⟨record, told, -⟩ := degradeBeam_spec (limit := limit) code b
      have thresholds : u.blk.thresholds = o.blk.thresholds := by rw [k.blk]
      rw [k.work b, thresholds] at record told
      constructor
      · rw [record b, watch b]
        by_cases far : o.blk.work[b].talk = .far
        · rw [if_pos ⟨rfl, far⟩, if_pos (by simpa using far)]
        · rw [if_neg fun e => far e.2, if_neg (by simpa using far)]
          exact h
      · rw [watch b]
        split
        · next far => exact told (by simpa using far)
        · exact nofun
    · rw [(degradeBeam_spec (limit := limit) code b).1, if_neg fun e => apart e.1.symm]
      exact h
    · obtain ⟨record, -, mono⟩ := degradeBeam_spec (limit := limit) code c
      refine ⟨?_, fun e => ?_⟩
      · rw [record, if_neg fun e => apart e.1]
        exact h.record
      · obtain ⟨set, status⟩ := h.told e
        exact ⟨mono _ set, (degradeBeam_work limit u c).status 5 status⟩

/-- The watch comes once in the events of a boundary (R96). -/
theorem worked_watched (order : List BoundaryEvent) (s : State) (b : BeamId) :
    Watched (opened order s) (worked order s) b := by
  have o := opened_opening order s
  have tuning : (opened order s).cmd.tuning = (opened order s).blk.tuning := o.tuning.trans o.blkTuning.symm
  have live := o.live
  refine quietEvents_once (P := fun x => WorkKept (opened order s) x ∧
      ∀ b, degradeRecord x b = degradeRecord (opened order s) b)
    (Q := fun x => ∀ b, Watched (opened order s) x b) (eventOrder_nodup order)
    (ownWork_mem_eventOrder order (e := .degrade) (by decide)) ⟨.refl _, fun _ => rfl⟩ ?_ ?_ ?_ b
  · rintro e - other x ⟨work, start⟩
    have watch := quietEvent_watch other x
    exact ⟨work.trans (quietEvent_work e x), fun b => (watch.records b).trans (start b)⟩
  · rintro x ⟨work, start⟩
    have here : x.blk.live = true → quietEvent .degrade x = degradeEvent x := whileLive_live
    rw [here (by rw [work.blk]; exact live)]
    exact degradeEvent_watched work tuning start
  · rintro e - other x done b
    exact (done b).kept (quietEvent_work e x) (quietEvent_watch other x)

end Sys2Proof.Machine
end

