-- ==== Sys2Proof/Proofs/ControlStages.lean ====
section
/-! PROOF. The decisions of the Reference Tracker and the Controller's stages 1 to 5 at a LOCKED boundary, as its opening
hands them on (O34, R25, R50, R78 to R84). -/

namespace Sys2Proof.Machine

/-! ### The activity states (R25) -/

/-- The activity state and the linger counter that the block brings a reference, by its level (R25). -/
def decision (s : State) (level : Nat) (r : RefId) : Activity × Nat :=
  if s.cmd.op = .config ∨ s.tracker.refs[r].mode = .off then (.silent, 0)
  else decideActivity s.tracker.refs[r].activity s.tracker.refs[r].linger
    (effectiveLinger s.tracker.refs[r].mode (lingerBlocks s.cmd.tuning) (tailLen s))
    (decide (actThreshold s.cmd.tuning ≤ level))

theorem decideRef_eq (s : State) (r : RefId) : decideRef s r =
    if s.blk.op = .config ∨ s.tracker.refs[r].mode = .off then (.silent, 0)
    else decideActivity s.tracker.refs[r].activity s.tracker.refs[r].linger
      (effectiveLinger s.tracker.refs[r].mode (lingerBlocks s.blk.tuning) (tailLen s))
      (decide (actThreshold s.blk.tuning ≤ s.tracker.refs[r].level)) := by
  unfold decideRef
  dsimp only
  generalize s.tracker.refs[r] = ref
  cases s.blk.op with
  | config => exact (if_pos (.inl rfl)).symm
  | running =>
    cases ref.mode with
    | off => exact (if_pos (.inr rfl)).symm
    | on => exact (if_neg (by decide)).symm
    | onShort => exact (if_neg (by decide)).symm

/-- A reference that the block finds ACTIVE is on, in RUNNING. -/
theorem decision_active {s : State} {level : Nat} {r : RefId} (active : (decision s level r).1 = .active) :
    s.cmd.op = .running ∧ s.tracker.refs[r].mode ≠ .off := by
  unfold decision at active
  split at active
  · cases active
  · next not =>
    obtain ⟨op, mode⟩ := not_or.1 not
    refine ⟨?_, mode⟩
    cases running : s.cmd.op with
    | config => exact absurd running op
    | running => rfl

/-- The decision in the manual's words (R25). -/
theorem decision_eq {s : State} (level : Nat) {r : RefId} (running : s.cmd.op = .running)
    (on : s.tracker.refs[r].mode ≠ .off) :
    let ref := s.tracker.refs[r]
    let limit := if ref.mode = .onShort then tailLen s else max (lingerBlocks s.cmd.tuning) (tailLen s)
    decision s level r =
      if actThreshold s.cmd.tuning ≤ level then (.active, if ref.activity = .active then ref.linger else 0)
      else match ref.activity with
        | .silent => (.silent, 0)
        | .active => (.linger, limit)
        | .linger => if ref.linger ≤ 1 then (.silent, 0) else (.linger, ref.linger - 1) := by
  have limit : effectiveLinger s.tracker.refs[r].mode (lingerBlocks s.cmd.tuning) (tailLen s) =
      if s.tracker.refs[r].mode = .onShort then tailLen s else max (lingerBlocks s.cmd.tuning) (tailLen s) := by
    cases s.tracker.refs[r].mode <;> rfl
  have decided : decision s level r = decideActivity s.tracker.refs[r].activity s.tracker.refs[r].linger
      (effectiveLinger s.tracker.refs[r].mode (lingerBlocks s.cmd.tuning) (tailLen s))
      (decide (actThreshold s.cmd.tuning ≤ level)) := by
    unfold decision
    rw [running]
    exact if_neg (not_or.2 ⟨nofun, on⟩)
  dsimp only
  rw [decided, limit]
  by_cases loud : actThreshold s.cmd.tuning ≤ level
  · rw [if_pos loud, decide_eq_true loud]
    cases s.tracker.refs[r].activity <;> rfl
  · rw [if_neg loud, decide_eq_false loud]
    cases s.tracker.refs[r].activity <;> rfl

theorem estimated_decided (s : State) (r : RefId) :
    (estimated s).blk.decided[r] = decision s (estimated s).tracker.refs[r].level r := by
  have stage : (estimated s).blk.decided = Vector.ofFn (decideRef (analyseBlock (pushLock (snapshotBlock s)))) := rfl
  have level : (estimated s).tracker.refs[r].level = lu (blockEnergy (pushed s).blk.refBands[r]) :=
    congrArg (·.level) (pushed_level s r)
  have ref : (analyseBlock (pushLock (snapshotBlock s))).tracker.refs[r] =
      { s.tracker.refs[r] with level := (estimated s).tracker.refs[r].level } :=
    (pushed_level s r).trans (by rw [level])
  have op : (analyseBlock (pushLock (snapshotBlock s))).blk.op = s.cmd.op := rfl
  have tuning : (analyseBlock (pushLock (snapshotBlock s))).blk.tuning = s.cmd.tuning := rfl
  have tail : tailLen (analyseBlock (pushLock (snapshotBlock s))) = tailLen s := rfl
  rw [stage, getElem_ofFn_fin, decideRef_eq, ref, op, tuning, tail]
  rfl

theorem openBlock_decided (sees : RefId → Bool) (s : State) :
    (openBlock sees s).blk.decided = (estimated s).blk.decided := rfl

theorem openBlock_decision (sees : RefId → Bool) (s : State) (r : RefId) :
    (openBlock sees s).blk.decided[r] = decision s (openBlock sees s).tracker.refs[r].level r := by
  have tracker : (openBlock sees s).tracker = (estimated s).tracker := rfl
  rw [openBlock_decided, tracker, estimated_decided]

theorem openBlock_refModes (sees : RefId → Bool) (s : State) (r : RefId) :
    (openBlock sees s).blk.refModes[r] = s.tracker.refs[r].mode := by
  have stage : (openBlock sees s).blk.refModes = Vector.ofFn fun r : RefId => s.tracker.refs[r].mode := rfl
  rw [stage, getElem_ofFn_fin]

/-! ### What the Controller sees (R26) -/

theorem mem_of_beforeView {es p : List BoundaryEvent} (h : beforeView es = some p) : .command ∈ es := by
  unfold beforeView at h
  dsimp only at h
  split at h
  · next c =>
    simp only [Bool.and_eq_true, List.contains_eq_mem, decide_eq_true_eq] at c
    exact c.1.1
  · cases h

/-- At a boundary that takes no command the Controller sees every reference that the block finds found. -/
theorem controllerSees_active {order : List BoundaryEvent} {s : State} (none : noCommandTaken order s) {r : RefId}
    (active : (estimated (appendHeld s)).blk.decided[r].1 = .active) :
    controllerSees (eventOrder order) (appendHeld s) r = true := by
  unfold controllerSees
  cases before : beforeView (eventOrder order) with
  | none => rfl
  | some p =>
    have command : .command ∈ order := (mem_eventOrder (mem_of_beforeView before)).resolve_right (by decide)
    have nothing := openBlock_nothing (none.resolve_left fun without => without command) fun _ => true
    have work := quietEvents_work p (openBlock (fun _ => true) (appendHeld s))
    have opening := openBlock_opening (fun _ => true) (appendHeld s)
    rw [estimated_decided] at active
    obtain ⟨op, mode⟩ := decision_active active
    dsimp only
    rw [runEvents_nothing false p nothing, takeCommand_nothing (work.nothingTaken nothing), work.refs r, work.cmd,
      Bool.and_eq_true, bne_iff_ne, beq_iff_eq]
    refine ⟨?_, opening.opState.trans op⟩
    rw [opening.refs r]
    exact mode

/-! ### Stages 1 to 5 (R79 to R84) -/

/-- What the Controller's stages 1 to 4 hand on about a beam, by the references that it sees found. -/
structure BeamControlled (s o : State) (active : RefId → Bool) (b : BeamId) : Prop where
  record : o.ctl.beams[b] = beamStages s.cmd.tuning o.blk.work[b].far o.blk.work[b].near o.blk.work[b].mic
    o.blk.work[b].res s.ctl.beams[b]
  far : o.blk.work[b].far = farEnd active (slotsOfBlock s) b
  near : o.blk.work[b].near = nearEnd s.cmd.tuning (noneWarm (slotsOfBlock s) b) s.ctl.beams[b] o.blk.work[b].mic
    o.blk.work[b].echo
  talk : o.blk.work[b].talk = o.ctl.beams[b].talk
  erle : o.blk.work[b].erle = o.ctl.beams[b].erle
  divCtr : o.blk.work[b].divCtr = s.ctl.beams[b].divCtr
  degCtr : o.blk.work[b].degCtr = s.ctl.beams[b].degCtr
  degraded : o.blk.work[b].degraded = s.ctl.beams[b].degraded
  rose : b ∈ o.blk.rose ↔ floorRises s.ctl.beams[b].noise s.ctl.beams[b].rise o.blk.work[b].mic
    (noiseRise s.cmd.tuning) = true

theorem openBlock_beamControlled {s : State} (locked : s.ports.arrayRx.lock = .locked) (sees : RefId → Bool)
    (b : BeamId) : BeamControlled s (openBlock sees s) (seen sees s) b := by
  have beam : (openBlock sees s).ctl.beams[b] = (controlBeam (seen sees s) (estimated s) b).1 := by
    rw [openBlock_beams, controlBlock_beams, controlled_locked (by rw [estimated_ports]; exact locked)]
  have work : (openBlock sees s).blk.work[b] = (controlBeam (seen sees s) (estimated s) b).2 := by
    rw [openBlock_workOf, controlled_locked (by rw [estimated_ports]; exact locked)]
  have rose : (openBlock sees s).blk.rose = allBeams.filter (floorRose (estimated s)) := rfl
  have slots := estimated_slots s
  have lock : (estimated s).ports.arrayRx.lock = .locked := by rw [estimated_ports]; exact locked
  have tuning : (estimated s).blk.tuning = s.cmd.tuning := (estimated_open s).tuning
  have records : (estimated s).ctl.beams = s.ctl.beams := rfl
  generalize openBlock sees s = o at *
  generalize estimated s = e at *
  unfold controlBeam at beam work
  rw [slots, tuning, records] at beam work
  have far : o.blk.work[b].far = _ := congrArg (·.far) work
  have near : o.blk.work[b].near = _ := congrArg (·.near) work
  have mic : o.blk.work[b].mic = e.blk.work[b].mic := congrArg (·.mic) work
  have echo : o.blk.work[b].echo = e.blk.work[b].echo := congrArg (·.echo) work
  have res : o.blk.work[b].res = e.blk.work[b].res := congrArg (·.res) work
  exact
    { far := far
      near := by rw [near, mic, echo]
      record := by rw [beam, far, near, mic, res]
      talk := (congrArg (·.talk) work).trans (congrArg (·.talk) beam).symm
      erle := (congrArg (·.erle) work).trans (congrArg (·.erle) beam).symm
      divCtr := congrArg (·.divCtr) work
      degCtr := congrArg (·.degCtr) work
      degraded := congrArg (·.degraded) work
      rose := by
        rw [rose, List.mem_filter]
        unfold floorRose
        rw [lock, tuning, records, mic]
        simp [allBeams] }

/-- The grant of a slot of the block (R83). -/
theorem openBlock_granted {s : State} (locked : s.ports.arrayRx.lock = .locked) (sees : RefId → Bool) {y : BlockSlot}
    (hy : y ∈ (openBlock sees s).blk.slots) :
    y.granted = true ↔ (openBlock sees s).blk.work[pairBeam y.pair].talk = .far ∧
      s.router.beams[pairBeam y.pair].frozen = false ∧ ∃ j : Fin 32, 0 < stepOf s.core.step y.phase j := by
  obtain ⟨x, -, e⟩ := opened_slot hy
  have lock : (controlBlock (seen sees s) (estimated s)).ports.arrayRx.lock = .locked := by
    rw [(controlBlock_open _ _).ports, estimated_ports]
    exact locked
  have step : (controlBlock (seen sees s) (estimated s)).blk.step = s.core.step := rfl
  have frozen := openBlock_frozen sees s
  rw [openBlock_work] at frozen ⊢
  generalize controlBlock (seen sees s) (estimated s) = c at *
  have grant : y.granted = granted c y := by
    generalize y.clamped = clamped at e
    subst e
    rfl
  rw [grant, ← frozen]
  simp [granted, lock, step, phaseSteps, and_assoc]

/-- What the opening of a LOCKED boundary that takes no command hands on (R25, R79 to R84). -/
structure LockedOpening (s o : State) : Prop where
  decided : ∀ r : RefId, o.blk.decided[r] = decision s o.tracker.refs[r].level r
  refModes : ∀ r : RefId, o.blk.refModes[r] = s.tracker.refs[r].mode
  beams : ∀ b : BeamId, BeamControlled s o (fun r => o.blk.decided[r].1 == .active) b
  granted : ∀ y ∈ o.blk.slots, (y.granted = true ↔ o.blk.work[pairBeam y.pair].talk = .far ∧
    s.router.beams[pairBeam y.pair].frozen = false ∧ ∃ j : Fin 32, 0 < stepOf s.core.step y.phase j)

theorem LockedOpening.of_held {s o : State} {st : UnitState} {rs : List Msg}
    (h : LockedOpening { s with cmd := { s.cmd with state := st, replies := rs } } o) : LockedOpening s o where
  decided := h.decided
  refModes := h.refModes
  beams b :=
    have k := h.beams b
    ⟨k.record, k.far, k.near, k.talk, k.erle, k.divCtr, k.degCtr, k.degraded, k.rose⟩
  granted := h.granted

theorem opened_locked {order : List BoundaryEvent} {s : State} (none : noCommandTaken order s)
    (locked : s.ports.arrayRx.lock = .locked) : LockedOpening s (opened order s) := by
  have lock : (appendHeld s).ports.arrayRx.lock = .locked := by
    rw [appendHeld_same]
    exact locked
  have active : seen (controllerSees (eventOrder order) (appendHeld s)) (appendHeld s) =
      fun r => (opened order s).blk.decided[r].1 == .active := by
    funext r
    have sees := controllerSees_active none (r := r)
    unfold seen
    rw [opened, openBlock_decided]
    cases found : (estimated (appendHeld s)).blk.decided[r].1 == .active with
    | false => rw [Bool.and_false]
    | true => rw [sees (beq_iff_eq.1 found), Bool.and_true]
  have start : LockedOpening (appendHeld s) (opened order s) :=
    ⟨openBlock_decision _ _, openBlock_refModes _ _,
      fun b => active ▸ openBlock_beamControlled lock (controllerSees (eventOrder order) (appendHeld s)) b,
      fun y hy => openBlock_granted lock _ hy⟩
  generalize opened order s = o at start ⊢
  rw [appendHeld_same] at start
  exact start.of_held

end Sys2Proof.Machine
end

