-- ==== Sys2Proof/Proofs/ColdRuns.lean ====
section
/-! PROOF. A slot that completes its clamp run and serves its pair after the boundary stands cold (O34, R67, R91). -/

namespace Sys2Proof.Machine

/-! ### The sweep makes cold what it picks -/

theorem resetStep_frame (which : SlotId → PairId → Bool) (s : State) (sl : SlotId) :
    ResetFrame s (resetStep which s sl) := by
  unfold resetStep
  split
  · split
    · by_cases done : sl ∈ s.blk.resets
      · unfold resetSlot
        rw [if_pos (by simpa using done)]
        exact .refl s
      · exact (resetSlot_reset done _).frame
    · exact .refl s
  · exact .refl s
  · exact .refl s

/-- A slot that the sweep has not come to is not marked. -/
theorem resetStep_unmarked {which : SlotId → PairId → Bool} {s : State} {sl o : SlotId} (other : sl ≠ o)
    (unmarked : o ∉ s.blk.resets) : o ∉ (resetStep which s sl).blk.resets := by
  unfold resetStep
  split
  · split
    · by_cases done : sl ∈ s.blk.resets
      · unfold resetSlot
        rw [if_pos (by simpa using done)]
        exact unmarked
      · rw [(resetSlot_reset done _).resets, List.mem_cons, not_or]
        exact ⟨other.symm, unmarked⟩
    · exact unmarked
  · exact unmarked
  · exact unmarked

theorem resetSlot_fresh {sl : SlotId} {s : State} (unmarked : sl ∉ s.blk.resets) (p : PairId) :
    Fresh (resetSlot sl p s) sl := by
  unfold resetSlot
  rw [if_neg (by simpa using unmarked)]
  exact (lookup_run sl p _ _).taps.fresh sl ((markReset_taps sl _).fresh sl (coldSlot_fresh sl s))

/-- The sweep makes every slot cold that it picks (R69, R91). -/
theorem resetSlots_fresh {which : SlotId → PairId → Bool} {s : State} (none : s.blk.resets = []) {sl : SlotId}
    {p : PairId} (running : s.alloc.slots[sl] = .running p) (picked : which sl p = true) :
    Fresh (resetSlots which s) sl := by
  rw [resetSlots_eq]
  refine (foldl_each (f := resetStep which) (apart := fun a b => a ≠ b) (inv := ResetFrame s)
    (before := fun a u => a ∉ u.blk.resets)
    (after := fun a u => ∀ p, s.alloc.slots[a] = .running p → which a p = true → Fresh u a)
    (fun u a k => k.trans (resetStep_frame which u a)) (fun u a k unmarked p running picked => ?_)
    (fun u a b _ other unmarked => resetStep_unmarked other unmarked)
    (fun u a b _ _ cold p running picked => (resetStep_taps which u b).fresh a (cold p running picked))
    (List.nodup_finRange 128) (.refl s) fun a _ => by rw [none]; exact List.not_mem_nil).2 sl (List.mem_finRange sl) p
    running picked
  have alloc : u.alloc = s.alloc := by rw [k]
  unfold resetStep
  rw [alloc, running]
  dsimp only
  rw [if_pos picked]
  exact resetSlot_fresh unmarked p

/-- A slot of the block that completes its run, RUNNING for its pair when the resets come, stands cold after them. -/
theorem resetEvent_fresh {o c x : State} (h : Counted o c) (count : countBlock x = c) {y : BlockSlot}
    (listed : (y.slot, y.pair) ∈ runsDone o) (running : c.alloc.slots[y.slot] = .running y.pair) :
    Fresh (resetEvent x) y.slot := by
  have swept := resetSlots_fresh
    (which := fun sl p => c.blk.clampDone.contains (sl, p) || c.blk.divDone.contains (pairBeam p)) h.resets running
    (by rw [h.clampDone]; simp [listed])
  rw [resetEvent_eq, count]
  unfold resetCounted
  generalize resetSlots (fun sl p => c.blk.clampDone.contains (sl, p) || c.blk.divDone.contains (pairBeam p)) c = u
    at swept ⊢
  have told := (clampBeams_told c.blk.clampDone u).trans (divergeBeams_told c.blk.divDone _)
  generalize (c.blk.divDone.foldl (fun s b => divergeBeam b s)
    (c.blk.clampDone.foldl (fun s x => clampBeam (pairBeam x.2) s) u)) = w at told ⊢
  obtain ⟨cold, record⟩ := swept
  constructor
  · show y.slot ∈ w.blk.cold
    rw [told.blk]
    exact cold
  · show w.ctl.slots[y.slot] = _
    rw [told.slots]
    exact record

/-! ### The events that move no slot of the pool -/

theorem countBlock_alloc (s : State) : (countBlock s).alloc = s.alloc := by
  unfold countBlock
  split
  · rfl
  · dsimp only
    rw [countBeams_frame, countSlots_frame]

theorem beamsTold_alloc (l : List (SlotId × PairId)) (m : List BeamId) (s : State) :
    (m.foldl (fun s b => divergeBeam b s) (l.foldl (fun s x => clampBeam (pairBeam x.2) s) s)).alloc = s.alloc := by
  have report : ∀ b u, (reportDiverged b u).alloc = u.alloc := fun b u => by
    rw [reportDiverged, (reportSource_reported .diverged _).eq]
  have clamp : ∀ b u, (clampBeam b u).alloc = u.alloc := fun b u => report b _
  have diverge : ∀ b u, (divergeBeam b u).alloc = u.alloc := fun b u => report b _
  have clamps : ∀ (l : List (SlotId × PairId)) u,
      (l.foldl (fun s x => clampBeam (pairBeam x.2) s) u).alloc = u.alloc := by
    intro l
    induction l with
    | nil => exact fun _ => rfl
    | cons x l ih => exact fun u => (ih _).trans (clamp _ u)
  have diverges : ∀ (m : List BeamId) u, (m.foldl (fun s b => divergeBeam b s) u).alloc = u.alloc := by
    intro m
    induction m with
    | nil => exact fun _ => rfl
    | cons b m ih => exact fun u => (ih _).trans (diverge _ u)
  exact (diverges m _).trans (clamps l s)

theorem resetEvent_alloc (s : State) : (resetEvent s).alloc = s.alloc := by
  have swept : ∀ which u, (resetSlots which u).alloc = u.alloc := fun which u => by rw [resetSlots_resetFrame which u]
  rw [resetEvent_eq]
  show (resetCounted (countBlock s)).alloc = s.alloc
  unfold resetCounted
  rw [beamsTold_alloc, swept, countBlock_alloc]

theorem degradeEvent_alloc (s : State) : (degradeEvent s).alloc = s.alloc := by
  have report : ∀ b u, (reportDegraded b u).alloc = u.alloc := fun b u => by
    rw [reportDegraded, (reportSource_reported .degraded _).eq]
  have one : ∀ limit u b, (degradeBeam limit u b).alloc = u.alloc := fun limit u b => by
    unfold degradeBeam
    dsimp only
    split
    · split
      · rw [report]
        split <;> rfl
      · split <;> rfl
    · rfl
  have all : ∀ limit (l : List BeamId) u, (l.foldl (degradeBeam limit) u).alloc = u.alloc := by
    intro limit l
    induction l with
    | nil => exact fun _ => rfl
    | cons b l ih => exact fun u => (ih _).trans (one limit u b)
  unfold degradeEvent
  split
  · rfl
  · exact all _ _ s

theorem clippingEvent_alloc (s : State) : (clippingEvent s).alloc = s.alloc := by
  unfold clippingEvent
  split
  · rw [(reportSource_reported .clipping _).eq]
  · rfl

theorem applySteer_alloc (s : State) : (applySteer s).alloc = s.alloc := by
  have all : ∀ (l : List SteerRec) u, (l.foldl (fun s r => applyRecord r s) u).alloc = u.alloc := by
    intro l
    induction l with
    | nil => exact fun _ => rfl
    | cons r l ih => exact fun u => (ih _).trans (applyRecord_done r u).1.frame.alloc
  unfold applySteer
  split
  · rfl
  · exact all _ _

/-- The pool's slots move with the activity states and the store port alone. -/
theorem quietEvent_alloc {e : BoundaryEvent} (other : e ∉ [.activity, .complete, .grant]) (s : State) :
    (quietEvent e s).alloc = s.alloc := by
  have live : ∀ {f : State → State}, (f s).alloc = s.alloc → (whileLive f s).alloc = s.alloc := fun k =>
    whileLive_of (P := (·.alloc = s.alloc)) rfl k
  cases e with
  | clipping => exact live (clippingEvent_alloc s)
  | counting => exact live (countBlock_alloc s)
  | resets => exact live (resetEvent_alloc s)
  | degrade => exact live (degradeEvent_alloc s)
  | suppress => exact live rfl
  | view => rfl
  | steer => exact applySteer_alloc s
  | command => rfl
  | reply => rfl
  | activity => exact absurd (by decide) other
  | complete => exact absurd (by decide) other
  | grant => exact absurd (by decide) other

theorem quietEvents_alloc {es : List BoundaryEvent} (other : ∀ e ∈ es, e ∉ [BoundaryEvent.activity, .complete, .grant])
    (s : State) : (quietEvents es s).alloc = s.alloc :=
  quietEvents_keep (P := (·.alloc = s.alloc)) rfl fun e he x same => (quietEvent_alloc (other e he) x).trans same

/-! ### The boundary -/

/-- A cold slot's record stands through the events after the resets (R86). -/
theorem quietEvent_fresh {o x : State} {sl : SlotId} {e : BoundaryEvent} (other : e ∉ [.resets, .complete, .grant])
    (come : ResetsCome o x) (cold : Fresh x sl) : Fresh (quietEvent e x) sl := by
  by_cases counting : e = .counting
  · subst counting
    exact whileLive_of (P := fun z => Fresh z sl) cold (by rw [countBlock_again come.counted]; exact cold)
  · simp only [List.mem_cons, List.not_mem_nil, or_false, not_or] at other
    obtain ⟨resets, complete, grant⟩ := other
    exact (quietEvent_taps (by simp [counting, resets, complete, grant]) x).fresh sl cold

/-- The resets make cold a slot that completes its run, if it is RUNNING for its pair when they come (R91). -/
theorem quietEvent_resets_fresh {o x : State} (live : o.blk.live = true) (distinct : (o.blk.slots.map (·.slot)).Nodup)
    (h : Uncounted o x ∨ Counted o x) {y : BlockSlot} (listed : (y.slot, y.pair) ∈ runsDone o)
    (running : x.alloc.slots[y.slot] = .running y.pair) : Fresh (quietEvent .resets x) y.slot := by
  have here : x.blk.live = true → quietEvent .resets x = resetEvent x := whileLive_live
  rcases h with h | h
  · rw [here (by rw [h.work.blk]; exact live)]
    exact resetEvent_fresh (h.count distinct) rfl listed (by rw [countBlock_alloc]; exact running)
  · rw [here (by rw [h.work.blk]; exact live)]
    exact resetEvent_fresh h (countBlock_again h.counted) listed running

/-- A slot of the block that completes its run and serves its pair after the boundary stands cold. -/
theorem worked_coldRun {order : List BoundaryEvent} {s : State} (complete : .complete ∉ order) (grant : .grant ∉ order)
    {y : BlockSlot} (hy : y ∈ (opened order s).blk.slots) (done : runComplete (opened order s) y = true)
    (running : (worked order s).alloc.slots[y.slot] = .running y.pair) : Fresh (worked order s) y.slot := by
  have o := opened_opening order s
  have so := opened_slotsOpened order s
  have start := uncounted_opened order s
  have listed : (y.slot, y.pair) ∈ runsDone (opened order s) :=
    List.mem_map.2 ⟨y, List.mem_filter.2 ⟨hy, done⟩, rfl⟩
  have own : (opened order s).alloc.slots[y.slot] = .running y.pair := by
    rw [o.alloc]
    exact (so.of_mem hy).1
  have apart : ∀ e ∈ eventOrder order, e ≠ .complete ∧ e ≠ .grant := fun e mem =>
    ⟨fun same => (mem_eventOrder mem).elim (same ▸ complete) (by rw [same]; decide),
      fun same => (mem_eventOrder mem).elim (same ▸ grant) (by rw [same]; decide)⟩
  have once := eventOrder_nodup order
  have mem := ownWork_mem_eventOrder order (e := .resets) (by decide)
  unfold worked at running ⊢
  generalize opened order s = u at *
  generalize eventOrder order = es at *
  obtain ⟨p, q, rfl⟩ := List.append_of_mem mem
  have unique := List.nodup_middle.1 once
  obtain ⟨-, pq⟩ := List.nodup_cons.1 unique
  have noResets : ∀ e, e ∈ p ∨ e ∈ q → e ≠ .resets := fun e he same =>
    (List.nodup_cons.1 unique).1 (List.mem_append.2 (same ▸ he))
  have inP : ∀ e ∈ p, e ∈ p ++ .resets :: q := fun e he => List.mem_append_left _ he
  have inQ : ∀ e ∈ q, e ∈ p ++ .resets :: q := fun e he => List.mem_append_right _ (List.mem_cons_of_mem _ he)
  have stage : Uncounted u (quietEvents p u) ∨ Counted u (quietEvents p u) :=
    quietEvents_keep (P := fun x => Uncounted u x ∨ Counted u x) (.inl start) fun e he x h =>
      quietEvent_counting o.live so.nodup (noResets e (.inl he)) h
  have come := quietEvent_resets o.live so.nodup stage
  rw [quietEvents_append] at running ⊢
  have moved : (quietEvents p u).alloc.slots[y.slot] = .running y.pair := by
    by_cases before : .activity ∈ p
    · have after : ∀ e ∈ q, e ∉ [BoundaryEvent.activity, .complete, .grant] := fun e he => by
        have activity : e ≠ .activity := fun same => List.disjoint_of_nodup_append pq before (same ▸ he)
        simp [activity, apart e (inQ e he)]
      rw [← quietEvent_alloc (e := .resets) (by decide), ← quietEvents_alloc after]
      exact running
    · have before : ∀ e ∈ p, e ∉ [BoundaryEvent.activity, .complete, .grant] := fun e he => by
        have activity : e ≠ .activity := fun same => before (same ▸ he)
        simp [activity, apart e (inP e he)]
      rw [quietEvents_alloc before]
      exact own
  refine (quietEvents_keep (P := fun x => ResetsCome u x ∧ Fresh x y.slot)
    ⟨come, quietEvent_resets_fresh o.live so.nodup stage listed moved⟩ fun e he x h => ?_).2
  have other := apart e (inQ e he)
  have resets := noResets e (.inr he)
  exact ⟨quietEvent_counts resets h.1, quietEvent_fresh (by simp [resets, other]) h.1 h.2⟩

end Sys2Proof.Machine
end

