-- ==== Sys2Proof/Proofs/LockedBlock.lean ====
section
/-! PROOF. What a LOCKED boundary that takes no command brings the references, the slots and the beams (O34). -/

namespace Sys2Proof.Machine

/-! ### The degrade watch of a beam (R96) -/

theorem degradeTime_on {code : Nat} (on : code ≠ 0) :
    degradeTime code = some (if code ≤ 15 then 250 else code * 16) := by
  unfold degradeTime
  rw [if_neg on]
  split <;> rfl

theorem countDegrade_above {limit threshold ctr : Nat} {erle : Int} {flag : Bool} (above : ¬ erle < (threshold : Int)) :
    countDegrade limit erle threshold ctr flag = (0, false, false) := if_neg above

theorem countDegrade_below {limit threshold ctr : Nat} {erle : Int} {flag : Bool} (below : erle < (threshold : Int))
    (short : ctr + 1 < limit) : countDegrade limit erle threshold ctr flag = (ctr + 1, flag, false) := by
  unfold countDegrade
  rw [if_pos below]
  dsimp only
  rw [if_neg (by omega)]

theorem countDegrade_reached {limit threshold ctr : Nat} {erle : Int} {flag : Bool} (below : erle < (threshold : Int))
    (long : limit ≤ ctr + 1) : countDegrade limit erle threshold ctr flag = (max limit ctr, true, !flag) := by
  unfold countDegrade
  rw [if_pos below]
  dsimp only
  rw [if_pos long, Nat.min_eq_left long]

/-! ### The sources (R156) -/

/-- The link has been LOCKED for the block and the two before it. -/
theorem lockedThree_eq (hist : List Bool) :
    lockedThree ((true :: hist).take 3) = decide (hist.take 2 = [true, true]) := by
  unfold lockedThree
  match hist with
  | [] => rfl
  | [a] => cases a <;> rfl
  | a :: c :: rest => cases a <;> cases c <;> simp

/-! ### The references and the slots -/

section Boundary

variable {order : List BoundaryEvent} {s : State}

/-- The activity states come to the references that are on, in RUNNING (R25). -/
theorem worked_activity (none : noCommandTaken order s) (locked : s.ports.arrayRx.lock = .locked) {r : RefId}
    (running : s.cmd.op = .running) (on : s.tracker.refs[r].mode ≠ .off) :
    ((worked order s).tracker.refs[r].activity, (worked order s).tracker.refs[r].linger) =
      decision s (worked order s).tracker.refs[r].level r := by
  have o := opened_opening order s
  have l := opened_locked none locked
  have level : (worked order s).tracker.refs[r].level = (opened order s).tracker.refs[r].level := by
    rw [(worked_work order s).refs r]
  rw [level, ← l.decided r]
  refine quietEvents_once (P := WorkKept (opened order s))
    (Q := fun x => (x.tracker.refs[r].activity, x.tracker.refs[r].linger) = (opened order s).blk.decided[r])
    (eventOrder_nodup order) (ownWork_mem_eventOrder order (e := .activity) (by decide)) (.refl _)
    (fun e _ _ x work => work.trans (quietEvent_work e x)) (fun x work => ?_)
    fun e _ other x done => by rw [quietEvent_tracker other]; exact done
  have live : x.blk.live = true := by rw [work.blk]; exact o.live
  have here : quietEvent .activity x = activityEvent x := whileLive_live live
  have applied : (activityEvent x).tracker.refs[r] = { x.tracker.refs[r] with
      activity := (handed x r).1, linger := (handed x r).2 } := by
    rw [(activityEvent_still x).tracker]
    exact getElem_ofFn_fin _ r
  have hand : handed x r = (opened order s).blk.decided[r] := by
    have blkOp : x.blk.op = .running := by rw [work.blk]; exact o.op.trans running
    have cmdOp : x.cmd.op = .running := by rw [work.cmd]; exact o.opState.trans running
    have refMode : x.blk.refModes[r] ≠ .off := by rw [work.blk]; exact (l.refModes r).trans_ne on
    have mode : x.tracker.refs[r].mode ≠ .off := by
      rw [work.refs r, o.refs r]
      exact on
    have decided : x.blk.decided = (opened order s).blk.decided := by rw [work.blk]
    unfold handed
    dsimp only
    rw [if_pos (by simp only [live, blkOp, cmdOp, Bool.and_eq_true, bne_iff_ne, beq_iff_eq]
                   exact ⟨⟨⟨⟨trivial, trivial⟩, trivial⟩, refMode⟩, mode⟩), decided]
  rw [here, applied, hand]

/-- What a slot holds for a block that it is RUNNING for (R57, R78). -/
def slotRecord (s : State) (sl : SlotId) : SlotId × PairId × Phase × Nat × Nat :=
  (sl, match s.alloc.slots[sl] with
    | .running p => p
    | .free => 0
    | .draining p _ _ => p, s.ctl.slots[sl].phase, s.ctl.slots[sl].counter, s.ctl.slots[sl].run)

/-- The slots of the block with what they hold for it (R57, R78). -/
theorem worked_slotRecords :
    ((worked order s).blk.slots.map fun x => (x.slot, x.pair, x.phase, x.counter, x.run)) =
      allSlots.filterMap (fun sl => match s.alloc.slots[sl] with
        | .running p => some (sl, p, s.ctl.slots[sl].phase, s.ctl.slots[sl].counter, s.ctl.slots[sl].run)
        | .free => none
        | .draining _ _ _ => none) := by
  have so := opened_slotsOpened order s
  have ofSlot : ∀ y : BlockSlot, (s.alloc.slots[y.slot] = .running y.pair ∧ y.phase = s.ctl.slots[y.slot].phase ∧
      y.counter = s.ctl.slots[y.slot].counter ∧ y.run = s.ctl.slots[y.slot].run) →
      (y.slot, y.pair, y.phase, y.counter, y.run) = slotRecord s y.slot := fun y h => by
    obtain ⟨running, phase, counter, run⟩ := h
    unfold slotRecord
    rw [running, phase, counter, run]
  have numbers : ∀ l : List BlockSlot, l.map (fun y => slotRecord s y.slot) =
      (l.map (·.slot)).map (slotRecord s) := fun l => by rw [List.map_map]; rfl
  rw [worked_slots, List.map_congr_left fun y hy => ofSlot y (so.of_mem hy), numbers, so.numbers, ← numbers]
  unfold slotsOfBlock
  rw [List.map_filterMap]
  refine List.filterMap_congr fun sl _ => ?_
  cases state : s.alloc.slots[sl] with
  | free => rfl
  | draining p tag q => rfl
  | running p =>
    unfold slotRecord
    simp only [Option.map_some, state]

/-- The counting of a slot, in the manual's words (R86 to R91). -/
theorem worked_slotCounted {y : BlockSlot} (hy : y ∈ (worked order s).blk.slots) :
    SlotCounted s (assembleOutput (worked order s)) y := by
  have o := opened_opening order s
  have work := worked_workOf order s (pairBeam y.pair)
  rw [worked_slots] at hy
  obtain ⟨phase, run⟩ := (worked_resets order s).slots y hy
  obtain ⟨-, phase₀, counter₀, run₀⟩ := (opened_slotsOpened order s).of_mem hy
  have erle : (worked order s).blk.work[pairBeam y.pair].erle = (opened order s).blk.work[pairBeam y.pair].erle := by
    rw [work]
  unfold countedPhase at phase
  unfold countedRun at run
  rw [o.blkTuning, ← erle, phase₀, counter₀] at phase
  rw [run₀] at run
  generalize worked order s = w at *
  constructor
  · intro free
    obtain ⟨ph, ctr⟩ := phase free
    refine ⟨fun not => ?_, fun yes => ?_⟩
    · rw [not] at ph ctr
      exact ⟨ph, ctr⟩
    · rw [yes] at ph ctr
      refine (Prod.ext ph ctr : _ = countPhase _ _ _ _).trans ?_
      have lower : (((trackErle s.cmd.tuning - min (trackHyst s.cmd.tuning) (trackErle s.cmd.tuning) : Nat)) : Int) =
          (trackErle s.cmd.tuning : Int) - (min (trackHyst s.cmd.tuning) (trackErle s.cmd.tuning) : Nat) := by omega
      unfold countPhase
      cases s.ctl.slots[y.slot].phase with
      | warmup => rfl
      | converging => rfl
      | tracking => rw [lower]; rfl
  · intro free
    refine (run free).trans ?_
    cases y.granted <;> rfl

/-- The grant of a slot of the block, its flag and its clamp run's end (R57, R83, R91). -/
theorem worked_slotGranted (none : noCommandTaken order s) (locked : s.ports.arrayRx.lock = .locked) {y : BlockSlot}
    (hy : y ∈ (worked order s).blk.slots) :
    y.granted = true ↔ (worked order s).blk.work[pairBeam y.pair].talk = .far ∧
      s.router.beams[pairBeam y.pair].frozen = false ∧ ∃ j : Fin 32, 0 < stepOf s.core.step y.phase j := by
  rw [worked_slots] at hy
  rw [worked_workOf order s (pairBeam y.pair)]
  exact (opened_locked none locked).granted y hy

theorem worked_slotFlag {y : BlockSlot} (hy : y ∈ (worked order s).blk.slots)
    (warm : y.slot ∉ (worked order s).blk.cold) (complete : .complete ∉ order) (grant : .grant ∉ order) :
    (worked order s).core.slots[y.slot].clamped = y.clamped := by
  rw [worked_slots] at hy
  rw [(worked_warm_slot complete grant warm).1]
  exact (opened_slotsOpened order s).flag hy

/-- The end of a clamp run, in the manual's words (R91). -/
theorem runComplete_eq (o : State) : runComplete o = runCompletes (clampLimit o.blk.tuning) := by
  funext y
  unfold runComplete runCompletes countRun
  cases y.granted <;> cases y.clamped <;> rfl

theorem worked_slotCold {y : BlockSlot} (hy : y ∈ (worked order s).blk.slots)
    (done : runCompletes (clampLimit s.cmd.tuning) y = true)
    (running : (worked order s).alloc.slots[y.slot] = .running y.pair) (complete : .complete ∉ order)
    (grant : .grant ∉ order) : Fresh (worked order s) y.slot := by
  rw [worked_slots] at hy
  refine worked_coldRun complete grant hy ?_ running
  rw [runComplete_eq, (opened_opening order s).blkTuning]
  exact done

/-! ### The beams -/

/-- The divergence counting reaches a beam (R92). -/
abbrev BeamCounted (s w : State) (b : BeamId) : Prop :=
  w.ctl.beams[b].talk = .far ∧ s.router.beams[b].frozen = false

/-- The divergence counter that a counted block brings a beam (R92). -/
def divergenceRun (s w : State) (b : BeamId) : Nat :=
  if w.blk.work[b].mic + divMargin s.cmd.tuning < w.blk.work[b].res then s.ctl.beams[b].divCtr + 1 else 0

/-- The number of clamp runs of a beam that the block completes (R91). -/
def runsCompleted (s w : State) (b : BeamId) : Nat :=
  (w.blk.slots.filter fun x => pairBeam x.pair == b && runCompletes (clampLimit s.cmd.tuning) x).length

/-- What no event moves of a beam's record. -/
theorem worked_beam (b : BeamId) :
    (worked order s).ctl.beams[b].noise = (opened order s).ctl.beams[b].noise ∧
    (worked order s).ctl.beams[b].rise = (opened order s).ctl.beams[b].rise ∧
    (worked order s).ctl.beams[b].talk = (opened order s).ctl.beams[b].talk ∧
    (worked order s).ctl.beams[b].hangCtr = (opened order s).ctl.beams[b].hangCtr := by
  have kept := (worked_work order s).beams b
  generalize worked order s = w at *
  exact ⟨congrArg (·.noise) kept, congrArg (·.rise) kept, congrArg (·.talk) kept, congrArg (·.hangCtr) kept⟩

theorem worked_micLu (b : BeamId) : (worked order s).core.micLu[b] = (worked order s).blk.work[b].mic := by
  rw [worked_core, worked_workOf]
  exact (opened_opening order s).micLu b

section Locked

variable (none : noCommandTaken order s) (locked : s.ports.arrayRx.lock = .locked) (b : BeamId)
include none locked

/-- Far-end presence (R79). -/
theorem worked_far : (worked order s).blk.work[b].far = true ↔ ∃ (sl : SlotId) (p : PairId),
    s.alloc.slots[sl] = .running p ∧ pairBeam p = b ∧ (worked order s).blk.decided[pairRef p].1 = .active := by
  have decided : (worked order s).blk.decided = (opened order s).blk.decided := by rw [(worked_work order s).blk]
  rw [worked_workOf, decided]
  refine (Bool.eq_iff_iff.1 ((opened_locked none locked).beams b).far).trans ?_
  unfold farEnd
  rw [List.any_eq_true]
  constructor
  · rintro ⟨x, hx, e⟩
    simp only [Bool.and_eq_true, beq_iff_eq] at e
    exact ⟨x.slot, x.pair, (mem_slotsOfBlock.1 hx).1, e.1, e.2⟩
  · rintro ⟨sl, p, running, beam, active⟩
    refine ⟨_, mem_slotsOfBlock (x := ⟨sl, p, false, s.ctl.slots[sl].phase, s.ctl.slots[sl].counter,
      s.ctl.slots[sl].run, false⟩) |>.2 ⟨running, rfl⟩, ?_⟩
    simp only [Bool.and_eq_true, beq_iff_eq]
    exact ⟨beam, active⟩

/-- Near-end presence (R80). -/
theorem worked_near : (worked order s).blk.work[b].near = true ↔
    (dtArm s.cmd.tuning : Int) ≤ s.ctl.beams[b].erle ∧
    (∀ (sl : SlotId) (p : PairId), s.alloc.slots[sl] = .running p → pairBeam p = b →
      s.ctl.slots[sl].phase ≠ .warmup) ∧
    (worked order s).blk.work[b].echo + dtMargin s.cmd.tuning ≤ (worked order s).blk.work[b].mic ∧
    s.ctl.beams[b].noise + presenceMargin s.cmd.tuning ≤ (worked order s).blk.work[b].mic := by
  have armed : noneWarm (slotsOfBlock s) b = true ↔ ∀ (sl : SlotId) (p : PairId), s.alloc.slots[sl] = .running p →
      pairBeam p = b → s.ctl.slots[sl].phase ≠ .warmup := by
    unfold noneWarm
    rw [List.all_eq_true]
    constructor
    · intro all sl p running beam
      have own := all _ (mem_slotsOfBlock (x := ⟨sl, p, false, s.ctl.slots[sl].phase, s.ctl.slots[sl].counter,
        s.ctl.slots[sl].run, false⟩) |>.2 ⟨running, rfl⟩)
      simpa [beam] using own
    · intro all x hx
      obtain ⟨running, record⟩ := mem_slotsOfBlock.1 hx
      have phase : x.phase = s.ctl.slots[x.slot].phase := congrArg (·.phase) record
      rw [Bool.or_eq_true, bne_iff_ne, bne_iff_ne, phase]
      exact or_iff_not_imp_left.2 fun beam => all _ _ running (not_not.1 beam)
  rw [worked_workOf]
  refine (Bool.eq_iff_iff.1 ((opened_locked none locked).beams b).near).trans ?_
  unfold nearEnd
  simp only [Bool.and_eq_true, decide_eq_true_eq, armed, and_assoc]

/-- The noise floor's rise (R50). -/
theorem worked_rose : b ∈ (worked order s).blk.rose ↔ s.ctl.beams[b].noise ≤ (worked order s).core.micLu[b] ∧
    noiseRise s.cmd.tuning ≤ s.ctl.beams[b].rise + 1 := by
  have rose : (worked order s).blk.rose = (opened order s).blk.rose := by rw [(worked_work order s).blk]
  rw [rose, worked_micLu, worked_workOf]
  refine ((opened_locked none locked).beams b).rose.trans ?_
  unfold floorRises
  simp only [Bool.and_eq_true, decide_eq_true_eq]

/-- The noise floor (R50). -/
theorem worked_floor : ((worked order s).ctl.beams[b].noise, (worked order s).ctl.beams[b].rise) =
    floorStep s.ctl.beams[b].noise s.ctl.beams[b].rise (worked order s).core.micLu[b] (noiseRise s.cmd.tuning) := by
  obtain ⟨noise, rise, -, -⟩ := worked_beam (order := order) (s := s) b
  rw [noise, rise, worked_micLu, worked_workOf, ((opened_locked none locked).beams b).record]
  rfl

/-- The double-talk state (R81). -/
theorem worked_talk : ((worked order s).ctl.beams[b].talk, (worked order s).ctl.beams[b].hangCtr) =
    nextTalk s.ctl.beams[b].talk s.ctl.beams[b].hangCtr (worked order s).blk.work[b].far
      (worked order s).blk.work[b].near (hangoverTime s.cmd.tuning) := by
  obtain ⟨-, -, talk, hang⟩ := worked_beam (order := order) (s := s) b
  rw [talk, hang, worked_workOf, ((opened_locked none locked).beams b).record]
  rfl

/-- The state and the estimate handed on for the block (R81, R84). -/
theorem worked_handed : (worked order s).blk.work[b].talk = (worked order s).ctl.beams[b].talk ∧
    (worked order s).blk.work[b].erle = if (worked order s).ctl.beams[b].talk = .far
      then erleStep s.ctl.beams[b].erle (worked order s).blk.work[b].mic (worked order s).blk.work[b].res
        (erleShift s.cmd.tuning)
      else s.ctl.beams[b].erle := by
  obtain ⟨-, -, talk, -⟩ := worked_beam (order := order) (s := s) b
  have c := (opened_locked none locked).beams b
  rw [talk, worked_workOf]
  refine ⟨c.talk, c.erle.trans ?_⟩
  rw [c.record]
  rfl

/-- The counting reaches the beam where the block's work says so (R92). -/
theorem worked_counted_iff : divergenceCounted (opened order s).blk.work[b] = true ↔ BeamCounted s (worked order s) b := by
  obtain ⟨-, -, talk, -⟩ := worked_beam (order := order) (s := s) b
  have o := opened_opening order s
  unfold divergenceCounted BeamCounted
  rw [talk, ((opened_locked none locked).beams b).talk, o.frozen b, Bool.and_eq_true, beq_iff_eq, Bool.not_eq_true']

theorem worked_divergenceCtr : divergenceCtr (opened order s) b = divergenceRun s (worked order s) b := by
  unfold divergenceCtr countDivergence divergenceRun
  rw [(opened_opening order s).blkTuning, ((opened_locked none locked).beams b).divCtr, worked_workOf]

/-- The beams whose divergence counters reach the limit (R93). -/
theorem worked_divsDone : b ∈ divsDone (opened order s) ↔ BeamCounted s (worked order s) b ∧
    divLimit s.cmd.tuning ≤ divergenceRun s (worked order s) b := by
  unfold divsDone
  rw [List.mem_filter, divergenceReached, Bool.and_eq_true, decide_eq_true_eq, (opened_opening order s).blkTuning,
    worked_divergenceCtr none locked, worked_counted_iff none locked]
  exact and_iff_right (List.mem_finRange b)

theorem worked_diverged : b ∈ (worked order s).blk.diverged ↔ BeamCounted s (worked order s) b ∧
    divLimit s.cmd.tuning ≤ divergenceRun s (worked order s) b :=
  ((worked_resets order s).diverged b).trans (worked_divsDone none locked b)

omit none locked in
theorem worked_runsOf : runsOf (opened order s) b = runsCompleted s (worked order s) b := by
  unfold runsOf runsDone runsCompleted
  rw [List.filter_map, List.length_map, List.filter_filter, runComplete_eq, (opened_opening order s).blkTuning,
    worked_slots]
  rfl

/-- The estimate, the divergence counter and the divergence count after the block's counting and resets (R91 to
R93). -/
theorem worked_tally : ((worked order s).ctl.beams[b].erle, (worked order s).ctl.beams[b].divCtr,
      (worked order s).ctl.beams[b].divCount) =
    if BeamCounted s (worked order s) b ∧ divLimit s.cmd.tuning ≤ divergenceRun s (worked order s) b
    then (0, 0, bump s.ctl.beams[b].divCount (runsCompleted s (worked order s) b + 1))
    else ((worked order s).blk.work[b].erle,
      if BeamCounted s (worked order s) b then divergenceRun s (worked order s) b else s.ctl.beams[b].divCtr,
      bump s.ctl.beams[b].divCount (runsCompleted s (worked order s) b)) := by
  have c := (opened_locked none locked).beams b
  have tally := (worked_resets order s).beams b
  have count : (opened order s).ctl.beams[b].divCount = s.ctl.beams[b].divCount := congrArg (·.divCount) c.record
  have ctr : (opened order s).ctl.beams[b].divCtr = s.ctl.beams[b].divCtr := congrArg (·.divCtr) c.record
  have erle : (worked order s).blk.work[b].erle = (opened order s).ctl.beams[b].erle := by
    rw [worked_workOf]
    exact c.erle
  unfold countedCtr at tally
  rw [worked_runsOf, count, ctr, ← erle, worked_divergenceCtr none locked] at tally
  simp only [worked_divsDone none locked, worked_counted_iff none locked] at tally
  exact tally

/-- A divergence and a completed clamp run are reported of the beam (R91, R93). -/
theorem worked_told (some : (BeamCounted s (worked order s) b ∧
      divLimit s.cmd.tuning ≤ divergenceRun s (worked order s) b) ∨ 0 < runsCompleted s (worked order s) b) :
    DivergenceTold (worked order s) b := by
  refine (worked_resets order s).told b (some.imp (worked_divsDone none locked b).2 fun runs => ?_)
  rw [worked_runsOf]
  exact runs

/-- The degrade watch of a beam, in the manual's words (R96). -/
theorem worked_watch :
    let u := s.cmd.tuning
    let c := s.ctl.beams[b]
    let d := (worked order s).ctl.beams[b]
    let t := worked order s
    let code := degradeCode u
    let limit := if code ≤ 15 then 250 else code * 16
    let below := t.blk.work[b].erle < (s.ctl.thresholds[b.val].toNat : Int)
    (d.talk ≠ .far ∨ code = 0 → d.degCtr = c.degCtr ∧ d.degraded = c.degraded) ∧
    (d.talk = .far → code ≠ 0 → ¬ below → d.degCtr = 0 ∧ d.degraded = false) ∧
    (d.talk = .far → code ≠ 0 → below → c.degCtr + 1 < limit →
      d.degCtr = c.degCtr + 1 ∧ d.degraded = c.degraded) ∧
    (d.talk = .far → code ≠ 0 → below → limit ≤ c.degCtr + 1 →
      d.degCtr = max limit c.degCtr ∧ d.degraded = true ∧
      (c.degraded = false → t.ev.degraded.getLsbD b.val = true ∧ t.ev.status.getLsbD 5 = true)) := by
  have o := opened_opening order s
  have c := (opened_locked none locked).beams b
  obtain ⟨record, told⟩ := worked_watched order s b
  have erle : (opened order s).blk.work[b].erle = (worked order s).blk.work[b].erle := by rw [worked_workOf order s b]
  have talk : (opened order s).blk.work[b].talk = (worked order s).ctl.beams[b].talk := by
    rw [← (worked_handed none locked b).1, worked_workOf order s b]
  have ctr : (opened order s).ctl.beams[b].degCtr = s.ctl.beams[b].degCtr := congrArg (·.degCtr) c.record
  have flag : (opened order s).ctl.beams[b].degraded = s.ctl.beams[b].degraded := congrArg (·.degraded) c.record
  unfold watched at record told
  rw [o.blkTuning, o.blkThresholds, erle, talk, ctr, flag, c.degCtr, c.degraded] at record told
  generalize worked order s = t at *
  obtain ⟨degCtr, degraded⟩ := Prod.ext_iff.1 record
  change t.ctl.beams[b].degCtr = _ at degCtr
  change t.ctl.beams[b].degraded = _ at degraded
  dsimp only
  rw [degCtr, degraded]
  by_cases off : degradeCode s.cmd.tuning = 0
  · have none : degradeTime (degradeCode s.cmd.tuning) = .none := if_pos off
    rw [none]
    exact ⟨fun _ => ⟨rfl, rfl⟩, fun _ on => absurd off on, fun _ on => absurd off on, fun _ on => absurd off on⟩
  · rw [degradeTime_on off] at told ⊢
    dsimp only at told ⊢
    by_cases far : t.ctl.beams[b].talk = .far
    · rw [if_pos (by simpa using far)] at told ⊢
      refine ⟨fun e => absurd e (not_or.2 ⟨not_not.2 far, off⟩), fun _ _ above => ?_, fun _ _ below short => ?_,
        fun _ _ below long => ?_⟩
      · rw [countDegrade_above above]
        exact ⟨rfl, rfl⟩
      · rw [countDegrade_below below short]
        exact ⟨rfl, rfl⟩
      · rw [countDegrade_reached below long] at told ⊢
        exact ⟨rfl, rfl, fun clear => told (by rw [clear]; rfl)⟩
    · rw [if_neg (by simpa using far)]
      exact ⟨fun _ => ⟨rfl, rfl⟩, fun e => absurd e far, fun e => absurd e far, fun e => absurd e far⟩

/-- The double-talk state, in the manual's words (R81). -/
theorem worked_talk_eq :
    let c := s.ctl.beams[b]
    let d := (worked order s).ctl.beams[b]
    let w := (worked order s).blk.work[b]
    let given : Talk := if w.far = true then .far else if w.near = true then .near else .idle
    (d.talk, d.hangCtr) =
      if w.far = true ∧ w.near = true then (.double, if c.talk = .hangover then 0 else c.hangCtr)
      else match c.talk with
        | .idle | .far | .near => (given, c.hangCtr)
        | .double => if hangoverTime s.cmd.tuning = 0 then (given, 0) else (.hangover, hangoverTime s.cmd.tuning)
        | .hangover => if c.hangCtr ≤ 1 then (given, 0) else (.hangover, c.hangCtr - 1) := by
  dsimp only
  rw [worked_talk none locked b]
  generalize (worked order s).blk.work[b].far = far
  generalize (worked order s).blk.work[b].near = near
  unfold nextTalk flagGiven
  cases far with
  | false => cases near <;> cases s.ctl.beams[b].talk <;> rfl
  | true => cases near <;> cases s.ctl.beams[b].talk <;> rfl

/-- The divergence count (R91, R93). -/
theorem worked_divCount :
    let added := runsCompleted s (worked order s) b +
      if BeamCounted s (worked order s) b ∧ divLimit s.cmd.tuning ≤ divergenceRun s (worked order s) b then 1 else 0
    (worked order s).ctl.beams[b].divCount =
      if added = 0 then s.ctl.beams[b].divCount else min 255 (s.ctl.beams[b].divCount + added) := by
  have tally := worked_tally none locked b
  split at tally
  · next reached => rw [if_pos reached]; exact congrArg (·.2.2) tally
  · next not => rw [if_neg not, Nat.add_zero]; exact congrArg (·.2.2) tally

omit none in
/-- The source of a cleaned-beam slot of the next block (R156). -/
theorem worked_source : (assembleOutput (worked order s)).out.current.sources[b] =
    if s.out.lockHist.take 2 = [true, true] then
      match s.cmd.op, s.router.beams[b].mode with
      | .config, _ => .bypass
      | .running, .cancel => .synthesis
      | .running, .bypass => .bypass
      | .running, .mute => .zero
    else .zero := by
  have blkOp : (worked order s).blk.op = s.cmd.op := by
    rw [(worked_work order s).blk]
    exact (opened_opening order s).op
  have beams : (worked order s).blk.beams = s.router.beams := by
    rw [(worked_work order s).blk]
    exact (opened_opening order s).beams
  have lock : (s.ports.arrayRx.lock == .locked) = true := by rw [locked]; rfl
  rw [assembleOutput_source, worked_lockHist, blkOp, beams, lock]
  unfold chooseSource
  rw [lockedThree_eq]
  by_cases all : s.out.lockHist.take 2 = [true, true]
  · rw [if_pos (by simpa using all), if_pos all]
    cases s.cmd.op with
    | config => rfl
    | running => cases s.router.beams[b].mode <;> rfl
  · rw [if_neg (by simpa using all), if_neg all]

end Locked

end Boundary

/-- Settles O34: the opening's decisions, and the counting, the resets and the degrade watch, each once. -/
theorem boundaryLocked : Obligations.BoundaryLocked := by
  unfold Obligations.BoundaryLocked
  intro order s due none locked
  refine ⟨_, blockBoundary_untaken due none, ?_⟩
  rw [assembleOutput_tracker, assembleOutput_blk, assembleOutput_core, assembleOutput_ctl, assembleOutput_alloc,
    assembleOutput_ev]
  refine ⟨fun r running on => ?_, worked_slotRecords, fun x hx => ?_, assembleOutput_index _, fun b => ?_⟩
  · rw [worked_activity none locked running on]
    exact decision_eq _ running on
  · refine ⟨worked_slotGranted none locked hx, fun not => ?_, worked_slotFlag hx, worked_slotCounted hx,
      fun done running complete grant => worked_slotCold hx done running complete grant⟩
    rw [worked_slots] at hx
    exact (opened_slotsOpened order s).still x hx not
  · have handed := worked_handed none locked b
    have tally := worked_tally none locked b
    obtain ⟨idle, above, below, reached⟩ := worked_watch none locked b
    refine ⟨worked_far none locked b, worked_near none locked b, worked_rose none locked b, worked_diverged none locked b,
      worked_floor none locked b, worked_talk_eq none locked b, ⟨worked_divCount none locked b,
      fun runs => worked_told none locked b (.inr runs)⟩, handed.1, fun not => ?_, fun far => ?_, fun counted short => ?_, fun counted long => ?_, fun far frozen => ?_,
      fun _ off => idle (.inr off), above, below, reached, worked_source locked b⟩
    · have uncounted : ¬ BeamCounted s (worked order s) b := fun e => not e.1
      rw [if_neg fun e => uncounted e.1, if_neg uncounted] at tally
      obtain ⟨degCtr, degraded⟩ := idle (.inl not)
      have erle := handed.2.trans (if_neg not)
      exact ⟨erle, (congrArg (·.1) tally).trans erle, congrArg (·.2.1) tally, degCtr, degraded⟩
    · exact handed.2.trans (if_pos far)
    · rw [if_neg fun e => absurd e.2 (Nat.not_le.2 short), if_pos counted] at tally
      exact ⟨congrArg (·.2.1) tally, congrArg (·.1) tally⟩
    · rw [if_pos ⟨counted, long⟩] at tally
      exact ⟨congrArg (·.2.1) tally, congrArg (·.1) tally, worked_told none locked b (.inl ⟨counted, long⟩)⟩
    · have uncounted : ¬ BeamCounted s (worked order s) b := fun e => by
        rw [e.2] at frozen
        cases frozen
      rw [if_neg fun e => uncounted e.1, if_neg uncounted] at tally
      exact ⟨congrArg (·.2.1) tally, congrArg (·.1) tally⟩

end Sys2Proof.Machine
end
